-- ==== Sys2Proof/Word.lean ====
section
/-! DEFINITION. The word of every link of the part: 32 bits, bit 31 most significant (spec/12_wire_formats.md). -/

namespace Sys2Proof

/-- A word as it crosses the part's boundary (spec/12_wire_formats.md, opening paragraph). -/
abbrev Word := BitVec 32

/-- An octet of the command link; four octets make a word, the first the most significant. -/
abbrev Octet := BitVec 8

end Sys2Proof
end

