-- ==== Sys2Proof/Syntax.lean ====
section
/-! DEFINITION. The commands of the part: one constructor per row of spec/opcode_table.json, with the operands that the row's
rule gives it. A frame arrives as one command carrying its content, since no row delivers a single word or octet
(notes/assumptions/4.md). -/

namespace Sys2Proof

/-- The tag a host gives a command frame, 0..4095 (spec/12_wire_formats.md). -/
abbrev Tag := BitVec 12

/-- The two ways the CONFIGURE row is taken. Its pairs are applied one after another and other arrivals may be taken
between two pairs (R189), so one command of the row applies at most `upTo` pairs: `frame` is the complete frame, `resume` goes on
with the outstanding CONFIGURE (notes/assumptions/6.md). -/
inductive ConfigureOp where
  /-- The complete CONFIGURE frame: its tag, its setting–value pairs, and how many pairs this step applies at most. -/
  | frame (tag : Tag) (pairs : List (Word × Word)) (upTo : Nat)
  /-- The next `upTo` pairs of the outstanding CONFIGURE. -/
  | resume (upTo : Nat)
deriving DecidableEq, Repr

/-- The commands. A constructor's docstring names the rule of its row. -/
inductive Instr where
  /-- POWER_UP (R186). -/
  | powerUp
  /-- RESET_LINE_ASSERTED (R186). -/
  | resetLineAsserted
  /-- RESET_LINE_RELEASED (R186): released, or first found released after power-up. -/
  | resetLineReleased
  /-- ZERO_FILL_END (R64). -/
  | zeroFillEnd
  /-- TIME_ADVANCE (R1): one tick. -/
  | timeAdvance
  /-- ORBIT_PULSE (R4). -/
  | orbitPulse
  /-- CLOSE_OR_DEADLINE_REACHED (R109). -/
  | closeOrDeadlineReached
  /-- LAST_ACCEPTED_STAMP_FORGOTTEN (R19). -/
  | lastAcceptedStampForgotten
  /-- RETAINED_HEAD_AGED (R61). -/
  | retainedHeadAged
  /-- LINE_TRIGGER_REQUEST (R17): line `l` is sampled at the present tick and found at `level`. -/
  | lineTriggerRequest (l : Fin 4) (level : Bool)
  /-- PAD_ALIGNMENT_GAINED (R31) on pad link `src`. -/
  | padAlignmentGained (src : Fin 24)
  /-- PAD_ALIGNMENT_LOST (R31). -/
  | padAlignmentLost (src : Fin 24)
  /-- PAD_FRAME_ABANDONED (R31): a start delimiter. -/
  | padFrameAbandoned (src : Fin 24)
  /-- PAD_FRAME_COMPLETE (R33): an end delimiter, with the words since the start delimiter. -/
  | padFrameComplete (src : Fin 24) (words : List Word)
  /-- SILENCE_REPORT (R102). -/
  | silenceReport (src : Fin 24)
  /-- DISTRIBUTOR_TAKE_PULSE (R46). `visits` is how many claim visits fall between the distributor's choice and its
  placement (R59; notes/assumptions/5.md); 0 for none. -/
  | distributorTakePulse (visits : Nat)
  /-- PLACEMENT_RETRY (R59). -/
  | placementRetry
  /-- DISTRIBUTOR_TAKE_MARK (R49). -/
  | distributorTakeMark
  /-- CLAIM_VISIT (R90). -/
  | claimVisit
  /-- RELEASE_START (R117). -/
  | releaseStart
  /-- STREAM_WORD_WRITE (R128). -/
  | streamWordWrite
  /-- DATA_LINK_UNIT_SEND (R137). -/
  | dataLinkUnitSend
  /-- HOLD_ASSERTED (R138). -/
  | holdAsserted
  /-- HOLD_RELEASED (R138). -/
  | holdReleased
  /-- COMMAND_ALIGNMENT_GAINED (R175). -/
  | commandAlignmentGained
  /-- COMMAND_ALIGNMENT_LOST (R175). -/
  | commandAlignmentLost
  /-- COMMAND_FRAME_ABANDONED (R175): a start delimiter. -/
  | commandFrameAbandoned
  /-- COMMAND_FRAME (R177): an end delimiter, with the octets since the start delimiter. -/
  | commandFrame (octets : List Octet)
  /-- REPLY_SENT (R179). -/
  | replySent
  /-- IDENTIFY (R192). -/
  | identify (tag : Tag)
  /-- STATUS (R172). -/
  | status (tag : Tag)
  /-- CONFIGURE (R189). -/
  | configure (op : ConfigureOp)
  /-- READ_SETTINGS (R193). -/
  | readSettings (tag : Tag)
  /-- SET_TIME (R6): the orbit number, a whole word. -/
  | setTime (tag : Tag) (orbit : Word)
  /-- START (R182). -/
  | start (tag : Tag)
  /-- STOP (R183). -/
  | stop (tag : Tag)
  /-- ABORT (R184). -/
  | abort (tag : Tag)
  /-- RESET (R185). -/
  | reset (tag : Tag)
  /-- SOFT_TRIGGER (R18): the class word, and the stamp word when present. -/
  | softTrigger (tag : Tag) (cls : Word) (stamp : Option Word)
  /-- SOURCE_CONTROL_ENABLE (R100): the source field. -/
  | sourceControlEnable (tag : Tag) (src : BitVec 8)
  /-- SOURCE_CONTROL_DISABLE (R101). -/
  | sourceControlDisable (tag : Tag) (src : BitVec 8)
  /-- SOURCE_CONTROL_RESET (R50). -/
  | sourceControlReset (tag : Tag) (src : BitVec 8)
  /-- SOURCE_CONTROL_SET_MODE (R40): the source and mode fields. -/
  | sourceControlSetMode (tag : Tag) (src : BitVec 8) (mode : BitVec 8)
  /-- INJECT (R41): the source word and the frame words without a check word. -/
  | inject (tag : Tag) (src : Word) (body : List Word)
  /-- CLEAR_CONDITIONS (R170): the condition codes, a word each. -/
  | clearConditions (tag : Tag) (codes : List Word)
  /-- READ_COUNTERS (R194): all ones for GLOBAL, otherwise a source number. -/
  | readCounters (tag : Tag) (group : Word)
  /-- READ_CONTEXTS (R96). -/
  | readContexts (tag : Tag)
  /-- TAKE (R145). -/
  | take (tag : Tag)
  /-- DISCARD (R146). -/
  | discard (tag : Tag)
  /-- SPY_TAKE (R160). -/
  | spyTake (tag : Tag)
  /-- PAD_FRAME_BEGINS (R31): a start delimiter. -/
  | padFrameBegins (src : Fin 24)
  /-- COMMAND_FRAME_BEGINS (R175): a start delimiter. -/
  | commandFrameBegins
deriving DecidableEq, Repr

end Sys2Proof
end

