-- ==== Sys2Proof/Decode.lean ====
section
/-! DEFINITION. The block has no instruction decoder, and no row of spec/opcode_table.json gives bits: a number spells no
command. (A command frame's octets are decoded by the command link interface, Machine/CommandLink.lean.) -/

namespace Sys2Proof

/-- The command that a word spells by the table's bits. The table gives no row any bits, so no word spells one. -/
def decodeTableWord (_nbits _w : Nat) : Option Instr := none

end Sys2Proof
end

