-- ==== Sys2Proof/Config.lean ====
section
/-! DEFINITION. The fixed sizes and limits of the part. The spec leaves no value of the part to the implementation, so this
file holds no free value: every constant below is a number that spec/ states. -/

namespace Sys2Proof.Config

/-- Orbit numbers are 0..1,048,575 (R1). -/
abbrev orbits : Nat := 1048576
/-- The largest value of every counter (spec/00_scope.md, Counters). -/
abbrev counterMax : Nat := 4294967295
/-- Entries a staging queue can hold (R42). -/
abbrev stagingCap : Nat := 16
/-- References a context can hold (R79). -/
abbrev refsCap : Nat := 1024
/-- Triggers a context can hold (R74). -/
abbrev triggersCap : Nat := 4
/-- Words the stream buffer can hold (R136). -/
abbrev streamCap : Nat := 4096
/-- Words the readout queue can hold (R143). -/
abbrev readoutCap : Nat := 16384
/-- Entries the spy queue can hold (R159). -/
abbrev spyCap : Nat := 32
/-- Replies the reply queue can hold (R179). -/
abbrev replyCap : Nat := 8
/-- Words one TAKE returns at most (R145). -/
abbrev takeWords : Nat := 64
/-- The clamp of a context's charge total (R82). -/
abbrev chargeTotalMax : Nat := 16777215
/-- The clamp of a context's lost count (R81). -/
abbrev lostMax : Nat := 65535
/-- Ticks after which the last accepted stamp is forgotten (R19). -/
abbrev forgetTicks : Nat := 16777216
/-- Event numbers run modulo this (R71). -/
abbrev eventNumbers : Nat := 4294967296
/-- Pool entries, written one per tick by the zero-fill (R64). -/
abbrev poolEntries : Nat := 4096
/-- The largest body of a frame, in words (R181). -/
abbrev bodyMax : Nat := 255

end Sys2Proof.Config
end

