-- ==== Sys2Proof/Machine/State.lean ====
section
/-! DEFINITION. The state of the part, block by block as spec/00_scope.md lists the blocks, as plain data, and the state right
after reset. INVENTORY.md gives each field's rule. Output lines (BUSY, READY, ALERT) and state conditions follow from this state
(Machine/Flags.lean), since the spec gives them no state of their own. -/

namespace Sys2Proof.Machine

/-- Why the part stops with a fault. The spec names no behaviour of this part that stops it, so there is none. -/
inductive Fault where
deriving DecidableEq, Repr

/-- Why a command has no meaning here. -/
inductive Refusal where
  /-- A command whose meaning is not written. Raised by an arm of Machine/Dispatch.lean only; no arm raises it now. Safe: the
  run stops there. -/
  | notModelled (mnemonic : String)
deriving DecidableEq, Repr

/-- The run states (spec/11_command_link_settings_and_run_control.md, Run states). -/
inductive RunState where
  | init | idle | running | draining
deriving DecidableEq, Repr

/-- A stamp: orbit 0..1,048,575 and bunch crossing 0..OL−1 (R1). -/
structure Stamp where
  orbit : Nat
  bc : Nat
deriving DecidableEq, Repr

/-- Framing states of a link receiver (R31) and of the inbound command receiver (R175). -/
inductive Framing where
  | hunting | between | inFrame
deriving DecidableEq, Repr

/-- Source mode (R40). -/
inductive SourceMode where
  | link | inject
deriving DecidableEq, Repr

/-- Standing of a source (R99). -/
inductive Standing where
  | disabled | active | lagging | down
deriving DecidableEq, Repr

/-- Origin of a trigger: LINE0..LINE3 or SOFT (R17, R18). -/
inductive Origin where
  | line (l : Fin 4)
  | soft
deriving DecidableEq, Repr

/-- Time mode (R3). -/
inductive TimeMode where
  | free | locked
deriving DecidableEq, Repr

/-- Full-table policy of a class (R24). -/
inductive FullPolicy where
  | merge | refuse
deriving DecidableEq, Repr

/-- Edge selection of a trigger line (R17). -/
inductive EdgeSelect where
  | off | rising | falling | both
deriving DecidableEq, Repr

/-- Point of a capture monitor (R151). -/
inductive MonitorPoint where
  | atArrival | atRelease
deriving DecidableEq, Repr

/-- Action of a capture monitor (R151). -/
inductive MonitorAction where
  | copy | mark | count
deriving DecidableEq, Repr

/-- A subset of {STREAM, POLL} (R135). -/
structure Route where
  stream : Bool
  poll : Bool
deriving DecidableEq, Repr

/-- The eight settings of one capture monitor (R151). Sets are bit sets (spec/12_wire_formats.md). -/
structure MonitorSettings where
  enable : Bool
  point : MonitorPoint
  sources : BitVec 24
  rowLo : Nat
  rowHi : Nat
  padLo : Nat
  padHi : Nat
  flags : BitVec 5
  threshold : Nat
  action : MonitorAction
deriving DecidableEq, Repr

/-- The settings table (R188). The source modes stand with their sources. -/
structure Settings where
  ol : Nat
  timeMode : TimeMode
  offset : Vector Int 8
  length : Vector Nat 8
  fullPolicy : Vector FullPolicy 8
  route : Vector Route 8
  edge : Vector EdgeSelect 4
  cls : Vector (Fin 8) 4
  holdOff : Nat
  coalesce : Nat
  grace : Nat
  retentionDepth : Nat
  silenceLimit : Nat
  baseline : Vector Nat 24
  urgency : Nat
  contextMargin : Nat
  poolMargin : Nat
  monitor : Vector MonitorSettings 4
  /-- level(k) at index k − 1. -/
  level : Vector Nat 16
  alertFloor : Nat
  checkMode : Bool
deriving DecidableEq, Repr

/-- The time base: local time, slip count, pending correction (R1, R4, R5). -/
structure TimeBase where
  now : Stamp
  slipCount : Nat
  correction : Bool
  /-- A LOCKED-mode ORBIT pulse was noted at the present tick: at most one pulse per tick is noted (R4). -/
  pulseNoted : Bool
deriving DecidableEq, Repr

/-- Trigger intake (R16, R19, R28). -/
structure Intake where
  /-- The edge latches; `none` is 'no level' (R16). -/
  latch : Vector (Option Bool) 4
  /-- The level each trigger line stands at (an input of the part). -/
  lineLevel : Vector Bool 4
  /-- The line was sampled by a command at the present tick: a line is sampled once per tick (R16). -/
  sampled : Vector Bool 4
  lastAccepted : Option Stamp
  accepted : Nat
  merged : Nat
  refusedHoldOff : Nat
  refusedFull : Nat
  outsideRun : Nat
deriving DecidableEq, Repr

/-- A pulse entry of a staging queue (R42). The sample count n is the number of samples. -/
structure PulseEntry where
  row : Nat
  pad : Nat
  stamp : Stamp
  samples : List Nat
  flags : BitVec 5
deriving DecidableEq, Repr

/-- An entry of a staging queue (R42). -/
inductive StagingEntry where
  | pulse (p : PulseEntry)
  | mark (t : Stamp)
deriving DecidableEq, Repr

/-- The counters of one source's group (R52, R113). -/
structure SourceCounters where
  frames : Nat
  pulsesStaged : Nat
  malformed : Nat
  checkFailures : Nat
  overruns : Nat
  markRegressions : Nat
  orphans : Nat
  latePulses : Nat
  wentLagging : Nat
  wentDown : Nat
deriving DecidableEq, Repr

/-- One source: receiver, mode, staging queue, watermark, standing, counters (R31, R38, R40, R42, R43, R98, R99). -/
structure Source where
  framing : Framing
  /-- The pad link's line decoder holds alignment (R31). -/
  aligned : Bool
  silenceTimer : Nat
  /-- The timer stands at the limit and its report has been made (R38). -/
  silenceReported : Bool
  gapPending : Bool
  mode : SourceMode
  queue : List StagingEntry
  watermark : Option Stamp
  standing : Standing
  counters : SourceCounters
deriving DecidableEq, Repr

/-- The distributor (R44, R45). -/
structure Distributor where
  lastServed : Fin 24
  /-- A wait of R45 has begun and has not ended. -/
  waiting : Bool
deriving DecidableEq, Repr

/-- One pulse record (R54). The sample count n is the number of samples. -/
structure PulseRecord where
  source : Fin 24
  row : Nat
  pad : Nat
  stamp : Stamp
  samples : List Nat
  charge : Nat
  peak : Nat
  peakIndex : Nat
  flags : BitVec 5
deriving DecidableEq, Repr

/-- One pool entry: its record and reference count (R54). -/
structure PoolEntry where
  record : PulseRecord
  refCount : Nat
deriving DecidableEq, Repr

/-- The pulse pool (R53, R55, R59, R61, R64, R66, R67). -/
structure Pool where
  entries : Vector PoolEntry 4096
  freeList : List (Fin 4096)
  retention : List (Fin 4096)
  /-- The placement in waiting (R59). -/
  inWaiting : Option PulseRecord
  /-- Ticks of the zero-fill taken so far, while it runs (R64). -/
  fill : Option Nat
  leastFree : Nat
  pulsesHeld : Nat
  pulsesRetained : Nat
  pulsesRefusedFull : Nat
  retainedAged : Nat
  retainedEvicted : Nat
  retainedClaimed : Nat
  poolWaits : Nat
deriving DecidableEq, Repr

/-- An accepted trigger (R74). -/
structure Trigger where
  stamp : Stamp
  cls : Fin 8
  origin : Origin
deriving DecidableEq, Repr

/-- State of a context (R69). `opened` is the spec's OPEN. -/
inductive ContextState where
  | free | opened | complete | expired | releasing
deriving DecidableEq, Repr

/-- Scan standing of a context (R88). `noScan` is the spec's NONE. -/
inductive ScanStanding where
  | noScan | queued | scanning
deriving DecidableEq, Repr

/-- The record of one context (R70). -/
structure Context where
  state : ContextState
  number : Nat
  triggers : List Trigger
  winOpen : Stamp
  winClose : Stamp
  span : Nat
  deadline : Stamp
  refs : List (Fin 4096)
  lost : Nat
  charge : Nat
  missing : BitVec 24
  flags : BitVec 9
  scan : ScanStanding
deriving DecidableEq, Repr

/-- The context table and the claim scanner (R68, R71, R84, R89, R95). The scanner's phase is PASSING exactly when a context is
scanned. -/
structure Table where
  slots : Vector Context 16
  order : List (Fin 16)
  nextNumber : Nat
  scanList : List (Fin 16)
  scanned : Option (Fin 16)
  visits : List (Fin 4096)
  eventsTruncated : Nat
  claimPasses : Nat
  claimPassesStopped : Nat
deriving DecidableEq, Repr

/-- The part-wide counters of the completion monitor (R113). -/
structure Monitor where
  eventsCompleted : Nat
  incompleteEvents : Nat
deriving DecidableEq, Repr

/-- A release in its stream phase: current context, route decision, event size, stream progress
(spec/07_release_and_the_event_block.md, The builder holds). -/
structure StreamJob where
  slot : Fin 16
  route : Route
  size : Nat
  progress : Nat
deriving DecidableEq, Repr

/-- The release builder (R116, R132). Its phase is STREAMING exactly when it holds a job; IDLE holds none. -/
structure Builder where
  job : Option StreamJob
  eventsReleased : Nat
  eventsSuppressed : Nat
  copiesLost : Nat
  withoutCopy : Nat
  aborted : Nat
deriving DecidableEq, Repr

/-- A word of the stream buffer with its marks FIRST and LAST (R136). -/
structure StreamWord where
  word : Word
  first : Bool
  last : Bool
deriving DecidableEq, Repr

/-- A whole event of the readout queue (R143); its block length is the number of its words. -/
structure ReadoutEvent where
  number : Nat
  words : List Word
deriving DecidableEq, Repr

/-- The output router (R136, R137, R138, R140, R143, R145, R149). -/
structure Router where
  buffer : List StreamWord
  /-- The link state is IN_EVENT (otherwise BETWEEN). -/
  inEvent : Bool
  wordsSent : Nat
  /-- An ABORTED end delimiter is owed, with its count. -/
  owed : Option Nat
  /-- The HOLD input is asserted. -/
  hold : Bool
  readout : List ReadoutEvent
  takePosition : Nat
  streamEventsSent : Nat
  streamEventsAborted : Nat
  streamWordsSent : Nat
  eventsStored : Nat
  eventsTaken : Nat
  eventsDiscarded : Nat
deriving DecidableEq, Repr

/-- A spy entry (R158); `event` is present at AT_RELEASE. -/
structure SpyEntry where
  monitor : Fin 4
  event : Option Nat
  pulse : PulseRecord
deriving DecidableEq, Repr

/-- The capture monitors' counters and the spy queue (R153, R159, R162). -/
structure Spy where
  hits : Vector Nat 4
  queue : List SpyEntry
  stored : Nat
  lost : Nat
  taken : Nat
deriving DecidableEq, Repr

/-- Reply status codes (R181). -/
inductive Status where
  | ok | badKind | badValue | wrongState | empty | busyInit | notReady | framing | badLength | crcBad
deriving DecidableEq, Repr

/-- A built reply frame (R181). -/
structure Reply where
  kind : BitVec 8
  tag : Tag
  status : Status
  summary : Word
  body : List Word
  /-- The frame it answers was judged under check mode ON (R176). -/
  checked : Bool
  /-- It is the reply of the taken command, not a refusal or NOT_READY reply (R179). -/
  taken : Bool
deriving DecidableEq, Repr

/-- The outstanding command (R178): what its reply will echo, and the check mode its frame was judged under. -/
structure Outstanding where
  kind : BitVec 8
  tag : Tag
  checked : Bool
deriving DecidableEq, Repr

/-- A CONFIGURE whose reply is still to be built (R178, R189, R191). -/
structure ConfigureJob where
  rest : List (Word × Word)
  applied : Nat
  /-- Clamped pairs so far, in list order: position and value taken. -/
  clamps : List (Nat × Nat)
deriving DecidableEq, Repr

/-- The command link interface (R175, R178, R179, R196). -/
structure CommandLink where
  framing : Framing
  /-- The inbound lane's line decoder holds alignment (R175). -/
  aligned : Bool
  /-- The check mode read at the start of the frame being received (R176). -/
  frameChecked : Bool
  outstanding : Option Outstanding
  configure : Option ConfigureJob
  replies : List Reply
  framesReceived : Nat
  framesRefused : Nat
  framesAbandoned : Nat
  commandsTaken : Nat
  repliesNotReady : Nat
  framesUnanswered : Nat
deriving DecidableEq, Repr

/-- One unit sent on the data link (R137): an optional start delimiter, an optional word, and the status word of an optional
end delimiter. -/
structure LinkUnit where
  startDelimiter : Bool
  word : Option Word
  ending : Option Word
deriving DecidableEq, Repr

/-- The whole state of the part, and the commands that wait. -/
structure State where
  run : RunState
  /-- The RESET line is asserted, or power is on and the line has not yet been found released (R186). -/
  resetHeld : Bool
  settings : Settings
  time : TimeBase
  intake : Intake
  sources : Vector Source 24
  distributor : Distributor
  pool : Pool
  table : Table
  monitor : Monitor
  builder : Builder
  router : Router
  spy : Spy
  /-- The latched pending set, bit k for the condition of code k (R164). -/
  latched : BitVec 17
  cmd : CommandLink
  /-- MODEL: the units sent on the data link so far, oldest first. -/
  dataLinkOut : List LinkUnit
  /-- MODEL: the reply frames sent whole on the outbound lane so far, as their words, oldest first. -/
  replyOut : List (List Word)
  /-- MODEL: the commands that wait, first in, first out. -/
  pending : List Instr
deriving DecidableEq, Repr

/-- Monitor settings after the resets (R151). -/
def MonitorSettings.default : MonitorSettings where
  enable := false
  point := .atArrival
  sources := 0xFFFFFF#24
  rowLo := 0
  rowHi := 63
  padLo := 0
  padHi := 127
  flags := 0
  threshold := 0
  action := .count

/-- The settings after the resets (R188, R164). -/
def Settings.default : Settings where
  ol := 3564
  timeMode := .locked
  offset := Vector.replicate 8 0
  length := Vector.replicate 8 4000
  fullPolicy := Vector.replicate 8 .refuse
  route := Vector.replicate 8 ⟨true, false⟩
  edge := Vector.replicate 4 .off
  cls := #v[0, 1, 2, 3]
  holdOff := 0
  coalesce := 0
  grace := 8000
  retentionDepth := 0
  silenceLimit := 40000
  baseline := Vector.replicate 24 0
  urgency := 12
  contextMargin := 2
  poolMargin := 256
  monitor := Vector.replicate 4 MonitorSettings.default
  level := #v[3, 2, 2, 2, 2, 1, 1, 1, 1, 1, 0, 0, 0, 0, 0, 0]
  alertFloor := 0
  checkMode := false

/-- The time base after the resets (R7). -/
def TimeBase.default : TimeBase := ⟨⟨0, 0⟩, 0, false, false⟩

/-- Trigger intake after the resets (R30): the latches hold no level. The lines themselves are inputs and stand low. -/
def Intake.default : Intake where
  latch := Vector.replicate 4 none
  lineLevel := Vector.replicate 4 false
  sampled := Vector.replicate 4 false
  lastAccepted := none
  accepted := 0
  merged := 0
  refusedHoldOff := 0
  refusedFull := 0
  outsideRun := 0

/-- The counters of a source at 0. -/
def SourceCounters.zero : SourceCounters := ⟨0, 0, 0, 0, 0, 0, 0, 0, 0, 0⟩

/-- A source after the resets (R51, R112). -/
def Source.default : Source where
  framing := .hunting
  aligned := false
  silenceTimer := 0
  silenceReported := false
  gapPending := false
  mode := .link
  queue := []
  watermark := none
  standing := .disabled
  counters := SourceCounters.zero

/-- A zero-filled record (R64): every field 0. -/
def PulseRecord.zero : PulseRecord := ⟨0, 0, 0, ⟨0, 0⟩, [], 0, 0, 0, 0⟩

/-- A zero-filled pool entry (R64). -/
def PoolEntry.zero : PoolEntry := ⟨PulseRecord.zero, 0⟩

/-- `n` entry numbers from `k` on, in rising order (wrapping at 4096). -/
def entriesFrom (k : Nat) : Nat → List (Fin 4096)
  | 0 => []
  | n + 1 => Fin.ofNat 4096 k :: entriesFrom (k + 1) n

/-- All 4096 entry numbers in order, 0 at the head (R55). -/
def allEntries : List (Fin 4096) := entriesFrom 0 4096

/-- The pool after the resets (R65), with the zero-fill about to write entry 0. -/
def Pool.default : Pool where
  entries := Vector.replicate 4096 PoolEntry.zero
  freeList := allEntries
  retention := []
  inWaiting := none
  fill := some 0
  leastFree := 4096
  pulsesHeld := 0
  pulsesRetained := 0
  pulsesRefusedFull := 0
  retainedAged := 0
  retainedEvicted := 0
  retainedClaimed := 0
  poolWaits := 0

/-- A FREE slot (R97). The record of a FREE slot is not reported (R70). -/
def Context.freeSlot : Context where
  state := .free
  number := 0
  triggers := []
  winOpen := ⟨0, 0⟩
  winClose := ⟨0, 0⟩
  span := 0
  deadline := ⟨0, 0⟩
  refs := []
  lost := 0
  charge := 0
  missing := 0
  flags := 0
  scan := .noScan

/-- The context table after the resets (R97). -/
def Table.default : Table where
  slots := Vector.replicate 16 Context.freeSlot
  order := []
  nextNumber := 0
  scanList := []
  scanned := none
  visits := []
  eventsTruncated := 0
  claimPasses := 0
  claimPassesStopped := 0

/-- The release builder after the resets (R134). -/
def Builder.default : Builder := ⟨none, 0, 0, 0, 0, 0⟩

/-- The output router after the resets (R142, R148). HOLD is an input and stands released. -/
def Router.default : Router where
  buffer := []
  inEvent := false
  wordsSent := 0
  owed := none
  hold := false
  readout := []
  takePosition := 0
  streamEventsSent := 0
  streamEventsAborted := 0
  streamWordsSent := 0
  eventsStored := 0
  eventsTaken := 0
  eventsDiscarded := 0

/-- The capture monitors and the spy queue after the resets (R163). -/
def Spy.default : Spy := ⟨Vector.replicate 4 0, [], 0, 0, 0⟩

/-- The command link interface after the resets (R186, R196). -/
def CommandLink.default : CommandLink where
  framing := .hunting
  aligned := false
  frameChecked := false
  outstanding := none
  configure := none
  replies := []
  framesReceived := 0
  framesRefused := 0
  framesAbandoned := 0
  commandsTaken := 0
  repliesNotReady := 0
  framesUnanswered := 0

/-- The part right after reset: every block at its reset values, the RESET line released and the zero-fill about to start
(notes/assumptions/1.md). -/
def State.reset : State where
  run := .init
  resetHeld := false
  settings := Settings.default
  time := TimeBase.default
  intake := Intake.default
  sources := Vector.replicate 24 Source.default
  distributor := ⟨23, false⟩
  pool := Pool.default
  table := Table.default
  monitor := ⟨0, 0⟩
  builder := Builder.default
  router := Router.default
  spy := Spy.default
  latched := 0
  cmd := CommandLink.default
  dataLinkOut := []
  replyOut := []
  pending := []

end Sys2Proof.Machine
end

