-- ==== Sys2Proof/Machine/Operands.lean ====
section
/-! DEFINITION. The forms in which values cross the part's boundary and are compared inside it: stamp arithmetic
(spec/01_time_base_and_window_arithmetic.md), the CRC, and the word layouts of spec/12_wire_formats.md. -/

namespace Sys2Proof.Machine

/-! ## Vectors by Fin index -/

/-- `v` with place `i` holding `x`. -/
def put {α : Type} {n : Nat} (v : Vector α n) (i : Fin n) (x : α) : Vector α n := v.set i.val x i.isLt

/-- Every place of a vector changed by `f`. -/
def mapAll {α β : Type} {n : Nat} (f : α → β) (v : Vector α n) : Vector β n :=
  ⟨(v.toList.map f).toArray, by simp⟩

/-- The sources in number order. -/
def allSources : List (Fin 24) :=
  [0, 1, 2, 3, 4, 5, 6, 7, 8, 9, 10, 11, 12, 13, 14, 15, 16, 17, 18, 19, 20, 21, 22, 23]

/-- The classes in number order. -/
def allClasses : List (Fin 8) := [0, 1, 2, 3, 4, 5, 6, 7]

/-- Four lines, or four monitors, in number order. -/
def allFour : List (Fin 4) := [0, 1, 2, 3]

/-- The context slots in number order. -/
def allSlots : List (Fin 16) := [0, 1, 2, 3, 4, 5, 6, 7, 8, 9, 10, 11, 12, 13, 14, 15]

/-! ## Counters -/

/-- A counter increased by one: 32-bit, saturating (spec/00_scope.md, Counters). -/
def bump (n : Nat) : Nat := if n < Config.counterMax then n + 1 else Config.counterMax

/-! ## Stamps -/

/-- The modulus M of the stamp space (R9). -/
def modulus (ol : Nat) : Nat := Config.orbits * ol

/-- M/2, exact since M is even (R10). -/
def half (ol : Nat) : Nat := 524288 * ol

/-- Position of a stamp (R9). -/
def position (ol : Nat) (s : Stamp) : Nat := s.orbit * ol + s.bc

/-- D(a, b), the distance from stamp b to stamp a (R9). -/
def dist (ol : Nat) (a b : Stamp) : Nat :=
  (((position ol a : Int) - (position ol b : Int)) % (modulus ol : Int)).toNat

/-- a is at or after b (R10). -/
def atOrAfter (ol : Nat) (a b : Stamp) : Bool := decide (dist ol a b < half ol)

/-- a is before b (R10). -/
def before (ol : Nat) (a b : Stamp) : Bool := !atOrAfter ol a b

/-- a is after b (R10). -/
def after (ol : Nat) (a b : Stamp) : Bool := decide (0 < dist ol a b) && decide (dist ol a b < half ol)

/-- a is at or before b (R10). -/
def atOrBefore (ol : Nat) (a b : Stamp) : Bool := atOrAfter ol b a

/-- The stamp n ticks on from s, n of either sign (R11). -/
def addTicks (ol : Nat) (s : Stamp) (n : Int) : Stamp :=
  let p := (((position ol s : Int) + n) % (modulus ol : Int)).toNat
  ⟨p / ol, p % ol⟩

/-- The stamp lies in the window that opens at `winOpen` and spans `span` ticks (R13). -/
def inWindow (ol : Nat) (winOpen : Stamp) (span : Nat) (s : Stamp) : Bool := decide (dist ol s winOpen < span)

/-- A retained pulse stamped `s` is aged at `now` under the retention depth (R15). -/
def aged (ol depth : Nat) (now s : Stamp) : Bool := atOrBefore ol s now && decide (depth ≤ dist ol now s)

/-! ## Words -/

/-- A number as a word. -/
def num (n : Nat) : Word := BitVec.ofNat 32 n

/-- The stamp word: orbit in bits 31..12, bc in bits 11..0 (spec/12_wire_formats.md, Common words). -/
def stampWord (s : Stamp) : Word := BitVec.ofNat 20 s.orbit ++ BitVec.ofNat 12 s.bc

/-- The stamp a stamp word carries. -/
def wordStamp (w : Word) : Stamp := ⟨(w.extractLsb' 12 20).toNat, (w.extractLsb' 0 12).toNat⟩

/-- Word of four octets, the first the most significant (R175). -/
def octetsWord (a b c d : Octet) : Word := a ++ b ++ c ++ d

/-- The whole words of an octet sequence, in order; a rest of fewer than four octets makes none. -/
def wordsOfOctets : List Octet → List Word
  | a :: b :: c :: d :: rest => octetsWord a b c d :: wordsOfOctets rest
  | _ => []

/-! ## CRC-16 (R32, R176) -/

/-- One bit into the CRC: polynomial x¹⁶ + x¹² + x⁵ + 1. -/
def crcBit (c : BitVec 16) (b : Bool) : BitVec 16 :=
  if xor c.msb b then (c <<< 1) ^^^ 0x1021#16 else c <<< 1

/-- The lowest `k` bits of a word into the CRC, from the most significant of them down. -/
def crcBits (w : Word) : Nat → BitVec 16 → BitVec 16
  | 0, c => c
  | k + 1, c => crcBits w k (crcBit c (w.getLsbD k))

/-- The CRC of a sequence of words: initial value all ones, each word from bit 31 down. -/
def crc (ws : List Word) : BitVec 16 := ws.foldl (fun c w => crcBits w 32 c) 0xFFFF#16

/-- The check word carries the CRC in its low 16 bits; the part writes the high 16 bits 0 (R200). -/
def checkWord (ws : List Word) : Word := 0#16 ++ crc ws

/-- The last word carries, in its low 16 bits, the CRC of the words before it (R32, R176). -/
def checkPasses (ws : List Word) : Bool :=
  match ws.getLast? with
  | some c => c.extractLsb' 0 16 == crc ws.dropLast
  | none => false

/-! ## Pulses -/

/-- Sample words of n samples: ⌈n/3⌉ (spec/03_pad_links_and_staging_queues.md, Frame kinds). -/
def sampleWords (n : Nat) : Nat := (n + 2) / 3

/-- The three places of a sample word, place 0 first (spec/12_wire_formats.md, Common words). -/
def places (w : Word) : List Nat :=
  [(w.extractLsb' 20 10).toNat, (w.extractLsb' 10 10).toNat, (w.extractLsb' 0 10).toNat]

/-- The first n samples of sample words (R197). -/
def unpackSamples (n : Nat) (ws : List Word) : List Nat := (ws.flatMap places).take n

/-- A sample word of three places; reserved bits 0 (R200). -/
def sampleWord (a b c : Nat) : Word := 0#2 ++ BitVec.ofNat 10 a ++ BitVec.ofNat 10 b ++ BitVec.ofNat 10 c

/-- Samples packed three to a word, first sample in the high bits, unused places 0 (R200). -/
def packSamples : List Nat → List Word
  | a :: b :: c :: rest => sampleWord a b c :: packSamples rest
  | [a, b] => [sampleWord a b 0]
  | [a] => [sampleWord a 0 0]
  | [] => []

/-- What the words of a frame or INJECT body hold once tests 1 to 3 of R33 pass. -/
inductive PadBody where
  | pulse (p : PulseEntry)
  | mark (t : Stamp)
  | idle
deriving DecidableEq, Repr

/-- The PULSE body after its kind (R33, R34, R197): `n` from the header, the word count, then the ranges. `check` is the number of
check words the count includes. -/
def decodePulse (ol check : Nat) (header : Word) (words : List Word) : Option PadBody :=
  let n := (header.extractLsb' 0 6).toNat
  let row := (header.extractLsb' 20 8).toNat
  let pad := (header.extractLsb' 12 8).toNat
  match words with
  | _ :: st :: rest =>
    if n = 0 ∨ 32 < n then none
    else if words.length ≠ 2 + sampleWords n + check then none
    else if 63 < row ∨ 127 < pad ∨ ol ≤ (wordStamp st).bc then none
    else some (.pulse ⟨row, pad, wordStamp st, unpackSamples n (rest.take (sampleWords n)), 0⟩)
  | _ => none

/-- The MARK body after its kind (R33, R35). -/
def decodeMark (ol check : Nat) (words : List Word) : Option PadBody :=
  match words with
  | _ :: st :: _ =>
    if words.length ≠ 2 + check then none
    else if ol ≤ (wordStamp st).bc then none
    else some (.mark (wordStamp st))
  | _ => none

/-- Tests 1 to 3 of R33; `none` is malformed. A pad-link frame has one check word and may be IDLE; an INJECT body has no check word
and may not (R41). Reserved bits are ignored (R197). A frame of no word names no kind (notes/assumptions/7.md). -/
def decodePad (ol check : Nat) (idleAllowed : Bool) (words : List Word) : Option PadBody :=
  match words with
  | [] => none
  | header :: _ =>
    let kind := header.extractLsb' 28 4
    if kind = 1#4 then decodePulse ol check header words
    else if kind = 2#4 then decodeMark ol check words
    else if kind = 3#4 ∧ idleAllowed = true then
      if words.length ≠ 1 + check then none else some .idle
    else none

/-- The charge of samples against a baseline: the sum of max(0, sᵢ − b) (R47). -/
def chargeOf (baseline : Nat) (samples : List Nat) : Nat := (samples.map (· - baseline)).sum

/-- The largest raw sample (R47). -/
def peakOf (samples : List Nat) : Nat := samples.foldl max 0

/-- The 0-based position of the first sample holding the peak value (R47). -/
def peakIndexOf (samples : List Nat) : Nat := samples.findIdx (· == peakOf samples)

/-- The pulse fields as a pulse block: three words and the sample words (spec/12_wire_formats.md, Event block). -/
def pulseBlock (p : PulseRecord) : List Word :=
  (BitVec.ofNat 5 p.source.val ++ p.flags ++ BitVec.ofNat 6 p.samples.length ++ BitVec.ofNat 6 p.row ++ 0#3
      ++ BitVec.ofNat 7 p.pad : Word)
    :: stampWord p.stamp
    :: (0#1 ++ BitVec.ofNat 5 p.peakIndex ++ BitVec.ofNat 10 p.peak ++ BitVec.ofNat 16 p.charge : Word)
    :: packSamples p.samples

/-- The origin's code: LINE0..LINE3 as 0..3, SOFT as 4 (spec/12_wire_formats.md, Event block). -/
def Origin.code : Origin → BitVec 3
  | .line l => BitVec.ofNat 3 l.val
  | .soft => 4#3

/-- A trigger entry: the stamp word, then class in bits 2..0 and origin in bits 6..4. -/
def triggerEntry (t : Trigger) : List Word :=
  [stampWord t.stamp, (0#25 ++ t.origin.code ++ 0#1 ++ BitVec.ofNat 3 t.cls.val : Word)]

/-- The size of a pulse's block in words (R120). -/
def pulseBlockSize (p : PulseRecord) : Nat := 3 + sampleWords p.samples.length

/-- The event size in words of triggers and pulses (R120). -/
def sizeOfEvent (triggers : List Trigger) (pulses : List PulseRecord) : Nat :=
  8 + 2 * triggers.length + (pulses.map pulseBlockSize).sum

/-- The eight header words of a context of the given size (spec/12_wire_formats.md, Event block; R125). -/
def eventHeader (c : Context) (size : Nat) : List Word :=
  [(0#13 ++ BitVec.ofNat 3 c.triggers.length ++ BitVec.ofNat 16 size : Word),
   num c.number,
   stampWord c.winOpen,
   stampWord c.winClose,
   (BitVec.ofNat 16 c.lost ++ 0#5 ++ BitVec.ofNat 11 c.refs.length : Word),
   (0#23 ++ c.flags : Word),
   (0#8 ++ BitVec.ofNat 24 c.charge : Word),
   (0#8 ++ c.missing : Word)]

/-- The event block of a context whose referenced pulses, in reference order, are `pulses`: the header, the trigger entries,
the pulse blocks (R124). -/
def blockOf (c : Context) (pulses : List PulseRecord) : List Word :=
  eventHeader c (sizeOfEvent c.triggers pulses) ++ c.triggers.flatMap triggerEntry ++ pulses.flatMap pulseBlock

/-- A spy entry's words, with the number of entries remaining (spec/12_wire_formats.md, Spy entry). -/
def spyWords (e : SpyEntry) (remaining : Nat) : List Word :=
  (0#19 ++ BitVec.ofNat 5 remaining ++ 0#2 ++ BitVec.ofBool e.event.isSome ++ BitVec.ofBool e.event.isSome ++ 0#2
      ++ BitVec.ofNat 2 e.monitor.val : Word)
    :: num (e.event.getD 0)
    :: pulseBlock e.pulse

/-- The status word of an end delimiter: bit 31 the status, bits 13..0 the count (spec/12_wire_formats.md, Data-link
delimiters). -/
def endingWord (aborted : Bool) (count : Nat) : Word :=
  BitVec.ofBool aborted ++ 0#17 ++ BitVec.ofNat 14 count

end Sys2Proof.Machine
end

