-- ==== Sys2Proof/Machine/Flags.lean ====
section
/-! DEFINITION. Pulse flags, event flags, conditions, and the lines and figures that follow from the state: BUSY, READY, STREAM_HELD,
ALERT, the highest condition, the summary word (spec/10_conditions_and_the_alert_line.md, spec/12_wire_formats.md). -/

namespace Sys2Proof.Machine

/-! ## Pulse flags and event flags: bit sets (spec/12_wire_formats.md, Common words) -/

/-- CHECK, bit 0. -/
def flagCheck : BitVec 5 := 1#5
/-- GAP, bit 1. -/
def flagGap : BitVec 5 := 2#5
/-- LATE, bit 2. -/
def flagLate : BitVec 5 := 4#5
/-- SATURATED, bit 3. -/
def flagSaturated : BitVec 5 := 8#5
/-- MARKED, bit 4. -/
def flagMarked : BitVec 5 := 16#5

/-- Pulse flags as event flags: the same five bits. -/
def eventFlagsOf (f : BitVec 5) : BitVec 9 := 0#4 ++ f
/-- The event flag MARKED, bit 4. -/
def eventMarked : BitVec 9 := 16#9
/-- INCOMPLETE, bit 5. -/
def eventIncomplete : BitVec 9 := 32#9
/-- TRUNCATED, bit 6. -/
def eventTruncated : BitVec 9 := 64#9
/-- WINDOW_CLIPPED, bit 7. -/
def eventWindowClipped : BitVec 9 := 128#9
/-- CHARGE_SAT, bit 8. -/
def eventChargeSat : BitVec 9 := 256#9

/-- The flags when the condition holds, otherwise none. -/
def flagsIf {n : Nat} (p : Bool) (f : BitVec n) : BitVec n := if p then f else 0

/-! ## Conditions (R164) -/

/-- The 13 latched conditions, in code order 1..13 (R164). -/
inductive Latched where
  | sourceDown | timeSlip | triggerLost | linkOverrun | sourceLagging | linkMalformed | eventIncomplete
  | eventTruncated | poolEvict | readoutLost | commandFault | spyHit | spyLost
deriving DecidableEq, Repr

/-- Code of a latched condition (R164). -/
def Latched.code : Latched → Nat
  | .sourceDown => 1
  | .timeSlip => 2
  | .triggerLost => 3
  | .linkOverrun => 4
  | .sourceLagging => 5
  | .linkMalformed => 6
  | .eventIncomplete => 7
  | .eventTruncated => 8
  | .poolEvict => 9
  | .readoutLost => 10
  | .commandFault => 11
  | .spyHit => 12
  | .spyLost => 13

/-- The set bit of a condition code. -/
def codeBit (k : Nat) : BitVec 17 := BitVec.twoPow 17 k

/-- Codes of the state conditions (R164). -/
def codeReady : Nat := 14
/-- Code of BUSY. -/
def codeBusy : Nat := 15
/-- Code of STREAM_HELD. -/
def codeStreamHeld : Nat := 16

/-- The codes of the latched conditions as a set. -/
def latchedCodes : BitVec 17 := 0x03FFE#17

/-- A latched condition is raised: it joins the latched pending set (R165). -/
def raise (c : Latched) (s : State) : State := { s with latched := s.latched ||| codeBit c.code }

/-- The condition is raised when `p` holds. -/
def raiseIf (p : Bool) (c : Latched) (s : State) : State := if p then raise c s else s

/-! ## State conditions and lines -/

/-- Number of FREE slots (R68). -/
def freeSlots (s : State) : Nat := 16 - s.table.order.length

/-- BUSY (R27). -/
def busy (s : State) : Bool :=
  decide (s.run ≠ .running) || decide (freeSlots s ≤ s.settings.contextMargin)
    || decide (s.pool.freeList.length ≤ s.settings.poolMargin)

/-- READY (R144). -/
def ready (s : State) : Bool := !s.router.readout.isEmpty

/-- STREAM_HELD (R139). -/
def streamHeld (s : State) : Bool :=
  match s.builder.job with
  | some j => s.router.hold && decide (Config.streamCap ≤ s.router.buffer.length) && decide (j.progress < j.size)
  | none => false

/-- The pending set: the latched pending set with every state condition whose state holds (R164, R166). -/
def pendingSet (s : State) : BitVec 17 :=
  s.latched ||| flagsIf (ready s) (codeBit codeReady) ||| flagsIf (busy s) (codeBit codeBusy)
    ||| flagsIf (streamHeld s) (codeBit codeStreamHeld)

/-- Condition codes in default order (R164). -/
def allCodes : List Nat := [1, 2, 3, 4, 5, 6, 7, 8, 9, 10, 11, 12, 13, 14, 15, 16]

/-- level(k) (R167). -/
def levelOf (st : Settings) (k : Nat) : Nat := st.level.toList.getD (k - 1) 0

/-- ALERT: some pending condition has a level above the alert floor (R168). -/
def alert (s : State) : Bool :=
  allCodes.any fun k => (pendingSet s).getLsbD k && decide (s.settings.alertFloor < levelOf s.settings k)

/-- The better of the highest so far (code 0 for none) and the next code in default order: a later code wins only with a
greater level (R169). -/
def higher (s : State) (best k : Nat) : Nat :=
  if (pendingSet s).getLsbD k && (best == 0 || decide (levelOf s.settings best < levelOf s.settings k)) then k else best

/-- The code of the highest pending condition, 0 for none (R169). -/
def highest (s : State) : Nat := allCodes.foldl (higher s) 0

/-- Code of a run state in the summary word. -/
def RunState.code : RunState → BitVec 2
  | .init => 0#2
  | .idle => 1#2
  | .running => 2#2
  | .draining => 3#2

/-- The summary word (R173; spec/12_wire_formats.md, Command and reply frames). -/
def summaryWord (s : State) : Word :=
  s.run.code ++ BitVec.ofBool (alert s) ++ BitVec.ofBool (ready s) ++ BitVec.ofBool (busy s) ++ 0#22
    ++ BitVec.ofNat 5 (highest s)

/-- The run states in which entries are staged, taken and released (R37, R44, R116). -/
def inRun (s : State) : Bool := decide (s.run = .running) || decide (s.run = .draining)

end Sys2Proof.Machine
end

