-- ==== Sys2Proof/Machine/Ops.lean ====
section
/-! DEFINITION. The named operations that more than one command uses: access to sources, contexts and pool entries, the free list and
the retention queue, reference counts, references of a context, and the claim scanner. -/

namespace Sys2Proof.Machine

/-! ## Access -/

/-- Source `i`. -/
def source (s : State) (i : Fin 24) : Source := s.sources.get i

/-- Source `i` replaced. -/
def setSource (i : Fin 24) (x : Source) (s : State) : State := { s with sources := put s.sources i x }

/-- Source `i` changed by `f`. -/
def modSource (i : Fin 24) (f : Source → Source) (s : State) : State := setSource i (f (source s i)) s

/-- The counters of source `i` changed by `f`. -/
def countSource (i : Fin 24) (f : SourceCounters → SourceCounters) (s : State) : State :=
  modSource i (fun x => { x with counters := f x.counters }) s

/-- The context in slot `i`. -/
def context (s : State) (i : Fin 16) : Context := s.table.slots.get i

/-- The context in slot `i` replaced. -/
def setContext (i : Fin 16) (c : Context) (s : State) : State := { s with table.slots := put s.table.slots i c }

/-- The context in slot `i` changed by `f`. -/
def modContext (i : Fin 16) (f : Context → Context) (s : State) : State := setContext i (f (context s i)) s

/-- Pool entry `e`. -/
def poolEntry (s : State) (e : Fin 4096) : PoolEntry := s.pool.entries.get e

/-- Pool entry `e` replaced. -/
def setPoolEntry (e : Fin 4096) (x : PoolEntry) (s : State) : State := { s with pool.entries := put s.pool.entries e x }

/-! ## The pool's two collections (R55, R58, R61) -/

/-- The pool can give an entry: the free list or the retention queue is not empty (R45). -/
def canGive (s : State) : Bool := !s.pool.freeList.isEmpty || !s.pool.retention.isEmpty

/-- A wait of the distributor ends when the pool can again give an entry (R45). -/
def endWait (s : State) : State := if canGive s then { s with distributor.waiting := false } else s

/-- The free list loses its head; least free follows it down (R67). -/
def setFreeList (l : List (Fin 4096)) (s : State) : State :=
  { s with pool.freeList := l, pool.leastFree := min s.pool.leastFree l.length }

/-- An entry joins the tail of the free list (R55). -/
def joinFree (e : Fin 4096) (s : State) : State := { s with pool.freeList := s.pool.freeList ++ [e] }

/-- The entry leaves the retention queue, and the visit list when it is there (R91). -/
def leaveRetention (e : Fin 4096) (s : State) : State :=
  { s with pool.retention := s.pool.retention.erase e, table.visits := s.table.visits.erase e }

/-- Placement gets an entry: the head of the free list, or the evicted head of the retention queue, or none (R58). -/
def takeEntry (s : State) : Option (Fin 4096 × State) :=
  match s.pool.freeList with
  | e :: rest => some (e, setFreeList rest s)
  | [] =>
    match s.pool.retention with
    | e :: _ =>
      some (e, raise .poolEvict
        { leaveRetention e s with pool.retainedEvicted := bump s.pool.retainedEvicted })
    | [] => none

/-- One reference to the entry is dropped; an entry that reaches 0 joins the tail of the free list (R63). -/
def dropRef (s : State) (e : Fin 4096) : State :=
  match (poolEntry s e).refCount with
  | 0 => s
  | 1 => joinFree e (setPoolEntry e { poolEntry s e with refCount := 0 } s)
  | k + 2 => setPoolEntry e { poolEntry s e with refCount := k + 1 } s

/-- References dropped in list order; a wait of the distributor ends when an entry joined the free list (R63). -/
def dropRefs (es : List (Fin 4096)) (s : State) : State := endWait (es.foldl dropRef s)

/-- The whole pool freed without zero-fill (R65): records stay, counts become 0, and the wait of R45 ends. -/
def freePool (s : State) : State :=
  { s with
    pool.entries := mapAll (fun x => { x with refCount := 0 }) s.pool.entries
    pool.freeList := allEntries
    pool.retention := []
    pool.inWaiting := none
    distributor.waiting := false }

/-! ## References of a context (R79 to R83) -/

/-- Charge total after one more charge, and whether it clamped (R82). -/
def addCharge (total charge : Nat) : Nat × Bool :=
  if Config.chargeTotalMax < total + charge then (Config.chargeTotalMax, true) else (total + charge, false)

/-- A context with one more reference: entry `e`, whose pulse is `p` (R79, R80, R82). -/
def Context.withRef (c : Context) (e : Fin 4096) (p : PulseRecord) : Context :=
  { c with
    refs := c.refs ++ [e]
    charge := (addCharge c.charge p.charge).1
    flags := c.flags ||| eventFlagsOf p.flags ||| flagsIf (addCharge c.charge p.charge).2 eventChargeSat }

/-- A reference joins the tail of the context's list (R79). -/
def makeRef (e : Fin 4096) (p : PulseRecord) (s : State) (i : Fin 16) : State := modContext i (·.withRef e p) s

/-- The context already carries TRUNCATED. -/
def Context.truncated (c : Context) : Bool := c.flags.getLsbD 6

/-- The lost count increased by one, saturating (R81). -/
def bumpLost (n : Nat) : Nat := if n < Config.lostMax then n + 1 else Config.lostMax

/-- A reference beyond the full list is refused (R81). -/
def refuseRef (s : State) (i : Fin 16) : State :=
  let c := context s i
  let s1 := setContext i { c with lost := bumpLost c.lost, flags := c.flags ||| eventTruncated } s
  if c.truncated then s1
  else raise .eventTruncated { s1 with table.eventsTruncated := bump s.table.eventsTruncated }

/-- The context's reference list has room (R79). -/
def hasRoom (s : State) (i : Fin 16) : Bool := decide ((context s i).refs.length < Config.refsCap)

/-- The slot's context is OPEN. -/
def isOpened (s : State) (i : Fin 16) : Bool := decide ((context s i).state = .opened)

/-- The stamp lies in the window of the slot's context as it stands (R13). -/
def windowHolds (s : State) (t : Stamp) (i : Fin 16) : Bool :=
  inWindow s.settings.ol (context s i).winOpen (context s i).span t

/-- The OPEN contexts whose windows contain the stamp, oldest first (R56). -/
def containing (s : State) (t : Stamp) : List (Fin 16) :=
  s.table.order.filter fun i => isOpened s i && windowHolds s t i

/-- The oldest OPEN context: the first in the opening order that is OPEN (R103). -/
def oldestOpen (s : State) : Option (Fin 16) := s.table.order.find? (isOpened s)

/-! ## The scan request list and the claim scanner (R84 to R93) -/

/-- A slot joins the tail of the scan request list (R84). -/
def joinScanList (i : Fin 16) (s : State) : State := { s with table.scanList := s.table.scanList ++ [i] }

/-- A claim scan is requested for an OPEN context, only when the retention depth is above 0 (R86). -/
def requestScan (i : Fin 16) (s : State) : State :=
  if s.settings.retentionDepth = 0 then s
  else
    match (context s i).scan with
    | .noScan => modContext i (fun c => { c with scan := .queued }) (joinScanList i s)
    | .queued => s
    | .scanning => if s.table.scanList.contains i then s else joinScanList i s

/-- A pass starts for the head of the scan request list: its visit list is the retention queue as it stands (R89). -/
def startPass (i : Fin 16) (rest : List (Fin 16)) (s : State) : State :=
  modContext i (fun c => { c with scan := .scanning })
    { s with
      table.scanList := rest
      table.scanned := some i
      table.visits := s.pool.retention
      table.claimPasses := bump s.table.claimPasses }

/-- The pass for the scanned context ends (R92). -/
def endPass (i : Fin 16) (s : State) : State :=
  modContext i (fun c => { c with scan := if s.table.scanList.contains i then .queued else .noScan })
    { s with table.scanned := none, table.visits := [] }

/-- What the scanner does at once as things stand: end a pass with an empty visit list (R92), or start the next pass (R89). -/
def scannerMove (s : State) : Option State :=
  match s.table.scanned with
  | some i => if s.table.visits.isEmpty then some (endPass i s) else none
  | none =>
    match s.table.scanList with
    | [] => none
    | i :: rest => some (startPass i rest s)

/-- At most `n` moves of the scanner. -/
def scannerMoves : Nat → State → State
  | 0, s => s
  | n + 1, s =>
    match scannerMove s with
    | some t => scannerMoves n t
    | none => s

/-- The scanner goes as far as it goes at once: each waiting slot takes at most a start and an end. -/
def settleScanner (s : State) : State := scannerMoves (2 * s.table.scanList.length + 2) s

/-- The context leaves OPEN for `st`: its scan standing becomes NONE, its slot leaves the scan request list (R87), and a pass in
progress for it stops (R93). -/
def leaveOpen (i : Fin 16) (st : ContextState) (s : State) : State :=
  let s1 := modContext i (fun c => { c with state := st, scan := .noScan })
    { s with table.scanList := s.table.scanList.erase i }
  if s.table.scanned = some i then
    { s1 with
      table.scanned := none
      table.visits := []
      table.claimPassesStopped := bump s.table.claimPassesStopped }
  else s1

end Sys2Proof.Machine
end

