-- ==== Sys2Proof/Machine/Monitors.lean ====
section
/-! DEFINITION. The capture monitors and the spy queue (spec/09_capture_monitors.md). -/

namespace Sys2Proof.Machine

/-- The pulse matches the monitor (R153). -/
def monitorMatches (m : MonitorSettings) (p : PulseRecord) : Bool :=
  m.enable && m.sources.getLsbD p.source.val
    && decide (m.rowLo ≤ p.row) && decide (p.row ≤ m.rowHi)
    && decide (m.padLo ≤ p.pad) && decide (p.pad ≤ m.padHi)
    && (m.flags == 0 || (p.flags &&& m.flags) != 0)
    && decide (m.threshold ≤ p.charge)

/-- A COPY action offers an entry to the spy queue (R159). -/
def offerSpy (e : SpyEntry) (s : State) : State :=
  if s.spy.queue.length < Config.spyCap then
    raise .spyHit { s with spy.queue := s.spy.queue ++ [e], spy.stored := bump s.spy.stored }
  else raise .spyLost { s with spy.lost := bump s.spy.lost }

/-- A match is counted on the monitor (R153). -/
def countHit (m : Fin 4) (s : State) : State := { s with spy.hits := put s.spy.hits m (bump (s.spy.hits.get m)) }

/-- Monitor `m` at point `pt` matches the pulse as it is shown (R152, R153). -/
def monitorActs (s : State) (m : Fin 4) (pt : MonitorPoint) (p : PulseRecord) : Bool :=
  decide ((s.settings.monitor.get m).point = pt) && monitorMatches (s.settings.monitor.get m) p

/-- The pulse is shown to one monitor at the arrival point; a MARK adds MARKED to its flags (R154, R157). -/
def presentArrival (sp : State × PulseRecord) (m : Fin 4) : State × PulseRecord :=
  let s := sp.1
  let p := sp.2
  if monitorActs s m .atArrival p then
    match (s.settings.monitor.get m).action with
    | .copy => (offerSpy ⟨m, none, p⟩ (countHit m s), p)
    | .mark => (countHit m s, { p with flags := p.flags ||| flagMarked })
    | .count => (countHit m s, p)
  else (s, p)

/-- The pulse is shown to the arrival monitors in monitor order (R154). -/
def presentArrivals (p : PulseRecord) (s : State) : State × PulseRecord := allFour.foldl presentArrival (s, p)

/-- The pulse is shown to one monitor at the release point of the context in slot `i`; a MARK marks the event (R155, R157). -/
def presentRelease (i : Fin 16) (p : PulseRecord) (s : State) (m : Fin 4) : State :=
  if monitorActs s m .atRelease p then
    match (s.settings.monitor.get m).action with
    | .copy => offerSpy ⟨m, some (context s i).number, p⟩ (countHit m s)
    | .mark => modContext i (fun c => { c with flags := c.flags ||| eventMarked }) (countHit m s)
    | .count => countHit m s
  else s

/-- One referenced pulse is shown to all release monitors (R155). -/
def presentPulse (i : Fin 16) (s : State) (p : PulseRecord) : State := allFour.foldl (presentRelease i p) s

/-- The pulses of an event are shown to the release monitors in reference order (R122, R155). -/
def presentReleases (i : Fin 16) (ps : List PulseRecord) (s : State) : State := ps.foldl (presentPulse i) s

end Sys2Proof.Machine
end

