-- ==== Sys2Proof/Machine/Completion.lean ====
section
/-! DEFINITION. The completion monitor: completion, expiry, standings and settling
(spec/06_completion_expiry_and_source_standing.md), and its commands CLOSE_OR_DEADLINE_REACHED and SILENCE_REPORT. -/

namespace Sys2Proof.Machine

/-- Local time. -/
def now (s : State) : Stamp := s.time.now

/-- Local time has reached the context's close (R14). -/
def closeReached (s : State) (i : Fin 16) : Bool := atOrAfter s.settings.ol (now s) (context s i).winClose

/-- Local time has reached the context's deadline (R14). -/
def deadlineReached (s : State) (i : Fin 16) : Bool := atOrAfter s.settings.ol (now s) (context s i).deadline

/-- The source has passed the context: its watermark is known and at or after the close (R14). -/
def passed (s : State) (src : Fin 24) (i : Fin 16) : Bool :=
  match (source s src).watermark with
  | some w => atOrAfter s.settings.ol w (context s i).winClose
  | none => false

/-- The source counts in completion (R99). -/
def isActive (s : State) (src : Fin 24) : Bool := decide ((source s src).standing = .active)

/-- The completion test (R105). -/
def completes (s : State) (i : Fin 16) : Bool :=
  closeReached s i && allSources.all fun src => !isActive s src || passed s src i

/-- The context becomes COMPLETE when it is OPEN and passes the test (R107). -/
def completeIfDone (s : State) (i : Fin 16) : State :=
  if isOpened s i && completes s i then
    { leaveOpen i .complete s with monitor.eventsCompleted := bump s.monitor.eventsCompleted }
  else s

/-- Step 1 of a settling: every OPEN context is tested, oldest first (R106). -/
def completionPass (s : State) : State := s.table.order.foldl completeIfDone s

/-- The ACTIVE sources that have not passed the context (R108). -/
def missingSources (s : State) (i : Fin 16) : List (Fin 24) :=
  allSources.filter fun src => isActive s src && !passed s src i

/-- A list of sources as a source set (spec/12_wire_formats.md). -/
def sourceSet (l : List (Fin 24)) : BitVec 24 := l.foldl (fun b src => b ||| BitVec.twoPow 24 src.val) 0

/-- The source becomes LAGGING and is counted (R113). -/
def makeLagging (s : State) (src : Fin 24) : State :=
  modSource src
    (fun x => { x with
      standing := .lagging
      counters := { x.counters with wentLagging := bump x.counters.wentLagging } }) s

/-- The context expires (R108). -/
def expire (i : Fin 16) (s : State) : State :=
  let missing := missingSources s i
  let s1 := modContext i
    (fun c => { c with
      missing := sourceSet missing
      flags := c.flags ||| flagsIf (!missing.isEmpty) eventIncomplete }) s
  let s2 := missing.foldl makeLagging (leaveOpen i .expired s1)
  raise .sourceLagging (raise .eventIncomplete
    { s2 with monitor.incompleteEvents := bump s2.monitor.incompleteEvents })

/-- The oldest OPEN context that has reached its deadline (R106 step 2). -/
def oldestOverdue (s : State) : Option (Fin 16) := s.table.order.find? fun i => isOpened s i && deadlineReached s i

/-- Step 2 of a settling: the oldest overdue context expires and step 1 is made again, at most `n` times (R106). -/
def expiries : Nat → State → State
  | 0, s => s
  | n + 1, s =>
    match oldestOverdue s with
    | some i => expiries n (completionPass (expire i s))
    | none => s

/-- Some context is OPEN and the source has passed the oldest OPEN one: the return test (R104). -/
def passedOldest (s : State) (src : Fin 24) : Bool :=
  match oldestOpen s with
  | some i => passed s src i
  | none => false

/-- A LAGGING source that passes the return test becomes ACTIVE (R104). -/
def returnTest (s : State) (src : Fin 24) : State :=
  if (source s src).standing = .lagging ∧ passedOldest s src = true then
    modSource src (fun x => { x with standing := .active }) s
  else s

/-- Step 3 of a settling: when the oldest OPEN context is not the one at the start, every LAGGING source is tested (R106). -/
def returnTests (atStart : Option (Fin 16)) (s : State) : State :=
  if oldestOpen s ≠ none ∧ oldestOpen s ≠ atStart then allSources.foldl returnTest s else s

/-- A settling (R106), where `atStart` was the oldest OPEN context at its start; then the scanner goes on (R89, R93). -/
def settleFrom (atStart : Option (Fin 16)) (s : State) : State :=
  settleScanner (returnTests atStart (expiries 16 (completionPass s)))

/-- A settling whose cause left the set of OPEN contexts as it was. -/
def settle (s : State) : State := settleFrom (oldestOpen s) s

/-- Some OPEN context has its close or its deadline at or before local time (R109). -/
def somethingReached (s : State) : Bool :=
  s.table.order.any fun i => isOpened s i && (closeReached s i || deadlineReached s i)

/-- CLOSE_OR_DEADLINE_REACHED (R109). -/
def execCloseOrDeadlineReached (s : State) : Host.Outcome State Fault Refusal :=
  .next (if somethingReached s then settle s else s)

/-- The source's silence timer counts: RUNNING, LINK mode, not DISABLED (R38). -/
def timerRuns (s : State) (x : Source) : Bool :=
  decide (s.run = .running) && decide (x.mode = .link) && decide (x.standing ≠ .disabled)

/-- The silence timer restarted (R38). -/
def Source.restartTimer (x : Source) : Source := { x with silenceTimer := 0, silenceReported := false }

/-- The source goes DOWN and is counted (R102, R113). -/
def makeDown (src : Fin 24) (s : State) : State :=
  modSource src
    (fun x => { x with
      standing := .down
      counters := { x.counters with wentDown := bump x.counters.wentDown } }) s

/-- The monitor's answer to a silence report (R102). -/
def takeSilence (src : Fin 24) (s : State) : State :=
  match (source s src).standing with
  | .active | .lagging => settle (raise .sourceDown (makeDown src s))
  | .down | .disabled => s

/-- SILENCE_REPORT (R38, R102): the timer stands at the limit, counts, and has made no report since its restart. -/
def execSilenceReport (src : Fin 24) (s : State) : Host.Outcome State Fault Refusal :=
  .next
    (let x := source s src
     if timerRuns s x && decide (s.settings.silenceLimit ≤ x.silenceTimer) && !x.silenceReported then
       takeSilence src (setSource src { x with silenceReported := true } s)
     else s)

/-- Standing of a source after an accepted mark, before settling (R103): whether it returns to ACTIVE. -/
def returns (s : State) (src : Fin 24) : Bool := (oldestOpen s).isNone || passedOldest s src

/-- The monitor takes an accepted mark of the source, whose watermark has just been set (R103). -/
def takeMark (src : Fin 24) (s : State) : State :=
  match (source s src).standing with
  | .active | .disabled => settle s
  | .lagging =>
    settle (if returns s src then modSource src (fun x => { x with standing := .active }) s else s)
  | .down =>
    settle
      (if returns s src then modSource src (fun x => { x with standing := .active }) s
       else raise .sourceLagging (makeLagging s src))

end Sys2Proof.Machine
end

