-- ==== Sys2Proof/Machine/PoolStore.lean ====
section
/-! DEFINITION. Placement, aging and claims on the pulse pool (spec/04_pulse_pool_and_retention.md; spec/05_assembly_contexts.md, The claim
scanner), and the commands RETAINED_HEAD_AGED and CLAIM_VISIT. -/

namespace Sys2Proof.Machine

/-- The pulse becomes the placement in waiting (R59). -/
def waitPlacement (p : PulseRecord) (s : State) : State :=
  { s with pool.inWaiting := some p, pool.poolWaits := bump s.pool.poolWaits }

/-- The pulse is stored HELD in entry `e` for the contexts of `room` (R56). -/
def storeHeld (e : Fin 4096) (p : PulseRecord) (room : List (Fin 16)) (s : State) : State :=
  room.foldl (makeRef e p)
    { setPoolEntry e ⟨p, room.length⟩ s with pool.pulsesHeld := bump s.pool.pulsesHeld }

/-- The pulse is stored RETAINED in entry `e`, at the tail of the retention queue (R57). -/
def storeRetained (e : Fin 4096) (p : PulseRecord) (s : State) : State :=
  { setPoolEntry e ⟨p, 0⟩ s with
    pool.retention := s.pool.retention ++ [e]
    pool.pulsesRetained := bump s.pool.pulsesRetained }

/-- The pulse is an orphan of its source (R57). -/
def countOrphan (p : PulseRecord) (s : State) : State :=
  countSource p.source (fun c => { c with orphans := bump c.orphans }) s

/-- Placement of a pulse (R56 to R59). `cont` are the OPEN contexts that contain it. -/
def placeAmong (cont : List (Fin 16)) (p : PulseRecord) (s : State) : State :=
  let room := cont.filter (hasRoom s)
  let full := cont.filter fun i => !hasRoom s i
  if !room.isEmpty || (cont.isEmpty && decide (0 < s.settings.retentionDepth)) then
    match takeEntry s with
    | some (e, s1) =>
      if room.isEmpty then storeRetained e p s1 else storeHeld e p room (full.foldl refuseRef s1)
    | none => waitPlacement p s
  else if cont.isEmpty then countOrphan p s
  else
    full.foldl refuseRef { s with pool.pulsesRefusedFull := bump s.pool.pulsesRefusedFull }

/-- Placement as one event against the context table as it stands (R56); then the scanner goes on, since an eviction may have emptied
its visit list (R92). -/
def place (p : PulseRecord) (s : State) : State := settleScanner (placeAmong (containing s p.stamp) p s)

/-- The aged head of the retention queue becomes FREE at the tail of the free list (R61). -/
def ageHead (e : Fin 4096) (s : State) : State :=
  joinFree e { leaveRetention e s with pool.retainedAged := bump s.pool.retainedAged }

/-- The head of the retention queue is aged (R15, R61). -/
def headAged (s : State) (e : Fin 4096) : Bool :=
  decide (0 < s.settings.retentionDepth)
    && aged s.settings.ol s.settings.retentionDepth (now s) (poolEntry s e).record.stamp

/-- Aged heads leave one after another, at most `n` of them, until a head is not aged (R61). -/
def ageHeads : Nat → State → State
  | 0, s => s
  | n + 1, s =>
    match s.pool.retention with
    | [] => s
    | e :: _ => if headAged s e then ageHeads n (ageHead e s) else s

/-- RETAINED_HEAD_AGED (R61). -/
def execRetainedHeadAged (s : State) : Host.Outcome State Fault Refusal :=
  .next (settleScanner (endWait (ageHeads s.pool.retention.length s)))

/-- The pool carries out a claim of entry `e` for the context in slot `i` (R62, R90). -/
def claim (i : Fin 16) (e : Fin 4096) (s : State) : State :=
  let p := (poolEntry s e).record
  makeRef e p
    { setPoolEntry e ⟨p, 1⟩ s with
      pool.retention := s.pool.retention.erase e
      pool.retainedClaimed := bump s.pool.retainedClaimed } i

/-- The visit of entry `e` for the context in slot `i`, once the entry has left the visit list (R90). -/
def visit (i : Fin 16) (e : Fin 4096) (s : State) : State :=
  if windowHolds s (poolEntry s e).record.stamp i then
    if hasRoom s i then claim i e s else refuseRef s i
  else s

/-- The scanner's next visit, and what it does at once after it (R90, R92). -/
def claimVisit (s : State) : State :=
  match s.table.scanned, s.table.visits with
  | some i, e :: rest => settleScanner (visit i e { s with table.visits := rest })
  | _, _ => s

/-- `n` claim visits, one after another. -/
def claimVisits : Nat → State → State
  | 0, s => s
  | n + 1, s => claimVisits n (claimVisit s)

/-- CLAIM_VISIT (R90). -/
def execClaimVisit (s : State) : Host.Outcome State Fault Refusal := .next (claimVisit s)

end Sys2Proof.Machine
end

