-- ==== Sys2Proof/Machine/PadLinks.lean ====
section
/-! DEFINITION. The link receivers and staging queues (spec/03_pad_links_and_staging_queues.md), and the commands of the pad links. -/

namespace Sys2Proof.Machine

/-! ## The distributor's wait (R45) -/

/-- The head of a staging queue is a pulse. -/
def headIsPulse (x : Source) : Bool :=
  match x.queue with
  | .pulse _ :: _ => true
  | _ => false

/-- A choice of the distributor made now would leave out a queue whose head is a pulse, because the pool can give no entry (R45). -/
def leavesOut (s : State) : Bool :=
  inRun s && s.pool.inWaiting.isNone && !canGive s && allSources.any fun i => headIsPulse (source s i)

/-- The distributor makes a choice: a wait begins, and is counted once (R45, R66). -/
def noteChoice (s : State) : State :=
  if leavesOut s && !s.distributor.waiting then
    { s with distributor.waiting := true, pool.poolWaits := bump s.pool.poolWaits }
  else s

/-! ## Staging (R42, R43) -/

/-- The entry as it joins: a pulse carries GAP when gap-pending is set (R43). -/
def withGap (gap : Bool) : StagingEntry → StagingEntry
  | .pulse p => .pulse { p with flags := p.flags ||| flagsIf gap flagGap }
  | .mark t => .mark t

/-- The entry is a pulse entry. -/
def StagingEntry.isPulse : StagingEntry → Bool
  | .pulse _ => true
  | .mark _ => false

/-- The entry joins the tail of the source's staging queue (R42, R43). -/
def joinQueue (i : Fin 24) (e : StagingEntry) (s : State) : State :=
  modSource i
    (fun x => { x with
      queue := x.queue ++ [withGap x.gapPending e]
      gapPending := x.gapPending && !e.isPulse
      counters := { x.counters with
        pulsesStaged := if e.isPulse then bump x.counters.pulsesStaged else x.counters.pulsesStaged } }) s

/-- The entry is an overrun (R43). -/
def overrun (i : Fin 24) (s : State) : State :=
  raise .linkOverrun
    (modSource i
      (fun x => { x with
        gapPending := true
        counters := { x.counters with overruns := bump x.counters.overruns } }) s)

/-- The staging queue has room (R42). -/
def queueHasRoom (s : State) (i : Fin 24) : Bool := decide ((source s i).queue.length < Config.stagingCap)

/-- An entry becomes ready (R42, R43). When it joins, the distributor chooses again (R44). -/
def stage (i : Fin 24) (e : StagingEntry) (s : State) : State :=
  if queueHasRoom s i then noteChoice (joinQueue i e s) else overrun i s

/-! ## Framing (R31) -/

/-- The receiver takes arrivals from its link: its source is in LINK mode, and reset is not held (R31, R40). -/
def receives (s : State) (i : Fin 24) : Bool := !s.resetHeld && decide ((source s i).mode = .link)

/-- A malformed frame or body, or an abandoned partial frame, is counted and raised (R31, R33). -/
def malformed (i : Fin 24) (s : State) : State :=
  raise .linkMalformed (countSource i (fun c => { c with malformed := bump c.malformed }) s)

/-- The framing state of source `i` becomes `f`. -/
def setFraming (i : Fin 24) (f : Framing) (s : State) : State := modSource i (fun x => { x with framing := f }) s

/-- HUNTING, or BETWEEN at once when the line decoder holds alignment (R31). -/
def hunt (aligned : Bool) : Framing := if aligned then .between else .hunting

/-- A start delimiter at the receiver (R31). -/
def padStart (i : Fin 24) (s : State) : State :=
  if receives s i then
    match (source s i).framing with
    | .hunting => s
    | .between => setFraming i .inFrame s
    | .inFrame => malformed i s
  else s

/-- PAD_FRAME_BEGINS (R31): a start delimiter. -/
def execPadFrameBegins (i : Fin 24) (s : State) : Host.Outcome State Fault Refusal := .next (padStart i s)

/-- PAD_FRAME_ABANDONED (R31): a start delimiter. -/
def execPadFrameAbandoned (i : Fin 24) (s : State) : Host.Outcome State Fault Refusal := .next (padStart i s)

/-- PAD_ALIGNMENT_GAINED (R31): the decoder holds alignment from now on. -/
def execPadAlignmentGained (i : Fin 24) (s : State) : Host.Outcome State Fault Refusal :=
  .next
    (let s1 := modSource i (fun x => { x with aligned := true }) s
     if receives s i ∧ (source s i).framing = .hunting then setFraming i .between s1 else s1)

/-- PAD_ALIGNMENT_LOST (R31): a partial frame is abandoned and counted. -/
def execPadAlignmentLost (i : Fin 24) (s : State) : Host.Outcome State Fault Refusal :=
  .next
    (let s1 := modSource i (fun x => { x with aligned := false }) s
     if receives s i then
       match (source s i).framing with
       | .inFrame => malformed i (setFraming i .hunting s1)
       | .between | .hunting => setFraming i .hunting s1
     else s1)

/-! ## Complete frames (R31 to R37) -/

/-- A complete frame is counted and restarts the silence timer (R31, R38). -/
def countFrame (i : Fin 24) (s : State) : State :=
  modSource i
    (fun x => { x.restartTimer with
      framing := .between
      counters := { x.counters with frames := bump x.counters.frames } }) s

/-- A check failure is counted and raised (R33). -/
def checkFailure (i : Fin 24) (s : State) : State :=
  raise .linkMalformed (countSource i (fun c => { c with checkFailures := bump c.checkFailures }) s)

/-- An entry of a frame is staged in RUNNING and DRAINING and dropped in INIT and IDLE (R37). -/
def stageInRun (i : Fin 24) (e : StagingEntry) (s : State) : State := if inRun s then stage i e s else s

/-- A frame that passes tests 1 to 3, with the outcome of the check (R33 to R36). -/
def takeBody (i : Fin 24) (good : Bool) (b : PadBody) (s : State) : State :=
  let s1 := if good then s else checkFailure i s
  match b with
  | .pulse p => stageInRun i (.pulse { p with flags := flagsIf (!good) flagCheck }) s1
  | .mark t => if good then stageInRun i (.mark t) s1 else s1
  | .idle => s1

/-- Decoding of a complete frame (R33). -/
def decodeFrame (i : Fin 24) (words : List Word) (s : State) : State :=
  match decodePad s.settings.ol 1 true words with
  | some b => takeBody i (checkPasses words) b s
  | none => malformed i s

/-- PAD_FRAME_COMPLETE (R31, R33): an end delimiter. Only a receiver that is IN_FRAME has a frame to complete. -/
def execPadFrameComplete (i : Fin 24) (words : List Word) (s : State) : Host.Outcome State Fault Refusal :=
  .next
    (if receives s i ∧ (source s i).framing = .inFrame then decodeFrame i words (countFrame i s) else s)

end Sys2Proof.Machine
end

