-- ==== Sys2Proof/Machine/Distributor.lean ====
section
/-! DEFINITION. The distributor (spec/03_pad_links_and_staging_queues.md, The distributor to Taking a mark entry), and its commands
DISTRIBUTOR_TAKE_PULSE, PLACEMENT_RETRY and DISTRIBUTOR_TAKE_MARK. -/

namespace Sys2Proof.Machine

/-- The sources in search order: from the one after the last served up to 23, then from 0 back to the last served (R44). -/
def searchOrder (last : Fin 24) : List (Fin 24) :=
  allSources.filter (fun i => decide (last.val < i.val)) ++ allSources.filter (fun i => decide (i.val ≤ last.val))

/-- The source's queue is a candidate: non-empty, and its head can be taken now (R44, R45). -/
def isCandidate (s : State) (i : Fin 24) : Bool :=
  match (source s i).queue with
  | .pulse _ :: _ => canGive s
  | .mark _ :: _ => true
  | [] => false

/-- The queue is urgent (R44). -/
def isUrgent (s : State) (i : Fin 24) : Bool := decide (s.settings.urgency ≤ (source s i).queue.length)

/-- The distributor's choice: the first urgent candidate of the search, otherwise the first candidate, otherwise none (R44). -/
def choice (s : State) : Option (Fin 24) :=
  let candidates := (searchOrder s.distributor.lastServed).filter (isCandidate s)
  (candidates.find? (isUrgent s)).or candidates.head?

/-- The distributor may choose: in RUNNING and DRAINING, with no taking in progress (R44, R59). -/
def mayChoose (s : State) : Bool := inRun s && s.pool.inWaiting.isNone

/-- The head entry leaves the chosen queue, which becomes the last served (R44, R46). -/
def popQueue (i : Fin 24) (rest : List StagingEntry) (s : State) : State :=
  modSource i (fun x => { x with queue := rest }) { s with distributor.lastServed := i }

/-- The pulse is stamped before its source's watermark (R48). -/
def isLate (s : State) (i : Fin 24) (t : Stamp) : Bool :=
  match (source s i).watermark with
  | some w => before s.settings.ol t w
  | none => false

/-- The pulse as the distributor computes it: charge, peak, peak index, SATURATED, LATE (R46 steps 1 and 2, R47, R48). -/
def computedPulse (s : State) (i : Fin 24) (p : PulseEntry) : PulseRecord where
  source := i
  row := p.row
  pad := p.pad
  stamp := p.stamp
  samples := p.samples
  charge := chargeOf (s.settings.baseline.get i) p.samples
  peak := peakOf p.samples
  peakIndex := peakIndexOf p.samples
  flags := p.flags ||| flagsIf (p.samples.contains 1023) flagSaturated ||| flagsIf (isLate s i p.stamp) flagLate

/-- A LATE pulse is counted (R48). -/
def countLate (i : Fin 24) (late : Bool) (s : State) : State :=
  if late then countSource i (fun c => { c with latePulses := bump c.latePulses }) s else s

/-- The taking ends unless its placement waits; the distributor then makes its next choice (R46, R49, R59). -/
def endTaking (s : State) : State := noteChoice s

/-- The taking of a pulse entry from the head of source `i`'s queue (R46), with `visits` claim visits between the choice and the
placement (R59). -/
def takePulse (visits : Nat) (i : Fin 24) (p : PulseEntry) (rest : List StagingEntry) (s : State) : State :=
  let sp := presentArrivals (computedPulse s i p) (countLate i (isLate s i p.stamp) (popQueue i rest s))
  endTaking (place sp.2 (claimVisits visits sp.1))

/-- DISTRIBUTOR_TAKE_PULSE (R44 to R48). -/
def execDistributorTakePulse (visits : Nat) (s : State) : Host.Outcome State Fault Refusal :=
  .next
    (let s1 := noteChoice s
     if mayChoose s1 then
       match choice s1 with
       | some i =>
         match (source s1 i).queue with
         | .pulse p :: rest => takePulse visits i p rest s1
         | _ => s1
       | none => s1
     else s1)

/-- PLACEMENT_RETRY (R59): the placement in waiting is made again once an entry stands on the free list. -/
def execPlacementRetry (s : State) : Host.Outcome State Fault Refusal :=
  .next
    (match s.pool.inWaiting with
     | some p =>
       if s.pool.freeList.isEmpty then s else endTaking (place p { s with pool.inWaiting := none })
     | none => s)

/-- The mark is accepted: the watermark is unknown, or the mark is at or after it (R49). -/
def markAccepted (s : State) (i : Fin 24) (t : Stamp) : Bool :=
  match (source s i).watermark with
  | some w => atOrAfter s.settings.ol t w
  | none => true

/-- The taking of a mark entry from the head of source `i`'s queue (R49). -/
def takeMarkEntry (i : Fin 24) (t : Stamp) (rest : List StagingEntry) (s : State) : State :=
  let s1 := popQueue i rest s
  endTaking
    (if markAccepted s i t then takeMark i (modSource i (fun x => { x with watermark := some t }) s1)
     else countSource i (fun c => { c with markRegressions := bump c.markRegressions }) s1)

/-- DISTRIBUTOR_TAKE_MARK (R44, R45, R49). -/
def execDistributorTakeMark (s : State) : Host.Outcome State Fault Refusal :=
  .next
    (let s1 := noteChoice s
     if mayChoose s1 then
       match choice s1 with
       | some i =>
         match (source s1 i).queue with
         | .mark t :: rest => takeMarkEntry i t rest s1
         | _ => s1
       | none => s1
     else s1)

end Sys2Proof.Machine
end

