-- ==== Sys2Proof/Machine/Intake.lean ====
section
/-! DEFINITION. Trigger intake (spec/02_trigger_intake.md) with what an open and a merge do to the context table
(spec/05_assembly_contexts.md, Opening, The trigger list and merging), and the command LINE_TRIGGER_REQUEST. -/

namespace Sys2Proof.Machine

/-- What the acceptance tests decide. -/
inductive RequestOutcome where
  | outsideRun
  | holdOff
  | full
  | opened (number : Nat)
  | merged (number : Nat)
deriving DecidableEq, Repr

/-- A trigger request: stamp, class, origin (R17, R18). -/
abbrev Request := Trigger

/-- The open of the window the request would have (R13). -/
def requestOpen (s : State) (r : Request) : Stamp :=
  addTicks s.settings.ol r.stamp (s.settings.offset.get r.cls)

/-- The close of the window the request would have (R13). -/
def requestClose (s : State) (r : Request) : Stamp :=
  addTicks s.settings.ol (requestOpen s r) (s.settings.length.get r.cls)

/-- The lowest-numbered FREE slot (R72). -/
def lowestFree (s : State) : Option (Fin 16) := allSlots.find? fun i => decide ((context s i).state = .free)

/-- The record of a context as the open fills it (R72); its scan standing is set by the claim-scan request. -/
def openedContext (s : State) (r : Request) : Context where
  state := .opened
  number := s.table.nextNumber
  triggers := [r]
  winOpen := requestOpen s r
  winClose := requestClose s r
  span := s.settings.length.get r.cls
  deadline := addTicks s.settings.ol (requestClose s r) s.settings.grace
  refs := []
  lost := 0
  charge := 0
  missing := 0
  flags := 0
  scan := .noScan

/-- A context is opened in slot `i` (R71, R72): the slot joins the opening order, and the scan request list when the retention depth is
above 0. -/
def openContext (i : Fin 16) (r : Request) (s : State) : State :=
  requestScan i (setContext i (openedContext s r)
    { s with
      table.order := s.table.order ++ [i]
      table.nextNumber := (s.table.nextNumber + 1) % Config.eventNumbers })

/-- The trigger joins the list, and WINDOW_CLIPPED is set when its open is before the context's open (R75 steps 1 and 2, R76). -/
def mergeTrigger (i : Fin 16) (r : Request) (s : State) : State :=
  modContext i
    (fun c => { c with
      triggers := c.triggers ++ [r]
      flags := c.flags ||| flagsIf (before s.settings.ol (requestOpen s r) c.winOpen) eventWindowClipped }) s

/-- The merge moves the context's close later (R75 step 3). -/
def extendsClose (s : State) (i : Fin 16) (r : Request) : Bool :=
  after s.settings.ol (requestClose s r) (context s i).winClose

/-- The close, span and deadline follow the request's close (R75 step 3). -/
def extendWindow (i : Fin 16) (r : Request) (s : State) : State :=
  let cl := requestClose s r
  modContext i
    (fun c => { c with
      winClose := cl
      span := dist s.settings.ol cl c.winOpen
      deadline := addTicks s.settings.ol cl s.settings.grace }) s

/-- The request is merged into slot `i` (R75); a moved close is handed to the monitor (R110). -/
def mergeContext (i : Fin 16) (r : Request) (s : State) : State :=
  if extendsClose s i r then settle (requestScan i (extendWindow i r (mergeTrigger i r s)))
  else mergeTrigger i r s

/-- The youngest non-FREE context (R22). -/
def youngest (s : State) : Option (Fin 16) := s.table.order.getLast?

/-- Conditions 2, 4 and 5 of R22 on the youngest context. -/
def mergeable (s : State) (i : Fin 16) (r : Request) : Bool :=
  isOpened s i && decide ((context s i).triggers.length < Config.triggersCap)
    && before s.settings.ol (requestOpen s r) (context s i).winClose

/-- Conditions 1 and 3 of R22: coalesce is not 0 and the stamp is within it of the first trigger. -/
def withinCoalesce (s : State) (i : Fin 16) (r : Request) : Bool :=
  decide (s.settings.coalesce ≠ 0) &&
    match (context s i).triggers with
    | f :: _ => decide (dist s.settings.ol r.stamp f.stamp < s.settings.coalesce)
    | [] => false

/-- The slot the request coalesces into, when all five conditions hold (R22). -/
def coalesceTarget (s : State) (r : Request) : Option (Fin 16) :=
  (youngest s).filter fun i => withinCoalesce s i r && mergeable s i r

/-- The slot the full-table policy merges the request into (R24). -/
def policyTarget (s : State) (r : Request) : Option (Fin 16) :=
  if s.settings.fullPolicy.get r.cls = .merge then (youngest s).filter fun i => mergeable s i r else none

/-- The request lies within hold-off of the last accepted stamp (R21). -/
def withinHoldOff (s : State) (r : Request) : Bool :=
  match s.intake.lastAccepted with
  | some l => decide (dist s.settings.ol r.stamp l < s.settings.holdOff)
  | none => false

/-- The request is accepted by an open in slot `i` (R23), which the monitor then settles (R73, R110). -/
def acceptOpen (i : Fin 16) (r : Request) (s : State) : State × RequestOutcome :=
  (settleFrom (oldestOpen s) (openContext i r
    { s with intake.accepted := bump s.intake.accepted, intake.lastAccepted := some r.stamp }),
   .opened s.table.nextNumber)

/-- The request is accepted by a merge into slot `i` (R22, R24). -/
def acceptMerge (i : Fin 16) (r : Request) (s : State) : State × RequestOutcome :=
  (mergeContext i r
    { s with
      intake.accepted := bump s.intake.accepted
      intake.merged := bump s.intake.merged
      intake.lastAccepted := some r.stamp },
   .merged (context s i).number)

/-- The acceptance tests in their order (R20 to R24). -/
def request (r : Request) (s : State) : State × RequestOutcome :=
  if s.run ≠ .running then ({ s with intake.outsideRun := bump s.intake.outsideRun }, .outsideRun)
  else if withinHoldOff s r then ({ s with intake.refusedHoldOff := bump s.intake.refusedHoldOff }, .holdOff)
  else
    match coalesceTarget s r with
    | some i => acceptMerge i r s
    | none =>
      match lowestFree s with
      | some i => acceptOpen i r s
      | none =>
        match policyTarget s r with
        | some i => acceptMerge i r s
        | none => (raise .triggerLost { s with intake.refusedFull := bump s.intake.refusedFull }, .full)

/-! ## Trigger lines -/

/-- An edge from level `old` to level `new` matches the selection (R17). -/
def edgeMatches (e : EdgeSelect) (old new : Bool) : Bool :=
  match e with
  | .off => false
  | .rising => !old && new
  | .falling => old && !new
  | .both => old != new

/-- The line is sampled at `level`: the latch takes the level (R16). -/
def sampleLine (l : Fin 4) (level : Bool) (s : State) : State :=
  { s with
    intake.lineLevel := put s.intake.lineLevel l level
    intake.latch := put s.intake.latch l (some level)
    intake.sampled := put s.intake.sampled l true }

/-- The sample yields a request: the latch held a level and the edge from it matches edge(l) (R16, R17). -/
def lineRequests (l : Fin 4) (level : Bool) (s : State) : Bool :=
  match s.intake.latch.get l with
  | some old => edgeMatches (s.settings.edge.get l) old level
  | none => false

/-- LINE_TRIGGER_REQUEST (R16, R17): the line is sampled at the present tick, and an edge that matches goes to the acceptance tests,
stamped with local time. While reset is held the line is not sampled; a line is sampled once per tick. -/
def execLineTriggerRequest (l : Fin 4) (level : Bool) (s : State) : Host.Outcome State Fault Refusal :=
  .next
    (if s.resetHeld then { s with intake.lineLevel := put s.intake.lineLevel l level }
     else if s.intake.sampled.get l then s
     else if lineRequests l level s then
       (request ⟨now s, s.settings.cls.get l, .line l⟩ (sampleLine l level s)).1
     else sampleLine l level s)

end Sys2Proof.Machine
end

