-- ==== Sys2Proof/Machine/RunControl.lean ====
section
/-! DEFINITION. Run states: the resets, START, STOP, ABORT, the return to IDLE, each as one operation that gives every block the values its
chapter's table names (spec/11_command_link_settings_and_run_control.md, Run states); and the commands POWER_UP,
RESET_LINE_ASSERTED, RESET_LINE_RELEASED and ZERO_FILL_END. -/

namespace Sys2Proof.Machine

/-! ## Resets (R186 and each chapter's table) -/

/-- Every block at its reset values, with the run state INIT and no fill running. What stands outside the part, or is unread until
rewritten, stays: line levels, HOLD, the line decoders' alignment, the pool records, what was sent, the waiting commands. -/
def resetValues (s : State) : State :=
  { State.reset with
    sources := mapAll (fun x => { Source.default with aligned := x.aligned }) s.sources
    intake := { Intake.default with lineLevel := s.intake.lineLevel }
    pool :=
      { Pool.default with
        entries := mapAll (fun x => { x with refCount := 0 }) s.pool.entries
        fill := none }
    router := { Router.default with hold := s.router.hold }
    cmd := { CommandLink.default with aligned := s.cmd.aligned }
    dataLinkOut := s.dataLinkOut
    replyOut := s.replyOut
    pending := s.pending }

/-- The part held at its reset values (R186). -/
def holdReset (s : State) : State := { resetValues s with resetHeld := true }

/-- The hold of the resets ends: the zero-fill starts, and a receiver whose decoder holds alignment leaves HUNTING (R31, R64, R175,
R186). -/
def leaveReset (s : State) : State :=
  { s with
    resetHeld := false
    pool.fill := some 0
    sources := mapAll (fun x => { x with framing := hunt x.aligned }) s.sources
    cmd.framing := hunt s.cmd.aligned }

/-- The reset of the RESET command: the values of a RESET line assertion and release (R185). -/
def resetByCommand (s : State) : State := leaveReset (resetValues s)

/-- RESET_LINE_ASSERTED (R186). -/
def execResetLineAsserted (s : State) : Host.Outcome State Fault Refusal := .next (holdReset s)

/-- What power coming on adds to a reset: no decoder has found alignment, and the pool holds zeros (notes/assumptions/2.md). -/
def powerOn (s : State) : State :=
  { s with
    sources := mapAll (fun x => { x with aligned := false }) s.sources
    cmd.aligned := false
    pool.entries := Vector.replicate 4096 PoolEntry.zero }

/-- POWER_UP (R186): the part holds its reset values until the RESET line is found released. -/
def execPowerUp (s : State) : Host.Outcome State Fault Refusal := .next (holdReset (powerOn s))

/-- RESET_LINE_RELEASED (R64, R186). -/
def execResetLineReleased (s : State) : Host.Outcome State Fault Refusal :=
  .next (if s.resetHeld then leaveReset s else s)

/-- ZERO_FILL_END (R64): at the 4096th tick the last entry is written and the run state becomes IDLE. -/
def execZeroFillEnd (s : State) : Host.Outcome State Fault Refusal :=
  .next
    (if s.pool.fill = some Config.poolEntries then
       { freePool (setPoolEntry 4095 PoolEntry.zero s) with
         pool.fill := none
         run := .idle }
     else s)

/-! ## Staging queues and contexts emptied together -/

/-- The staging queues are emptied without counting, and gap-pending clears (R51). -/
def emptyStaging (s : State) : State :=
  { s with sources := mapAll (fun x => { x with queue := [], gapPending := false }) s.sources }

/-- Every context becomes FREE, and the opening order, the scan request list and the visit list are emptied (R97). The event number and
the counters stay. -/
def freeTable (s : State) : State :=
  { s with
    table.slots := Vector.replicate 16 Context.freeSlot
    table.order := []
    table.scanList := []
    table.scanned := none
    table.visits := [] }

/-! ## The return to IDLE (R183) -/

/-- The drain conditions: every context FREE, the builder IDLE, the stream buffer empty (R183). -/
def drained (s : State) : Bool := s.table.order.isEmpty && s.builder.job.isNone && s.router.buffer.isEmpty

/-- The return to IDLE (R51, R65, R97, R134, R183). -/
def returnToIdle (s : State) : State := { freeTable (freePool (emptyStaging s)) with run := .idle }

/-- The return to IDLE is judged: taken in DRAINING when the drain conditions hold (R183). -/
def judgeDrain (s : State) : State := if s.run = .draining ∧ drained s = true then returnToIdle s else s

/-! ## START (R182) -/

/-- A source at START: counters 0, queue empty, gap-pending clear, timer restarted, watermark unknown, ACTIVE when enabled (R51, R112). -/
def Source.atStart (x : Source) : Source :=
  { x with
    silenceTimer := 0
    silenceReported := false
    gapPending := false
    queue := []
    watermark := none
    standing := if x.standing = .disabled then .disabled else .active
    counters := SourceCounters.zero }

/-- The pool at START (R65, R66, R67). -/
def Pool.atStart (p : Pool) : Pool :=
  { Pool.default with entries := mapAll (fun x => { x with refCount := 0 }) p.entries, fill := p.fill }

/-- The router at START (R141, R142, R148): buffer and readout queue emptied, counters 0, the link and an owed ending kept. -/
def Router.atStart (r : Router) : Router :=
  { Router.default with inEvent := r.inEvent, wordsSent := r.wordsSent, owed := r.owed, hold := r.hold }

/-- The intake at START (R30): latches kept. -/
def Intake.atStart (i : Intake) : Intake :=
  { Intake.default with latch := i.latch, lineLevel := i.lineLevel, sampled := i.sampled }

/-- The command link's six counters at 0 (R196). -/
def CommandLink.clearCounters (c : CommandLink) : CommandLink :=
  { c with
    framesReceived := 0
    framesRefused := 0
    framesAbandoned := 0
    commandsTaken := 0
    repliesNotReady := 0
    framesUnanswered := 0 }

/-- START as one event (R182). -/
def startRun (s : State) : State :=
  { s with
    run := .running
    time.slipCount := 0
    intake := s.intake.atStart
    sources := mapAll Source.atStart s.sources
    distributor := ⟨23, false⟩
    pool := s.pool.atStart
    table := Table.default
    monitor := ⟨0, 0⟩
    builder := Builder.default
    router := s.router.atStart
    spy := Spy.default
    cmd := s.cmd.clearCounters }

/-! ## STOP and ABORT (R183, R184) -/

/-- STOP (R183): DRAINING, and the return to IDLE at once when the drain conditions already hold. -/
def stopRun (s : State) : State := judgeDrain { s with run := .draining }

/-- ABORT ends a release in its stream phase (R131). -/
def abortRelease (s : State) : State :=
  match s.builder.job with
  | some _ => { s with builder.job := none, builder.aborted := bump s.builder.aborted }
  | none => s

/-- ABORT closes an event open on the data link: an ABORTED ending is owed (R140 step 1). Words sent in event is 0 after every ABORT
(R142). -/
def closeOpenEvent (s : State) : State :=
  if s.router.inEvent then
    { s with
      router.owed := some s.router.wordsSent
      router.inEvent := false
      router.wordsSent := 0
      router.streamEventsAborted := bump s.router.streamEventsAborted }
  else { s with router.wordsSent := 0 }

/-- ABORT stops a claim pass in progress, and counts it (R93, R95). -/
def stopPass (s : State) : State :=
  match s.table.scanned with
  | some _ =>
    { s with
      table.scanned := none
      table.visits := []
      table.claimPassesStopped := bump s.table.claimPassesStopped }
  | none => s

/-- ABORT as one event (R184): releases, the stream side (R140), the claim pass, the table and the pool, the staging queues. -/
def abortRun (s : State) : State :=
  let s1 := closeOpenEvent (abortRelease s)
  { freeTable (freePool (emptyStaging (stopPass { s1 with router.buffer := [] }))) with
    run := .idle
    intake.lastAccepted := none }

end Sys2Proof.Machine
end

