-- ==== Sys2Proof/Machine/Release.lean ====
section
/-! DEFINITION. The release builder (spec/07_release_and_the_event_block.md) and its commands RELEASE_START and STREAM_WORD_WRITE. -/

namespace Sys2Proof.Machine

/-- The records of the referenced pulses, in reference order. -/
def pulsesOf (s : State) (c : Context) : List PulseRecord := c.refs.map fun e => (poolEntry s e).record

/-- The event block of the context in slot `i` as it stands (R124). -/
def eventBlock (s : State) (i : Fin 16) : List Word := blockOf (context s i) (pulsesOf s (context s i))

/-- The event size (R120). -/
def eventSize (s : State) (i : Fin 16) : Nat := sizeOfEvent (context s i).triggers (pulsesOf s (context s i))

/-- The union of two routes. -/
def Route.union (a b : Route) : Route := ⟨a.stream || b.stream, a.poll || b.poll⟩

/-- The route of an event: the union over its trigger classes (R118). -/
def routeOf (s : State) (c : Context) : Route :=
  c.triggers.foldl (fun r t => r.union (s.settings.route.get t.cls)) ⟨false, false⟩

/-- Words of the events the readout queue holds (R143). -/
def readoutWords (s : State) : Nat := (s.router.readout.map fun e => e.words.length).sum

/-- The readout queue has room for `size` words (R121). -/
def readoutFits (s : State) (size : Nat) : Bool := decide (size ≤ Config.readoutCap - readoutWords s)

/-- A released context leaves the part: its references are dropped in list order, its slot becomes FREE and leaves the opening order
(R119, R123, R129). -/
def freeContext (i : Fin 16) (s : State) : State :=
  let s1 := dropRefs (context s i).refs s
  setContext i Context.freeSlot { s1 with table.order := s1.table.order.erase i }

/-- The POLL copy is dropped for lack of room (R121). -/
def losePoll (s : State) : State := raise .readoutLost { s with builder.copiesLost := bump s.builder.copiesLost }

/-- The POLL copy joins the readout queue whole (R127, R143). -/
def writePoll (i : Fin 16) (s : State) : State :=
  { s with
    router.readout := s.router.readout ++ [⟨(context s i).number, eventBlock s i⟩]
    router.eventsStored := bump s.router.eventsStored }

/-- An event whose route is empty is suppressed (R119). -/
def suppress (i : Fin 16) (s : State) : State :=
  judgeDrain (freeContext i { s with builder.eventsSuppressed := bump s.builder.eventsSuppressed })

/-- A {POLL} event whose copy was dropped leaves nothing to write (R123). -/
def endWithoutCopy (i : Fin 16) (s : State) : State :=
  judgeDrain (freeContext i { s with builder.withoutCopy := bump s.builder.withoutCopy })

/-- A release ends with its last word written to every destination (R129). -/
def endRelease (i : Fin 16) (s : State) : State :=
  judgeDrain
    (freeContext i { s with builder.job := none, builder.eventsReleased := bump s.builder.eventsReleased })

/-- Steps 8 and 9 of the release start, with whether the POLL copy stands (R127 to R129). -/
def writeCopies (i : Fin 16) (route : Route) (size : Nat) (poll : Bool) (s : State) : State :=
  let s1 := if poll then writePoll i s else s
  if route.stream then { s1 with builder.job := some ⟨i, route, size, 0⟩ } else endRelease i s1

/-- Steps 4 to 9 of the release start of the RELEASING context in slot `i`, whose route is not empty (R117). -/
def releaseCopies (i : Fin 16) (route : Route) (s : State) : State :=
  let size := eventSize s i
  let poll := route.poll && readoutFits s size
  let s1 := if route.poll && !poll then losePoll s else s
  let s2 := presentReleases i (pulsesOf s (context s i)) s1
  if !route.stream && !poll then endWithoutCopy i s2 else writeCopies i route size poll s2

/-- The release start of the context in slot `i` (R117). -/
def startRelease (i : Fin 16) (s : State) : State :=
  let route := routeOf s (context s i)
  let s1 := modContext i (fun c => { c with state := .releasing }) s
  if route.stream || route.poll then releaseCopies i route s1 else suppress i s1

/-- The context is finished: COMPLETE or EXPIRED (R116). -/
def isFinished (s : State) (i : Fin 16) : Bool :=
  decide ((context s i).state = .complete) || decide ((context s i).state = .expired)

/-- RELEASE_START (R116, R117): the builder is IDLE and the head of the opening order is finished. -/
def execReleaseStart (s : State) : Host.Outcome State Fault Refusal :=
  .next
    (match s.table.order with
     | i :: _ => if s.builder.job.isNone && isFinished s i then startRelease i s else s
     | [] => s)

/-- The word of the STREAM copy at a stream progress. -/
def streamWordAt (s : State) (j : StreamJob) : Word := (eventBlock s j.slot).getD j.progress 0

/-- The next word of the STREAM copy enters the stream buffer, with its marks (R128, R136). -/
def writeStreamWord (j : StreamJob) (s : State) : State :=
  { s with
    router.buffer := s.router.buffer ++
      [⟨streamWordAt s j, decide (j.progress = 0), decide (j.progress + 1 = j.size)⟩]
    builder.job := some { j with progress := j.progress + 1 } }

/-- STREAM_WORD_WRITE (R128, R129): with room in the stream buffer, the next word is written; the last one ends the release. -/
def execStreamWordWrite (s : State) : Host.Outcome State Fault Refusal :=
  .next
    (match s.builder.job with
     | some j =>
       if s.router.buffer.length < Config.streamCap then
         if j.progress + 1 = j.size then endRelease j.slot (writeStreamWord j s) else writeStreamWord j s
       else s
     | none => s)

end Sys2Proof.Machine
end

