-- ==== Sys2Proof/Machine/SettingsStore.lean ====
section
/-! DEFINITION. The settings store: the settings by position, their encodings, ranges and kinds, and one CONFIGURE pair
(spec/11_command_link_settings_and_run_control.md, Settings; spec/12_wire_formats.md, CONFIGURE pairs). -/

namespace Sys2Proof.Machine

/-- The eight settings of a monitor, in the order of R151. -/
inductive MonitorField where
  | enable | point | sources | rows | pads | flags | threshold | action
deriving DecidableEq, Repr

/-- A setting of the table of R188, with its index. -/
inductive Setting where
  | ol
  | timeMode
  | offset (c : Fin 8)
  | length (c : Fin 8)
  | fullPolicy (c : Fin 8)
  | route (c : Fin 8)
  | edge (l : Fin 4)
  | cls (l : Fin 4)
  | holdOff
  | coalesce
  | grace
  | retentionDepth
  | silenceLimit
  | baseline (s : Fin 24)
  | urgency
  | contextMargin
  | poolMargin
  | monitor (m : Fin 4) (f : MonitorField)
  /-- level of the condition whose code is `k` + 1. -/
  | level (k : Fin 16)
  | alertFloor
  | checkMode
deriving DecidableEq, Repr

/-- A monitor's settings in the order of R151. -/
def allFields : List MonitorField := [.enable, .point, .sources, .rows, .pads, .flags, .threshold, .action]

/-- The settings in position order, 0..123 (R193, R199). -/
def allSettings : List Setting :=
  List.flatten
    [ [Setting.ol, Setting.timeMode],
      allClasses.map Setting.offset,
      allClasses.map Setting.length,
      allClasses.map Setting.fullPolicy,
      allClasses.map Setting.route,
      allFour.map Setting.edge,
      allFour.map Setting.cls,
      [Setting.holdOff, Setting.coalesce, Setting.grace, Setting.retentionDepth, Setting.silenceLimit],
      allSources.map Setting.baseline,
      [Setting.urgency, Setting.contextMargin, Setting.poolMargin],
      allFour.flatMap (fun m => allFields.map (Setting.monitor m)),
      allSlots.map Setting.level,
      [Setting.alertFloor, Setting.checkMode] ]

/-- The setting a pair's word 0 names; positions from 124 on name none (R199). -/
def settingAt (w : Word) : Option Setting := allSettings[w.toNat]?

/-- The setting is IDLE-only (R188). -/
def Setting.idleOnly : Setting → Bool
  | .ol | .timeMode | .offset _ | .length _ | .fullPolicy _ | .holdOff | .coalesce | .grace | .retentionDepth | .silenceLimit
  | .baseline _ => true
  | .route _ | .edge _ | .cls _ | .urgency | .contextMargin | .poolMargin | .monitor _ _ | .level _ | .alertFloor
  | .checkMode => false

/-! ## Codes of choices (R199) -/

/-- Time mode codes. -/
def TimeMode.code : TimeMode → Nat
  | .free => 0
  | .locked => 1
/-- Full-policy codes. -/
def FullPolicy.code : FullPolicy → Nat
  | .merge => 0
  | .refuse => 1
/-- Edge codes. -/
def EdgeSelect.code : EdgeSelect → Nat
  | .off => 0
  | .rising => 1
  | .falling => 2
  | .both => 3
/-- Monitor-point codes. -/
def MonitorPoint.code : MonitorPoint → Nat
  | .atArrival => 0
  | .atRelease => 1
/-- Monitor-action codes. -/
def MonitorAction.code : MonitorAction → Nat
  | .copy => 0
  | .mark => 1
  | .count => 2
/-- OFF 0 and ON 1. -/
def boolCode (b : Bool) : Nat := if b then 1 else 0

/-- Time mode of a value word. -/
def TimeMode.ofCode : Nat → Option TimeMode
  | 0 => some .free
  | 1 => some .locked
  | _ => none
/-- Full policy of a value word. -/
def FullPolicy.ofCode : Nat → Option FullPolicy
  | 0 => some .merge
  | 1 => some .refuse
  | _ => none
/-- Edge selection of a value word. -/
def EdgeSelect.ofCode : Nat → Option EdgeSelect
  | 0 => some .off
  | 1 => some .rising
  | 2 => some .falling
  | 3 => some .both
  | _ => none
/-- Monitor point of a value word. -/
def MonitorPoint.ofCode : Nat → Option MonitorPoint
  | 0 => some .atArrival
  | 1 => some .atRelease
  | _ => none
/-- Monitor action of a value word. -/
def MonitorAction.ofCode : Nat → Option MonitorAction
  | 0 => some .copy
  | 1 => some .mark
  | 2 => some .count
  | _ => none
/-- OFF or ON of a value word. -/
def boolOfCode : Nat → Option Bool
  | 0 => some false
  | 1 => some true
  | _ => none

/-- A number within a range, both ends included; otherwise refused. -/
def inRange (lo hi : Nat) (w : Word) : Option Nat := if lo ≤ w.toNat ∧ w.toNat ≤ hi then some w.toNat else none

/-- A signed number in −2048..+2047 (R199). -/
def signedInRange (w : Word) : Option Int := if -2048 ≤ w.toInt ∧ w.toInt ≤ 2047 then some w.toInt else none

/-- A route: bit 0 STREAM, bit 1 POLL, no other bit (R199). -/
def routeOfWord (w : Word) : Option Route :=
  if w.toNat < 4 then some ⟨w.getLsbD 0, w.getLsbD 1⟩ else none

/-- A range setting: lo in bits 7..0, hi in 15..8, no higher bit, lo ≤ hi ≤ `top` (R199). -/
def rangeOfWord (top : Nat) (w : Word) : Option (Nat × Nat) :=
  let lo := (w.extractLsb' 0 8).toNat
  let hi := (w.extractLsb' 8 8).toNat
  if w.toNat < 65536 ∧ lo ≤ hi ∧ hi ≤ top then some (lo, hi) else none

/-- The nearer end of a range for a value outside it (R190). -/
def clamp (lo hi v : Nat) : Nat := if v < lo then lo else if hi < v then hi else v

/-- The value taken of a clamped setting, when it differs from the value given (R190, R191). -/
def clampNote (lo hi : Nat) (w : Word) : Option Nat :=
  if lo ≤ w.toNat ∧ w.toNat ≤ hi then none else some (clamp lo hi w.toNat)

/-- A monitor's settings with one field written, unless the value is refused (R151, R199). -/
def writeMonitor (f : MonitorField) (w : Word) (m : MonitorSettings) : Option MonitorSettings :=
  match f with
  | .enable => (boolOfCode w.toNat).map fun b => { m with enable := b }
  | .point => (MonitorPoint.ofCode w.toNat).map fun p => { m with point := p }
  | .sources => if w.toNat < 16777216 then some { m with sources := w.extractLsb' 0 24 } else none
  | .rows => (rangeOfWord 63 w).map fun r => { m with rowLo := r.1, rowHi := r.2 }
  | .pads => (rangeOfWord 127 w).map fun r => { m with padLo := r.1, padHi := r.2 }
  | .flags => if w.toNat < 32 then some { m with flags := w.extractLsb' 0 5 } else none
  | .threshold => (inRange 0 32736 w).map fun n => { m with threshold := n }
  | .action => (MonitorAction.ofCode w.toNat).map fun a => { m with action := a }

/-- The settings with one setting written, unless the value is refused; the clamped settings always take a value (R188, R190, R199). -/
def writeSetting (k : Setting) (w : Word) (t : Settings) : Option Settings :=
  match k with
  | .ol => (inRange 64 4096 w).map fun n => { t with ol := n }
  | .timeMode => (TimeMode.ofCode w.toNat).map fun m => { t with timeMode := m }
  | .offset c => (signedInRange w).map fun n => { t with offset := put t.offset c n }
  | .length c => (inRange 1 65535 w).map fun n => { t with length := put t.length c n }
  | .fullPolicy c => (FullPolicy.ofCode w.toNat).map fun p => { t with fullPolicy := put t.fullPolicy c p }
  | .route c => (routeOfWord w).map fun r => { t with route := put t.route c r }
  | .edge l => (EdgeSelect.ofCode w.toNat).map fun e => { t with edge := put t.edge l e }
  | .cls l => (inRange 0 7 w).map fun n => { t with cls := put t.cls l (Fin.ofNat 8 n) }
  | .holdOff => (inRange 0 4095 w).map fun n => { t with holdOff := n }
  | .coalesce => (inRange 0 4095 w).map fun n => { t with coalesce := n }
  | .grace => (inRange 0 65535 w).map fun n => { t with grace := n }
  | .retentionDepth => (inRange 0 65535 w).map fun n => { t with retentionDepth := n }
  | .silenceLimit => some { t with silenceLimit := clamp 256 1048575 w.toNat }
  | .baseline s => some { t with baseline := put t.baseline s (clamp 0 255 w.toNat) }
  | .urgency => (inRange 1 16 w).map fun n => { t with urgency := n }
  | .contextMargin => (inRange 0 15 w).map fun n => { t with contextMargin := n }
  | .poolMargin => (inRange 0 2048 w).map fun n => { t with poolMargin := n }
  | .monitor m f => (writeMonitor f w (t.monitor.get m)).map fun x => { t with monitor := put t.monitor m x }
  | .level k => (inRange 0 3 w).map fun n => { t with level := put t.level k n }
  | .alertFloor => (inRange 0 3 w).map fun n => { t with alertFloor := n }
  | .checkMode => (boolOfCode w.toNat).map fun b => { t with checkMode := b }

/-- The clamp a pair reports, when there is one (R190). -/
def settingClamp (k : Setting) (w : Word) : Option Nat :=
  match k with
  | .silenceLimit => clampNote 256 1048575 w
  | .baseline _ => clampNote 0 255 w
  | _ => none

/-- A monitor setting as READ_SETTINGS gives it (R199). -/
def readMonitor (f : MonitorField) (m : MonitorSettings) : Word :=
  match f with
  | .enable => num (boolCode m.enable)
  | .point => num m.point.code
  | .sources => 0#8 ++ m.sources
  | .rows => 0#16 ++ BitVec.ofNat 8 m.rowHi ++ BitVec.ofNat 8 m.rowLo
  | .pads => 0#16 ++ BitVec.ofNat 8 m.padHi ++ BitVec.ofNat 8 m.padLo
  | .flags => 0#27 ++ m.flags
  | .threshold => num m.threshold
  | .action => num m.action.code

/-- A setting as READ_SETTINGS gives it (R193, R199). -/
def readSetting (t : Settings) (k : Setting) : Word :=
  match k with
  | .ol => num t.ol
  | .timeMode => num t.timeMode.code
  | .offset c => BitVec.ofInt 32 (t.offset.get c)
  | .length c => num (t.length.get c)
  | .fullPolicy c => num (t.fullPolicy.get c).code
  | .route c => 0#30 ++ BitVec.ofBool (t.route.get c).poll ++ BitVec.ofBool (t.route.get c).stream
  | .edge l => num (t.edge.get l).code
  | .cls l => num (t.cls.get l).val
  | .holdOff => num t.holdOff
  | .coalesce => num t.coalesce
  | .grace => num t.grace
  | .retentionDepth => num t.retentionDepth
  | .silenceLimit => num t.silenceLimit
  | .baseline s => num (t.baseline.get s)
  | .urgency => num t.urgency
  | .contextMargin => num t.contextMargin
  | .poolMargin => num t.poolMargin
  | .monitor m f => readMonitor f (t.monitor.get m)
  | .level k => num (t.level.get k)
  | .alertFloor => num t.alertFloor
  | .checkMode => num (boolCode t.checkMode)

/-- A source mode as READ_SETTINGS gives it (R199). -/
def SourceMode.code : SourceMode → Nat
  | .link => 0
  | .inject => 1

/-- The 148 values of READ_SETTINGS (R193). -/
def settingValues (s : State) : List Word :=
  allSettings.map (readSetting s.settings) ++ allSources.map fun i => num (source s i).mode.code

/-- What a CONFIGURE pair does. -/
inductive PairOutcome where
  | applied (s : State) (clamped : Option Nat)
  | refused (st : Status)

/-- The settings become `t`; a changed OL sets bc to 0 and keeps the orbit number (R2). -/
def installSettings (t : Settings) (s : State) : State :=
  if t.ol = s.settings.ol then { s with settings := t }
  else { s with settings := t, time.now := ⟨s.time.now.orbit, 0⟩ }

/-- One pair: name, run state, value (R189, R190). -/
def applyPair (position value : Word) (s : State) : PairOutcome :=
  match settingAt position with
  | none => .refused .badValue
  | some k =>
    if k.idleOnly ∧ (s.run = .running ∨ s.run = .draining) then .refused .wrongState
    else
      match writeSetting k value s.settings with
      | some t => .applied (installSettings t s) (settingClamp k value)
      | none => .refused .badValue

end Sys2Proof.Machine
end

