-- ==== Sys2Proof/Machine/Commands.lean ====
section
/-! DEFINITION. What each command of the command link does once its frame has been taken and its body's shape admitted: effect, reply
status, reply body (the chapters' command entries; reply bodies by R200). CONFIGURE stands in Machine/CommandLink.lean, since its
reply can be built in a later step. -/

namespace Sys2Proof.Machine

/-- A command's effect with its reply status and reply body. -/
abbrev Done := State × Status × List Word

/-- A list field of a reply body: a count word and its members (R200). -/
def listField (ws : List Word) : List Word := num ws.length :: ws

/-- A watermark in a reply body: two words (R200). -/
def watermarkWords : Option Stamp → List Word
  | some t => [1, stampWord t]
  | none => [0, 0]

/-- Standing codes (R200). -/
def Standing.code : Standing → Nat
  | .disabled => 0
  | .active => 1
  | .lagging => 2
  | .down => 3

/-- Context state codes (R200); a FREE slot is not reported. -/
def ContextState.code : ContextState → Nat
  | .free => 0
  | .opened => 1
  | .complete => 2
  | .expired => 3
  | .releasing => 4

/-- Scan standing codes (R200). -/
def ScanStanding.code : ScanStanding → Nat
  | .noScan => 0
  | .queued => 1
  | .scanning => 2

/-- A set of condition codes as a word (R200). -/
def conditionWord (c : BitVec 17) : Word := 0#15 ++ c

/-! ## Commands that read -/

/-- IDENTIFY (R192). -/
def cmdIdentify (s : State) : Done := (s, .ok, [2416, 1, 24, 16, 4096, 1024])

/-- STATUS (R172). -/
def cmdStatus (s : State) : Done :=
  (s, .ok, [conditionWord (pendingSet s), num (highest s), num (boolCode (alert s)), num s.settings.alertFloor])

/-- READ_SETTINGS (R193). -/
def cmdReadSettings (s : State) : Done := (s, .ok, settingValues s)

/-- The link state's code (R150, R200). -/
def linkStateCode (s : State) : Nat := if s.router.owed.isSome then 2 else if s.router.inEvent then 1 else 0

/-- The number of HELD entries (R67). -/
def heldEntries (s : State) : Nat := s.pool.entries.toList.countP fun x => decide (0 < x.refCount)

/-- The 51 values of the global group (R194). -/
def globalValues (s : State) : List Nat :=
  [s.cmd.framesReceived, s.cmd.framesRefused, s.cmd.framesAbandoned, s.cmd.commandsTaken, s.cmd.repliesNotReady,
   s.cmd.framesUnanswered,
   s.time.slipCount,
   s.intake.accepted, s.intake.merged, s.intake.refusedHoldOff, s.intake.refusedFull, s.intake.outsideRun,
   s.pool.pulsesHeld, s.pool.pulsesRetained, s.pool.pulsesRefusedFull, s.pool.retainedAged, s.pool.retainedEvicted,
   s.pool.retainedClaimed, s.pool.poolWaits,
   s.pool.freeList.length, s.pool.retention.length, heldEntries s, s.pool.leastFree,
   s.table.eventsTruncated, s.table.claimPasses, s.table.claimPassesStopped,
   s.monitor.eventsCompleted, s.monitor.incompleteEvents,
   s.builder.eventsReleased, s.builder.eventsSuppressed, s.builder.copiesLost, s.builder.withoutCopy, s.builder.aborted,
   s.router.streamEventsSent, s.router.streamEventsAborted, s.router.streamWordsSent, s.router.eventsStored,
   s.router.eventsTaken, s.router.eventsDiscarded,
   s.router.buffer.length, linkStateCode s, readoutWords s, s.router.readout.length,
   s.spy.hits.get 0, s.spy.hits.get 1, s.spy.hits.get 2, s.spy.hits.get 3, s.spy.stored, s.spy.lost, s.spy.taken,
   s.spy.queue.length]

/-- The counters of a source's group, then its figures (R194, R114). -/
def sourceValues (x : Source) : List Word :=
  [x.counters.frames, x.counters.pulsesStaged, x.counters.malformed, x.counters.checkFailures, x.counters.overruns,
   x.counters.markRegressions, x.counters.orphans, x.counters.latePulses, x.counters.wentLagging, x.counters.wentDown,
   x.standing.code].map num ++ watermarkWords x.watermark

/-- READ_COUNTERS (R194). -/
def cmdReadCounters (group : Word) (s : State) : Done :=
  if group = 0xFFFFFFFF#32 then (s, .ok, (globalValues s).map num)
  else if h : group.toNat < 24 then (s, .ok, sourceValues (source s ⟨group.toNat, h⟩))
  else (s, .badValue, [])

/-- One entry of READ_CONTEXTS (R96). DESIGN CHOICE (notes/assumptions/32.md): the missing set is the record's, in RELEASING too, where a
context that had expired keeps its set (R108); R96 can also be read as an empty set there. -/
def contextEntry (s : State) (i : Fin 16) : List Word :=
  let c := context s i
  [num i.val, num c.state.code, num c.number, num c.triggers.length, stampWord c.winOpen, stampWord c.winClose,
   num c.refs.length, num c.lost, 0#8 ++ c.missing, num c.scan.code]

/-- READ_CONTEXTS (R96). The entries are a list field (notes/assumptions/10.md). -/
def cmdReadContexts (s : State) : Done :=
  (s, .ok,
   [num s.table.nextNumber, num (freeSlots s), num s.table.order.length] ++ s.table.order.flatMap (contextEntry s)
     ++ listField (s.table.scanList.map fun i => num i.val)
     ++ [match s.table.scanned with
         | some i => num i.val
         | none => 0xFFFFFFFF#32])

/-! ## Run control -/

/-- SET_TIME (R6). DESIGN CHOICE (notes/assumptions/31.md): the run state is tested before the orbit number, so an orbit number out of
range is answered WRONG_STATE in RUNNING and DRAINING; R6 gives no order of its two refusals. -/
def cmdSetTime (orbit : Word) (s : State) : Done :=
  if s.run ≠ .idle then (s, .wrongState, [])
  else if orbit.toNat < Config.orbits then
    ({ s with time.now := ⟨orbit.toNat, 0⟩, time.correction := false }, .ok, [])
  else (s, .badValue, [])

/-- START (R182). -/
def cmdStart (s : State) : Done := if s.run = .idle then (startRun s, .ok, []) else (s, .wrongState, [])

/-- STOP (R183). -/
def cmdStop (s : State) : Done := if s.run = .running then (stopRun s, .ok, []) else (s, .wrongState, [])

/-- ABORT (R184). -/
def cmdAbort (s : State) : Done := if inRun s then (abortRun s, .ok, []) else (s, .wrongState, [])

/-- RESET (R185): the reset takes effect when this reply has been sent. -/
def cmdReset (s : State) : Done := (s, .ok, [])

/-! ## Soft triggers (R18) -/

/-- The reply body of a soft trigger: outcome, event number when present, stamp (R18, R200). -/
def softReply (o : RequestOutcome) (t : Stamp) : List Word :=
  match o with
  | .opened n => [0, num n, stampWord t]
  | .merged n => [1, num n, stampWord t]
  | .holdOff => [2, stampWord t]
  | .full => [3, stampWord t]
  | .outsideRun => []

/-- Checks 4 and 5 of R18 on a given stamp. -/
def softStampBad (s : State) (t : Stamp) : Bool :=
  after s.settings.ol t (now s)
    || match s.intake.lastAccepted with
       | some l => before s.settings.ol t l
       | none => false

/-- The soft request goes through the acceptance tests and is answered (R18). -/
def softRequest (c : Fin 8) (t : Stamp) (s : State) : Done :=
  let r := request ⟨t, c, .soft⟩ s
  (r.1, .ok, softReply r.2 t)

/-- SOFT_TRIGGER (R18). -/
def cmdSoftTrigger (cls : Word) (stamp : Option Word) (s : State) : Done :=
  let t := stamp.map wordStamp
  if 7 < cls.toNat ∨ (t.any fun t => decide (s.settings.ol ≤ t.bc)) = true then (s, .badValue, [])
  else if s.run ≠ .running then
    ({ s with intake.outsideRun := bump s.intake.outsideRun }, .wrongState, [])
  else if t.any (softStampBad s) = true then (s, .badValue, [])
  else softRequest (Fin.ofNat 8 cls.toNat) (t.getD (now s)) s

/-! ## SOURCE_CONTROL (R195) -/

/-- The reply body of SOURCE_CONTROL: standing, mode and watermark as the action left them (R195). -/
def sourceReply (x : Source) : List Word := [num x.standing.code, num x.mode.code] ++ watermarkWords x.watermark

/-- SOURCE_CONTROL enable (R100). -/
def enableSource (i : Fin 24) (s : State) : State :=
  let s1 := modSource i Source.restartTimer s
  if (source s i).standing = .disabled then settle (modSource i (fun x => { x with standing := .active }) s1) else s1

/-- SOURCE_CONTROL disable (R101). -/
def disableSource (i : Fin 24) (s : State) : State :=
  if (source s i).standing = .disabled then s
  else settle (modSource i (fun x => { x with standing := .disabled }) s)

/-- SOURCE_CONTROL reset (R50, R115). -/
def resetSource (i : Fin 24) (s : State) : State :=
  modSource i
    (fun x => { x.restartTimer with
      queue := []
      gapPending := false
      framing := if x.mode = .link then hunt x.aligned else x.framing
      watermark := none }) s

/-- SOURCE_CONTROL set-mode (R40). A partial frame abandoned by the change to INJECT leaves the receiver BETWEEN
(notes/assumptions/8.md). -/
def setSourceMode (i : Fin 24) (m : SourceMode) (s : State) : State :=
  if (source s i).mode = m then s
  else
    match m with
    | .inject =>
      modSource i (fun x => { x with
        mode := .inject
        framing := if x.framing = .inFrame then .between else x.framing }) s
    | .link => modSource i (fun x => { x.restartTimer with mode := .link, framing := hunt x.aligned }) s

/-- A SOURCE_CONTROL action on an existing source, answered with the source as the action left it (R195). -/
def sourceDone (i : Fin 24) (s : State) : Done := (s, .ok, sourceReply (source s i))

/-- The source a source field names (R195). -/
def sourceOf (n : Nat) : Option (Fin 24) := if h : n < 24 then some ⟨n, h⟩ else none

/-- The action `act` on the source the field names; a source outside 0..23 is answered BAD_VALUE (R195). -/
def onSource (n : Nat) (act : Fin 24 → State → State) (s : State) : Done :=
  match sourceOf n with
  | some i => sourceDone i (act i s)
  | none => (s, .badValue, [])

/-- SET_MODE with its mode field (R40, R195, R198). -/
def cmdSetMode (n mode : Nat) (s : State) : Done :=
  match mode with
  | 0 => onSource n (fun i => setSourceMode i .link) s
  | 1 => onSource n (fun i => setSourceMode i .inject) s
  | _ => (s, .badValue, [])

/-- SOURCE_CONTROL (R195, R198): source in bits 7..0, action in 15..8, mode in 23..16; bits 31..24 ignored. -/
def cmdSourceControl (w : Word) (s : State) : Done :=
  let n := (w.extractLsb' 0 8).toNat
  match (w.extractLsb' 8 8).toNat with
  | 0 => onSource n enableSource s
  | 1 => onSource n disableSource s
  | 2 => onSource n resetSource s
  | 3 => cmdSetMode n (w.extractLsb' 16 8).toNat s
  | _ => (s, .badValue, [])

/-! ## INJECT (R41) -/

/-- The staging entry an INJECT body makes; IDLE is no body (R41). -/
def injectEntry : PadBody → Option StagingEntry
  | .pulse p => some (.pulse p)
  | .mark t => some (.mark t)
  | .idle => none

/-- An INJECT body that passes is counted under frames and offered to the staging queue (R41). -/
def injectEntryTaken (i : Fin 24) (e : StagingEntry) (s : State) : Done :=
  (stage i e (countSource i (fun c => { c with frames := bump c.frames }) s), .ok, [if queueHasRoom s i then 0 else 1])

/-- INJECT (R41). -/
def cmdInject (src : Word) (body : List Word) (s : State) : Done :=
  match sourceOf src.toNat with
  | none => (s, .badValue, [])
  | some i =>
    if s.run = .idle then (s, .wrongState, [])
    else if (source s i).mode = .link then (s, .wrongState, [])
    else
      match (decodePad s.settings.ol 0 false body).bind injectEntry with
      | some e => injectEntryTaken i e s
      | none => (malformed i s, .badValue, [])

/-! ## Conditions (R170) -/

/-- The set of the codes named. -/
def codeSet (codes : List Word) : BitVec 17 := codes.foldl (fun b k => b ||| codeBit k.toNat) 0

/-- CLEAR_CONDITIONS (R170). DESIGN CHOICE (notes/assumptions/30.md): the reply body holds the two values R170 and R200 list,
the pending set and the highest condition, and no word for ALERT, although the worked sequence of
spec/10_conditions_and_the_alert_line.md says that ALERT stands in the body too; the summary word carries ALERT (R173). -/
def cmdClearConditions (codes : List Word) (s : State) : Done :=
  if codes.all (fun k => decide (1 ≤ k.toNat) && decide (k.toNat ≤ 16)) then
    let s1 := { s with latched := s.latched &&& ~~~(codeSet codes) }
    (s1, .ok, [conditionWord (pendingSet s1), num (highest s1)])
  else (s, .badValue, [])

/-! ## Readout queue and spy queue (R145, R146, R160) -/

/-- The head readout event leaves the queue (R145, R146). -/
def dropReadoutHead (rest : List ReadoutEvent) (s : State) : State :=
  { s with router.readout := rest, router.takePosition := 0 }

/-- TAKE of the head event (R145). -/
def takeHead (e : ReadoutEvent) (rest : List ReadoutEvent) (s : State) : Done :=
  let at' := s.router.takePosition
  let ws := (e.words.drop at').take Config.takeWords
  let left := e.words.length - (at' + ws.length)
  let s1 :=
    if left = 0 then dropReadoutHead rest { s with router.eventsTaken := bump s.router.eventsTaken }
    else { s with router.takePosition := at' + ws.length }
  (s1, .ok, [num e.number, num at', num ws.length, num left] ++ ws)

/-- TAKE (R145). -/
def cmdTake (s : State) : Done :=
  match s.router.readout with
  | e :: rest => takeHead e rest s
  | [] => (s, .empty, [])

/-- DISCARD (R146). -/
def cmdDiscard (s : State) : Done :=
  match s.router.readout with
  | e :: rest =>
    (dropReadoutHead rest { s with router.eventsDiscarded := bump s.router.eventsDiscarded }, .ok,
     [num e.number, num e.words.length, num s.router.takePosition])
  | [] => (s, .empty, [])

/-- SPY_TAKE (R160). -/
def cmdSpyTake (s : State) : Done :=
  match s.spy.queue with
  | e :: rest =>
    ({ s with spy.queue := rest, spy.taken := bump s.spy.taken }, .ok, spyWords e rest.length)
  | [] => (s, .empty, [])

end Sys2Proof.Machine
end

