-- ==== Sys2Proof/Machine/CommandLink.lean ====
section
/-! DEFINITION. The command link interface: framing, the tests of a complete frame, dispatch, replies, and the commands of the table that
arrive on the command link (spec/11_command_link_settings_and_run_control.md). -/

namespace Sys2Proof.Machine

/-! ## Kinds (R180; spec/12_wire_formats.md, Command and reply frames) -/

/-- The command kinds. -/
inductive CommandKind where
  | identify | status | configure | readSettings | setTime | start | stop | abort | reset | softTrigger | sourceControl
  | inject | clearConditions | readCounters | readContexts | take | discard | spyTake
deriving DecidableEq, Repr

/-- Code of a kind. -/
def CommandKind.code : CommandKind → BitVec 8
  | .identify => 0x01#8
  | .status => 0x02#8
  | .configure => 0x03#8
  | .readSettings => 0x04#8
  | .setTime => 0x05#8
  | .start => 0x06#8
  | .stop => 0x07#8
  | .abort => 0x08#8
  | .reset => 0x09#8
  | .softTrigger => 0x0A#8
  | .sourceControl => 0x0B#8
  | .inject => 0x0C#8
  | .clearConditions => 0x0D#8
  | .readCounters => 0x0E#8
  | .readContexts => 0x0F#8
  | .take => 0x10#8
  | .discard => 0x11#8
  | .spyTake => 0x12#8

/-- The kinds in code order. -/
def allKinds : List CommandKind :=
  [.identify, .status, .configure, .readSettings, .setTime, .start, .stop, .abort, .reset, .softTrigger, .sourceControl,
   .inject, .clearConditions, .readCounters, .readContexts, .take, .discard, .spyTake]

/-- The kind a kind field names (R198). -/
def CommandKind.ofCode (b : BitVec 8) : Option CommandKind := allKinds.find? fun k => k.code == b

/-- The body lengths a kind admits (spec/12_wire_formats.md, Command and reply frames). -/
def CommandKind.admits (k : CommandKind) (n : Nat) : Bool :=
  match k with
  | .identify | .status | .readSettings | .start | .stop | .abort | .reset | .readContexts | .take | .discard
  | .spyTake => decide (n = 0)
  | .configure => decide (n ≤ 254) && decide (n % 2 = 0)
  | .setTime | .sourceControl | .readCounters => decide (n = 1)
  | .softTrigger => decide (n = 1) || decide (n = 2)
  | .inject => decide (1 ≤ n)
  | .clearConditions => true

/-- The kind is served in INIT (R180). -/
def CommandKind.servedInInit : CommandKind → Bool
  | .identify | .status => true
  | .configure | .readSettings | .setTime | .start | .stop | .abort | .reset | .softTrigger | .sourceControl | .inject
  | .clearConditions | .readCounters | .readContexts | .take | .discard | .spyTake => false

/-! ## Replies (R179, R181) -/

/-- Status codes (spec/12_wire_formats.md, Command and reply frames). -/
def Status.code : Status → BitVec 4
  | .ok => 0
  | .badKind => 1
  | .badValue => 2
  | .wrongState => 3
  | .empty => 4
  | .busyInit => 5
  | .notReady => 6
  | .framing => 7
  | .badLength => 8
  | .crcBad => 9

/-- The words of a reply before its check word: header, summary word, body. -/
def Reply.content (r : Reply) : List Word :=
  (r.kind ++ r.status.code ++ r.tag ++ BitVec.ofNat 8 r.body.length : Word) :: r.summary :: r.body

/-- The words of a reply frame (R176, R181, R200). -/
def Reply.words (r : Reply) : List Word := if r.checked then r.content ++ [checkWord r.content] else r.content

/-- A reply joins the tail of the reply queue (R179). -/
def pushReply (r : Reply) (s : State) : State := { s with cmd.replies := s.cmd.replies ++ [r] }

/-- The reply of the outstanding command is built, with the summary word of the state it is built in (R173, R180). -/
def buildReply (st : Status) (body : List Word) (s : State) : State :=
  match s.cmd.outstanding with
  | some o => pushReply ⟨o.kind, o.tag, st, summaryWord s, body, o.checked, true⟩ s
  | none => s

/-- A command's effect followed by its reply (R180). -/
def finish (d : Done) : State := buildReply d.2.1 d.2.2 d.1

/-! ## CONFIGURE (R189 to R191) -/

/-- Pairs of a CONFIGURE body. -/
def pairsOf : List Word → List (Word × Word)
  | a :: b :: rest => (a, b) :: pairsOf rest
  | _ => []

/-- A member of the clamp list (R200). -/
def clampWord (c : Nat × Nat) : Word := BitVec.ofNat 7 c.1 ++ 0#5 ++ BitVec.ofNat 20 c.2

/-- The body of a CONFIGURE reply: pairs applied, the refused index when the status is not OK, the clamp list (R191, R200). -/
def configureBody (st : Status) (j : ConfigureJob) : List Word :=
  [num j.applied] ++ (if st = .ok then [] else [num j.applied]) ++ listField (j.clamps.map clampWord)

/-- The CONFIGURE ends and its reply is built (R191). -/
def endConfigure (st : Status) (j : ConfigureJob) (s : State) : State :=
  buildReply st (configureBody st j) { s with cmd.configure := none }

/-- The job after one more pair was applied. -/
def ConfigureJob.next (j : ConfigureJob) (rest : List (Word × Word)) (clamped : Option Nat) : ConfigureJob where
  rest := rest
  applied := j.applied + 1
  clamps := j.clamps ++ (clamped.map fun v => (j.applied, v)).toList

/-- At most `n` pairs of the CONFIGURE in progress; the reply is built with the last pair or the first refusal (R189, R191). -/
def configureSteps : Nat → ConfigureJob → State → State
  | n, j, s =>
    match j.rest with
    | [] => endConfigure .ok j s
    | (position, value) :: rest =>
      match n with
      | 0 => { s with cmd.configure := some j }
      | n + 1 =>
        match applyPair position value s with
        | .applied t clamped => configureSteps n (j.next rest clamped) t
        | .refused st => endConfigure st j s

/-! ## Dispatch (R180) -/

/-- The command of an admitted body. `upTo` is how many pairs a CONFIGURE applies in this step at most. A body of another shape is not
admitted, so the arms for it answer BAD_VALUE as the body-shape test does. -/
def runCommand (k : CommandKind) (upTo : Nat) (body : List Word) (s : State) : State :=
  match k, body with
  | .identify, _ => finish (cmdIdentify s)
  | .status, _ => finish (cmdStatus s)
  | .configure, ws => configureSteps upTo ⟨pairsOf ws, 0, []⟩ s
  | .readSettings, _ => finish (cmdReadSettings s)
  | .setTime, [n] => finish (cmdSetTime n s)
  | .start, _ => finish (cmdStart s)
  | .stop, _ => finish (cmdStop s)
  | .abort, _ => finish (cmdAbort s)
  | .reset, _ => finish (cmdReset s)
  | .softTrigger, [c] => finish (cmdSoftTrigger c none s)
  | .softTrigger, [c, t] => finish (cmdSoftTrigger c (some t) s)
  | .sourceControl, [w] => finish (cmdSourceControl w s)
  | .inject, src :: ws => finish (cmdInject src ws s)
  | .clearConditions, ks => finish (cmdClearConditions ks s)
  | .readCounters, [g] => finish (cmdReadCounters g s)
  | .readContexts, _ => finish (cmdReadContexts s)
  | .take, _ => finish (cmdTake s)
  | .discard, _ => finish (cmdDiscard s)
  | .spyTake, _ => finish (cmdSpyTake s)
  | .setTime, _ | .softTrigger, _ | .sourceControl, _ | .inject, _ | .readCounters, _ => buildReply .badValue [] s

/-- A taken frame is dispatched: kind, INIT, body shape, command (R180). -/
def dispatch (kind : BitVec 8) (upTo : Nat) (body : List Word) (s : State) : State :=
  match CommandKind.ofCode kind with
  | none => buildReply .badKind [] s
  | some k =>
    if s.run = .init ∧ k.servedInInit = false then buildReply .busyInit [] s
    else if k.admits body.length then runCommand k upTo body s
    else buildReply .badValue [] s

/-- A frame that passed the framing tests: NOT_READY while a command is outstanding, otherwise taken and dispatched (R178). -/
def passFrame (kind : BitVec 8) (tag : Tag) (upTo : Nat) (body : List Word) (s : State) : State :=
  match s.cmd.outstanding with
  | some _ =>
    pushReply ⟨kind, tag, .notReady, summaryWord s, [], s.cmd.frameChecked, false⟩
      { s with cmd.repliesNotReady := bump s.cmd.repliesNotReady }
  | none =>
    dispatch kind upTo body
      { s with
        cmd.outstanding := some ⟨kind, tag, s.cmd.frameChecked⟩
        cmd.commandsTaken := bump s.cmd.commandsTaken }

/-- A frame that fails a framing test (R177): its reply's summary word is taken after COMMAND_FAULT has been raised. -/
def refuseFrame (st : Status) (kind : BitVec 8) (tag : Tag) (s : State) : State :=
  let s1 := raise .commandFault { s with cmd.framesRefused := bump s.cmd.framesRefused }
  pushReply ⟨kind, tag, st, summaryWord s1, [], s.cmd.frameChecked, false⟩ s1

/-! ## Complete frames (R175, R177, R179) -/

/-- The reply queue has no place for a completing frame (R179). -/
def noPlace (s : State) : Bool :=
  decide (Config.replyCap ≤ s.cmd.replies.length)
    || (s.cmd.configure.isSome && decide (Config.replyCap - 1 ≤ s.cmd.replies.length))

/-- A complete frame is counted, and unanswered when the reply queue has no place; otherwise `tests` go on with it (R177, R179). -/
def completeFrame (tests : State → State) (s : State) : State :=
  let s1 := { s with cmd.framing := .between, cmd.framesReceived := bump s.cmd.framesReceived }
  if noPlace s1 then raise .commandFault { s1 with cmd.framesUnanswered := bump s1.cmd.framesUnanswered } else tests s1

/-- An end delimiter at the inbound receiver: only IN_FRAME is there a frame to complete (R175). -/
def endDelimiter (tests : State → State) (s : State) : State :=
  if s.cmd.framing = .inFrame then completeFrame tests s else s

/-- The framing tests of a frame built as spec/12_wire_formats.md lays it out, with its check word right: only a body that no body length
can name fails them (R177). -/
def builtFrame (kind : BitVec 8) (tag : Tag) (upTo : Nat) (body : List Word) (s : State) : State :=
  if body.length ≤ Config.bodyMax then passFrame kind tag upTo body s else refuseFrame .badLength kind tag s

/-- A command of kind `k` arrives as its complete frame. -/
def commandArrives (k : CommandKind) (tag : Tag) (body : List Word) (s : State) : State :=
  endDelimiter (builtFrame k.code tag 0 body) s

/-- Kind field of a command header. -/
def headerKind (h : Word) : BitVec 8 := h.extractLsb' 24 8
/-- Tag field of a command header. -/
def headerTag (h : Word) : Tag := h.extractLsb' 8 12
/-- Body length of a command header. -/
def headerLength (h : Word) : Nat := (h.extractLsb' 0 8).toNat

/-- The length and CRC tests of a frame of whole words, then what follows (R177). `ws` are the words after the header. -/
def testWords (header : Word) (ws : List Word) (s : State) : State :=
  let kind := headerKind header
  let tag := headerTag header
  let n := headerLength header
  if ws.length ≠ n + (if s.cmd.frameChecked then 1 else 0) then refuseFrame .badLength kind tag s
  else if s.cmd.frameChecked && !checkPasses (header :: ws) then refuseFrame .crcBad kind tag s
  else passFrame kind tag n (ws.take n) s

/-- The framing tests of the octets between the delimiters (R177). -/
def testOctets (octets : List Octet) (s : State) : State :=
  match wordsOfOctets octets with
  | [] => refuseFrame .framing 0 0 s
  | header :: ws =>
    if octets.length % 4 = 0 then testWords header ws s
    else refuseFrame .framing (headerKind header) (headerTag header) s

/-- COMMAND_FRAME (R177): a complete frame, given as its octets. -/
def execCommandFrame (octets : List Octet) (s : State) : Host.Outcome State Fault Refusal :=
  .next (endDelimiter (testOctets octets) s)

/-! ## Delimiters and alignment (R175, R176) -/

/-- A partial frame is abandoned (R175). -/
def abandonFrame (s : State) : State :=
  raise .commandFault { s with cmd.framesAbandoned := bump s.cmd.framesAbandoned }

/-- A frame begins, and the check mode in force is read for it (R175, R176). -/
def beginFrame (s : State) : State :=
  { s with cmd.framing := .inFrame, cmd.frameChecked := s.settings.checkMode }

/-- A start delimiter at the inbound receiver (R175). -/
def commandStart (s : State) : State :=
  match s.cmd.framing with
  | .hunting => s
  | .between => beginFrame s
  | .inFrame => beginFrame (abandonFrame s)

/-- COMMAND_FRAME_BEGINS (R175): a start delimiter. -/
def execCommandFrameBegins (s : State) : Host.Outcome State Fault Refusal := .next (commandStart s)

/-- COMMAND_FRAME_ABANDONED (R175): a start delimiter. -/
def execCommandFrameAbandoned (s : State) : Host.Outcome State Fault Refusal := .next (commandStart s)

/-- COMMAND_ALIGNMENT_GAINED (R175): the decoder holds alignment from now on; the receiver is held in HUNTING while reset is held. -/
def execCommandAlignmentGained (s : State) : Host.Outcome State Fault Refusal :=
  .next
    (let s1 := { s with cmd.aligned := true }
     if s.resetHeld = false ∧ s.cmd.framing = .hunting then { s1 with cmd.framing := .between } else s1)

/-- COMMAND_ALIGNMENT_LOST (R175): a partial frame is abandoned. -/
def execCommandAlignmentLost (s : State) : Host.Outcome State Fault Refusal :=
  .next
    (let s1 := { s with cmd.aligned := false, cmd.framing := .hunting }
     if s.cmd.framing = .inFrame then abandonFrame s1 else s1)

/-! ## Sending replies (R178, R179, R185) -/

/-- The reply whose sending makes the RESET command's reset take effect (R185). -/
def Reply.resets (r : Reply) : Bool := r.taken && r.kind == CommandKind.reset.code && decide (r.status = .ok)

/-- The last word of the head reply is sent: it leaves the queue, and the outstanding command clears when the reply is its own (R178,
R179). -/
def sendReply (r : Reply) (rest : List Reply) (s : State) : State :=
  { s with
    cmd.replies := rest
    cmd.outstanding := if r.taken then none else s.cmd.outstanding
    replyOut := s.replyOut ++ [r.words] }

/-- REPLY_SENT (R179, R185). -/
def execReplySent (s : State) : Host.Outcome State Fault Refusal :=
  .next
    (if s.resetHeld then s
     else
       match s.cmd.replies with
       | r :: rest => if r.resets then resetByCommand (sendReply r rest s) else sendReply r rest s
       | [] => s)

/-! ## The commands of the table, each arriving as its complete frame -/

/-- IDENTIFY (R192). -/
def execIdentify (tag : Tag) (s : State) : Host.Outcome State Fault Refusal := .next (commandArrives .identify tag [] s)

/-- STATUS (R172). -/
def execStatus (tag : Tag) (s : State) : Host.Outcome State Fault Refusal := .next (commandArrives .status tag [] s)

/-- The next pairs of the CONFIGURE in progress, if there is one (R189). -/
def resumeConfigure (upTo : Nat) (s : State) : State :=
  match s.cmd.configure with
  | some j => configureSteps upTo j s
  | none => s

/-- The words of a list of pairs. -/
def pairWords (pairs : List (Word × Word)) : List Word := pairs.flatMap fun p => [p.1, p.2]

/-- CONFIGURE (R189): its frame arrives, or the CONFIGURE in progress goes on. -/
def execConfigure (op : ConfigureOp) (s : State) : Host.Outcome State Fault Refusal :=
  .next
    (match op with
     | .frame tag pairs upTo => endDelimiter (builtFrame CommandKind.configure.code tag upTo (pairWords pairs)) s
     | .resume upTo => resumeConfigure upTo s)

/-- READ_SETTINGS (R193). -/
def execReadSettings (tag : Tag) (s : State) : Host.Outcome State Fault Refusal :=
  .next (commandArrives .readSettings tag [] s)

/-- SET_TIME (R6). -/
def execSetTime (tag : Tag) (orbit : Word) (s : State) : Host.Outcome State Fault Refusal :=
  .next (commandArrives .setTime tag [orbit] s)

/-- START (R182). -/
def execStart (tag : Tag) (s : State) : Host.Outcome State Fault Refusal := .next (commandArrives .start tag [] s)

/-- STOP (R183). -/
def execStop (tag : Tag) (s : State) : Host.Outcome State Fault Refusal := .next (commandArrives .stop tag [] s)

/-- ABORT (R184). -/
def execAbort (tag : Tag) (s : State) : Host.Outcome State Fault Refusal := .next (commandArrives .abort tag [] s)

/-- RESET (R185). -/
def execReset (tag : Tag) (s : State) : Host.Outcome State Fault Refusal := .next (commandArrives .reset tag [] s)

/-- SOFT_TRIGGER (R18). -/
def execSoftTrigger (tag : Tag) (cls : Word) (stamp : Option Word) (s : State) : Host.Outcome State Fault Refusal :=
  .next (commandArrives .softTrigger tag (cls :: stamp.toList) s)

/-- The body word of SOURCE_CONTROL (spec/12_wire_formats.md, Command and reply frames). -/
def sourceControlWord (mode action src : BitVec 8) : Word := 0#8 ++ mode ++ action ++ src

/-- SOURCE_CONTROL_ENABLE (R100). -/
def execSourceControlEnable (tag : Tag) (src : BitVec 8) (s : State) : Host.Outcome State Fault Refusal :=
  .next (commandArrives .sourceControl tag [sourceControlWord 0 0 src] s)

/-- SOURCE_CONTROL_DISABLE (R101). -/
def execSourceControlDisable (tag : Tag) (src : BitVec 8) (s : State) : Host.Outcome State Fault Refusal :=
  .next (commandArrives .sourceControl tag [sourceControlWord 0 1 src] s)

/-- SOURCE_CONTROL_RESET (R50). -/
def execSourceControlReset (tag : Tag) (src : BitVec 8) (s : State) : Host.Outcome State Fault Refusal :=
  .next (commandArrives .sourceControl tag [sourceControlWord 0 2 src] s)

/-- SOURCE_CONTROL_SET_MODE (R40). -/
def execSourceControlSetMode (tag : Tag) (src mode : BitVec 8) (s : State) : Host.Outcome State Fault Refusal :=
  .next (commandArrives .sourceControl tag [sourceControlWord mode 3 src] s)

/-- INJECT (R41). -/
def execInject (tag : Tag) (src : Word) (body : List Word) (s : State) : Host.Outcome State Fault Refusal :=
  .next (commandArrives .inject tag (src :: body) s)

/-- CLEAR_CONDITIONS (R170). -/
def execClearConditions (tag : Tag) (codes : List Word) (s : State) : Host.Outcome State Fault Refusal :=
  .next (commandArrives .clearConditions tag codes s)

/-- READ_COUNTERS (R194). -/
def execReadCounters (tag : Tag) (group : Word) (s : State) : Host.Outcome State Fault Refusal :=
  .next (commandArrives .readCounters tag [group] s)

/-- READ_CONTEXTS (R96). -/
def execReadContexts (tag : Tag) (s : State) : Host.Outcome State Fault Refusal :=
  .next (commandArrives .readContexts tag [] s)

/-- TAKE (R145). -/
def execTake (tag : Tag) (s : State) : Host.Outcome State Fault Refusal := .next (commandArrives .take tag [] s)

/-- DISCARD (R146). -/
def execDiscard (tag : Tag) (s : State) : Host.Outcome State Fault Refusal := .next (commandArrives .discard tag [] s)

/-- SPY_TAKE (R160). -/
def execSpyTake (tag : Tag) (s : State) : Host.Outcome State Fault Refusal := .next (commandArrives .spyTake tag [] s)

end Sys2Proof.Machine
end

