-- ==== Sys2Proof/Machine/Router.lean ====
section
/-! DEFINITION. The data link transmitter (spec/08_routes_and_output_links.md) and its commands DATA_LINK_UNIT_SEND, HOLD_ASSERTED and
HOLD_RELEASED. -/

namespace Sys2Proof.Machine

/-- A unit goes out on the data link. -/
def emit (u : LinkUnit) (s : State) : State := { s with dataLinkOut := s.dataLinkOut ++ [u] }

/-- The owed ABORTED end delimiter is sent alone (R137 step 1). -/
def sendOwed (count : Nat) (s : State) : State :=
  emit ⟨false, none, some (endingWord true count)⟩ { s with router.owed := none }

/-- Words of the open event sent once this word is sent (R137 step 2). -/
def sentWith (s : State) (w : StreamWord) : Nat := if w.first then 1 else s.router.wordsSent + 1

/-- The head word leaves the buffer and is sent with its delimiters (R137 step 2). -/
def sendWord (w : StreamWord) (rest : List StreamWord) (s : State) : State :=
  emit ⟨w.first, some w.word, if w.last then some (endingWord false (sentWith s w)) else none⟩
    { s with
      router.buffer := rest
      router.inEvent := !w.last
      router.wordsSent := sentWith s w
      router.streamWordsSent := bump s.router.streamWordsSent
      router.streamEventsSent :=
        if w.last then bump s.router.streamEventsSent else s.router.streamEventsSent }

/-- DATA_LINK_UNIT_SEND (R137): with HOLD released and reset not held, one unit; the drain is judged when a word left the buffer (R183).
DESIGN CHOICE (notes/assumptions/29.md): a unit begins, leaves the buffer and ends in this one event, so no unit is under way when HOLD is
asserted, and no send leaves room under HOLD (R138; the parenthesis of R139). -/
def execDataLinkUnitSend (s : State) : Host.Outcome State Fault Refusal :=
  .next
    (if s.router.hold || s.resetHeld then s
     else
       match s.router.owed, s.router.buffer with
       | some count, _ => sendOwed count s
       | none, w :: rest => judgeDrain (sendWord w rest s)
       | none, [] => s)

/-- HOLD_ASSERTED (R138). -/
def execHoldAsserted (s : State) : Host.Outcome State Fault Refusal := .next { s with router.hold := true }

/-- HOLD_RELEASED (R138). -/
def execHoldReleased (s : State) : Host.Outcome State Fault Refusal := .next { s with router.hold := false }

end Sys2Proof.Machine
end

