-- ==== Sys2Proof/Machine/TimeBase.lean ====
section
/-! DEFINITION. The time base (spec/01_time_base_and_window_arithmetic.md) and what happens at every tick: the line samples (R16), the
silence timers (R38) and the zero-fill (R64). Commands TIME_ADVANCE, ORBIT_PULSE, LAST_ACCEPTED_STAMP_FORGOTTEN. -/

namespace Sys2Proof.Machine

/-- The stamp after one advance (R1, R4). -/
def nextStamp (ol : Nat) (correction : Bool) (t : Stamp) : Stamp :=
  if correction then ⟨(t.orbit + 1) % Config.orbits, 0⟩
  else if t.bc < ol - 1 then ⟨t.orbit, t.bc + 1⟩
  else ⟨(t.orbit + 1) % Config.orbits, 0⟩

/-- Local time advances and a pending correction is used (R1, R3, R4). -/
def advanceTime (s : State) : State :=
  { s with
    time.now := nextStamp s.settings.ol s.time.correction s.time.now
    time.correction := false
    time.pulseNoted := false }

/-- Every trigger line is sampled as it stands: a line that changed at this tick is sampled by its own command (R16). -/
def sampleLines (s : State) : State :=
  { s with
    intake.latch := mapAll some s.intake.lineLevel
    intake.sampled := Vector.replicate 4 false }

/-- One tick of a source's silence timer: it counts up to the limit, or holds (R38). -/
def tickTimer (s : State) (x : Source) : Source :=
  if timerRuns s x && decide (x.silenceTimer < s.settings.silenceLimit) then
    { x with silenceTimer := x.silenceTimer + 1 }
  else x

/-- One tick of every silence timer (R38). -/
def tickTimers (s : State) : State := { s with sources := mapAll (tickTimer s) s.sources }

/-- One tick of the zero-fill: tick k writes entry k; the last entry is written by ZERO_FILL_END at the 4096th tick (R64). -/
def tickFill (s : State) : State :=
  match s.pool.fill with
  | some k =>
    if k < Config.poolEntries - 1 then
      { setPoolEntry (Fin.ofNat 4096 k) PoolEntry.zero s with pool.fill := some (k + 1) }
    else { s with pool.fill := some Config.poolEntries }
  | none => s

/-- TIME_ADVANCE (R1). While reset is held the time base holds its values (R7). -/
def execTimeAdvance (s : State) : Host.Outcome State Fault Refusal :=
  .next (if s.resetHeld then s else tickFill (tickTimers (sampleLines (advanceTime s))))

/-- A slip: the pending correction is set, counted, and TIME_SLIP raised (R4, R5). -/
def slip (s : State) : State :=
  raise .timeSlip { s with time.correction := true, time.slipCount := bump s.time.slipCount }

/-- ORBIT_PULSE (R3, R4, R7): in LOCKED mode one pulse per tick is noted, and is a slip unless bc is OL−1. -/
def execOrbitPulse (s : State) : Host.Outcome State Fault Refusal :=
  .next
    (if s.resetHeld || decide (s.settings.timeMode = .free) || s.time.pulseNoted then s
     else
       let s1 := { s with time.pulseNoted := true }
       if s.time.now.bc + 1 = s.settings.ol then s1 else slip s1)

/-- LAST_ACCEPTED_STAMP_FORGOTTEN (R19): local time has reached the stamp 16,777,216 ticks after the last accepted one. -/
def execLastAcceptedStampForgotten (s : State) : Host.Outcome State Fault Refusal :=
  .next
    (match s.intake.lastAccepted with
     | some l =>
       if atOrAfter s.settings.ol (now s) (addTicks s.settings.ol l Config.forgetTicks) then
         { s with intake.lastAccepted := none }
       else s
     | none => s)

end Sys2Proof.Machine
end

