-- ==== Sys2Proof/Machine/Dispatch.lean ====
section
/-! DEFINITION. The meaning of every command: one arm per row of spec/opcode_table.json. -/

namespace Sys2Proof.Machine

def exec (i : Instr) (s : State) : Host.Outcome State Fault Refusal :=
  match i with
  | .powerUp => Sys2Proof.Machine.execPowerUp s
  | .resetLineAsserted => Sys2Proof.Machine.execResetLineAsserted s
  | .resetLineReleased => Sys2Proof.Machine.execResetLineReleased s
  | .zeroFillEnd => Sys2Proof.Machine.execZeroFillEnd s
  | .timeAdvance => Sys2Proof.Machine.execTimeAdvance s
  | .orbitPulse => Sys2Proof.Machine.execOrbitPulse s
  | .closeOrDeadlineReached => Sys2Proof.Machine.execCloseOrDeadlineReached s
  | .lastAcceptedStampForgotten => Sys2Proof.Machine.execLastAcceptedStampForgotten s
  | .retainedHeadAged => Sys2Proof.Machine.execRetainedHeadAged s
  | .lineTriggerRequest l level => Sys2Proof.Machine.execLineTriggerRequest l level s
  | .padAlignmentGained src => Sys2Proof.Machine.execPadAlignmentGained src s
  | .padAlignmentLost src => Sys2Proof.Machine.execPadAlignmentLost src s
  | .padFrameAbandoned src => Sys2Proof.Machine.execPadFrameAbandoned src s
  | .padFrameComplete src words => Sys2Proof.Machine.execPadFrameComplete src words s
  | .silenceReport src => Sys2Proof.Machine.execSilenceReport src s
  | .distributorTakePulse visits => Sys2Proof.Machine.execDistributorTakePulse visits s
  | .placementRetry => Sys2Proof.Machine.execPlacementRetry s
  | .distributorTakeMark => Sys2Proof.Machine.execDistributorTakeMark s
  | .claimVisit => Sys2Proof.Machine.execClaimVisit s
  | .releaseStart => Sys2Proof.Machine.execReleaseStart s
  | .streamWordWrite => Sys2Proof.Machine.execStreamWordWrite s
  | .dataLinkUnitSend => Sys2Proof.Machine.execDataLinkUnitSend s
  | .holdAsserted => Sys2Proof.Machine.execHoldAsserted s
  | .holdReleased => Sys2Proof.Machine.execHoldReleased s
  | .commandAlignmentGained => Sys2Proof.Machine.execCommandAlignmentGained s
  | .commandAlignmentLost => Sys2Proof.Machine.execCommandAlignmentLost s
  | .commandFrameAbandoned => Sys2Proof.Machine.execCommandFrameAbandoned s
  | .commandFrame octets => Sys2Proof.Machine.execCommandFrame octets s
  | .replySent => Sys2Proof.Machine.execReplySent s
  | .identify tag => Sys2Proof.Machine.execIdentify tag s
  | .status tag => Sys2Proof.Machine.execStatus tag s
  | .configure op => Sys2Proof.Machine.execConfigure op s
  | .readSettings tag => Sys2Proof.Machine.execReadSettings tag s
  | .setTime tag orbit => Sys2Proof.Machine.execSetTime tag orbit s
  | .start tag => Sys2Proof.Machine.execStart tag s
  | .stop tag => Sys2Proof.Machine.execStop tag s
  | .abort tag => Sys2Proof.Machine.execAbort tag s
  | .reset tag => Sys2Proof.Machine.execReset tag s
  | .softTrigger tag cls stamp => Sys2Proof.Machine.execSoftTrigger tag cls stamp s
  | .sourceControlEnable tag src => Sys2Proof.Machine.execSourceControlEnable tag src s
  | .sourceControlDisable tag src => Sys2Proof.Machine.execSourceControlDisable tag src s
  | .sourceControlReset tag src => Sys2Proof.Machine.execSourceControlReset tag src s
  | .sourceControlSetMode tag src mode => Sys2Proof.Machine.execSourceControlSetMode tag src mode s
  | .inject tag src body => Sys2Proof.Machine.execInject tag src body s
  | .clearConditions tag codes => Sys2Proof.Machine.execClearConditions tag codes s
  | .readCounters tag group => Sys2Proof.Machine.execReadCounters tag group s
  | .readContexts tag => Sys2Proof.Machine.execReadContexts tag s
  | .take tag => Sys2Proof.Machine.execTake tag s
  | .discard tag => Sys2Proof.Machine.execDiscard tag s
  | .spyTake tag => Sys2Proof.Machine.execSpyTake tag s
  | .padFrameBegins src => Sys2Proof.Machine.execPadFrameBegins src s
  | .commandFrameBegins => Sys2Proof.Machine.execCommandFrameBegins s

end Sys2Proof.Machine
end

