-- ==== Sys2Proof/Safety.lean ====
section
/-! DEFINITION. The vocabulary of the statements: when the command link takes a frame and what its reply is, the frames of
spec/12_wire_formats.md written out, a command taken several times, and the invariants that every step keeps. -/

namespace Sys2Proof.Safety

open Sys2Proof.Machine

/-! ## Several commands in a row -/

/-- The command `c` run `n` times, stopping at the first that does not give a next state. -/
def execTimes (c : Instr) : Nat → State → Host.Outcome State Fault Refusal
  | 0, s => .next s
  | n + 1, s =>
    match exec c s with
    | .next t => execTimes c n t
    | .fault r => .fault r
    | .refused r => .refused r

/-! ## The command link -/

/-- A frame has begun, no command is outstanding, and the reply queue has a place: a whole frame that completes now is taken (R178,
R179). -/
abbrev LinkReady (s : State) : Prop :=
  s.cmd.framing = .inFrame ∧ s.cmd.outstanding = none ∧ s.cmd.configure = none ∧ s.cmd.replies.length < 8

/-- The state in which a frame with kind field `kind` has been counted and taken, before anything is executed (R177, R178). -/
def takenAs (kind : BitVec 8) (tag : Tag) (s : State) : State :=
  { s with
    cmd.framing := .between
    cmd.framesReceived := bump s.cmd.framesReceived
    cmd.outstanding := some ⟨kind, tag, s.cmd.frameChecked⟩
    cmd.commandsTaken := bump s.cmd.commandsTaken }

/-- The state in which a frame of the named kind `k` has been counted and taken. -/
def takenBy (k : CommandKind) (tag : Tag) (s : State) : State := takenAs k.code tag s

/-- The state `t` with the reply of the taken frame at the tail of the reply queue, its summary word that of `t` (R173, R179). -/
def answeredAs (kind : BitVec 8) (tag : Tag) (checked : Bool) (st : Status) (body : List Word) (t : State) : State :=
  { t with cmd.replies := t.cmd.replies ++ [⟨kind, tag, st, summaryWord t, body, checked, true⟩] }

/-- The same for the named kind `k`. -/
def answered (k : CommandKind) (tag : Tag) (checked : Bool) (st : Status) (body : List Word) (t : State) : State :=
  answeredAs k.code tag checked st body t

/-- What every reset that holds the part leaves, where `old` is the state before and `t` after: every block at its reset values (R7, R30,
R51, R97, R112, R134, R142, R148, R163, R174, R186, R188). The inputs TRG0..TRG3 and HOLD keep their levels, since they are not the
part's own. -/
def HeldAtResetValues (old t : State) : Prop :=
  t.run = .init ∧ t.resetHeld = true ∧ t.settings = Settings.default ∧ t.time = ⟨⟨0, 0⟩, 0, false, false⟩
    ∧ t.intake = { Intake.default with lineLevel := old.intake.lineLevel }
    ∧ t.distributor = ⟨23, false⟩
    ∧ t.pool = { Pool.default with entries := t.pool.entries, fill := none }
    ∧ (∀ e, (poolEntry t e).refCount = 0)
    ∧ t.table = Table.default ∧ t.monitor = ⟨0, 0⟩ ∧ t.builder = Builder.default
    ∧ t.router = { Router.default with hold := old.router.hold }
    ∧ t.spy = Spy.default ∧ t.latched = 0
    ∧ t.dataLinkOut = old.dataLinkOut ∧ t.replyOut = old.replyOut ∧ t.pending = old.pending

/-- A frame was refused by a framing test: counted, COMMAND_FAULT raised, and its reply, with the summary word taken after that, at the tail
of the reply queue (R177). -/
def refusedWith (st : Status) (kind : BitVec 8) (tag : Tag) (s : State) : State :=
  let t := { s with
    cmd.framing := .between
    cmd.framesReceived := bump s.cmd.framesReceived
    cmd.framesRefused := bump s.cmd.framesRefused
    latched := s.latched ||| codeBit 11 }
  { t with cmd.replies := s.cmd.replies ++ [⟨kind, tag, st, summaryWord t, [], s.cmd.frameChecked, false⟩] }

/-- Kind, tag and body of the frame that a command row stands for; rows that arrive on no command frame have none. -/
def frameOf : Instr → Option (CommandKind × Tag × List Word)
  | .identify tag => some (.identify, tag, [])
  | .status tag => some (.status, tag, [])
  | .configure (.frame tag pairs _) => some (.configure, tag, pairWords pairs)
  | .readSettings tag => some (.readSettings, tag, [])
  | .setTime tag orbit => some (.setTime, tag, [orbit])
  | .start tag => some (.start, tag, [])
  | .stop tag => some (.stop, tag, [])
  | .abort tag => some (.abort, tag, [])
  | .reset tag => some (.reset, tag, [])
  | .softTrigger tag cls stamp => some (.softTrigger, tag, cls :: stamp.toList)
  | .sourceControlEnable tag src => some (.sourceControl, tag, [sourceControlWord 0 0 src])
  | .sourceControlDisable tag src => some (.sourceControl, tag, [sourceControlWord 0 1 src])
  | .sourceControlReset tag src => some (.sourceControl, tag, [sourceControlWord 0 2 src])
  | .sourceControlSetMode tag src mode => some (.sourceControl, tag, [sourceControlWord mode 3 src])
  | .inject tag src body => some (.inject, tag, src :: body)
  | .clearConditions tag codes => some (.clearConditions, tag, codes)
  | .readCounters tag group => some (.readCounters, tag, [group])
  | .readContexts tag => some (.readContexts, tag, [])
  | .take tag => some (.take, tag, [])
  | .discard tag => some (.discard, tag, [])
  | .spyTake tag => some (.spyTake, tag, [])
  | .configure (.resume _) | .powerUp | .resetLineAsserted | .resetLineReleased | .zeroFillEnd | .timeAdvance | .orbitPulse
  | .closeOrDeadlineReached | .lastAcceptedStampForgotten | .retainedHeadAged | .lineTriggerRequest _ _
  | .padAlignmentGained _ | .padAlignmentLost _ | .padFrameAbandoned _ | .padFrameComplete _ _ | .silenceReport _
  | .distributorTakePulse _ | .placementRetry | .distributorTakeMark | .claimVisit | .releaseStart | .streamWordWrite
  | .dataLinkUnitSend | .holdAsserted | .holdReleased | .commandAlignmentGained | .commandAlignmentLost
  | .commandFrameAbandoned | .commandFrame _ | .replySent | .padFrameBegins _ | .commandFrameBegins => none

/-- A CONFIGURE row applies all its pairs in one step; every other row does so trivially. -/
def appliesAll : Instr → Prop
  | .configure (.frame _ pairs upTo) => pairs.length ≤ upTo
  | _ => True

/-- The header of a command frame: kind, reserved bits, tag, body length (spec/12_wire_formats.md). -/
def commandHeader (kind : BitVec 8) (reserved : BitVec 4) (tag : Tag) (body : List Word) : Word :=
  kind ++ reserved ++ tag ++ BitVec.ofNat 8 body.length

/-- The words of a command frame: header, body, and under check mode ON a check word with any high half. -/
def commandWords (kind : BitVec 8) (reserved : BitVec 4) (tag : Tag) (body : List Word) (checked : Bool)
    (high : BitVec 16) : List Word :=
  let ws := commandHeader kind reserved tag body :: body
  if checked then ws ++ [high ++ crc ws] else ws

/-- The four octets of a word, the most significant first (R175). -/
def octetsOfWord (w : Word) : List Octet :=
  [w.extractLsb' 24 8, w.extractLsb' 16 8, w.extractLsb' 8 8, w.extractLsb' 0 8]

/-- The octets of a command frame, as the host sends them between the delimiters. -/
def frameOctets (kind : BitVec 8) (reserved : BitVec 4) (tag : Tag) (body : List Word) (checked : Bool) (high : BitVec 16) :
    List Octet :=
  (commandWords kind reserved tag body checked high).flatMap octetsOfWord

/-- The body lengths that a kind admits (spec/12_wire_formats.md, Command and reply frames). -/
def bodyFits (k : CommandKind) (n : Nat) : Prop :=
  match k with
  | .identify | .status | .readSettings | .start | .stop | .abort | .reset | .readContexts | .take | .discard
  | .spyTake => n = 0
  | .configure => n % 2 = 0
  | .setTime | .sourceControl | .readCounters => n = 1
  | .softTrigger => n = 1 ∨ n = 2
  | .inject => 1 ≤ n
  | .clearConditions => True

/-- The value word `w` lies in the form and range of the setting at position `k` (R188, R199; R151 for the monitors). -/
def settingTakes (k : Nat) (w : Word) : Prop :=
  let n := w.toNat
  let ordered := fun top : Nat => n < 65536 ∧ n % 256 ≤ n / 256 ∧ n / 256 ≤ top
  if k = 0 then 64 ≤ n ∧ n ≤ 4096
  else if k = 1 then n ≤ 1
  else if k ≤ 9 then -2048 ≤ w.toInt ∧ w.toInt ≤ 2047
  else if k ≤ 17 then 1 ≤ n ∧ n ≤ 65535
  else if k ≤ 25 then n ≤ 1
  else if k ≤ 37 then n ≤ 3
  else if k ≤ 41 then n ≤ 7
  else if k ≤ 43 then n ≤ 4095
  else if k ≤ 45 then n ≤ 65535
  else if k = 46 then 256 ≤ n ∧ n ≤ 1048575
  else if k ≤ 70 then n ≤ 255
  else if k = 71 then 1 ≤ n ∧ n ≤ 16
  else if k = 72 then n ≤ 15
  else if k = 73 then n ≤ 2048
  else if k ≤ 105 then
    match (k - 74) % 8 with
    | 2 => n < 16777216
    | 3 => ordered 63
    | 4 => ordered 127
    | 5 => n < 32
    | 6 => n ≤ 32736
    | 7 => n ≤ 2
    | _ => n ≤ 1
  else if k ≤ 122 then n ≤ 3
  else n ≤ 1

/-- The pairs of a list applied one after another, with the clamps, or nothing when one is refused (R189). -/
def applyAll : List (Word × Word) → ConfigureJob → State → Option (ConfigureJob × State)
  | [], j, s => some (j, s)
  | p :: rest, j, s =>
    match applyPair p.1 p.2 s with
    | .applied t clamped => applyAll rest (j.next [] clamped) t
    | .refused _ => none

/-! ## What several commands end in -/

/-- From `s` to `t` the context in slot `i` leaves the part (R63, R119, R123, R129): its references are dropped in list order, the entries
that reach 0 join the tail of the free list, a wait of the distributor ends when the pool can give an entry, and the slot is FREE and
out of the opening order. Nothing else changes. -/
def Freed (i : Fin 16) (s t : State) : Prop :=
  t = { s with
      pool.entries := t.pool.entries
      pool.freeList := s.pool.freeList ++ ((context s i).refs.filter fun e => decide ((poolEntry s e).refCount = 1))
      distributor.waiting := if t.pool.freeList = [] ∧ s.pool.retention = [] then s.distributor.waiting else false
      table.slots := t.table.slots
      table.order := s.table.order.erase i }
    ∧ (∀ e, poolEntry t e =
        { poolEntry s e with refCount := (poolEntry s e).refCount - if e ∈ (context s i).refs then 1 else 0 })
    ∧ ∀ j, context t j = if j = i then Context.freeSlot else context s j

/-- From `s` to `t` the run state becomes IDLE and each block takes its return-to-IDLE values (R51, R65, R97): the staging queues empty, every
entry FREE in order with its record kept, every context FREE, no wait, no scan. Nothing else changes. -/
def Emptied (s t : State) : Prop :=
  t = { s with
      run := .idle
      sources := t.sources
      distributor.waiting := false
      pool.entries := t.pool.entries
      pool.freeList := allEntries
      pool.retention := []
      pool.inWaiting := none
      table := { s.table with
        slots := t.table.slots, order := [], scanList := [], scanned := none, visits := [] } }
    ∧ (∀ e, poolEntry t e = { poolEntry s e with refCount := 0 })
    ∧ (∀ i, source t i = { source s i with queue := [], gapPending := false })
    ∧ ∀ i, context t i = Context.freeSlot

/-- From `s` to `t` the return to IDLE is judged (R183): taken in DRAINING with every context FREE, the builder IDLE and the stream buffer
empty; otherwise nothing changes. -/
def ReturnJudged (s t : State) : Prop :=
  if s.run = .draining ∧ s.table.order = [] ∧ s.builder.job = none ∧ s.router.buffer = [] then Emptied s t else t = s

/-! ## The completion monitor -/

/-- The source has passed the close `c` (R14). -/
abbrev HasPassed (s : State) (src : Fin 24) (c : Stamp) : Prop :=
  ∃ w, (source s src).watermark = some w ∧ atOrAfter s.settings.ol w c = true

/-- Every ACTIVE source has passed the close `c` (R105). -/
abbrev AllHavePassed (s : State) (c : Stamp) : Prop :=
  ∀ src, (source s src).standing = .active → HasPassed s src c

/-- No OPEN context has reached its deadline. -/
abbrev NoneOverdue (s : State) : Prop :=
  ∀ j ∈ s.table.order, (context s j).state = .opened →
    atOrAfter s.settings.ol s.time.now (context s j).deadline = false

/-- No OPEN context has reached its close or its deadline. -/
abbrev NothingReached (s : State) : Prop :=
  NoneOverdue s ∧ ∀ j ∈ s.table.order, (context s j).state = .opened →
    atOrAfter s.settings.ol s.time.now (context s j).winClose = false

/-- How many contexts that are OPEN in `s` have the state `st` in `t`. -/
def became (s t : State) (st : ContextState) : Nat :=
  s.table.order.countP fun i => decide ((context s i).state = .opened ∧ (context t i).state = st)

/-- The counters of a settling from `s` to `t` (R93, R95, R107, R108, R113): events completed grows by one for each context that became
COMPLETE, incomplete events for each that became EXPIRED, and claim passes stopped when the scanned context left OPEN. -/
def SettlingCounted (s t : State) : Prop :=
  t.monitor =
      ⟨bump^[became s t .complete] s.monitor.eventsCompleted, bump^[became s t .expired] s.monitor.incompleteEvents⟩
    ∧ t.table.claimPassesStopped =
        (match s.table.scanned with
         | some i =>
           if (context s i).state = .opened ∧ (context t i).state ≠ .opened then bump s.table.claimPassesStopped
           else s.table.claimPassesStopped
         | none => s.table.claimPassesStopped)

/-! ## Words read back -/

/-- Bits `low` to `low + width - 1` of word `k` of a list, as a number. -/
def field (ws : List Word) (k low width : Nat) : Nat := ((ws.getD k 0).extractLsb' low width).toNat

/-! ## Capture monitors -/

/-- At the point `pt` the pulse as it is shown matches monitor `m` (R151, R152, R153). -/
def monitorHit (s : State) (pt : MonitorPoint) (m : Fin 4) (p : PulseRecord) : Bool :=
  let k := s.settings.monitor.get m
  k.enable && decide (k.point = pt) && k.sources.getLsbD p.source.val
    && decide (k.rowLo ≤ p.row ∧ p.row ≤ k.rowHi) && decide (k.padLo ≤ p.pad ∧ p.pad ≤ k.padHi)
    && decide (k.flags = 0 ∨ p.flags &&& k.flags ≠ 0) && decide (k.threshold ≤ p.charge)

/-- Monitor `m` has the action `a` (R151). -/
def hasAction (s : State) (a : MonitorAction) (m : Fin 4) : Bool := decide ((s.settings.monitor.get m).action = a)

/-- Spy entries offered one after another (R158, R159). -/
def offeredAll (es : List SpyEntry) (s : State) : State := es.foldl (fun t e => offerSpy e t) s

/-- The matches of an event's pulses at the release point, pulse by pulse in reference order and each in monitor order (R122, R155). -/
def releaseHits (s : State) (ps : List PulseRecord) : List (Fin 4 × PulseRecord) :=
  ps.flatMap fun p => (allFour.filter fun m => monitorHit s .atRelease m p).map fun m => (m, p)

/-- The state after the pulses of the event in slot `i` were shown to the release monitors (R122, R153, R155 to R159): each match is counted, each
match of a COPY offers an entry with the event number, and a match of a MARK sets MARKED on the event. -/
def shownAtRelease (i : Fin 16) (ps : List PulseRecord) (s : State) : State :=
  let hits := releaseHits s ps
  let t := offeredAll
    ((hits.filter fun h => hasAction s .copy h.1).map fun h => ⟨h.1, some (context s i).number, h.2⟩)
    { s with spy.hits := Vector.ofFn fun m => bump^[hits.countP fun h => decide (h.1 = m)] (s.spy.hits.get m) }
  if hits.any fun h => hasAction s .mark h.1 then
    modContext i (fun c => { c with flags := c.flags ||| eventMarked }) t
  else t

/-! ## Pad-link frames (spec/12_wire_formats.md) -/

/-- A pulse entry whose every field is in its range (R34, R42). -/
abbrev PulseInRange (ol : Nat) (p : PulseEntry) : Prop :=
  p.row ≤ 63 ∧ p.pad ≤ 127 ∧ p.stamp.orbit < 1048576 ∧ p.stamp.bc < ol ∧ 1 ≤ p.samples.length ∧ p.samples.length ≤ 32
    ∧ ∀ x ∈ p.samples, x ≤ 1023

/-- The words of a PULSE frame without its check word, with any reserved header bits. -/
def pulseBody (p : PulseEntry) (reserved : BitVec 6) : List Word :=
  (1#4 ++ BitVec.ofNat 8 p.row ++ BitVec.ofNat 8 p.pad ++ reserved ++ BitVec.ofNat 6 p.samples.length : Word)
    :: stampWord p.stamp :: packSamples p.samples

/-- The words of a MARK frame without its check word, with any reserved header bits. -/
def markBody (t : Stamp) (reserved : BitVec 28) : List Word := [2#4 ++ reserved, stampWord t]

/-- The header of an IDLE frame, with any reserved bits. -/
def idleBody (reserved : BitVec 28) : List Word := [3#4 ++ reserved]

/-- The check word carries, in its low 16 bits, the CRC of the words before it (R32). -/
def checkGood (body : List Word) (c : Word) : Bool := c.extractLsb' 0 16 == crc body

/-- A complete frame has been counted and has restarted the silence timer (R31, R38). -/
def frameCounted (i : Fin 24) (s : State) : State :=
  modSource i
    (fun x => { x with
      framing := .between
      silenceTimer := 0
      silenceReported := false
      counters := { x.counters with frames := bump x.counters.frames } }) s

/-- A check failure has been counted and raised (R33). -/
def checkFailureCounted (i : Fin 24) (s : State) : State :=
  raise .linkMalformed
    (modSource i
      (fun x => { x with counters := { x.counters with checkFailures := bump x.counters.checkFailures } }) s)

/-- A malformed frame or body, or an abandoned partial frame, has been counted and raised (R31, R33). -/
def malformedCounted (i : Fin 24) (s : State) : State :=
  raise .linkMalformed
    (modSource i (fun x => { x with counters := { x.counters with malformed := bump x.counters.malformed } }) s)

/-- A receiver that can complete a frame: its source in LINK mode, reset not held, IN_FRAME (R31). -/
abbrev Receiving (s : State) (i : Fin 24) : Prop :=
  s.resetHeld = false ∧ (source s i).mode = .link ∧ (source s i).framing = .inFrame

/-! ## The stream side -/

/-- The words of an event with the marks FIRST and LAST, from stream progress `k` of `size` (R136). -/
def markedFrom (k size : Nat) : List Word → List StreamWord
  | [] => []
  | w :: ws => ⟨w, decide (k = 0), decide (k + 1 = size)⟩ :: markedFrom (k + 1) size ws

/-- A whole event as it stands in the stream buffer. -/
def marked (ws : List Word) : List StreamWord := markedFrom 0 ws.length ws

/-- The units of a whole event on the data link, from word `k` of `size`: a start delimiter before the first word, a NORMAL end
delimiter with the count after the last (R137). -/
def unitsFrom (k size : Nat) : List Word → List LinkUnit
  | [] => []
  | w :: ws =>
    ⟨decide (k = 0), some w, if k + 1 = size then some (endingWord false size) else none⟩ :: unitsFrom (k + 1) size ws

/-- The pulse that the words of a pulse block carry (spec/12_wire_formats.md, Event block): source in bits 31..27 of word 0, pulse flags in
26..22, n in 21..16, pad row in 15..10, pad in 6..0; the stamp word; peak index in bits 30..26 of word 2, peak in 25..16, charge in 15..0;
then the samples, three to a word. -/
def pulseOfBlock (ws : List Word) : Option PulseRecord :=
  match ws with
  | a :: b :: c :: rest =>
    if h : (a.extractLsb' 27 5).toNat < 24 then
      some
        { source := ⟨(a.extractLsb' 27 5).toNat, h⟩
          row := (a.extractLsb' 10 6).toNat
          pad := (a.extractLsb' 0 7).toNat
          stamp := ⟨(b.extractLsb' 12 20).toNat, (b.extractLsb' 0 12).toNat⟩
          samples := unpackSamples (a.extractLsb' 16 6).toNat rest
          charge := (c.extractLsb' 0 16).toNat
          peak := (c.extractLsb' 16 10).toNat
          peakIndex := (c.extractLsb' 26 5).toNat
          flags := a.extractLsb' 22 5 }
    else none
  | _ => none

/-- A pulse record whose every field is in its range (R54). -/
abbrev RecordInRange (p : PulseRecord) : Prop :=
  p.row ≤ 63 ∧ p.pad ≤ 127 ∧ p.stamp.orbit < 1048576 ∧ p.stamp.bc < 4096 ∧ 1 ≤ p.samples.length ∧ p.samples.length ≤ 32
    ∧ (∀ x ∈ p.samples, x ≤ 1023) ∧ p.charge ≤ 32736 ∧ p.peak ≤ 1023 ∧ p.peakIndex < p.samples.length

/-- The place of source `j` in the distributor's search, 0 for the source after the last served (R44). -/
def turn (last j : Fin 24) : Nat := (j.val + 23 - last.val) % 24

/-! ## Invariants -/

/-- Local time is a stamp of the present orbit length (R1, R2). -/
def TimeInRange (s : State) : Prop :=
  64 ≤ s.settings.ol ∧ s.settings.ol ≤ 4096 ∧ s.time.now.orbit < 1048576 ∧ s.time.now.bc < s.settings.ol

/-- Every setting lies in its range (R188, R151). -/
def SettingsInRange (s : State) : Prop :=
  (64 ≤ s.settings.ol ∧ s.settings.ol ≤ 4096)
    ∧ (∀ c, -2048 ≤ s.settings.offset.get c ∧ s.settings.offset.get c ≤ 2047)
    ∧ (∀ c, 1 ≤ s.settings.length.get c ∧ s.settings.length.get c ≤ 65535)
    ∧ s.settings.holdOff ≤ 4095 ∧ s.settings.coalesce ≤ 4095 ∧ s.settings.grace ≤ 65535
    ∧ s.settings.retentionDepth ≤ 65535
    ∧ (256 ≤ s.settings.silenceLimit ∧ s.settings.silenceLimit ≤ 1048575)
    ∧ (∀ i, s.settings.baseline.get i ≤ 255)
    ∧ (1 ≤ s.settings.urgency ∧ s.settings.urgency ≤ 16)
    ∧ s.settings.contextMargin ≤ 15 ∧ s.settings.poolMargin ≤ 2048
    ∧ (∀ m, (s.settings.monitor.get m).rowLo ≤ (s.settings.monitor.get m).rowHi
        ∧ (s.settings.monitor.get m).rowHi ≤ 63
        ∧ (s.settings.monitor.get m).padLo ≤ (s.settings.monitor.get m).padHi
        ∧ (s.settings.monitor.get m).padHi ≤ 127
        ∧ (s.settings.monitor.get m).threshold ≤ 32736)
    ∧ (∀ k, s.settings.level.get k ≤ 3) ∧ s.settings.alertFloor ≤ 3

/-- The bounded queues hold at most what they have room for: staging queues 16, spy queue 32, stream buffer 4096 (R42, R136, R159). -/
def QueuesWithinRoom (s : State) : Prop :=
  (∀ i, (source s i).queue.length ≤ 16) ∧ s.spy.queue.length ≤ 32 ∧ s.router.buffer.length ≤ 4096

/-- The reply queue and the outstanding command fit together (R178, R179): at most 8 replies, one place kept for a reply still to be
built; exactly one reply of a taken command stands in the queue while a command whose reply is built is outstanding, none otherwise; a
CONFIGURE in progress is outstanding. -/
def RepliesFit (s : State) : Prop :=
  s.cmd.replies.length + (if s.cmd.configure.isSome then 1 else 0) ≤ 8
    ∧ s.cmd.replies.countP (fun r => r.taken)
        = (if s.cmd.outstanding.isSome ∧ s.cmd.configure = none then 1 else 0)
    ∧ (s.cmd.configure.isSome → s.cmd.outstanding.isSome)

/-- The readout queue holds at most 16,384 words in whole events, and the take position lies inside the head event (R143, R145). -/
def ReadoutWithinRoom (s : State) : Prop :=
  readoutWords s ≤ 16384
    ∧ (∀ e ∈ s.router.readout, e.words ≠ [])
    ∧ match s.router.readout with
      | [] => s.router.takePosition = 0
      | e :: _ => s.router.takePosition < e.words.length

/-- The run state's promises: outside RUNNING and DRAINING no context is non-FREE, no release is in progress, and the stream buffer is
empty; a zero-fill or a held reset means INIT, and a held reset means no zero-fill (R64, R97, R116, R142, R186). -/
def RestOutsideRun (s : State) : Prop :=
  (inRun s = false → s.table.order = [] ∧ s.builder.job = none ∧ s.router.buffer = [])
    ∧ (s.pool.fill.isSome ∨ s.resetHeld = true → s.run = .init)
    ∧ (s.resetHeld = true → s.pool.fill = none)

/-- Reading words of the stream buffer from the link state `inside`, each FIRST mark stands outside an event and each other word inside
one; the result is the link state after them, or nothing when a mark stands wrong (R136, R137). -/
def bracketed : Bool → List StreamWord → Option Bool
  | inside, [] => some inside
  | inside, w :: ws => if w.first = inside then none else bracketed (!w.last) ws

/-- The events of the stream buffer are bracketed by their marks, up to the one the builder is still writing (R136, R137). -/
def StreamBracketed (s : State) : Prop :=
  RestOutsideRun s
    ∧ bracketed s.router.inEvent s.router.buffer
        = some (match s.builder.job with
                | some j => decide (0 < j.progress)
                | none => false)
    ∧ ∀ j, s.builder.job = some j → j.progress < j.size

/-- The context table and its lists (R68, R69, R74, R79, R84, R85, R88): the opening order holds each non-FREE slot once; the scan request
list holds OPEN slots, each once; scan standings say what the list and the scanner do; a non-FREE context has 1 to 4 triggers, at most
1024 references, and lost count and charge total within their clamps. -/
def TableLawful (s : State) : Prop :=
  s.table.order.Nodup
    ∧ (∀ i, i ∈ s.table.order ↔ (context s i).state ≠ .free)
    ∧ s.table.scanList.Nodup
    ∧ (∀ i ∈ s.table.scanList, (context s i).state = .opened)
    ∧ (∀ i, s.table.scanned = some i → (context s i).state = .opened)
    ∧ (∀ i, (context s i).scan =
        if s.table.scanned = some i then .scanning else if i ∈ s.table.scanList then .queued else .noScan)
    ∧ (∀ i ∈ s.table.order,
        1 ≤ (context s i).triggers.length ∧ (context s i).triggers.length ≤ 4
          ∧ (context s i).refs.length ≤ 1024 ∧ (context s i).lost ≤ 65535 ∧ (context s i).charge ≤ 16777215)
    ∧ (∀ j, s.builder.job = some j → s.table.order.head? = some j.slot ∧ (context s j.slot).state = .releasing)

/-- How many slots' reference lists hold the entry. -/
def holders (s : State) (e : Fin 4096) : Nat := allSlots.countP fun i => (context s i).refs.contains e

/-- The pool's law (R53, R55, R61, R63, R79): an entry's reference count is the number of contexts that hold it; an entry of count 0 stands
on exactly one of the free list and the retention queue, a held one on neither; neither list and no reference list holds an entry
twice; what the claim scanner has still to visit is retained, in queue order, and nothing with no pass in progress (R89, R92); a FREE slot
holds nothing. -/
def PoolLawful (s : State) : Prop :=
  RestOutsideRun s ∧ TableLawful s
    ∧ (∀ i, (context s i).state = .free → (context s i).refs = [])
    ∧ (∀ e, (poolEntry s e).refCount = holders s e)
    ∧ s.pool.freeList.Nodup ∧ s.pool.retention.Nodup
    ∧ (∀ e, e ∈ s.pool.freeList → e ∉ s.pool.retention)
    ∧ (∀ e, (poolEntry s e).refCount = 0 ↔ (e ∈ s.pool.freeList ∨ e ∈ s.pool.retention))
    ∧ (∀ i, (context s i).refs.Nodup)
    ∧ s.table.visits.Sublist s.pool.retention
    ∧ (s.table.scanned = none → s.table.visits = [])
    ∧ s.pool.leastFree ≤ s.pool.freeList.length

/-- The windows of the table (R13, R14, R75, R77): each non-FREE context's close lies span ticks after its open and its deadline grace
ticks after its close, and its span is at least 1 and at most 65,535 for its first trigger and 65,534 for each further one. -/
def WindowsLawful (s : State) : Prop :=
  RestOutsideRun s ∧ TableLawful s ∧ SettingsInRange s ∧ TimeInRange s
    ∧ ∀ i ∈ s.table.order,
        (context s i).winOpen.orbit < 1048576 ∧ (context s i).winOpen.bc < s.settings.ol
          ∧ (context s i).winClose = addTicks s.settings.ol (context s i).winOpen (context s i).span
          ∧ (context s i).deadline = addTicks s.settings.ol (context s i).winClose s.settings.grace
          ∧ 1 ≤ (context s i).span
          ∧ (context s i).span ≤ 65535 + 65534 * ((context s i).triggers.length - 1)

end Sys2Proof.Safety
end

