-- ==== Sys2Proof/Certificates/Slice0/Obligations.lean ====
section
/-! DEFINITION. The statements for the provers (OBLIGATIONS.json lists them). A statement gives the next state whole where it can, so
that what it does not name is unchanged. -/

open Sys2Proof Sys2Proof.Machine Sys2Proof.Safety

/-! ## The queue of commands -/

/-- A step takes the command at the front of the queue and runs it on the state with the queue's rest. On an empty queue it idles: the
MODEL's choice (notes/assumptions/3.md). -/
def Obligations.StepRunsFrontCommand : Prop :=
  (∀ (c : Instr) (rest : List Instr) (s : State),
      s.pending = c :: rest → step s = exec c { s with pending := rest })
    ∧ ∀ s : State, s.pending = [] → step s = .next s

/-! ## Resets and the zero-fill -/

/-- The RESET line asserted and power-up hold every block at its reset values. Under the line each line decoder keeps its alignment; that at
power-up none holds alignment and the pool's records are 0 is the MODEL's choice (notes/assumptions/2.md). -/
def Obligations.ResetsHoldEveryBlock : Prop :=
  ∀ s : State,
    (∃ t, exec .resetLineAsserted s = .next t ∧ HeldAtResetValues s t
      ∧ t.cmd = { CommandLink.default with aligned := s.cmd.aligned }
      ∧ ∀ i, source t i = { Source.default with aligned := (source s i).aligned })
    ∧ ∃ t, exec .powerUp s = .next t ∧ HeldAtResetValues s t
      ∧ t.cmd = CommandLink.default ∧ (∀ i, source t i = Source.default) ∧ ∀ e, poolEntry t e = PoolEntry.zero

/-- At the release the zero-fill starts from entry 0, and a receiver whose line decoder holds alignment is BETWEEN (R31, R64, R175, R186); a
release of a line that is not held changes nothing (the MODEL's choice, notes/assumptions/12.md). One tick of the fill writes one entry; at
the 4096th tick ZERO_FILL_END writes the last one and the run state becomes IDLE, with the free list in entry-number order, the retention
queue empty and no placement waiting (R64). Which command writes which entry is the MODEL's choice (notes/assumptions/13.md). -/
def Obligations.ZeroFillStartsStepsAndEnds : Prop :=
  (∀ s : State,
    (s.resetHeld = true → ∃ t, exec .resetLineReleased s = .next t
      ∧ t = { s with
          resetHeld := false
          pool.fill := some 0
          sources := t.sources
          cmd.framing := if s.cmd.aligned then .between else .hunting }
      ∧ ∀ i, source t i = { source s i with framing := if (source s i).aligned then .between else .hunting })
    ∧ (s.resetHeld = false → exec .resetLineReleased s = .next s))
  ∧ (∀ (s : State) (k : Nat), s.resetHeld = false → s.pool.fill = some k →
      ∃ t, exec .timeAdvance s = .next t
        ∧ (k < 4095 → t.pool = { s.pool with entries := t.pool.entries, fill := some (k + 1) }
            ∧ ∀ e : Fin 4096, poolEntry t e = if e.val = k then PoolEntry.zero else poolEntry s e)
        ∧ (4095 ≤ k → t.pool = { s.pool with fill := some 4096 }))
    ∧ ∀ s : State, s.pool.fill = some 4096 →
        ∃ t, exec .zeroFillEnd s = .next t
          ∧ t = { s with
              run := .idle
              distributor.waiting := false
              pool := { s.pool with
                entries := t.pool.entries, freeList := allEntries, retention := [], inWaiting := none, fill := none } }
          ∧ (∀ e, (poolEntry t e).refCount = 0) ∧ poolEntry t 4095 = PoolEntry.zero

/-- From the start of the zero-fill, 4096 ticks and ZERO_FILL_END leave every entry written with zeros, every entry FREE in order, and the
run state IDLE (R64). -/
def Obligations.ZeroFillTakes4096Ticks : Prop :=
  ∀ s : State, s.resetHeld = false → s.pool.fill = some 0 →
    ∃ t, execTimes .timeAdvance 4096 s = .next t
      ∧ ∃ u, exec .zeroFillEnd t = .next u ∧ u.run = .idle ∧ u.pool.fill = none ∧ u.pool.freeList = allEntries
        ∧ u.pool.retention = [] ∧ ∀ e, poolEntry u e = PoolEntry.zero

/-! ## The time base -/

/-- One tick, in every run state and during a zero-fill too: local time by R1 and R4, the line latches by R16, each running silence timer by
R38. Nothing else changes but the pool's entries and the place of a zero-fill, while one runs (ZeroFillStartsStepsAndEnds says how); while
reset is held nothing changes (R7). An ORBIT pulse is ignored in FREE mode, while reset is held, and when one was already noted at this tick
(the last is the MODEL's choice, notes/assumptions/17.md); it is aligned at bc = OL−1 and a slip below it (R3, R4). -/
def Obligations.TimeBaseAdvancesAndSlips : Prop :=
  ∀ s : State,
    (s.resetHeld = true → exec .timeAdvance s = .next s)
    ∧ (s.resetHeld = false → ∃ t, exec .timeAdvance s = .next t
        ∧ t = { s with
            time := ⟨if s.time.correction = false ∧ s.time.now.bc < s.settings.ol - 1 then
                        ⟨s.time.now.orbit, s.time.now.bc + 1⟩
                      else ⟨(s.time.now.orbit + 1) % 1048576, 0⟩,
                    s.time.slipCount, false, false⟩
            intake := t.intake
            sources := t.sources
            pool := t.pool }
        ∧ t.pool = (if s.pool.fill = none then s.pool
            else { s.pool with entries := t.pool.entries, fill := t.pool.fill })
        ∧ t.intake = { s.intake with latch := t.intake.latch, sampled := t.intake.sampled }
        ∧ (∀ l, t.intake.latch.get l = some (s.intake.lineLevel.get l) ∧ t.intake.sampled.get l = false)
        ∧ ∀ i, source t i =
            if s.run = .running ∧ (source s i).mode = .link ∧ (source s i).standing ≠ .disabled
                ∧ (source s i).silenceTimer < s.settings.silenceLimit then
              { source s i with silenceTimer := (source s i).silenceTimer + 1 }
            else source s i)
    ∧ (s.resetHeld = true ∨ s.settings.timeMode = .free ∨ s.time.pulseNoted = true → exec .orbitPulse s = .next s)
    ∧ (s.resetHeld = false → s.settings.timeMode = .locked → s.time.pulseNoted = false →
        (s.time.now.bc + 1 = s.settings.ol → exec .orbitPulse s = .next { s with time.pulseNoted := true })
        ∧ (s.time.now.bc + 1 < s.settings.ol →
            exec .orbitPulse s = .next
              { s with
                time := ⟨s.time.now, bump s.time.slipCount, true, true⟩
                latched := s.latched ||| codeBit 2 }))

/-- The last accepted stamp is forgotten once local time is at or after the stamp 16,777,216 ticks after it, and not before (R19). That the
command given earlier changes nothing is the MODEL's choice (notes/assumptions/12.md). -/
def Obligations.LastAcceptedStampForgotten : Prop :=
  ∀ (s : State) (l : Stamp), s.intake.lastAccepted = some l →
    (atOrAfter s.settings.ol s.time.now (addTicks s.settings.ol l 16777216) = true →
      exec .lastAcceptedStampForgotten s = .next { s with intake.lastAccepted := none })
    ∧ (atOrAfter s.settings.ol s.time.now (addTicks s.settings.ol l 16777216) = false →
      exec .lastAcceptedStampForgotten s = .next s)

/-- The arithmetic of stamps (R9, R11, R13): the distance from a stamp to itself is 0; the distances of two different stamps in the two
directions add up to M; a stamp with n ticks added lies n mod M after it; a window holds exactly the `span` stamps from its open on. -/
def Obligations.StampAndWindowArithmetic : Prop :=
  ∀ (ol span : Nat) (a b : Stamp) (n : Int),
    0 < ol → a.bc < ol → b.bc < ol → a.orbit < 1048576 → b.orbit < 1048576 → span ≤ 1048576 * ol →
    dist ol a a = 0
    ∧ (a ≠ b → dist ol a b + dist ol b a = 1048576 * ol)
    ∧ (dist ol (addTicks ol a n) a : Int) = n % (1048576 * ol : Nat)
    ∧ (addTicks ol a n).bc < ol ∧ (addTicks ol a n).orbit < 1048576
    ∧ ((addTicks ol a n).bc : Int) = ((a.bc : Int) + n) % ol
    ∧ (inWindow ol a span b = true ↔ ∃ k : Nat, k < span ∧ b = addTicks ol a k)

/-! ## Trigger intake -/

/-- A trigger line sampled (R16, R17): while reset is held only its level is kept; a line is sampled once per tick; a sample that finds no
level in the latch, or no edge that edge(l) selects, changes only the latch; one that does passes the acceptance tests with class(l) and
local time. How a sample is given as a command is the MODEL's choice (notes/assumptions/15.md). -/
def Obligations.LineSamplesMakeRequests : Prop :=
  ∀ (s : State) (l : Fin 4) (level : Bool),
    let sampled := { s with
      intake.lineLevel := put s.intake.lineLevel l level
      intake.latch := put s.intake.latch l (some level)
      intake.sampled := put s.intake.sampled l true }
    let wanted := match s.settings.edge.get l, s.intake.latch.get l with
      | .rising, some old => !old && level
      | .falling, some old => old && !level
      | .both, some old => old != level
      | _, _ => false
    (s.resetHeld = true →
      exec (.lineTriggerRequest l level) s = .next { s with intake.lineLevel := put s.intake.lineLevel l level })
    ∧ (s.resetHeld = false → s.intake.sampled.get l = true → exec (.lineTriggerRequest l level) s = .next s)
    ∧ (s.resetHeld = false → s.intake.sampled.get l = false →
        exec (.lineTriggerRequest l level) s =
          .next (if wanted then (request ⟨s.time.now, s.settings.cls.get l, .line l⟩ sampled).1 else sampled))

/-- The refusals of the acceptance tests: outside RUNNING the request is only counted (R20); within hold-off of the last accepted stamp it
is only counted (R21); with no FREE slot, when it does not coalesce and its class has policy REFUSE or the youngest context fails condition
2, 4 or 5 of R22, it is counted and TRIGGER_LOST is raised (R24). -/
def Obligations.RequestRefusals : Prop :=
  ∀ (s : State) (r : Request),
    (s.run ≠ .running →
      request r s = ({ s with intake.outsideRun := bump s.intake.outsideRun }, .outsideRun))
    ∧ (s.run = .running → ∀ l, s.intake.lastAccepted = some l → dist s.settings.ol r.stamp l < s.settings.holdOff →
        request r s = ({ s with intake.refusedHoldOff := bump s.intake.refusedHoldOff }, .holdOff))
    ∧ (s.run = .running →
        (∀ l, s.intake.lastAccepted = some l → s.settings.holdOff ≤ dist s.settings.ol r.stamp l) →
        coalesceTarget s r = none → (∀ i, (context s i).state ≠ .free) →
        (s.settings.fullPolicy.get r.cls = .refuse
          ∨ ∀ i, s.table.order.getLast? = some i → (context s i).state ≠ .opened ∨ 4 ≤ (context s i).triggers.length
              ∨ before s.settings.ol (addTicks s.settings.ol r.stamp (s.settings.offset.get r.cls))
                  (context s i).winClose = false) →
        request r s =
          ({ s with
             intake.refusedFull := bump s.intake.refusedFull
             latched := s.latched ||| codeBit 3 }, .full))

/-- A request that passes hold-off, does not coalesce and finds a FREE slot opens a context in the lowest one (R13, R14, R23, R71, R72): it
joins the tail of the opening order with the next event number and the record of R72. With a retention depth above 0 it also joins the tail
of the scan request list with the standing QUEUED (R86); under depth 0 list and standing hold no request. Then the monitor settles (R110),
and after that the scanner moves (R89): with a pass in progress that has visits left the list stands as the open left it; with the scanner
IDLE and the list empty the context's first pass starts. A close already reached completes it when every ACTIVE source has passed that
close, a deadline already reached expires it otherwise, and otherwise it stays OPEN (R73). -/
def Obligations.RequestOpensContext : Prop :=
  ∀ (s : State) (r : Request) (i : Fin 16),
    let ol := s.settings.ol
    let o := addTicks ol r.stamp (s.settings.offset.get r.cls)
    let c := addTicks ol o (s.settings.length.get r.cls)
    let d := addTicks ol c s.settings.grace
    let scans := 0 < s.settings.retentionDepth
    let closed := atOrAfter ol s.time.now c = true
    let overdue := atOrAfter ol s.time.now d = true
    s.run = .running →
    (∀ l, s.intake.lastAccepted = some l → s.settings.holdOff ≤ dist ol r.stamp l) →
    coalesceTarget s r = none →
    (context s i).state = .free → (∀ j : Fin 16, j.val < i.val → (context s j).state ≠ .free) →
    let record : Context :=
      { state := .opened, number := s.table.nextNumber, triggers := [r], winOpen := o, winClose := c,
        span := s.settings.length.get r.cls, deadline := d, refs := [], lost := 0, charge := 0, missing := 0,
        flags := 0, scan := if scans then .queued else .noScan }
    let u := setContext i record { s with
      intake := { s.intake with accepted := bump s.intake.accepted, lastAccepted := some r.stamp }
      table.order := s.table.order ++ [i]
      table.nextNumber := (s.table.nextNumber + 1) % 4294967296
      table.scanList := if scans then s.table.scanList ++ [i] else s.table.scanList }
    let t := (request r s).1
    (request r s).2 = .opened s.table.nextNumber
    ∧ t = settleFrom (oldestOpen s) u
    ∧ t.table.order = u.table.order ∧ t.table.nextNumber = u.table.nextNumber ∧ t.intake = u.intake
    ∧ t.settings = s.settings ∧ t.time = s.time ∧ t.pool = s.pool ∧ t.router = s.router
    ∧ (∃ scan, { context t i with state := .opened, missing := 0, flags := 0 } = { record with scan := scan })
    ∧ (NothingReached s → ¬closed → ¬overdue →
        t.table = (settleScanner u).table
        ∧ (∀ j, s.table.scanned = some j → s.table.visits ≠ [] → t.table = u.table)
        ∧ (s.table.scanned = none → s.table.scanList = [] →
            (¬scans → t.table = u.table)
            ∧ (scans → s.pool.retention ≠ [] → t.table = { s.table with
                slots := put s.table.slots i { record with scan := .scanning }
                order := u.table.order, nextNumber := u.table.nextNumber
                scanned := some i, visits := s.pool.retention, claimPasses := bump s.table.claimPasses })))
    ∧ (TableLawful s → closed → AllHavePassed s c →
        context t i = { record with state := .complete, scan := .noScan })
    ∧ (TableLawful s → overdue → ¬AllHavePassed s c → NoneOverdue s →
        context t i = { record with
          state := .expired, missing := (context t i).missing, flags := eventIncomplete, scan := .noScan }
        ∧ ∀ src : Fin 24, (context t i).missing.getLsbD src.val = true ↔
            (source s src).standing = .active ∧ ¬HasPassed s src c)
    ∧ (¬overdue → ¬closed ∨ (¬AllHavePassed s c ∧ NoneOverdue s) →
        context t i = { record with scan := (context t i).scan })

/-- A request that coalesces (R22), or finds no FREE slot under the policy MERGE (R24), merges into the youngest context (R75, R76),
whatever local time has reached: the trigger joins its list, WINDOW_CLIPPED is set when the request's open is before the context's, and both
counters and the last accepted stamp follow. A request's close that is not after the context's changes nothing more. One after it becomes
the close, with span and deadline; a retention depth above 0 requests a rescan by the table of R86, and under depth 0 list and standing are
kept; then the monitor settles (R110). The context then completes when its new close is reached and every ACTIVE source has passed it,
expires when its new deadline is reached and some ACTIVE source has not, and otherwise stays OPEN. -/
def Obligations.RequestMergesIntoYoungest : Prop :=
  ∀ (s : State) (r : Request) (i : Fin 16),
    let ol := s.settings.ol
    let y := context s i
    let o := addTicks ol r.stamp (s.settings.offset.get r.cls)
    let c := addTicks ol o (s.settings.length.get r.cls)
    let d := addTicks ol c s.settings.grace
    let closed := atOrAfter ol s.time.now c = true
    let overdue := atOrAfter ol s.time.now d = true
    s.run = .running →
    (∀ l, s.intake.lastAccepted = some l → s.settings.holdOff ≤ dist ol r.stamp l) →
    s.table.order.getLast? = some i → y.state = .opened →
    ((s.settings.coalesce ≠ 0
        ∧ ∃ f rest, y.triggers = f :: rest ∧ dist ol r.stamp f.stamp < s.settings.coalesce)
      ∨ ((∀ j, (context s j).state ≠ .free) ∧ s.settings.fullPolicy.get r.cls = .merge)) →
    y.triggers.length < 4 → before ol o y.winClose = true →
    let merged := { y with
      triggers := y.triggers ++ [r]
      flags := y.flags ||| (if before ol o y.winOpen then eventWindowClipped else 0) }
    let counted := { s with
      intake := { s.intake with
        accepted := bump s.intake.accepted, merged := bump s.intake.merged, lastAccepted := some r.stamp } }
    let joins := 0 < s.settings.retentionDepth
      ∧ (y.scan = .noScan ∨ (y.scan = .scanning ∧ i ∉ s.table.scanList))
    let extended := { merged with
      winClose := c, span := dist ol c y.winOpen, deadline := d
      scan := if joins ∧ y.scan = .noScan then .queued else y.scan }
    let u := setContext i extended { counted with
      table.scanList := if joins then s.table.scanList ++ [i] else s.table.scanList }
    let t := (request r s).1
    (request r s).2 = .merged y.number
    ∧ t.intake = counted.intake
    ∧ t.table.order = s.table.order ∧ t.table.nextNumber = s.table.nextNumber ∧ t.pool = s.pool
    ∧ (after ol c y.winClose = false → t = setContext i merged counted)
    ∧ (after ol c y.winClose = true →
        t = settle u
        ∧ ((∀ j ∈ s.table.order, j ≠ i → (context s j).state = .opened →
              atOrAfter ol s.time.now (context s j).winClose = false
              ∧ atOrAfter ol s.time.now (context s j).deadline = false) →
            ¬closed → ¬overdue →
            t.table = (settleScanner u).table
            ∧ (∀ j, s.table.scanned = some j → s.table.visits ≠ [] → t.table = u.table))
        ∧ (TableLawful s → closed → AllHavePassed s c →
            context t i = { extended with state := .complete, scan := .noScan })
        ∧ ((∀ j ∈ s.table.order, j ≠ i → (context s j).state = .opened →
              atOrAfter ol s.time.now (context s j).deadline = false) →
            (TableLawful s → overdue → ¬AllHavePassed s c →
              context t i = { extended with
                state := .expired, missing := (context t i).missing
                flags := extended.flags ||| eventIncomplete, scan := .noScan }
              ∧ ∀ src : Fin 24, (context t i).missing.getLsbD src.val = true ↔
                  (source s src).standing = .active ∧ ¬HasPassed s src c)
            ∧ (¬overdue → ¬AllHavePassed s c → context t i = { extended with scan := (context t i).scan }))
        ∧ (¬closed → ¬overdue → context t i = { extended with scan := (context t i).scan }))

/-- SOFT_TRIGGER (R18): the checks in their order, and the reply of each outcome. -/
def Obligations.SoftTriggerChecksAndReply : Prop :=
  ∀ (s : State) (tag : Tag) (cls : Word) (stamp : Option Word), LinkReady s → s.run ≠ .init →
    let u := takenBy .softTrigger tag s
    let reply := answered .softTrigger tag s.cmd.frameChecked
    let badStamp := ∃ w, stamp = some w ∧ s.settings.ol ≤ (wordStamp w).bc
    let tooLate := ∃ w, stamp = some w ∧ after s.settings.ol (wordStamp w) s.time.now = true
    let tooEarly := ∃ w l, stamp = some w ∧ s.intake.lastAccepted = some l ∧ before s.settings.ol (wordStamp w) l = true
    ((8 ≤ cls.toNat ∨ badStamp) → exec (.softTrigger tag cls stamp) s = .next (reply .badValue [] u))
    ∧ (cls.toNat < 8 → ¬badStamp → s.run ≠ .running →
        exec (.softTrigger tag cls stamp) s =
          .next (reply .wrongState [] { u with intake.outsideRun := bump s.intake.outsideRun }))
    ∧ (cls.toNat < 8 → ¬badStamp → s.run = .running → tooLate ∨ tooEarly →
        exec (.softTrigger tag cls stamp) s = .next (reply .badValue [] u))
    ∧ (cls.toNat < 8 → ¬badStamp → s.run = .running → ¬tooLate → ¬tooEarly →
        let x := match stamp with
          | some w => wordStamp w
          | none => s.time.now
        let out := request ⟨x, Fin.ofNat 8 cls.toNat, .soft⟩ u
        exec (.softTrigger tag cls stamp) s =
          .next (reply .ok
            (match out.2 with
             | .opened n => [0, num n, stampWord x]
             | .merged n => [1, num n, stampWord x]
             | .holdOff => [2, stampWord x]
             | .full => [3, stampWord x]
             | .outsideRun => []) out.1))

/-! ## Pad links and staging queues -/

/-- The framing state of a link receiver on each arrival that is no word and completes no frame (R31); an end delimiter outside a frame is
ignored. A receiver whose source is in INJECT mode, or that reset holds, takes none, but the line decoder's own alignment is noted. Both
rows of a start delimiter are one arrival: the MODEL's choice (notes/assumptions/14.md). -/
def Obligations.PadFramingFollowsArrivals : Prop :=
  ∀ (s : State) (i : Fin 24),
    let takes := s.resetHeld = false ∧ (source s i).mode = .link
    let framed := fun (f : Framing) (s : State) => modSource i (fun x => { x with framing := f }) s
    let decoder := fun (b : Bool) (s : State) => modSource i (fun x => { x with aligned := b }) s
    let lost := malformedCounted i
    (∀ c ∈ [Instr.padFrameBegins i, Instr.padFrameAbandoned i],
      (takes → (source s i).framing = .between → exec c s = .next (framed .inFrame s))
      ∧ (takes → (source s i).framing = .inFrame → exec c s = .next (lost s))
      ∧ (¬takes ∨ (source s i).framing = .hunting → exec c s = .next s))
    ∧ (takes → (source s i).framing = .hunting →
        exec (.padAlignmentGained i) s = .next (framed .between (decoder true s)))
    ∧ (¬takes ∨ (source s i).framing ≠ .hunting → exec (.padAlignmentGained i) s = .next (decoder true s))
    ∧ (takes → (source s i).framing ≠ .inFrame →
        exec (.padAlignmentLost i) s = .next (framed .hunting (decoder false s)))
    ∧ (takes → (source s i).framing = .inFrame →
        exec (.padAlignmentLost i) s = .next (lost (framed .hunting (decoder false s))))
    ∧ (¬takes → exec (.padAlignmentLost i) s = .next (decoder false s))
    ∧ (¬takes ∨ (source s i).framing ≠ .inFrame → ∀ words, exec (.padFrameComplete i words) s = .next s)

/-- A PULSE or MARK frame laid out by the wire format, with any reserved bits and any check word, is read back as the pulse or mark it
carries (R31 to R35, R37, R197). With a good check it is staged in RUNNING and DRAINING, a pulse with an empty flag set; when the check
fails that is counted, the pulse is staged with CHECK and the mark is discarded. In INIT and IDLE nothing is staged. The wait of the
distributor that a staged entry may begin is the MODEL's reading (notes/assumptions/9.md). The CRC takes the bits of the words in order,
each word from bit 31 down, with polynomial x¹⁶ + x¹² + x⁵ + 1 and initial value all ones (R32). -/
def Obligations.PadFramesReadBack : Prop :=
  (∀ ws : List Word,
    crc ws = (ws.flatMap fun w => (List.range 32).map fun k => w.getLsbD (31 - k)).foldl
      (fun (c : BitVec 16) b => (c <<< 1) ^^^ (if c.getLsbD 15 = b then 0 else 0x1021#16)) 0xFFFF#16)
  ∧ ∀ (s : State) (i : Fin 24) (p : PulseEntry) (m : Stamp) (reserved : BitVec 6) (reserved' : BitVec 28) (c : Word),
    Receiving s i → s.settings.ol ≤ 4096 → PulseInRange s.settings.ol p → m.orbit < 1048576 → m.bc < s.settings.ol →
    let counted := fun good : Bool => if good then frameCounted i s else checkFailureCounted i (frameCounted i s)
    let goodP := checkGood (pulseBody p reserved) c
    let goodM := checkGood (markBody m reserved') c
    exec (.padFrameComplete i (pulseBody p reserved ++ [c])) s =
        .next (if s.run = .running ∨ s.run = .draining then
            stage i (.pulse { p with flags := if goodP then 0 else flagCheck }) (counted goodP)
          else counted goodP)
    ∧ exec (.padFrameComplete i (markBody m reserved' ++ [c])) s =
        .next (if goodM = true ∧ (s.run = .running ∨ s.run = .draining) then stage i (.mark m) (counted goodM)
          else counted goodM)

/-- An IDLE frame is counted and restarts the silence timer and does nothing further; one that fails the check is counted as a check failure
and raises LINK_MALFORMED as well (R36). -/
def Obligations.IdleFrameHasNoFurtherEffect : Prop :=
  ∀ (s : State) (i : Fin 24) (reserved : BitVec 28) (c : Word), Receiving s i →
    exec (.padFrameComplete i (idleBody reserved ++ [c])) s =
      .next (if checkGood (idleBody reserved) c then frameCounted i s
        else checkFailureCounted i (frameCounted i s))

/-- A complete frame whose kind is unknown, whose word count its kind does not require, whose n is outside 1..32, or whose row, pad or bc is
out of range, is malformed: counted under frames and malformed, LINK_MALFORMED raised, the timer restarted, nothing staged (R33, R197). -/
def Obligations.MalformedFrameIsDiscarded : Prop :=
  ∀ (s : State) (i : Fin 24) (header : Word) (ws : List Word), Receiving s i →
    let kind := (header.extractLsb' 28 4).toNat
    let n := (header.extractLsb' 0 6).toNat
    let bc := fun (w : Word) => (w.extractLsb' 0 12).toNat
    (¬(1 ≤ kind ∧ kind ≤ 3)
      ∨ (kind = 1 ∧ (n = 0 ∨ 32 < n ∨ ws.length ≠ 2 + (n + 2) / 3
          ∨ 63 < (header.extractLsb' 20 8).toNat ∨ 127 < (header.extractLsb' 12 8).toNat
          ∨ ∃ w rest, ws = w :: rest ∧ s.settings.ol ≤ bc w))
      ∨ (kind = 2 ∧ (ws.length ≠ 2 ∨ ∃ w rest, ws = w :: rest ∧ s.settings.ol ≤ bc w))
      ∨ (kind = 3 ∧ ws.length ≠ 1)) →
    exec (.padFrameComplete i (header :: ws)) s =
      .next (malformedCounted i (frameCounted i s))

/-- INJECT (R41, R42, R43): the checks in their order; a body that passes is counted under frames and joins the queue when it has room, a
pulse with GAP when a gap is pending, and is otherwise an overrun. The distributor's wait that a joining entry may begin is the model's
noteChoice (R45; notes/assumptions/9.md). The refusals: a source outside 0..23, the run state IDLE, the source in LINK mode, a malformed
body. -/
def Obligations.InjectStagesOrOverruns : Prop :=
  (∀ (s : State) (tag : Tag) (i : Fin 24) (p : PulseEntry) (m : Stamp) (reserved : BitVec 6) (reserved' : BitVec 28),
    LinkReady s → (s.run = .running ∨ s.run = .draining) → (source s i).mode = .inject → s.settings.ol ≤ 4096 →
    PulseInRange s.settings.ol p → m.orbit < 1048576 → m.bc < s.settings.ol →
    let u := takenBy .inject tag s
    let reply := answered .inject tag s.cmd.frameChecked
    let lost := fun x : Source => { x with
      gapPending := true
      counters := { x.counters with frames := bump x.counters.frames, overruns := bump x.counters.overruns } }
    ((source s i).queue.length < 16 →
      exec (.inject tag (num i.val) (pulseBody p reserved)) s =
        .next (reply .ok [0] (noteChoice (modSource i (fun x => { x with
          queue := x.queue ++ [.pulse { p with flags := if x.gapPending then flagGap else 0 }]
          gapPending := false
          counters := { x.counters with
            frames := bump x.counters.frames, pulsesStaged := bump x.counters.pulsesStaged } }) u)))
      ∧ exec (.inject tag (num i.val) (markBody m reserved')) s =
        .next (reply .ok [0] (noteChoice (modSource i (fun x => { x with
          queue := x.queue ++ [.mark m]
          counters := { x.counters with frames := bump x.counters.frames } }) u))))
    ∧ (16 ≤ (source s i).queue.length →
      exec (.inject tag (num i.val) (pulseBody p reserved)) s =
        .next (reply .ok [1] (raise .linkOverrun (modSource i lost u)))
      ∧ exec (.inject tag (num i.val) (markBody m reserved')) s =
        .next (reply .ok [1] (raise .linkOverrun (modSource i lost u)))))
  ∧ ∀ (s : State) (tag : Tag) (src : Word) (body : List Word), LinkReady s → s.run ≠ .init → body.length ≤ 254 →
    let u := takenBy .inject tag s
    let reply := answered .inject tag s.cmd.frameChecked
    (24 ≤ src.toNat → exec (.inject tag src body) s = .next (reply .badValue [] u))
    ∧ ∀ i : Fin 24, src.toNat = i.val →
        (s.run = .idle ∨ (source s i).mode = .link → exec (.inject tag src body) s = .next (reply .wrongState [] u))
        ∧ (s.run ≠ .idle → (source s i).mode = .inject → (decodePad s.settings.ol 0 false body).isNone →
            exec (.inject tag src body) s =
              .next (reply .badValue [] (malformedCounted i u)))

/-! ## The distributor -/

/-- The distributor's choice (R44, R45): a candidate, which is a source whose head entry is a mark, or a pulse while the pool can give an
entry; urgent when some candidate is urgent, which is one whose queue holds at least the urgency threshold; and the first in turn, counted
from the source after the last served, among the candidates of that kind. There is none only when there is no candidate. -/
def Obligations.DistributorChoosesInTurn : Prop :=
  ∀ s : State,
    let candidate := fun j : Fin 24 =>
      (∃ m rest, (source s j).queue = .mark m :: rest)
        ∨ ((∃ p rest, (source s j).queue = .pulse p :: rest) ∧ (s.pool.freeList ≠ [] ∨ s.pool.retention ≠ []))
    let urgent := fun j : Fin 24 => s.settings.urgency ≤ (source s j).queue.length
    (choice s = none ↔ ∀ j, ¬candidate j)
    ∧ ∀ i, choice s = some i ↔
        candidate i
        ∧ ((∃ j, candidate j ∧ urgent j) → urgent i)
        ∧ ∀ j, candidate j → (urgent i → urgent j) →
            turn s.distributor.lastServed i ≤ turn s.distributor.lastServed j

/-- What the distributor computes for a pulse (R47): the charge is the sum of what each sample stands above the baseline, at most 32,736;
the peak is the largest sample; the peak index is the first place of it. -/
def Obligations.PulseChargeAndPeak : Prop :=
  ∀ (b : Nat) (xs : List Nat), xs ≠ [] → xs.length ≤ 32 → (∀ x ∈ xs, x ≤ 1023) →
    chargeOf b xs = (xs.map fun x => if b < x then x - b else 0).sum
    ∧ chargeOf b xs ≤ 32736
    ∧ peakOf xs ∈ xs ∧ (∀ x ∈ xs, x ≤ peakOf xs)
    ∧ peakIndexOf xs < xs.length ∧ xs[peakIndexOf xs]? = some (peakOf xs)
    ∧ ∀ k x, k < peakIndexOf xs → xs[k]? = some x → x < peakOf xs

/-- The distributor takes the pulse at the head of the chosen queue (R46, R47, R48): the entry leaves the queue, a LATE pulse is counted,
the pulse with its charge, peak and flags is shown to the arrival monitors, and is placed with the flags they left. While the pool can give
no entry no pulse is taken, and the wait that this choice begins is counted once (R45, R66). Claim visits between the choice and the
placement come after the presentation (R59). Their number is the MODEL's operand (notes/assumptions/5.md), and that a choice is judged at
the taking itself and at its end is the MODEL's choice (notes/assumptions/9.md). -/
def Obligations.DistributorTakesPulse : Prop :=
  (∀ (s : State) (i : Fin 24) (p : PulseEntry) (rest : List StagingEntry),
    (s.run = .running ∨ s.run = .draining) → s.pool.inWaiting = none → choice s = some i →
    (source s i).queue = .pulse p :: rest →
    let late := match (source s i).watermark with
      | some w => before s.settings.ol p.stamp w
      | none => false
    let rec' : PulseRecord :=
      { source := i, row := p.row, pad := p.pad, stamp := p.stamp, samples := p.samples,
        charge := chargeOf (s.settings.baseline.get i) p.samples, peak := peakOf p.samples,
        peakIndex := peakIndexOf p.samples,
        flags := p.flags ||| (if 1023 ∈ p.samples then flagSaturated else 0) ||| (if late then flagLate else 0) }
    let u := modSource i (fun x => { x with
        queue := rest
        counters := { x.counters with
          latePulses := if late then bump x.counters.latePulses else x.counters.latePulses } })
      { s with distributor.lastServed := i }
    exec (.distributorTakePulse 0) s =
      .next (noteChoice (place (presentArrivals rec' u).2 (presentArrivals rec' u).1))
    ∧ ∀ visits, ∃ v, execTimes .claimVisit visits (presentArrivals rec' u).1 = .next v
        ∧ exec (.distributorTakePulse visits) s = .next (noteChoice (place (presentArrivals rec' u).2 v)))
  ∧ ∀ s : State, (s.run = .running ∨ s.run = .draining) → s.pool.inWaiting = none →
    s.pool.freeList = [] → s.pool.retention = [] →
    (∃ i p rest, (source s i).queue = .pulse p :: rest) → ∀ visits,
    (s.distributor.waiting = false →
      exec (.distributorTakePulse visits) s =
        .next { s with distributor.waiting := true, pool.poolWaits := bump s.pool.poolWaits })
    ∧ (s.distributor.waiting = true → exec (.distributorTakePulse visits) s = .next s)

/-- The arrival monitors act in order M0 to M3 (R153, R154, R156, R157, R158): each that is enabled, at the arrival point and matched by the
pulse as the monitors before it left it counts a hit; a MARK shows in the flags from then on; a COPY offers an entry with the pulse as it
was shown and no event number; no other action offers one. An offered entry joins the spy queue with SPY_HIT while it holds fewer than 32,
and is otherwise dropped with SPY_LOST (R159). Nothing else changes. -/
def Obligations.ArrivalMonitorsAndSpyQueue : Prop :=
  (∀ (s : State) (p : PulseRecord),
    let shown := fun f : BitVec 5 => { p with flags := f }
    let hit := fun (m : Fin 4) (f : BitVec 5) => monitorHit s .atArrival m (shown f)
    let seen := fun (m : Fin 4) (f : BitVec 5) => if hit m f && hasAction s .mark m then f ||| flagMarked else f
    let f0 := p.flags
    let f1 := seen 0 f0
    let f2 := seen 1 f1
    let f3 := seen 2 f2
    let flags : Vector (BitVec 5) 4 := #v[f0, f1, f2, f3]
    let copies := allFour.filter fun m => hit m (flags.get m) && hasAction s .copy m
    presentArrivals p s =
      (offeredAll (copies.map fun m => ⟨m, none, shown (flags.get m)⟩)
        { s with
          spy.hits := Vector.ofFn fun m =>
            if hit m (flags.get m) then bump (s.spy.hits.get m) else s.spy.hits.get m },
       shown (seen 3 f3)))
  ∧ ∀ (s : State) (e : SpyEntry),
    (s.spy.queue.length < 32 →
      offerSpy e s = { s with
        spy.queue := s.spy.queue ++ [e], spy.stored := bump s.spy.stored, latched := s.latched ||| codeBit 12 })
    ∧ (32 ≤ s.spy.queue.length →
      offerSpy e s = { s with spy.lost := bump s.spy.lost, latched := s.latched ||| codeBit 13 })

/-! ## Placement, claims and aging -/

/-- Placement of a pulse that no OPEN window contains (R57, R58, R59): an orphan under retention depth 0; otherwise stored RETAINED in the
head of the free list, or in the evicted head of the retention queue, which leaves the visit list of a pass as well (R91); with both empty
it becomes the placement in waiting. The claim scanner then moves as ClaimVisitsAndPasses says. PLACEMENT_RETRY places it again once the
free list has an entry; with none it changes nothing (notes/assumptions/12.md), and the choice judged at its end is the MODEL's reading
(notes/assumptions/9.md). -/
def Obligations.PlacementWithoutWindow : Prop :=
  (∀ (s : State) (p : PulseRecord), containing s p.stamp = [] →
    (s.settings.retentionDepth = 0 →
      place p s = settleScanner (modSource p.source
        (fun x => { x with counters := { x.counters with orphans := bump x.counters.orphans } }) s))
    ∧ (0 < s.settings.retentionDepth → ∀ e rest, s.pool.freeList = e :: rest →
      place p s = settleScanner (setPoolEntry e ⟨p, 0⟩ { s with
        pool.freeList := rest
        pool.leastFree := min s.pool.leastFree rest.length
        pool.retention := s.pool.retention ++ [e]
        pool.pulsesRetained := bump s.pool.pulsesRetained }))
    ∧ (0 < s.settings.retentionDepth → s.pool.freeList = [] → ∀ e rest, s.pool.retention = e :: rest →
      place p s = settleScanner (setPoolEntry e ⟨p, 0⟩ { s with
        pool.retention := rest ++ [e]
        pool.pulsesRetained := bump s.pool.pulsesRetained
        pool.retainedEvicted := bump s.pool.retainedEvicted
        table.visits := s.table.visits.erase e
        latched := s.latched ||| codeBit 9 }))
    ∧ (0 < s.settings.retentionDepth → s.pool.freeList = [] → s.pool.retention = [] →
      place p s = settleScanner { s with pool.inWaiting := some p, pool.poolWaits := bump s.pool.poolWaits }))
  ∧ ∀ (s : State) (p : PulseRecord), s.pool.inWaiting = some p →
    (s.pool.freeList = [] → exec .placementRetry s = .next s)
    ∧ (s.pool.freeList ≠ [] →
        exec .placementRetry s = .next (noteChoice (place p { s with pool.inWaiting := none })))

/-- Placement of a pulse that OPEN windows contain (R56 to R59, R79 to R82): each containing context with room references it, each full one
counts it lost and carries TRUNCATED, and every other context is unchanged. With at least one reference it is stored HELD with that many, in
the head of the free list or, with that empty, in the evicted head of the retention queue, which leaves the visit list of a pass as well
(R91); with both empty it becomes the placement in waiting and no context changes. With no room anywhere it is refused full and no entry is
used. The claim scanner then moves as ClaimVisitsAndPasses says. -/
def Obligations.PlacementReferencesContexts : Prop :=
  ∀ (s : State) (p : PulseRecord), s.table.order.Nodup →
    let inside := fun i => i ∈ s.table.order ∧ (context s i).state = .opened
      ∧ dist s.settings.ol p.stamp (context s i).winOpen < (context s i).span
    let room := (containing s p.stamp).filter fun i => decide ((context s i).refs.length < 1024)
    let newlyFull := (containing s p.stamp).filter fun i =>
      decide (1024 ≤ (context s i).refs.length) && !(context s i).flags.getLsbD 6
    let lost := fun (b t : State) =>
      (∀ i, inside i → 1024 ≤ (context s i).refs.length →
        context t i = { context s i with
          lost := if (context s i).lost < 65535 then (context s i).lost + 1 else 65535
          flags := (context s i).flags ||| eventTruncated })
      ∧ (∀ i, ¬inside i → context t i = context s i)
      ∧ t.table = { s.table with
          slots := t.table.slots, visits := b.table.visits
          eventsTruncated := bump^[newlyFull.length] s.table.eventsTruncated }
      ∧ t.latched = (if newlyFull = [] then b.latched else b.latched ||| codeBit 8)
    let stored := fun (e : Fin 4096) (b : State) => ∃ t, place p s = settleScanner t
      ∧ lost b t
      ∧ (∀ i, inside i → (context s i).refs.length < 1024 →
          context t i = { context s i with
            refs := (context s i).refs ++ [e]
            charge := min 16777215 ((context s i).charge + p.charge)
            flags := (context s i).flags ||| eventFlagsOf p.flags
              ||| (if 16777215 < (context s i).charge + p.charge then eventChargeSat else 0) })
      ∧ t = { b with
          pool.entries := t.pool.entries, pool.pulsesHeld := bump b.pool.pulsesHeld
          table := t.table, latched := t.latched }
      ∧ ∀ x, poolEntry t x = if x = e then ⟨p, room.length⟩ else poolEntry s x
    (∀ i, i ∈ containing s p.stamp ↔ inside i)
    ∧ (room ≠ [] → ∀ e rest, s.pool.freeList = e :: rest →
        stored e { s with pool.freeList := rest, pool.leastFree := min s.pool.leastFree rest.length })
    ∧ (room ≠ [] → s.pool.freeList = [] → ∀ e rest, s.pool.retention = e :: rest →
        stored e { s with
          pool.retention := rest
          pool.retainedEvicted := bump s.pool.retainedEvicted
          table.visits := s.table.visits.erase e
          latched := s.latched ||| codeBit 9 })
    ∧ (room ≠ [] → s.pool.freeList = [] → s.pool.retention = [] →
        place p s = settleScanner { s with pool.inWaiting := some p, pool.poolWaits := bump s.pool.poolWaits })
    ∧ (containing s p.stamp ≠ [] → room = [] → ∃ t, place p s = settleScanner t ∧ lost s t
        ∧ t = { s with
            pool.pulsesRefusedFull := bump s.pool.pulsesRefusedFull, table := t.table, latched := t.latched })

/-- A claim visit (R62, R80, R81, R82, R90): an entry in the window is claimed while the reference list has room, and refused to the context
while it is full; one outside stays retained. The scanner then moves (R89, R92): it ends a pass whose visit list is empty, the scan standing
becoming QUEUED when the slot waits on the scan request list and NONE otherwise; with no pass in progress it starts one for the head of the
scan request list, with the retention queue as its visit list; and so on until neither applies. That it moves at once after an event is the
MODEL's choice (notes/assumptions/19.md). -/
def Obligations.ClaimVisitsAndPasses : Prop :=
  (∀ (s : State) (i : Fin 16) (e : Fin 4096) (rest : List (Fin 4096)),
    s.table.scanned = some i → s.table.visits = e :: rest →
    let p := (poolEntry s e).record
    let c := context s i
    let visited := { s with table.visits := rest }
    let inside := dist s.settings.ol p.stamp c.winOpen < c.span
    (inside → c.refs.length < 1024 →
      exec .claimVisit s = .next (settleScanner (setContext i { c with
          refs := c.refs ++ [e]
          charge := min 16777215 (c.charge + p.charge)
          flags := c.flags ||| eventFlagsOf p.flags ||| (if 16777215 < c.charge + p.charge then eventChargeSat else 0) }
        (setPoolEntry e ⟨p, 1⟩ { visited with
          pool.retention := s.pool.retention.erase e
          pool.retainedClaimed := bump s.pool.retainedClaimed }))))
    ∧ (inside → 1024 ≤ c.refs.length →
      exec .claimVisit s = .next (settleScanner (setContext i { c with
          lost := if c.lost < 65535 then c.lost + 1 else 65535
          flags := c.flags ||| eventTruncated }
        (if c.flags.getLsbD 6 then visited
         else { visited with
          table.eventsTruncated := bump s.table.eventsTruncated, latched := s.latched ||| codeBit 8 }))))
    ∧ (¬inside → exec .claimVisit s = .next (settleScanner visited)))
  ∧ ∀ s : State,
    (∀ i, s.table.scanned = some i → s.table.visits ≠ [] → settleScanner s = s)
    ∧ (s.table.scanned = none → s.table.scanList = [] → settleScanner s = s)
    ∧ (∀ i, s.table.scanned = some i → s.table.visits = [] →
        settleScanner s = settleScanner (setContext i { context s i with
            scan := if i ∈ s.table.scanList then .queued else .noScan }
          { s with table.scanned := none, table.visits := [] }))
    ∧ ∀ i rest, s.table.scanned = none → s.table.scanList = i :: rest →
        settleScanner s = settleScanner (setContext i { context s i with scan := .scanning } { s with
          table.scanList := rest
          table.scanned := some i
          table.visits := s.pool.retention
          table.claimPasses := bump s.table.claimPasses })

/-- Aging (R15, R61): the aged entries at the head of the retention queue, up to the first that is not aged, leave it for the tail of the
free list in order, are counted, and leave the visit list of a pass (R91); the entries behind stay, and under retention depth 0 none is
aged. A wait of the distributor ends when the pool can give an entry (R45). The claim scanner then moves as ClaimVisitsAndPasses says. -/
def Obligations.RetainedHeadsAge : Prop :=
  ∀ s : State,
    let old := fun e =>
      let x := (poolEntry s e).record.stamp
      decide (0 < s.settings.retentionDepth)
        && decide (dist s.settings.ol s.time.now x < 524288 * s.settings.ol)
        && decide (s.settings.retentionDepth ≤ dist s.settings.ol s.time.now x)
    let gone := s.pool.retention.takeWhile old
    let kept := s.pool.retention.dropWhile old
    exec .retainedHeadAged s = .next (settleScanner { s with
      pool := { s.pool with
        freeList := s.pool.freeList ++ gone, retention := kept
        retainedAged := bump^[gone.length] s.pool.retainedAged }
      distributor.waiting :=
        if s.pool.freeList ++ gone = [] ∧ kept = [] then s.distributor.waiting else false
      table.visits := s.table.visits.diff gone })

/-! ## The completion monitor -/

/-- A context whose close is reached and that every ACTIVE source has passed completes when local time reaches it (R105, R107): it becomes
COMPLETE, its missing set and INCOMPLETE untouched, with no scan; its slot leaves the scan request list (R87). Events completed and
incomplete events grow by one for each context that completes and expires, and claim passes stopped when the scanned context leaves OPEN
(R93, R95, R113). -/
def Obligations.ContextCompletes : Prop :=
  ∀ (s : State) (i : Fin 16),
    s.table.order.Nodup → s.table.scanList.Nodup → i ∈ s.table.order → (context s i).state = .opened →
    atOrAfter s.settings.ol s.time.now (context s i).winClose = true →
    (∀ src, (source s src).standing = .active →
      ∃ w, (source s src).watermark = some w ∧ atOrAfter s.settings.ol w (context s i).winClose = true) →
    ∃ t, exec .closeOrDeadlineReached s = .next t
      ∧ context t i = { context s i with state := .complete, scan := .noScan }
      ∧ i ∉ t.table.scanList ∧ t.table.scanned ≠ some i
      ∧ SettlingCounted s t
      ∧ t.pool = s.pool ∧ t.table.order = s.table.order ∧ t.settings = s.settings ∧ t.time = s.time

/-- The oldest OPEN context at its deadline that some ACTIVE source has not passed expires (R106, R108): its missing set is exactly the
ACTIVE sources that have not passed it, INCOMPLETE is set, each missing source becomes LAGGING and is counted under went LAGGING once, and
EVENT_INCOMPLETE and SOURCE_LAGGING are raised. A missing source stays LAGGING unless the settling's step 3 returns it (R104): the oldest
OPEN context is then another than at the start, and the source has passed it. Events completed, incomplete events and claim passes stopped
grow as R93, R95 and R113 say. -/
def Obligations.ContextExpires : Prop :=
  ∀ (s : State) (i : Fin 16) (older younger : List (Fin 16)),
    s.table.order = older ++ i :: younger → s.table.order.Nodup → s.table.scanList.Nodup →
    (context s i).state = .opened →
    atOrAfter s.settings.ol s.time.now (context s i).deadline = true →
    (∀ j ∈ older, (context s j).state = .opened →
      atOrAfter s.settings.ol s.time.now (context s j).deadline = false) →
    let missing := fun src => (source s src).standing = .active ∧ ¬HasPassed s src (context s i).winClose
    (∃ src, missing src) →
    ∃ t, exec .closeOrDeadlineReached s = .next t
      ∧ context t i = { context s i with
          state := .expired, missing := (context t i).missing, flags := (context s i).flags ||| eventIncomplete
          scan := .noScan }
      ∧ (∀ src : Fin 24, (context t i).missing.getLsbD src.val = true ↔ missing src)
      ∧ (∀ src, missing src →
          let returned := oldestOpen t ≠ oldestOpen s
            ∧ ∃ j, oldestOpen t = some j ∧ HasPassed s src (context t j).winClose
          (returned → (source t src).standing = .active) ∧ (¬returned → (source t src).standing = .lagging)
          ∧ (source t src).counters.wentLagging = bump (source s src).counters.wentLagging)
      ∧ t.latched.getLsbD 7 = true ∧ t.latched.getLsbD 5 = true
      ∧ SettlingCounted s t

/-- A settling leaves nothing due (R106): no context that is still OPEN passes the completion test or has reached its deadline; and it
counts each completion, each expiry and a stopped pass (R93, R95, R113). Where nothing is due at its start, step 3 alone acts: when the
oldest OPEN context is another than at the start, each LAGGING source that has passed it becomes ACTIVE, and no other source changes (R104). -/
def Obligations.SettlingLeavesNothingDue : Prop :=
  (∀ (s : State) (atStart : Option (Fin 16)), s.table.order.Nodup →
    SettlingCounted s (settleFrom atStart s)
    ∧ ∀ i ∈ s.table.order, isOpened (settleFrom atStart s) i = true →
      completes (settleFrom atStart s) i = false ∧ deadlineReached (settleFrom atStart s) i = false)
  ∧ ∀ (s : State) (atStart : Option (Fin 16)) (src : Fin 24), somethingReached s = false →
    let returns := oldestOpen s ≠ none ∧ oldestOpen s ≠ atStart ∧ (source s src).standing = .lagging
      ∧ ∃ i w, oldestOpen s = some i ∧ (source s src).watermark = some w
          ∧ atOrAfter s.settings.ol w (context s i).winClose = true
    (returns → source (settleFrom atStart s) src = { source s src with standing := .active })
    ∧ (¬returns → source (settleFrom atStart s) src = source s src)

/-- A mark entry is taken from the head of the chosen queue (R49, R103). A mark before the watermark is a regression; any other moves the
watermark, and a LAGGING or DOWN source becomes ACTIVE when no context is OPEN or it has passed the oldest OPEN one, a DOWN source otherwise
LAGGING with SOURCE_LAGGING; the monitor then settles. Marks are taken while the pool can give no entry too; a wait that the choice then
begins, because it leaves out a pulse at the head of another queue, is counted first (R45, R66). The choice judged at the taking's end is
the MODEL's reading (notes/assumptions/9.md). -/
def Obligations.DistributorTakesMark : Prop :=
  ∀ (s : State) (i : Fin 24) (m : Stamp) (rest : List StagingEntry),
    (s.run = .running ∨ s.run = .draining) → s.pool.inWaiting = none → choice s = some i →
    (source s i).queue = .mark m :: rest →
    let waitBegins := s.pool.freeList = [] ∧ s.pool.retention = [] ∧ s.distributor.waiting = false
      ∧ ∃ j p rest, (source s j).queue = .pulse p :: rest
    ∀ chosen,
    (waitBegins → chosen = { s with distributor.waiting := true, pool.poolWaits := bump s.pool.poolWaits }) →
    (¬waitBegins → chosen = s) →
    let served := { chosen with distributor.lastServed := i }
    let u := modSource i (fun x => { x with queue := rest, watermark := some m }) served
    let back := oldestOpen s = none
      ∨ ∃ j, oldestOpen s = some j ∧ atOrAfter s.settings.ol m (context s j).winClose = true
    let active := modSource i (fun x => { x with standing := .active }) u
    let accepted := (source s i).watermark = none
      ∨ ∃ w, (source s i).watermark = some w ∧ atOrAfter s.settings.ol m w = true
    (¬accepted → exec .distributorTakeMark s =
      .next (noteChoice (modSource i (fun x => { x with
        queue := rest
        counters := { x.counters with markRegressions := bump x.counters.markRegressions } }) served)))
    ∧ (accepted → (source s i).standing = .active ∨ (source s i).standing = .disabled
          ∨ ((source s i).standing = .lagging ∧ ¬back) →
        exec .distributorTakeMark s = .next (noteChoice (settle u)))
    ∧ (accepted → (source s i).standing = .lagging ∨ (source s i).standing = .down → back →
        exec .distributorTakeMark s = .next (noteChoice (settle active)))
    ∧ (accepted → (source s i).standing = .down → ¬back →
        exec .distributorTakeMark s =
          .next (noteChoice (settle (raise .sourceLagging (modSource i (fun x => { x with
            standing := .lagging
            counters := { x.counters with wentLagging := bump x.counters.wentLagging } }) u)))))

/-- A silence report (R38, R102): made once when a counting timer stands at the limit; it takes an ACTIVE or LAGGING source DOWN with
SOURCE_DOWN and the monitor settles; a DOWN source stays as it is. A timer that does not count, is below the limit, or has reported makes
none (the MODEL's choice, notes/assumptions/12.md and 18.md). -/
def Obligations.SilenceReportTakesSourceDown : Prop :=
  ∀ (s : State) (i : Fin 24),
    let x := source s i
    let due := s.run = .running ∧ x.mode = .link ∧ x.standing ≠ .disabled ∧ s.settings.silenceLimit ≤ x.silenceTimer
      ∧ x.silenceReported = false
    (¬due → exec (.silenceReport i) s = .next s)
    ∧ (due → x.standing = .down →
        exec (.silenceReport i) s = .next (setSource i { x with silenceReported := true } s))
    ∧ (due → x.standing = .active ∨ x.standing = .lagging →
        exec (.silenceReport i) s =
          .next (settle (raise .sourceDown (setSource i { x with
            silenceReported := true
            standing := .down
            counters := { x.counters with wentDown := bump x.counters.wentDown } } s))))

/-! ## The release builder -/

/-- An event whose trigger classes have no route is suppressed (R63, R117, R118, R119): its references are dropped in list order, entries
that reach 0 join the tail of the free list, the slot becomes FREE and leaves the opening order, and nothing is written or shown anywhere.
In DRAINING the return to IDLE is then judged (R183). -/
def Obligations.EmptyRouteSuppressesEvent : Prop :=
  ∀ (s : State) (i : Fin 16) (rest : List (Fin 16)),
    s.builder.job = none → s.table.order = i :: rest →
    ((context s i).state = .complete ∨ (context s i).state = .expired) →
    (∀ tr ∈ (context s i).triggers, s.settings.route.get tr.cls = ⟨false, false⟩) →
    (context s i).refs.Nodup →
    ∃ u t, exec .releaseStart s = .next t
      ∧ Freed i { s with builder.eventsSuppressed := bump s.builder.eventsSuppressed } u
      ∧ ReturnJudged u t

/-- A release start whose route holds a member (R117, R118, R121, R122, R123, R127, R128, R129). A POLL copy that does not fit is dropped,
counted and raises READOUT_LOST. The referenced pulses are shown to the release monitors (R153, R155 to R159). The readout queue gets the
whole block, as the monitors left the event, when POLL is in the route and it fits. With STREAM the stream phase begins at progress 0;
without it the release ends in the start, released or without copy: the context leaves the part with its references dropped, and in DRAINING
the return to IDLE is judged (R183). -/
def Obligations.ReleaseStartWritesCopies : Prop :=
  ∀ (s : State) (i : Fin 16) (rest : List (Fin 16)),
    s.builder.job = none → s.table.order = i :: rest →
    ((context s i).state = .complete ∨ (context s i).state = .expired) →
    let c := context s i
    let route : Route := ⟨c.triggers.any fun tr => (s.settings.route.get tr.cls).stream,
      c.triggers.any fun tr => (s.settings.route.get tr.cls).poll⟩
    let size := eventSize s i
    let fits := size + readoutWords s ≤ 16384
    let begun := setContext i { c with state := .releasing }
      (if route.poll = true ∧ ¬fits then
        { s with builder.copiesLost := bump s.builder.copiesLost, latched := s.latched ||| codeBit 10 }
      else s)
    let shown := shownAtRelease i (pulsesOf s c) begun
    let written :=
      if route.poll = true ∧ fits then
        { shown with
          router.readout := s.router.readout ++ [⟨c.number, blockOf (context shown i) (pulsesOf s c)⟩]
          router.eventsStored := bump s.router.eventsStored }
      else shown
    route.stream = true ∨ route.poll = true →
    (route.stream = true →
      exec .releaseStart s = .next { written with builder.job := some ⟨i, route, size, 0⟩ })
    ∧ (route.stream = false → c.refs.Nodup → ∃ u t, exec .releaseStart s = .next t
        ∧ Freed i
            (if fits then { written with builder.eventsReleased := bump s.builder.eventsReleased }
             else { written with builder.withoutCopy := bump s.builder.withoutCopy }) u
        ∧ ReturnJudged u t)

/-- The event block (R120, R124, R125, R126): it has exactly the event size in words, at most 14,352 within the limits of a context; its
eight header words read back as the record's fields, with reserved bits 0; each trigger entry reads back as its trigger; the pulse blocks
follow in reference order; and each pulse block reads back as the pulse it was written from, with reserved bits 0 (R200). -/
def Obligations.EventBlockSizeAndPulseBlocks : Prop :=
  (∀ (s : State) (i : Fin 16),
    (eventBlock s i).length = eventSize s i
    ∧ eventSize s i = 8 + 2 * (context s i).triggers.length
        + ((pulsesOf s (context s i)).map fun p => 3 + (p.samples.length + 2) / 3).sum
    ∧ ((context s i).triggers.length ≤ 4 → (context s i).refs.length ≤ 1024 →
        (∀ e, (poolEntry s e).record.samples.length ≤ 32) → eventSize s i ≤ 14352))
  ∧ (∀ (s : State) (i : Fin 16),
    let c := context s i
    let word := fun k : Nat => (eventBlock s i).getD k 0
    let field := fun (k low width : Nat) => ((word k).extractLsb' low width).toNat
    let fits := fun t : Stamp => t.orbit < 1048576 ∧ t.bc < 4096
    c.triggers.length ≤ 4 → eventSize s i ≤ 14352 → c.number < 4294967296 → fits c.winOpen → fits c.winClose →
    c.lost ≤ 65535 → c.refs.length ≤ 1024 → c.charge ≤ 16777215 → (∀ tr ∈ c.triggers, fits tr.stamp) →
    field 0 0 16 = eventSize s i ∧ field 0 16 3 = c.triggers.length ∧ field 0 19 13 = 0
    ∧ (word 1).toNat = c.number
    ∧ (⟨field 2 12 20, field 2 0 12⟩ : Stamp) = c.winOpen ∧ (⟨field 3 12 20, field 3 0 12⟩ : Stamp) = c.winClose
    ∧ field 4 16 16 = c.lost ∧ field 4 11 5 = 0 ∧ field 4 0 11 = c.refs.length
    ∧ (word 5).extractLsb' 0 9 = c.flags ∧ field 5 9 23 = 0
    ∧ field 6 0 24 = c.charge ∧ field 6 24 8 = 0
    ∧ (word 7).extractLsb' 0 24 = c.missing ∧ field 7 24 8 = 0
    ∧ (∀ k tr, c.triggers[k]? = some tr →
        (⟨field (8 + 2 * k) 12 20, field (8 + 2 * k) 0 12⟩ : Stamp) = tr.stamp
        ∧ field (9 + 2 * k) 0 3 = tr.cls.val
        ∧ field (9 + 2 * k) 4 3 = (match tr.origin with
            | .line l => l.val
            | .soft => 4)
        ∧ field (9 + 2 * k) 3 1 = 0 ∧ field (9 + 2 * k) 7 25 = 0)
    ∧ (eventBlock s i).drop (8 + 2 * c.triggers.length) = (pulsesOf s c).flatMap pulseBlock)
  ∧ ∀ (p : PulseRecord) (more : List Word), RecordInRange p →
    (pulseBlock p).length = 3 + (p.samples.length + 2) / 3 ∧ pulseOfBlock (pulseBlock p ++ more) = some p
    ∧ field (pulseBlock p) 0 7 3 = 0 ∧ field (pulseBlock p) 2 31 1 = 0
    ∧ ∀ k, 3 ≤ k → field (pulseBlock p) k 30 2 = 0

/-- One word of the STREAM copy (R128, R129, R136): nothing without room or without a release in progress (notes/assumptions/12.md);
otherwise the next word of the event block joins the buffer with its marks. The last one ends the release: the context leaves the part with
its references dropped (R63). The word it wrote waits in the buffer, so no return to IDLE is taken (R183). -/
def Obligations.StreamWordJoinsTheBuffer : Prop :=
  ∀ s : State,
    (s.builder.job = none → exec .streamWordWrite s = .next s)
    ∧ ∀ j, s.builder.job = some j →
      (4096 ≤ s.router.buffer.length → exec .streamWordWrite s = .next s)
      ∧ (s.router.buffer.length < 4096 → j.progress + 1 ≠ j.size →
          exec .streamWordWrite s = .next { s with
            router.buffer := s.router.buffer
              ++ [⟨(eventBlock s j.slot).getD j.progress 0, decide (j.progress = 0), false⟩]
            builder.job := some { j with progress := j.progress + 1 } })
      ∧ (s.router.buffer.length < 4096 → j.progress + 1 = j.size → (context s j.slot).refs.Nodup →
          ∃ t, exec .streamWordWrite s = .next t
            ∧ Freed j.slot { s with
                router.buffer := s.router.buffer
                  ++ [⟨(eventBlock s j.slot).getD j.progress 0, decide (j.progress = 0), true⟩]
                builder.job := none
                builder.eventsReleased := bump s.builder.eventsReleased } t)

/-- A stream phase with room in the buffer writes the whole event block, its first word marked FIRST and its last LAST, and ends the release
(R124, R128, R129, R136). -/
def Obligations.StreamCopyIsTheEventBlock : Prop :=
  ∀ (s : State) (i : Fin 16) (route : Route),
    s.builder.job = some ⟨i, route, eventSize s i, 0⟩ →
    s.router.buffer.length + eventSize s i ≤ 4096 →
    ∃ t, execTimes .streamWordWrite (eventSize s i) s = .next t
      ∧ t.router.buffer = s.router.buffer ++ marked (eventBlock s i)
      ∧ t.builder.job = none ∧ t.builder.eventsReleased = bump s.builder.eventsReleased
      ∧ context t i = Context.freeSlot

/-! ## The data link -/

/-- One unit on the data link (R137, R138): none under HOLD or while reset is held; an owed ABORTED ending first; otherwise the head word
with its delimiters, the count of a NORMAL ending being the words sent in the event. In DRAINING the return to IDLE is judged once the word
has left the buffer (R183). HOLD_ASSERTED and HOLD_RELEASED set the level. That a unit is sent in one instant, with HOLD released, is the
MODEL's choice (notes/assumptions/29.md), and that the command given otherwise changes nothing too (notes/assumptions/12.md). The status
word of an end delimiter reads back as its status and count, with reserved bits 0 (R200). -/
def Obligations.DataLinkSendsUnits : Prop :=
  (∀ (aborted : Bool) (count : Nat), count ≤ 14352 →
    let ws := [endingWord aborted count]
    field ws 0 31 1 = (if aborted then 1 else 0) ∧ field ws 0 14 17 = 0 ∧ field ws 0 0 14 = count)
  ∧ ∀ s : State,
    exec .holdAsserted s = .next { s with router.hold := true }
    ∧ exec .holdReleased s = .next { s with router.hold := false }
    ∧ (s.router.hold = true ∨ s.resetHeld = true → exec .dataLinkUnitSend s = .next s)
    ∧ (s.router.hold = false → s.resetHeld = false →
        (∀ n, s.router.owed = some n →
          exec .dataLinkUnitSend s = .next { s with
            router.owed := none
            dataLinkOut := s.dataLinkOut ++ [⟨false, none, some (endingWord true n)⟩] })
        ∧ (s.router.owed = none → s.router.buffer = [] → exec .dataLinkUnitSend s = .next s)
        ∧ (s.router.owed = none → ∀ w rest, s.router.buffer = w :: rest →
            let sent := if w.first then 1 else s.router.wordsSent + 1
            ∃ t, exec .dataLinkUnitSend s = .next t ∧ ReturnJudged { s with
              router := { s.router with
                buffer := rest
                inEvent := !w.last
                wordsSent := sent
                streamWordsSent := bump s.router.streamWordsSent
                streamEventsSent :=
                  if w.last then bump s.router.streamEventsSent else s.router.streamEventsSent }
              dataLinkOut := s.dataLinkOut
                ++ [⟨w.first, some w.word, if w.last then some (endingWord false sent) else none⟩] } t))

/-- A whole event at the head of the stream buffer goes out as a start delimiter, its words in order, and an end delimiter of status NORMAL
whose count is the number of its words (R137). In DRAINING the return to IDLE is judged after the last word (R183). -/
def Obligations.WholeEventOnTheDataLink : Prop :=
  ∀ (s : State) (ws : List Word) (rest : List StreamWord),
    s.router.hold = false → s.resetHeld = false → s.router.owed = none → ws ≠ [] →
    s.router.buffer = marked ws ++ rest →
    ∃ t, execTimes .dataLinkUnitSend ws.length s = .next t
      ∧ ReturnJudged { s with
          router := { s.router with
            buffer := rest
            inEvent := false
            wordsSent := ws.length
            streamWordsSent := bump^[ws.length] s.router.streamWordsSent
            streamEventsSent := bump s.router.streamEventsSent }
          dataLinkOut := s.dataLinkOut ++ unitsFrom 0 ws.length ws } t

/-! ## The command link -/

/-- The inbound receiver on each arrival that is no octet and completes no frame (R175, R176): an end delimiter outside a frame is ignored,
in whichever row it comes (notes/assumptions/12.md and 16.md); a start delimiter begins a frame and reads the check mode for it; one that
comes IN_FRAME, and a loss of alignment there, abandons the partial frame with COMMAND_FAULT. Both rows of a start delimiter are one
arrival: the MODEL's choice (notes/assumptions/14.md). -/
def Obligations.CommandFramingFollowsArrivals : Prop :=
  ∀ s : State,
    let begun := fun s : State => { s with cmd.framing := .inFrame, cmd.frameChecked := s.settings.checkMode }
    let abandoned := fun s : State =>
      { s with cmd.framesAbandoned := bump s.cmd.framesAbandoned, latched := s.latched ||| codeBit 11 }
    (∀ c ∈ [Instr.commandFrameBegins, Instr.commandFrameAbandoned],
      (s.cmd.framing = .hunting → exec c s = .next s)
      ∧ (s.cmd.framing = .between → exec c s = .next (begun s))
      ∧ (s.cmd.framing = .inFrame → exec c s = .next (begun (abandoned s))))
    ∧ (s.resetHeld = false → s.cmd.framing = .hunting →
        exec .commandAlignmentGained s = .next { s with cmd.aligned := true, cmd.framing := .between })
    ∧ (s.resetHeld = true ∨ s.cmd.framing ≠ .hunting →
        exec .commandAlignmentGained s = .next { s with cmd.aligned := true })
    ∧ (s.cmd.framing ≠ .inFrame →
        exec .commandAlignmentLost s = .next { s with cmd.aligned := false, cmd.framing := .hunting })
    ∧ (s.cmd.framing = .inFrame →
        exec .commandAlignmentLost s =
          .next (abandoned { s with cmd.aligned := false, cmd.framing := .hunting }))
    ∧ (s.cmd.framing ≠ .inFrame →
        (∀ octets, exec (.commandFrame octets) s = .next s) ∧ ∀ c, (frameOf c).isSome → exec c s = .next s)

/-- A command frame laid out by the wire format, octet by octet, under either check mode and with any reserved bits, is read back as the
command it stands for: COMMAND_FRAME with its octets does exactly what that command's row does (R175 to R178, R180, R198). That a named row
stands for its whole, correct frame is the MODEL's choice (notes/assumptions/16.md). -/
def Obligations.WholeFrameIsItsCommand : Prop :=
  ∀ (c : Instr) (k : CommandKind) (tag : Tag) (body : List Word) (reserved : BitVec 4) (high : BitVec 16) (s : State),
    frameOf c = some (k, tag, body) → body.length ≤ 255 → appliesAll c →
    ∃ t, exec (.commandFrame (frameOctets k.code reserved tag body s.cmd.frameChecked high)) s = .next t
      ∧ exec c s = .next t

/-- The framing tests in their order (R177): FRAMING for octets that are no whole number of words or hold no word, BAD_LENGTH for words that
disagree with the body length, CRC_BAD under check mode ON; the reply echoes the header's kind and tag, or 0 and 0 with no whole word. -/
def Obligations.FramingTestsRefuse : Prop :=
  ∀ (s : State), s.cmd.framing = .inFrame → s.cmd.replies.length < 7 →
    (∀ octets : List Octet, octets.length < 4 →
      exec (.commandFrame octets) s = .next (refusedWith .framing 0 0 s))
    ∧ ∀ (h : Word) (ws : List Word) (more : List Octet),
      let kind := h.extractLsb' 24 8
      let tag := h.extractLsb' 8 12
      let n := (h.extractLsb' 0 8).toNat
      let octets := (h :: ws).flatMap octetsOfWord
      (1 ≤ more.length → more.length ≤ 3 →
        exec (.commandFrame (octets ++ more)) s = .next (refusedWith .framing kind tag s))
      ∧ (ws.length ≠ n + (if s.cmd.frameChecked then 1 else 0) →
        exec (.commandFrame octets) s = .next (refusedWith .badLength kind tag s))
      ∧ (s.cmd.frameChecked = true → ∀ body c, ws = body ++ [c] → body.length = n →
        checkGood (h :: body) c = false → exec (.commandFrame octets) s = .next (refusedWith .crcBad kind tag s))

/-- What keeps a command from being executed (R178, R179, R180). For every command row whose body fits a frame: no place in the reply queue,
a command outstanding, and the run state INIT for every kind but IDENTIFY and STATUS. For every taken frame, octet by octet: a kind field
that names no command is answered BAD_KIND, in INIT every kind but IDENTIFY and STATUS BUSY_INIT, and a body of a length that the kind does
not admit BAD_VALUE, in this order. IDENTIFY and STATUS are served in every run state. -/
def Obligations.CommandsNotExecuted : Prop :=
  (∀ (c : Instr) (k : CommandKind) (tag : Tag) (body : List Word) (s : State),
    frameOf c = some (k, tag, body) → body.length ≤ 255 → s.cmd.framing = .inFrame →
    let full := 8 ≤ s.cmd.replies.length ∨ (s.cmd.configure.isSome ∧ 7 ≤ s.cmd.replies.length)
    (full → exec c s = .next { s with
      cmd.framing := .between
      cmd.framesReceived := bump s.cmd.framesReceived
      cmd.framesUnanswered := bump s.cmd.framesUnanswered
      latched := s.latched ||| codeBit 11 })
    ∧ (¬full → s.cmd.outstanding.isSome → exec c s = .next { s with
      cmd.framing := .between
      cmd.framesReceived := bump s.cmd.framesReceived
      cmd.repliesNotReady := bump s.cmd.repliesNotReady
      cmd.replies := s.cmd.replies
        ++ [⟨k.code, tag, .notReady, summaryWord s, [], s.cmd.frameChecked, false⟩] })
    ∧ (¬full → s.cmd.outstanding = none → s.run = .init → k ≠ .identify → k ≠ .status →
      exec c s = .next (answered k tag s.cmd.frameChecked .busyInit [] (takenBy k tag s)))
    ∧ (∀ d ∈ [Instr.identify tag, Instr.status tag],
        LinkReady s → ∃ b, exec d s =
          .next (answered (if d = .identify tag then .identify else .status) tag s.cmd.frameChecked .ok b
            (takenBy (if d = .identify tag then .identify else .status) tag s))))
  ∧ ∀ (kind : BitVec 8) (reserved : BitVec 4) (tag : Tag) (body : List Word) (high : BitVec 16) (s : State),
    LinkReady s → body.length ≤ 255 →
    let arrives := exec (.commandFrame (frameOctets kind reserved tag body s.cmd.frameChecked high)) s
    let refused := fun st =>
      (.next (answeredAs kind tag s.cmd.frameChecked st [] (takenAs kind tag s)) : Host.Outcome State Fault Refusal)
    (kind = 0 ∨ 0x12#8 < kind → arrives = refused .badKind)
    ∧ ∀ k : CommandKind, kind = k.code →
        (s.run = .init → k ≠ .identify → k ≠ .status → arrives = refused .busyInit)
        ∧ (s.run ≠ .init ∨ k = .identify ∨ k = .status → ¬bodyFits k body.length → arrives = refused .badValue)

/-- The last word of the head reply is sent (R178, R179, R185): the reply goes out and leaves the queue, and the outstanding command clears
when the reply is its own; with the reply of an accepted RESET the reset takes effect in every block (R7, R30, R51, R65, R97, R112, R134,
R142, R148, R163, R174, R188), with the zero-fill starting. RESET itself is only answered. REPLY_SENT with no reply waiting changes nothing,
by the MODEL's choice (notes/assumptions/12.md). The words sent are the header, the summary word, the body and, under check mode ON, a check
word over them; the header reads back as kind, status code, tag and body length, and the check word as the CRC with 16 zeros above it (R176,
R181, R200). -/
def Obligations.ReplySentAndReset : Prop :=
  (∀ r : Reply, r.body.length ≤ 255 →
    let plain := r.words.take (2 + r.body.length)
    r.words.length = 2 + r.body.length + (if r.checked then 1 else 0)
    ∧ field r.words 0 24 8 = r.kind.toNat ∧ field r.words 0 8 12 = r.tag.toNat ∧ field r.words 0 0 8 = r.body.length
    ∧ [Status.ok, .badKind, .badValue, .wrongState, .empty, .busyInit, .notReady, .framing, .badLength, .crcBad][
        field r.words 0 20 4]? = some r.status
    ∧ r.words[1]? = some r.summary ∧ plain.drop 2 = r.body
    ∧ (r.checked = true →
        field r.words (2 + r.body.length) 16 16 = 0 ∧ field r.words (2 + r.body.length) 0 16 = (crc plain).toNat))
  ∧ ∀ s : State,
    (s.resetHeld = true ∨ s.cmd.replies = [] → exec .replySent s = .next s)
    ∧ (∀ r rest, s.resetHeld = false → s.cmd.replies = r :: rest →
        (¬(r.taken = true ∧ r.kind = 9#8 ∧ r.status = .ok) →
          exec .replySent s = .next { s with
            cmd.replies := rest
            cmd.outstanding := if r.taken then none else s.cmd.outstanding
            replyOut := s.replyOut ++ [r.words] })
        ∧ (r.taken = true → r.kind = 9#8 → r.status = .ok →
          ∃ t, exec .replySent s = .next t
            ∧ t.run = .init ∧ t.resetHeld = false ∧ t.settings = Settings.default ∧ t.time = ⟨⟨0, 0⟩, 0, false, false⟩
            ∧ t.intake = { Intake.default with lineLevel := s.intake.lineLevel }
            ∧ t.distributor = ⟨23, false⟩ ∧ t.monitor = ⟨0, 0⟩
            ∧ t.pool = { Pool.default with entries := t.pool.entries, fill := some 0 }
            ∧ (∀ e, (poolEntry t e).refCount = 0)
            ∧ t.table = Table.default ∧ t.builder = Builder.default ∧ t.spy = Spy.default ∧ t.latched = 0
            ∧ t.router = { Router.default with hold := s.router.hold }
            ∧ t.cmd = { CommandLink.default with
                aligned := s.cmd.aligned, framing := if s.cmd.aligned then .between else .hunting }
            ∧ (∀ i, source t i = { Source.default with
                aligned := (source s i).aligned
                framing := if (source s i).aligned then .between else .hunting })
            ∧ t.replyOut = s.replyOut ++ [r.words] ∧ t.dataLinkOut = s.dataLinkOut ∧ t.pending = s.pending))
    ∧ ∀ tag, LinkReady s → s.run ≠ .init →
        exec (.reset tag) s = .next (answered .reset tag s.cmd.frameChecked .ok [] (takenBy .reset tag s))

/-! ## Commands -/

/-- The commands that only read change nothing but the counts of their own frame, and their bodies are the fields their entries list (R96,
R114, R172, R192, R193, R194, R200). The count words of READ_CONTEXTS are the MODEL's choice (notes/assumptions/10.md), and so
is that a RELEASING context is reported with the missing set of its record (notes/assumptions/32.md). -/
def Obligations.ReadingCommandsAnswer : Prop :=
  ∀ (s : State) (tag : Tag), LinkReady s →
    let ok := fun (k : CommandKind) (body : List Word) =>
      (.next (answered k tag s.cmd.frameChecked .ok body (takenBy k tag s)) : Host.Outcome State Fault Refusal)
    exec (.identify tag) s = ok .identify [2416, 1, 24, 16, 4096, 1024]
    ∧ exec (.status tag) s = ok .status
        [0#15 ++ pendingSet s, num (highest s), if alert s then 1 else 0, num s.settings.alertFloor]
    ∧ (s.run ≠ .init →
        (∃ body : List Word, exec (.readSettings tag) s = ok .readSettings body ∧ body.length = 148
          ∧ (∀ (k : Nat) (x : Setting), allSettings[k]? = some x → body[k]? = some (readSetting s.settings x))
          ∧ ∀ i : Fin 24, body[124 + i.val]? = some (if (source s i).mode = .link then 0 else 1))
        ∧ exec (.readCounters tag 0xFFFFFFFF#32) s = ok .readCounters
            ([bump s.cmd.framesReceived, s.cmd.framesRefused, s.cmd.framesAbandoned, bump s.cmd.commandsTaken,
              s.cmd.repliesNotReady, s.cmd.framesUnanswered,
              s.time.slipCount,
              s.intake.accepted, s.intake.merged, s.intake.refusedHoldOff, s.intake.refusedFull, s.intake.outsideRun,
              s.pool.pulsesHeld, s.pool.pulsesRetained, s.pool.pulsesRefusedFull, s.pool.retainedAged,
              s.pool.retainedEvicted, s.pool.retainedClaimed, s.pool.poolWaits,
              s.pool.freeList.length, s.pool.retention.length,
              s.pool.entries.toList.countP fun x => decide (0 < x.refCount), s.pool.leastFree,
              s.table.eventsTruncated, s.table.claimPasses, s.table.claimPassesStopped,
              s.monitor.eventsCompleted, s.monitor.incompleteEvents,
              s.builder.eventsReleased, s.builder.eventsSuppressed, s.builder.copiesLost, s.builder.withoutCopy,
              s.builder.aborted,
              s.router.streamEventsSent, s.router.streamEventsAborted, s.router.streamWordsSent, s.router.eventsStored,
              s.router.eventsTaken, s.router.eventsDiscarded,
              s.router.buffer.length, if s.router.owed ≠ none then 2 else if s.router.inEvent then 1 else 0,
              (s.router.readout.map fun e => e.words.length).sum, s.router.readout.length,
              s.spy.hits.get 0, s.spy.hits.get 1, s.spy.hits.get 2, s.spy.hits.get 3,
              s.spy.stored, s.spy.lost, s.spy.taken, s.spy.queue.length].map num)
        ∧ (∀ i : Fin 24, exec (.readCounters tag (num i.val)) s = ok .readCounters
            ([(source s i).counters.frames, (source s i).counters.pulsesStaged, (source s i).counters.malformed,
              (source s i).counters.checkFailures, (source s i).counters.overruns,
              (source s i).counters.markRegressions, (source s i).counters.orphans, (source s i).counters.latePulses,
              (source s i).counters.wentLagging, (source s i).counters.wentDown,
              (source s i).standing.code].map num ++ watermarkWords (source s i).watermark))
        ∧ (∀ g : Word, 24 ≤ g.toNat → g ≠ 0xFFFFFFFF#32 →
            exec (.readCounters tag g) s =
              .next (answered .readCounters tag s.cmd.frameChecked .badValue [] (takenBy .readCounters tag s)))
        ∧ exec (.readContexts tag) s = ok .readContexts
            ([num s.table.nextNumber, num (16 - s.table.order.length), num s.table.order.length]
              ++ (s.table.order.flatMap fun i =>
                  [num i.val, num (context s i).state.code, num (context s i).number,
                   num (context s i).triggers.length, stampWord (context s i).winOpen, stampWord (context s i).winClose,
                   num (context s i).refs.length, num (context s i).lost, 0#8 ++ (context s i).missing,
                   num (context s i).scan.code])
              ++ num s.table.scanList.length :: (s.table.scanList.map fun i => num i.val)
              ++ [match s.table.scanned with
                  | some i => num i.val
                  | none => 0xFFFFFFFF#32]))

/-- The highest pending condition (R169): code 0 when nothing is pending; otherwise a pending one of the greatest level, and of those the
lowest code. -/
def Obligations.HighestConditionSelected : Prop :=
  ∀ s : State,
    ((∀ k, 1 ≤ k → k ≤ 16 → (pendingSet s).getLsbD k = false) → highest s = 0)
    ∧ ((∃ k, 1 ≤ k ∧ k ≤ 16 ∧ (pendingSet s).getLsbD k = true) →
        1 ≤ highest s ∧ highest s ≤ 16 ∧ (pendingSet s).getLsbD (highest s) = true)
    ∧ ∀ k, 1 ≤ k → k ≤ 16 → (pendingSet s).getLsbD k = true →
        levelOf s.settings k ≤ levelOf s.settings (highest s)
        ∧ (levelOf s.settings k = levelOf s.settings (highest s) → highest s ≤ k)

/-- BUSY, READY, STREAM_HELD and ALERT stand exactly while their rules say so (R27, R139, R144, R166, R168), and the summary word carries
run state, ALERT, READY, BUSY and the highest condition in their bits, with reserved bits 0 (R173, R200). -/
def Obligations.LinesFollowTheState : Prop :=
  ∀ s : State,
    (busy s = true ↔ s.run ≠ .running ∨ 16 - s.table.order.length ≤ s.settings.contextMargin
      ∨ s.pool.freeList.length ≤ s.settings.poolMargin)
    ∧ (ready s = true ↔ s.router.readout ≠ [])
    ∧ (streamHeld s = true ↔ s.router.hold = true ∧ 4096 ≤ s.router.buffer.length
        ∧ ∃ j, s.builder.job = some j ∧ j.progress < j.size)
    ∧ (∀ k, k ≤ 16 → (pendingSet s).getLsbD k =
        (s.latched.getLsbD k || (decide (k = 14) && ready s) || (decide (k = 15) && busy s)
          || (decide (k = 16) && streamHeld s)))
    ∧ (alert s = true ↔ ∃ k, 1 ≤ k ∧ k ≤ 16 ∧ (pendingSet s).getLsbD k = true
        ∧ s.settings.alertFloor < levelOf s.settings k)
    ∧ (let ws := [summaryWord s]
      [RunState.init, .idle, .running, .draining][field ws 0 30 2]? = some s.run
      ∧ (field ws 0 29 1 = 1 ↔ alert s = true) ∧ (field ws 0 28 1 = 1 ↔ ready s = true)
      ∧ (field ws 0 27 1 = 1 ↔ busy s = true)
      ∧ field ws 0 5 22 = 0 ∧ field ws 0 0 5 = highest s)

/-- CONFIGURE (R189, R190, R191): its pairs are applied in order up to the first that is refused; the reply gives their number, the refused
index when there is one, and the clamps. Applying some pairs in one step and the rest in a later one, with nothing in between, is the same
as applying them all at once; how many a step applies is the MODEL's operand (notes/assumptions/6.md). -/
def Obligations.ConfigureAppliesUntilRefusal : Prop :=
  (∀ (s t : State) (tag : Tag) (good : List (Word × Word)) (j : ConfigureJob) (upTo : Nat),
    LinkReady s → s.run ≠ .init →
    applyAll good ⟨[], 0, []⟩ (takenBy .configure tag s) = some (j, t) →
    let clamps := num j.clamps.length :: j.clamps.map clampWord
    (good.length ≤ 127 → good.length ≤ upTo →
      exec (.configure (.frame tag good upTo)) s =
        .next (answered .configure tag s.cmd.frameChecked .ok (num good.length :: clamps) t))
    ∧ ∀ (bad : Word × Word) (more : List (Word × Word)) (st : Status),
      applyPair bad.1 bad.2 t = .refused st → (good ++ bad :: more).length ≤ 127 → good.length < upTo →
      exec (.configure (.frame tag (good ++ bad :: more) upTo)) s =
        .next (answered .configure tag s.cmd.frameChecked st
          (num good.length :: num good.length :: clamps) t))
  ∧ ∀ (s t : State) (tag : Tag) (pairs : List (Word × Word)) (m n : Nat),
    LinkReady s → s.run ≠ .init → pairs.length ≤ 127 →
    exec (.configure (.frame tag pairs m)) s = .next t → t.cmd.configure ≠ none →
    exec (.configure (.resume n)) t = exec (.configure (.frame tag pairs (m + n))) s

/-- One CONFIGURE pair (R2, R188, R189, R190, R193, R199). A position from 124 on names no setting; an IDLE-only setting is refused in a
run. A value in its setting's form and range is taken: READ_SETTINGS then gives it back and every other position as before, and nothing
changes but the settings table, and for a changed OL bc to 0. A value outside is refused, except for the silence limit and the baselines,
which take the nearer end and report it. Writing back what READ_SETTINGS gives for a setting changes nothing. -/
def Obligations.SettingsPairsAndReadBack : Prop :=
  (∀ (s : State) (position value : Word), 124 ≤ position.toNat → applyPair position value s = .refused .badValue)
  ∧ (∀ (s : State) (k : Fin 124) (value : Word),
      let idleOnly := k.val ≤ 25 ∨ (42 ≤ k.val ∧ k.val ≤ 70)
      let inRun := s.run = .running ∨ s.run = .draining
      let takes := fun (v : Word) (note : Option Nat) => ∃ t, applyPair (num k.val) value s = .applied t note
        ∧ t = { s with
            settings := t.settings
            time.now := if t.settings.ol = s.settings.ol then s.time.now else ⟨s.time.now.orbit, 0⟩ }
        ∧ (settingValues t)[k.val]? = some v
        ∧ (∀ j, j ≠ k.val → (settingValues t)[j]? = (settingValues s)[j]?)
      let clamped := fun lo hi : Nat => if value.toNat < lo then lo else hi
      (idleOnly → inRun → applyPair (num k.val) value s = .refused .wrongState)
      ∧ (¬(idleOnly ∧ inRun) → settingTakes k.val value → takes value none)
      ∧ (¬(idleOnly ∧ inRun) → ¬settingTakes k.val value → k.val < 46 ∨ 70 < k.val →
          applyPair (num k.val) value s = .refused .badValue)
      ∧ (¬inRun → k.val = 46 → ¬settingTakes k.val value →
          takes (num (clamped 256 1048575)) (some (clamped 256 1048575)))
      ∧ (¬inRun → 47 ≤ k.val → k.val ≤ 70 → ¬settingTakes k.val value → takes (num 255) (some 255)))
  ∧ (∀ (s : State) (n : Nat), s.run = .idle → 64 ≤ n → n ≤ 4096 →
      applyPair 0 (num n) s = .applied
        { s with
          settings := { s.settings with ol := n }
          time.now := if n = s.settings.ol then s.time.now else ⟨s.time.now.orbit, 0⟩ } none)
  ∧ (∀ (s : State) (n : Nat), s.run = .idle → n ≤ 4294967295 →
      applyPair 46 (num n) s = .applied
        { s with settings := { s.settings with
            silenceLimit := if n < 256 then 256 else if 1048575 < n then 1048575 else n } }
        (if n < 256 then some 256 else if 1048575 < n then some 1048575 else none))
  ∧ ∀ (s : State) (k : Fin 124), SettingsInRange s → s.run = .idle →
      applyPair (num k.val) ((settingValues s).getD k.val 0) s = .applied s none

/-- SET_TIME (R6): in IDLE an orbit number in range sets local time to (N, 0) and clears a pending correction, one above the range is
refused with BAD_VALUE, and outside IDLE the command is refused. That in RUNNING and DRAINING an orbit number above the range is answered
WRONG_STATE, as any other, is the MODEL's choice (notes/assumptions/31.md). -/
def Obligations.SetTimeInIdle : Prop :=
  ∀ (s : State) (tag : Tag) (n : Word), LinkReady s →
    let u := takenBy .setTime tag s
    let reply := answered .setTime tag s.cmd.frameChecked
    (s.run = .idle → n.toNat ≤ 1048575 →
      exec (.setTime tag n) s =
        .next (reply .ok [] { u with time.now := ⟨n.toNat, 0⟩, time.correction := false }))
    ∧ (s.run = .idle → 1048575 < n.toNat → exec (.setTime tag n) s = .next (reply .badValue [] u))
    ∧ (s.run = .running ∨ s.run = .draining → exec (.setTime tag n) s = .next (reply .wrongState [] u))
    ∧ (s.run = .init → exec (.setTime tag n) s = .next (reply .busyInit [] u))

/-- START (R182): in IDLE every block takes its START values, every counter is 0, and what the rule keeps is kept; in RUNNING and DRAINING
it is refused and changes nothing. -/
def Obligations.StartGivesRunValues : Prop :=
  ∀ (s : State) (tag : Tag), LinkReady s →
    (s.run = .idle → ∃ v, exec (.start tag) s = .next (answered .start tag s.cmd.frameChecked .ok [] v)
      ∧ v = { s with
          run := .running
          time := { s.time with slipCount := 0 }
          intake := { Intake.default with
            latch := s.intake.latch, lineLevel := s.intake.lineLevel, sampled := s.intake.sampled }
          sources := v.sources
          distributor := ⟨23, false⟩
          pool := { Pool.default with entries := v.pool.entries, fill := s.pool.fill }
          table := Table.default
          monitor := ⟨0, 0⟩
          builder := Builder.default
          router := { Router.default with
            inEvent := s.router.inEvent, wordsSent := s.router.wordsSent, owed := s.router.owed, hold := s.router.hold }
          spy := Spy.default
          cmd := { CommandLink.default with
            framing := .between, aligned := s.cmd.aligned, frameChecked := s.cmd.frameChecked
            outstanding := some ⟨6#8, tag, s.cmd.frameChecked⟩, replies := s.cmd.replies } }
      ∧ (∀ e, poolEntry v e = { poolEntry s e with refCount := 0 })
      ∧ ∀ i, source v i = { source s i with
          silenceTimer := 0, silenceReported := false, gapPending := false, queue := [], watermark := none
          standing := if (source s i).standing = .disabled then .disabled else .active
          counters := SourceCounters.zero })
    ∧ (s.run = .running ∨ s.run = .draining →
        exec (.start tag) s = .next (answered .start tag s.cmd.frameChecked .wrongState [] (takenBy .start tag s)))

/-- STOP and ABORT (R183, R184, R131, R140). STOP makes a run DRAINING, or IDLE at once when every context is FREE, the builder IDLE and the
stream buffer empty. ABORT makes it IDLE at once: a stream phase ends counted, an event open on the data link is owed an ABORTED ending with
its count, and the stream buffer is emptied. Both give the pool, the table, the queues and the distributor their return-to-IDLE values and
keep every counter, the least free figure and the last served source (R51, R65, R66, R67, R97). Elsewhere both are refused. -/
def Obligations.StopAndAbortEndTheRun : Prop :=
  ∀ (s : State) (tag : Tag), LinkReady s →
    (s.run = .running → (s.table.order ≠ [] ∨ s.builder.job ≠ none ∨ s.router.buffer ≠ []) →
      exec (.stop tag) s = .next
        (answered .stop tag s.cmd.frameChecked .ok [] { takenBy .stop tag s with run := .draining }))
    ∧ (s.run = .running → s.table.order = [] → s.builder.job = none → s.router.buffer = [] →
      ∃ v, exec (.stop tag) s = .next (answered .stop tag s.cmd.frameChecked .ok [] v)
        ∧ Emptied (takenBy .stop tag s) v)
    ∧ (s.run = .idle ∨ s.run = .draining →
      exec (.stop tag) s = .next (answered .stop tag s.cmd.frameChecked .wrongState [] (takenBy .stop tag s)))
    ∧ (s.run = .running ∨ s.run = .draining →
      ∃ v, exec (.abort tag) s = .next (answered .abort tag s.cmd.frameChecked .ok [] v)
        ∧ Emptied { takenBy .abort tag s with
            intake.lastAccepted := none
            builder.job := none
            builder.aborted := if s.builder.job = none then s.builder.aborted else bump s.builder.aborted
            router := { s.router with
              buffer := []
              inEvent := false
              wordsSent := 0
              owed := if s.router.inEvent then some s.router.wordsSent else s.router.owed
              streamEventsAborted :=
                if s.router.inEvent then bump s.router.streamEventsAborted else s.router.streamEventsAborted }
            table.claimPassesStopped :=
              if s.table.scanned = none then s.table.claimPassesStopped else bump s.table.claimPassesStopped } v)
    ∧ (s.run = .idle →
      exec (.abort tag) s = .next (answered .abort tag s.cmd.frameChecked .wrongState [] (takenBy .abort tag s)))

/-- SOURCE_CONTROL (R40, R50, R100, R101, R115, R195): what each action does to the source, with the settling after an enable or disable
that changed its standing; the reply carries standing, mode and watermark as the action left them; a source outside 0..23, a mode above 1
and an action above 3 are each answered BAD_VALUE. The framing state that a mode of INJECT leaves is the MODEL's choice
(notes/assumptions/8.md). -/
def Obligations.SourceControlActions : Prop :=
  ∀ (s : State) (tag : Tag) (i : Fin 24), LinkReady s → s.run ≠ .init →
    let u := takenBy .sourceControl tag s
    let x := source s i
    let n := BitVec.ofNat 8 i.val
    let hunt := if x.aligned then Framing.between else Framing.hunting
    let done := fun v : State =>
      (.next (answered .sourceControl tag s.cmd.frameChecked .ok
        ([num (source v i).standing.code, if (source v i).mode = .link then 0 else 1]
          ++ watermarkWords (source v i).watermark) v) : Host.Outcome State Fault Refusal)
    let restarted := { x with silenceTimer := 0, silenceReported := false }
    (x.standing = .disabled → exec (.sourceControlEnable tag n) s =
      done (settle (setSource i { restarted with standing := .active } u)))
    ∧ (x.standing ≠ .disabled → exec (.sourceControlEnable tag n) s = done (setSource i restarted u))
    ∧ (x.standing ≠ .disabled → exec (.sourceControlDisable tag n) s =
      done (settle (setSource i { x with standing := .disabled } u)))
    ∧ (x.standing = .disabled → exec (.sourceControlDisable tag n) s = done u)
    ∧ exec (.sourceControlReset tag n) s = done (setSource i { restarted with
        queue := [], gapPending := false, watermark := none
        framing := if x.mode = .link then hunt else x.framing } u)
    ∧ (x.mode = .link → exec (.sourceControlSetMode tag n 0) s = done u)
    ∧ (x.mode = .inject → exec (.sourceControlSetMode tag n 0) s =
      done (setSource i { restarted with mode := .link, framing := hunt } u))
    ∧ (x.mode = .inject → exec (.sourceControlSetMode tag n 1) s = done u)
    ∧ (x.mode = .link → exec (.sourceControlSetMode tag n 1) s =
      done (setSource i { x with
        mode := .inject, framing := if x.framing = .inFrame then .between else x.framing } u))
    ∧ ∀ src mode : BitVec 8,
      (24 ≤ src.toNat → ∀ c ∈ [Instr.sourceControlEnable tag src, .sourceControlDisable tag src,
          .sourceControlReset tag src, .sourceControlSetMode tag src mode],
        exec c s = .next (answered .sourceControl tag s.cmd.frameChecked .badValue [] u))
      ∧ (2 ≤ mode.toNat →
        exec (.sourceControlSetMode tag src mode) s =
          .next (answered .sourceControl tag s.cmd.frameChecked .badValue [] u))
      ∧ ∀ (w : Word) (reserved : BitVec 4) (high : BitVec 16), 4 ≤ (w.extractLsb' 8 8).toNat →
        exec (.commandFrame (frameOctets 0x0B#8 reserved tag [w] s.cmd.frameChecked high)) s =
          .next (answered .sourceControl tag s.cmd.frameChecked .badValue [] u)

/-- CLEAR_CONDITIONS (R170): with every code in 1..16 the latched conditions named leave the set and no other does, and the reply carries
the pending set and the highest condition after it; with any other code nothing is cleared; in INIT it is refused. That the body holds these
two words and no ALERT word is the MODEL's choice (notes/assumptions/30.md). -/
def Obligations.ClearConditionsClearsNamed : Prop :=
  ∀ (s : State) (tag : Tag) (codes : List Word), LinkReady s → codes.length ≤ 255 →
    (s.run = .init → exec (.clearConditions tag codes) s =
      .next (answered .clearConditions tag s.cmd.frameChecked .busyInit [] (takenBy .clearConditions tag s)))
    ∧ (s.run ≠ .init → (∀ k ∈ codes, 1 ≤ k.toNat ∧ k.toNat ≤ 16) →
      ∃ v, exec (.clearConditions tag codes) s =
          .next (answered .clearConditions tag s.cmd.frameChecked .ok [0#15 ++ pendingSet v, num (highest v)] v)
        ∧ v = { takenBy .clearConditions tag s with latched := v.latched }
        ∧ ∀ k, k < 17 → v.latched.getLsbD k = (s.latched.getLsbD k && !(codes.any fun w => decide (w.toNat = k))))
    ∧ (s.run ≠ .init → (∃ k ∈ codes, k.toNat = 0 ∨ 16 < k.toNat) →
      exec (.clearConditions tag codes) s =
        .next (answered .clearConditions tag s.cmd.frameChecked .badValue [] (takenBy .clearConditions tag s)))

/-- TAKE, DISCARD and SPY_TAKE (R145, R146, R160): EMPTY on an empty queue; TAKE returns the next 64 words of the head event or all that
remain, and the event leaves with its last word; DISCARD removes the head event; SPY_TAKE removes the head entry; in INIT each is refused.
That the words of TAKE have no further count word is the MODEL's reading (notes/assumptions/10.md). The words of a spy entry read back as
its monitor, point, event number with its presence bit, the entries remaining, and its pulse, with reserved bits 0 (R158, R160, R200). -/
def Obligations.QueuesAreTakenFromTheHead : Prop :=
  (∀ (e : SpyEntry) (remaining : Nat), remaining ≤ 31 → RecordInRange e.pulse → (∀ n, e.event = some n → n < 4294967296) →
    let ws := spyWords e remaining
    ws.length = 5 + (e.pulse.samples.length + 2) / 3
    ∧ field ws 0 0 2 = e.monitor.val ∧ field ws 0 2 2 = 0
    ∧ (field ws 0 4 1 = 1 ↔ e.event ≠ none) ∧ (field ws 0 5 1 = 1 ↔ e.event ≠ none)
    ∧ field ws 0 6 2 = 0 ∧ field ws 0 8 5 = remaining ∧ field ws 0 13 19 = 0
    ∧ field ws 1 0 32 = e.event.getD 0
    ∧ pulseOfBlock (ws.drop 2) = some e.pulse)
  ∧ ∀ (s : State) (tag : Tag), LinkReady s →
    (s.run = .init →
      exec (.take tag) s = .next (answered .take tag s.cmd.frameChecked .busyInit [] (takenBy .take tag s))
      ∧ exec (.discard tag) s = .next (answered .discard tag s.cmd.frameChecked .busyInit [] (takenBy .discard tag s))
      ∧ exec (.spyTake tag) s = .next (answered .spyTake tag s.cmd.frameChecked .busyInit [] (takenBy .spyTake tag s)))
    ∧ (s.run ≠ .init → s.router.readout = [] →
      exec (.take tag) s = .next (answered .take tag s.cmd.frameChecked .empty [] (takenBy .take tag s))
      ∧ exec (.discard tag) s = .next (answered .discard tag s.cmd.frameChecked .empty [] (takenBy .discard tag s)))
    ∧ (s.run ≠ .init → s.spy.queue = [] →
      exec (.spyTake tag) s = .next (answered .spyTake tag s.cmd.frameChecked .empty [] (takenBy .spyTake tag s)))
    ∧ (s.run ≠ .init → ∀ e rest, s.router.readout = e :: rest →
        let u := takenBy .take tag s
        let pos := s.router.takePosition
        let left := e.words.length - pos
        let reply := fun ws rem => answered .take tag s.cmd.frameChecked .ok
          ([num e.number, num pos, num (List.length ws), num rem] ++ ws)
        (64 < left → exec (.take tag) s =
          .next (reply ((e.words.drop pos).take 64) (left - 64) { u with router.takePosition := pos + 64 }))
        ∧ (left ≤ 64 → exec (.take tag) s =
          .next (reply (e.words.drop pos) 0 { u with
            router := { s.router with
              readout := rest, takePosition := 0, eventsTaken := bump s.router.eventsTaken } }))
        ∧ exec (.discard tag) s =
          .next (answered .discard tag s.cmd.frameChecked .ok [num e.number, num e.words.length, num pos]
            { takenBy .discard tag s with
              router := { s.router with
                readout := rest, takePosition := 0, eventsDiscarded := bump s.router.eventsDiscarded } }))
    ∧ (s.run ≠ .init → ∀ e rest, s.spy.queue = e :: rest →
        exec (.spyTake tag) s =
          .next (answered .spyTake tag s.cmd.frameChecked .ok (spyWords e rest.length)
            { takenBy .spyTake tag s with spy := { s.spy with queue := rest, taken := bump s.spy.taken } }))

/-! ## Invariants -/

/-- Every invariant of Sys2Proof/Safety.lean holds at the reset state. -/
def Obligations.InvariantsHoldAtReset : Prop :=
  SettingsInRange State.reset ∧ TimeInRange State.reset ∧ QueuesWithinRoom State.reset ∧ RepliesFit State.reset
    ∧ ReadoutWithinRoom State.reset ∧ StreamBracketed State.reset ∧ TableLawful State.reset ∧ PoolLawful State.reset
    ∧ WindowsLawful State.reset

/-- Every step keeps every setting in its range and local time a stamp of the present orbit length (R1, R2, R188). -/
def Obligations.StepsKeepSettingsAndTimeInRange : Prop :=
  ∀ s t : State, step s = .next t →
    (SettingsInRange s → SettingsInRange t) ∧ (TimeInRange s → TimeInRange t)

/-- Every step keeps the bounded queues within their room, and replies and the outstanding command fitting together (R42, R136, R143, R145,
R159, R178, R179). -/
def Obligations.StepsKeepQueuesWithinRoom : Prop :=
  ∀ s t : State, step s = .next t →
    (QueuesWithinRoom s → QueuesWithinRoom t) ∧ (RepliesFit s → RepliesFit t)
      ∧ (ReadoutWithinRoom s → ReadoutWithinRoom t)

/-- Every step keeps the stream buffer bracketed: a word marked FIRST always follows the end of an event, any other word its own event's
(R136, R137), and nothing is released outside a run. -/
def Obligations.StepsKeepTheStreamBracketed : Prop :=
  ∀ s t : State, step s = .next t → StreamBracketed s → StreamBracketed t

/-- Every step keeps the law of the context table and its lists (R68, R69, R74, R79, R84, R85, R88). -/
def Obligations.StepsKeepTheTableLawful : Prop := ∀ s t : State, step s = .next t → TableLawful s → TableLawful t

/-- Every step keeps the pool's law: reference counts are the references held, and the free list and the retention queue share out the
entries of count 0 (R53, R55, R61, R63). -/
def Obligations.StepsKeepThePoolLawful : Prop := ∀ s t : State, step s = .next t → PoolLawful s → PoolLawful t

/-- Every step keeps the windows lawful, so that a span never exceeds 262,137 ticks (R13, R14, R75, R77). -/
def Obligations.StepsKeepTheWindowsLawful : Prop :=
  ∀ s t : State, step s = .next t → WindowsLawful s →
    WindowsLawful t ∧ ∀ i ∈ t.table.order, (context t i).span ≤ 262137
end

