-- ==== Sys2Proof/Laws/State.lean ====
section
/-! SUPPORT. What each plain update of State leaves as it was, one lemma per field, and what the accessors read after it: no later proof
needs to unfold a record update. -/

namespace Sys2Proof.Machine

/-! ## Accessors of vectors -/

theorem get_eq {α : Type} {n : Nat} (v : Vector α n) (i : Fin n) : v.get i = v[i.val]'i.isLt := rfl

@[simp] theorem get_put_same {α : Type} {n : Nat} (v : Vector α n) (i : Fin n) (x : α) : (put v i x).get i = x := by
  simp [put, get_eq]

@[simp] theorem get_put_ne {α : Type} {n : Nat} (v : Vector α n) {i j : Fin n} (x : α) (h : j ≠ i) :
    (put v i x).get j = v.get j := by
  have : i.val ≠ j.val := fun e => h (Fin.ext e.symm)
  simp [put, get_eq, this]

theorem get_put {α : Type} {n : Nat} (v : Vector α n) (i j : Fin n) (x : α) :
    (put v i x).get j = if j = i then x else v.get j := by
  by_cases h : j = i
  · subst h; simp
  · simp [h]

@[simp] theorem get_mapAll {α β : Type} {n : Nat} (f : α → β) (v : Vector α n) (i : Fin n) :
    (mapAll f v).get i = f (v.get i) := by
  simp [mapAll, get_eq]

@[simp] theorem get_replicate {α : Type} {n : Nat} (x : α) (i : Fin n) : (Vector.replicate n x).get i = x := by
  simp [get_eq]

/-- Vectors with the same places are the same. -/
theorem vector_ext_get {α : Type} {n : Nat} {v w : Vector α n} (h : ∀ i : Fin n, v.get i = w.get i) : v = w := by
  apply Vector.ext
  intro k hk
  have := h ⟨k, hk⟩
  simpa [Vector.get] using this

@[simp] theorem put_get {α : Type} {n : Nat} (v : Vector α n) (i : Fin n) : put v i (v.get i) = v := by
  apply vector_ext_get
  intro j
  rw [get_put]
  split
  · next h => rw [h]
  · rfl

@[simp] theorem put_put {α : Type} {n : Nat} (v : Vector α n) (i : Fin n) (x y : α) :
    put (put v i x) i y = put v i y := by
  apply vector_ext_get
  intro j
  by_cases h : j = i <;> simp [h]

/-! ## What the updates leave -/

@[simp] theorem setSource_run (i : Fin 24) (x : Source) (s : State) : (setSource i x s).run = s.run := rfl
@[simp] theorem setSource_resetHeld (i : Fin 24) (x : Source) (s : State) : (setSource i x s).resetHeld = s.resetHeld := rfl
@[simp] theorem setSource_settings (i : Fin 24) (x : Source) (s : State) : (setSource i x s).settings = s.settings := rfl
@[simp] theorem setSource_time (i : Fin 24) (x : Source) (s : State) : (setSource i x s).time = s.time := rfl
@[simp] theorem setSource_intake (i : Fin 24) (x : Source) (s : State) : (setSource i x s).intake = s.intake := rfl
@[simp] theorem setSource_distributor (i : Fin 24) (x : Source) (s : State) : (setSource i x s).distributor = s.distributor := rfl
@[simp] theorem setSource_pool (i : Fin 24) (x : Source) (s : State) : (setSource i x s).pool = s.pool := rfl
@[simp] theorem setSource_table (i : Fin 24) (x : Source) (s : State) : (setSource i x s).table = s.table := rfl
@[simp] theorem setSource_monitor (i : Fin 24) (x : Source) (s : State) : (setSource i x s).monitor = s.monitor := rfl
@[simp] theorem setSource_builder (i : Fin 24) (x : Source) (s : State) : (setSource i x s).builder = s.builder := rfl
@[simp] theorem setSource_router (i : Fin 24) (x : Source) (s : State) : (setSource i x s).router = s.router := rfl
@[simp] theorem setSource_spy (i : Fin 24) (x : Source) (s : State) : (setSource i x s).spy = s.spy := rfl
@[simp] theorem setSource_latched (i : Fin 24) (x : Source) (s : State) : (setSource i x s).latched = s.latched := rfl
@[simp] theorem setSource_cmd (i : Fin 24) (x : Source) (s : State) : (setSource i x s).cmd = s.cmd := rfl
@[simp] theorem setSource_dataLinkOut (i : Fin 24) (x : Source) (s : State) : (setSource i x s).dataLinkOut = s.dataLinkOut := rfl
@[simp] theorem setSource_replyOut (i : Fin 24) (x : Source) (s : State) : (setSource i x s).replyOut = s.replyOut := rfl
@[simp] theorem setSource_pending (i : Fin 24) (x : Source) (s : State) : (setSource i x s).pending = s.pending := rfl

@[simp] theorem modSource_run (i : Fin 24) (f : Source → Source) (s : State) : (modSource i f s).run = s.run := rfl
@[simp] theorem modSource_resetHeld (i : Fin 24) (f : Source → Source) (s : State) : (modSource i f s).resetHeld = s.resetHeld := rfl
@[simp] theorem modSource_settings (i : Fin 24) (f : Source → Source) (s : State) : (modSource i f s).settings = s.settings := rfl
@[simp] theorem modSource_time (i : Fin 24) (f : Source → Source) (s : State) : (modSource i f s).time = s.time := rfl
@[simp] theorem modSource_intake (i : Fin 24) (f : Source → Source) (s : State) : (modSource i f s).intake = s.intake := rfl
@[simp] theorem modSource_distributor (i : Fin 24) (f : Source → Source) (s : State) : (modSource i f s).distributor = s.distributor := rfl
@[simp] theorem modSource_pool (i : Fin 24) (f : Source → Source) (s : State) : (modSource i f s).pool = s.pool := rfl
@[simp] theorem modSource_table (i : Fin 24) (f : Source → Source) (s : State) : (modSource i f s).table = s.table := rfl
@[simp] theorem modSource_monitor (i : Fin 24) (f : Source → Source) (s : State) : (modSource i f s).monitor = s.monitor := rfl
@[simp] theorem modSource_builder (i : Fin 24) (f : Source → Source) (s : State) : (modSource i f s).builder = s.builder := rfl
@[simp] theorem modSource_router (i : Fin 24) (f : Source → Source) (s : State) : (modSource i f s).router = s.router := rfl
@[simp] theorem modSource_spy (i : Fin 24) (f : Source → Source) (s : State) : (modSource i f s).spy = s.spy := rfl
@[simp] theorem modSource_latched (i : Fin 24) (f : Source → Source) (s : State) : (modSource i f s).latched = s.latched := rfl
@[simp] theorem modSource_cmd (i : Fin 24) (f : Source → Source) (s : State) : (modSource i f s).cmd = s.cmd := rfl
@[simp] theorem modSource_dataLinkOut (i : Fin 24) (f : Source → Source) (s : State) : (modSource i f s).dataLinkOut = s.dataLinkOut := rfl
@[simp] theorem modSource_replyOut (i : Fin 24) (f : Source → Source) (s : State) : (modSource i f s).replyOut = s.replyOut := rfl
@[simp] theorem modSource_pending (i : Fin 24) (f : Source → Source) (s : State) : (modSource i f s).pending = s.pending := rfl

@[simp] theorem countSource_run (i : Fin 24) (f : SourceCounters → SourceCounters) (s : State) : (countSource i f s).run = s.run := rfl
@[simp] theorem countSource_resetHeld (i : Fin 24) (f : SourceCounters → SourceCounters) (s : State) : (countSource i f s).resetHeld = s.resetHeld := rfl
@[simp] theorem countSource_settings (i : Fin 24) (f : SourceCounters → SourceCounters) (s : State) : (countSource i f s).settings = s.settings := rfl
@[simp] theorem countSource_time (i : Fin 24) (f : SourceCounters → SourceCounters) (s : State) : (countSource i f s).time = s.time := rfl
@[simp] theorem countSource_intake (i : Fin 24) (f : SourceCounters → SourceCounters) (s : State) : (countSource i f s).intake = s.intake := rfl
@[simp] theorem countSource_distributor (i : Fin 24) (f : SourceCounters → SourceCounters) (s : State) : (countSource i f s).distributor = s.distributor := rfl
@[simp] theorem countSource_pool (i : Fin 24) (f : SourceCounters → SourceCounters) (s : State) : (countSource i f s).pool = s.pool := rfl
@[simp] theorem countSource_table (i : Fin 24) (f : SourceCounters → SourceCounters) (s : State) : (countSource i f s).table = s.table := rfl
@[simp] theorem countSource_monitor (i : Fin 24) (f : SourceCounters → SourceCounters) (s : State) : (countSource i f s).monitor = s.monitor := rfl
@[simp] theorem countSource_builder (i : Fin 24) (f : SourceCounters → SourceCounters) (s : State) : (countSource i f s).builder = s.builder := rfl
@[simp] theorem countSource_router (i : Fin 24) (f : SourceCounters → SourceCounters) (s : State) : (countSource i f s).router = s.router := rfl
@[simp] theorem countSource_spy (i : Fin 24) (f : SourceCounters → SourceCounters) (s : State) : (countSource i f s).spy = s.spy := rfl
@[simp] theorem countSource_latched (i : Fin 24) (f : SourceCounters → SourceCounters) (s : State) : (countSource i f s).latched = s.latched := rfl
@[simp] theorem countSource_cmd (i : Fin 24) (f : SourceCounters → SourceCounters) (s : State) : (countSource i f s).cmd = s.cmd := rfl
@[simp] theorem countSource_dataLinkOut (i : Fin 24) (f : SourceCounters → SourceCounters) (s : State) : (countSource i f s).dataLinkOut = s.dataLinkOut := rfl
@[simp] theorem countSource_replyOut (i : Fin 24) (f : SourceCounters → SourceCounters) (s : State) : (countSource i f s).replyOut = s.replyOut := rfl
@[simp] theorem countSource_pending (i : Fin 24) (f : SourceCounters → SourceCounters) (s : State) : (countSource i f s).pending = s.pending := rfl

@[simp] theorem setContext_run (i : Fin 16) (c : Context) (s : State) : (setContext i c s).run = s.run := rfl
@[simp] theorem setContext_resetHeld (i : Fin 16) (c : Context) (s : State) : (setContext i c s).resetHeld = s.resetHeld := rfl
@[simp] theorem setContext_settings (i : Fin 16) (c : Context) (s : State) : (setContext i c s).settings = s.settings := rfl
@[simp] theorem setContext_time (i : Fin 16) (c : Context) (s : State) : (setContext i c s).time = s.time := rfl
@[simp] theorem setContext_intake (i : Fin 16) (c : Context) (s : State) : (setContext i c s).intake = s.intake := rfl
@[simp] theorem setContext_sources (i : Fin 16) (c : Context) (s : State) : (setContext i c s).sources = s.sources := rfl
@[simp] theorem setContext_distributor (i : Fin 16) (c : Context) (s : State) : (setContext i c s).distributor = s.distributor := rfl
@[simp] theorem setContext_pool (i : Fin 16) (c : Context) (s : State) : (setContext i c s).pool = s.pool := rfl
@[simp] theorem setContext_monitor (i : Fin 16) (c : Context) (s : State) : (setContext i c s).monitor = s.monitor := rfl
@[simp] theorem setContext_builder (i : Fin 16) (c : Context) (s : State) : (setContext i c s).builder = s.builder := rfl
@[simp] theorem setContext_router (i : Fin 16) (c : Context) (s : State) : (setContext i c s).router = s.router := rfl
@[simp] theorem setContext_spy (i : Fin 16) (c : Context) (s : State) : (setContext i c s).spy = s.spy := rfl
@[simp] theorem setContext_latched (i : Fin 16) (c : Context) (s : State) : (setContext i c s).latched = s.latched := rfl
@[simp] theorem setContext_cmd (i : Fin 16) (c : Context) (s : State) : (setContext i c s).cmd = s.cmd := rfl
@[simp] theorem setContext_dataLinkOut (i : Fin 16) (c : Context) (s : State) : (setContext i c s).dataLinkOut = s.dataLinkOut := rfl
@[simp] theorem setContext_replyOut (i : Fin 16) (c : Context) (s : State) : (setContext i c s).replyOut = s.replyOut := rfl
@[simp] theorem setContext_pending (i : Fin 16) (c : Context) (s : State) : (setContext i c s).pending = s.pending := rfl
@[simp] theorem setContext_table_order (i : Fin 16) (c : Context) (s : State) : (setContext i c s).table.order = s.table.order := rfl
@[simp] theorem setContext_table_nextNumber (i : Fin 16) (c : Context) (s : State) : (setContext i c s).table.nextNumber = s.table.nextNumber := rfl
@[simp] theorem setContext_table_scanList (i : Fin 16) (c : Context) (s : State) : (setContext i c s).table.scanList = s.table.scanList := rfl
@[simp] theorem setContext_table_scanned (i : Fin 16) (c : Context) (s : State) : (setContext i c s).table.scanned = s.table.scanned := rfl
@[simp] theorem setContext_table_visits (i : Fin 16) (c : Context) (s : State) : (setContext i c s).table.visits = s.table.visits := rfl
@[simp] theorem setContext_table_eventsTruncated (i : Fin 16) (c : Context) (s : State) : (setContext i c s).table.eventsTruncated = s.table.eventsTruncated := rfl
@[simp] theorem setContext_table_claimPasses (i : Fin 16) (c : Context) (s : State) : (setContext i c s).table.claimPasses = s.table.claimPasses := rfl
@[simp] theorem setContext_table_claimPassesStopped (i : Fin 16) (c : Context) (s : State) : (setContext i c s).table.claimPassesStopped = s.table.claimPassesStopped := rfl

@[simp] theorem modContext_run (i : Fin 16) (f : Context → Context) (s : State) : (modContext i f s).run = s.run := rfl
@[simp] theorem modContext_resetHeld (i : Fin 16) (f : Context → Context) (s : State) : (modContext i f s).resetHeld = s.resetHeld := rfl
@[simp] theorem modContext_settings (i : Fin 16) (f : Context → Context) (s : State) : (modContext i f s).settings = s.settings := rfl
@[simp] theorem modContext_time (i : Fin 16) (f : Context → Context) (s : State) : (modContext i f s).time = s.time := rfl
@[simp] theorem modContext_intake (i : Fin 16) (f : Context → Context) (s : State) : (modContext i f s).intake = s.intake := rfl
@[simp] theorem modContext_sources (i : Fin 16) (f : Context → Context) (s : State) : (modContext i f s).sources = s.sources := rfl
@[simp] theorem modContext_distributor (i : Fin 16) (f : Context → Context) (s : State) : (modContext i f s).distributor = s.distributor := rfl
@[simp] theorem modContext_pool (i : Fin 16) (f : Context → Context) (s : State) : (modContext i f s).pool = s.pool := rfl
@[simp] theorem modContext_monitor (i : Fin 16) (f : Context → Context) (s : State) : (modContext i f s).monitor = s.monitor := rfl
@[simp] theorem modContext_builder (i : Fin 16) (f : Context → Context) (s : State) : (modContext i f s).builder = s.builder := rfl
@[simp] theorem modContext_router (i : Fin 16) (f : Context → Context) (s : State) : (modContext i f s).router = s.router := rfl
@[simp] theorem modContext_spy (i : Fin 16) (f : Context → Context) (s : State) : (modContext i f s).spy = s.spy := rfl
@[simp] theorem modContext_latched (i : Fin 16) (f : Context → Context) (s : State) : (modContext i f s).latched = s.latched := rfl
@[simp] theorem modContext_cmd (i : Fin 16) (f : Context → Context) (s : State) : (modContext i f s).cmd = s.cmd := rfl
@[simp] theorem modContext_dataLinkOut (i : Fin 16) (f : Context → Context) (s : State) : (modContext i f s).dataLinkOut = s.dataLinkOut := rfl
@[simp] theorem modContext_replyOut (i : Fin 16) (f : Context → Context) (s : State) : (modContext i f s).replyOut = s.replyOut := rfl
@[simp] theorem modContext_pending (i : Fin 16) (f : Context → Context) (s : State) : (modContext i f s).pending = s.pending := rfl
@[simp] theorem modContext_table_order (i : Fin 16) (f : Context → Context) (s : State) : (modContext i f s).table.order = s.table.order := rfl
@[simp] theorem modContext_table_nextNumber (i : Fin 16) (f : Context → Context) (s : State) : (modContext i f s).table.nextNumber = s.table.nextNumber := rfl
@[simp] theorem modContext_table_scanList (i : Fin 16) (f : Context → Context) (s : State) : (modContext i f s).table.scanList = s.table.scanList := rfl
@[simp] theorem modContext_table_scanned (i : Fin 16) (f : Context → Context) (s : State) : (modContext i f s).table.scanned = s.table.scanned := rfl
@[simp] theorem modContext_table_visits (i : Fin 16) (f : Context → Context) (s : State) : (modContext i f s).table.visits = s.table.visits := rfl
@[simp] theorem modContext_table_eventsTruncated (i : Fin 16) (f : Context → Context) (s : State) : (modContext i f s).table.eventsTruncated = s.table.eventsTruncated := rfl
@[simp] theorem modContext_table_claimPasses (i : Fin 16) (f : Context → Context) (s : State) : (modContext i f s).table.claimPasses = s.table.claimPasses := rfl
@[simp] theorem modContext_table_claimPassesStopped (i : Fin 16) (f : Context → Context) (s : State) : (modContext i f s).table.claimPassesStopped = s.table.claimPassesStopped := rfl

@[simp] theorem makeRef_run (e : Fin 4096) (p : PulseRecord) (s : State) (i : Fin 16) : (makeRef e p s i).run = s.run := rfl
@[simp] theorem makeRef_resetHeld (e : Fin 4096) (p : PulseRecord) (s : State) (i : Fin 16) : (makeRef e p s i).resetHeld = s.resetHeld := rfl
@[simp] theorem makeRef_settings (e : Fin 4096) (p : PulseRecord) (s : State) (i : Fin 16) : (makeRef e p s i).settings = s.settings := rfl
@[simp] theorem makeRef_time (e : Fin 4096) (p : PulseRecord) (s : State) (i : Fin 16) : (makeRef e p s i).time = s.time := rfl
@[simp] theorem makeRef_intake (e : Fin 4096) (p : PulseRecord) (s : State) (i : Fin 16) : (makeRef e p s i).intake = s.intake := rfl
@[simp] theorem makeRef_sources (e : Fin 4096) (p : PulseRecord) (s : State) (i : Fin 16) : (makeRef e p s i).sources = s.sources := rfl
@[simp] theorem makeRef_distributor (e : Fin 4096) (p : PulseRecord) (s : State) (i : Fin 16) : (makeRef e p s i).distributor = s.distributor := rfl
@[simp] theorem makeRef_pool (e : Fin 4096) (p : PulseRecord) (s : State) (i : Fin 16) : (makeRef e p s i).pool = s.pool := rfl
@[simp] theorem makeRef_monitor (e : Fin 4096) (p : PulseRecord) (s : State) (i : Fin 16) : (makeRef e p s i).monitor = s.monitor := rfl
@[simp] theorem makeRef_builder (e : Fin 4096) (p : PulseRecord) (s : State) (i : Fin 16) : (makeRef e p s i).builder = s.builder := rfl
@[simp] theorem makeRef_router (e : Fin 4096) (p : PulseRecord) (s : State) (i : Fin 16) : (makeRef e p s i).router = s.router := rfl
@[simp] theorem makeRef_spy (e : Fin 4096) (p : PulseRecord) (s : State) (i : Fin 16) : (makeRef e p s i).spy = s.spy := rfl
@[simp] theorem makeRef_latched (e : Fin 4096) (p : PulseRecord) (s : State) (i : Fin 16) : (makeRef e p s i).latched = s.latched := rfl
@[simp] theorem makeRef_cmd (e : Fin 4096) (p : PulseRecord) (s : State) (i : Fin 16) : (makeRef e p s i).cmd = s.cmd := rfl
@[simp] theorem makeRef_dataLinkOut (e : Fin 4096) (p : PulseRecord) (s : State) (i : Fin 16) : (makeRef e p s i).dataLinkOut = s.dataLinkOut := rfl
@[simp] theorem makeRef_replyOut (e : Fin 4096) (p : PulseRecord) (s : State) (i : Fin 16) : (makeRef e p s i).replyOut = s.replyOut := rfl
@[simp] theorem makeRef_pending (e : Fin 4096) (p : PulseRecord) (s : State) (i : Fin 16) : (makeRef e p s i).pending = s.pending := rfl
@[simp] theorem makeRef_table_order (e : Fin 4096) (p : PulseRecord) (s : State) (i : Fin 16) : (makeRef e p s i).table.order = s.table.order := rfl
@[simp] theorem makeRef_table_nextNumber (e : Fin 4096) (p : PulseRecord) (s : State) (i : Fin 16) : (makeRef e p s i).table.nextNumber = s.table.nextNumber := rfl
@[simp] theorem makeRef_table_scanList (e : Fin 4096) (p : PulseRecord) (s : State) (i : Fin 16) : (makeRef e p s i).table.scanList = s.table.scanList := rfl
@[simp] theorem makeRef_table_scanned (e : Fin 4096) (p : PulseRecord) (s : State) (i : Fin 16) : (makeRef e p s i).table.scanned = s.table.scanned := rfl
@[simp] theorem makeRef_table_visits (e : Fin 4096) (p : PulseRecord) (s : State) (i : Fin 16) : (makeRef e p s i).table.visits = s.table.visits := rfl
@[simp] theorem makeRef_table_eventsTruncated (e : Fin 4096) (p : PulseRecord) (s : State) (i : Fin 16) : (makeRef e p s i).table.eventsTruncated = s.table.eventsTruncated := rfl
@[simp] theorem makeRef_table_claimPasses (e : Fin 4096) (p : PulseRecord) (s : State) (i : Fin 16) : (makeRef e p s i).table.claimPasses = s.table.claimPasses := rfl
@[simp] theorem makeRef_table_claimPassesStopped (e : Fin 4096) (p : PulseRecord) (s : State) (i : Fin 16) : (makeRef e p s i).table.claimPassesStopped = s.table.claimPassesStopped := rfl

@[simp] theorem setPoolEntry_run (e : Fin 4096) (x : PoolEntry) (s : State) : (setPoolEntry e x s).run = s.run := rfl
@[simp] theorem setPoolEntry_resetHeld (e : Fin 4096) (x : PoolEntry) (s : State) : (setPoolEntry e x s).resetHeld = s.resetHeld := rfl
@[simp] theorem setPoolEntry_settings (e : Fin 4096) (x : PoolEntry) (s : State) : (setPoolEntry e x s).settings = s.settings := rfl
@[simp] theorem setPoolEntry_time (e : Fin 4096) (x : PoolEntry) (s : State) : (setPoolEntry e x s).time = s.time := rfl
@[simp] theorem setPoolEntry_intake (e : Fin 4096) (x : PoolEntry) (s : State) : (setPoolEntry e x s).intake = s.intake := rfl
@[simp] theorem setPoolEntry_sources (e : Fin 4096) (x : PoolEntry) (s : State) : (setPoolEntry e x s).sources = s.sources := rfl
@[simp] theorem setPoolEntry_distributor (e : Fin 4096) (x : PoolEntry) (s : State) : (setPoolEntry e x s).distributor = s.distributor := rfl
@[simp] theorem setPoolEntry_table (e : Fin 4096) (x : PoolEntry) (s : State) : (setPoolEntry e x s).table = s.table := rfl
@[simp] theorem setPoolEntry_monitor (e : Fin 4096) (x : PoolEntry) (s : State) : (setPoolEntry e x s).monitor = s.monitor := rfl
@[simp] theorem setPoolEntry_builder (e : Fin 4096) (x : PoolEntry) (s : State) : (setPoolEntry e x s).builder = s.builder := rfl
@[simp] theorem setPoolEntry_router (e : Fin 4096) (x : PoolEntry) (s : State) : (setPoolEntry e x s).router = s.router := rfl
@[simp] theorem setPoolEntry_spy (e : Fin 4096) (x : PoolEntry) (s : State) : (setPoolEntry e x s).spy = s.spy := rfl
@[simp] theorem setPoolEntry_latched (e : Fin 4096) (x : PoolEntry) (s : State) : (setPoolEntry e x s).latched = s.latched := rfl
@[simp] theorem setPoolEntry_cmd (e : Fin 4096) (x : PoolEntry) (s : State) : (setPoolEntry e x s).cmd = s.cmd := rfl
@[simp] theorem setPoolEntry_dataLinkOut (e : Fin 4096) (x : PoolEntry) (s : State) : (setPoolEntry e x s).dataLinkOut = s.dataLinkOut := rfl
@[simp] theorem setPoolEntry_replyOut (e : Fin 4096) (x : PoolEntry) (s : State) : (setPoolEntry e x s).replyOut = s.replyOut := rfl
@[simp] theorem setPoolEntry_pending (e : Fin 4096) (x : PoolEntry) (s : State) : (setPoolEntry e x s).pending = s.pending := rfl
@[simp] theorem setPoolEntry_pool_freeList (e : Fin 4096) (x : PoolEntry) (s : State) : (setPoolEntry e x s).pool.freeList = s.pool.freeList := rfl
@[simp] theorem setPoolEntry_pool_retention (e : Fin 4096) (x : PoolEntry) (s : State) : (setPoolEntry e x s).pool.retention = s.pool.retention := rfl
@[simp] theorem setPoolEntry_pool_inWaiting (e : Fin 4096) (x : PoolEntry) (s : State) : (setPoolEntry e x s).pool.inWaiting = s.pool.inWaiting := rfl
@[simp] theorem setPoolEntry_pool_fill (e : Fin 4096) (x : PoolEntry) (s : State) : (setPoolEntry e x s).pool.fill = s.pool.fill := rfl
@[simp] theorem setPoolEntry_pool_leastFree (e : Fin 4096) (x : PoolEntry) (s : State) : (setPoolEntry e x s).pool.leastFree = s.pool.leastFree := rfl
@[simp] theorem setPoolEntry_pool_pulsesHeld (e : Fin 4096) (x : PoolEntry) (s : State) : (setPoolEntry e x s).pool.pulsesHeld = s.pool.pulsesHeld := rfl
@[simp] theorem setPoolEntry_pool_pulsesRetained (e : Fin 4096) (x : PoolEntry) (s : State) : (setPoolEntry e x s).pool.pulsesRetained = s.pool.pulsesRetained := rfl
@[simp] theorem setPoolEntry_pool_pulsesRefusedFull (e : Fin 4096) (x : PoolEntry) (s : State) : (setPoolEntry e x s).pool.pulsesRefusedFull = s.pool.pulsesRefusedFull := rfl
@[simp] theorem setPoolEntry_pool_retainedAged (e : Fin 4096) (x : PoolEntry) (s : State) : (setPoolEntry e x s).pool.retainedAged = s.pool.retainedAged := rfl
@[simp] theorem setPoolEntry_pool_retainedEvicted (e : Fin 4096) (x : PoolEntry) (s : State) : (setPoolEntry e x s).pool.retainedEvicted = s.pool.retainedEvicted := rfl
@[simp] theorem setPoolEntry_pool_retainedClaimed (e : Fin 4096) (x : PoolEntry) (s : State) : (setPoolEntry e x s).pool.retainedClaimed = s.pool.retainedClaimed := rfl
@[simp] theorem setPoolEntry_pool_poolWaits (e : Fin 4096) (x : PoolEntry) (s : State) : (setPoolEntry e x s).pool.poolWaits = s.pool.poolWaits := rfl

@[simp] theorem setFreeList_run (l : List (Fin 4096)) (s : State) : (setFreeList l s).run = s.run := rfl
@[simp] theorem setFreeList_resetHeld (l : List (Fin 4096)) (s : State) : (setFreeList l s).resetHeld = s.resetHeld := rfl
@[simp] theorem setFreeList_settings (l : List (Fin 4096)) (s : State) : (setFreeList l s).settings = s.settings := rfl
@[simp] theorem setFreeList_time (l : List (Fin 4096)) (s : State) : (setFreeList l s).time = s.time := rfl
@[simp] theorem setFreeList_intake (l : List (Fin 4096)) (s : State) : (setFreeList l s).intake = s.intake := rfl
@[simp] theorem setFreeList_sources (l : List (Fin 4096)) (s : State) : (setFreeList l s).sources = s.sources := rfl
@[simp] theorem setFreeList_distributor (l : List (Fin 4096)) (s : State) : (setFreeList l s).distributor = s.distributor := rfl
@[simp] theorem setFreeList_table (l : List (Fin 4096)) (s : State) : (setFreeList l s).table = s.table := rfl
@[simp] theorem setFreeList_monitor (l : List (Fin 4096)) (s : State) : (setFreeList l s).monitor = s.monitor := rfl
@[simp] theorem setFreeList_builder (l : List (Fin 4096)) (s : State) : (setFreeList l s).builder = s.builder := rfl
@[simp] theorem setFreeList_router (l : List (Fin 4096)) (s : State) : (setFreeList l s).router = s.router := rfl
@[simp] theorem setFreeList_spy (l : List (Fin 4096)) (s : State) : (setFreeList l s).spy = s.spy := rfl
@[simp] theorem setFreeList_latched (l : List (Fin 4096)) (s : State) : (setFreeList l s).latched = s.latched := rfl
@[simp] theorem setFreeList_cmd (l : List (Fin 4096)) (s : State) : (setFreeList l s).cmd = s.cmd := rfl
@[simp] theorem setFreeList_dataLinkOut (l : List (Fin 4096)) (s : State) : (setFreeList l s).dataLinkOut = s.dataLinkOut := rfl
@[simp] theorem setFreeList_replyOut (l : List (Fin 4096)) (s : State) : (setFreeList l s).replyOut = s.replyOut := rfl
@[simp] theorem setFreeList_pending (l : List (Fin 4096)) (s : State) : (setFreeList l s).pending = s.pending := rfl
@[simp] theorem setFreeList_pool_entries (l : List (Fin 4096)) (s : State) : (setFreeList l s).pool.entries = s.pool.entries := rfl
@[simp] theorem setFreeList_pool_retention (l : List (Fin 4096)) (s : State) : (setFreeList l s).pool.retention = s.pool.retention := rfl
@[simp] theorem setFreeList_pool_inWaiting (l : List (Fin 4096)) (s : State) : (setFreeList l s).pool.inWaiting = s.pool.inWaiting := rfl
@[simp] theorem setFreeList_pool_fill (l : List (Fin 4096)) (s : State) : (setFreeList l s).pool.fill = s.pool.fill := rfl
@[simp] theorem setFreeList_pool_pulsesHeld (l : List (Fin 4096)) (s : State) : (setFreeList l s).pool.pulsesHeld = s.pool.pulsesHeld := rfl
@[simp] theorem setFreeList_pool_pulsesRetained (l : List (Fin 4096)) (s : State) : (setFreeList l s).pool.pulsesRetained = s.pool.pulsesRetained := rfl
@[simp] theorem setFreeList_pool_pulsesRefusedFull (l : List (Fin 4096)) (s : State) : (setFreeList l s).pool.pulsesRefusedFull = s.pool.pulsesRefusedFull := rfl
@[simp] theorem setFreeList_pool_retainedAged (l : List (Fin 4096)) (s : State) : (setFreeList l s).pool.retainedAged = s.pool.retainedAged := rfl
@[simp] theorem setFreeList_pool_retainedEvicted (l : List (Fin 4096)) (s : State) : (setFreeList l s).pool.retainedEvicted = s.pool.retainedEvicted := rfl
@[simp] theorem setFreeList_pool_retainedClaimed (l : List (Fin 4096)) (s : State) : (setFreeList l s).pool.retainedClaimed = s.pool.retainedClaimed := rfl
@[simp] theorem setFreeList_pool_poolWaits (l : List (Fin 4096)) (s : State) : (setFreeList l s).pool.poolWaits = s.pool.poolWaits := rfl

@[simp] theorem joinFree_run (e : Fin 4096) (s : State) : (joinFree e s).run = s.run := rfl
@[simp] theorem joinFree_resetHeld (e : Fin 4096) (s : State) : (joinFree e s).resetHeld = s.resetHeld := rfl
@[simp] theorem joinFree_settings (e : Fin 4096) (s : State) : (joinFree e s).settings = s.settings := rfl
@[simp] theorem joinFree_time (e : Fin 4096) (s : State) : (joinFree e s).time = s.time := rfl
@[simp] theorem joinFree_intake (e : Fin 4096) (s : State) : (joinFree e s).intake = s.intake := rfl
@[simp] theorem joinFree_sources (e : Fin 4096) (s : State) : (joinFree e s).sources = s.sources := rfl
@[simp] theorem joinFree_distributor (e : Fin 4096) (s : State) : (joinFree e s).distributor = s.distributor := rfl
@[simp] theorem joinFree_table (e : Fin 4096) (s : State) : (joinFree e s).table = s.table := rfl
@[simp] theorem joinFree_monitor (e : Fin 4096) (s : State) : (joinFree e s).monitor = s.monitor := rfl
@[simp] theorem joinFree_builder (e : Fin 4096) (s : State) : (joinFree e s).builder = s.builder := rfl
@[simp] theorem joinFree_router (e : Fin 4096) (s : State) : (joinFree e s).router = s.router := rfl
@[simp] theorem joinFree_spy (e : Fin 4096) (s : State) : (joinFree e s).spy = s.spy := rfl
@[simp] theorem joinFree_latched (e : Fin 4096) (s : State) : (joinFree e s).latched = s.latched := rfl
@[simp] theorem joinFree_cmd (e : Fin 4096) (s : State) : (joinFree e s).cmd = s.cmd := rfl
@[simp] theorem joinFree_dataLinkOut (e : Fin 4096) (s : State) : (joinFree e s).dataLinkOut = s.dataLinkOut := rfl
@[simp] theorem joinFree_replyOut (e : Fin 4096) (s : State) : (joinFree e s).replyOut = s.replyOut := rfl
@[simp] theorem joinFree_pending (e : Fin 4096) (s : State) : (joinFree e s).pending = s.pending := rfl
@[simp] theorem joinFree_pool_entries (e : Fin 4096) (s : State) : (joinFree e s).pool.entries = s.pool.entries := rfl
@[simp] theorem joinFree_pool_retention (e : Fin 4096) (s : State) : (joinFree e s).pool.retention = s.pool.retention := rfl
@[simp] theorem joinFree_pool_inWaiting (e : Fin 4096) (s : State) : (joinFree e s).pool.inWaiting = s.pool.inWaiting := rfl
@[simp] theorem joinFree_pool_fill (e : Fin 4096) (s : State) : (joinFree e s).pool.fill = s.pool.fill := rfl
@[simp] theorem joinFree_pool_leastFree (e : Fin 4096) (s : State) : (joinFree e s).pool.leastFree = s.pool.leastFree := rfl
@[simp] theorem joinFree_pool_pulsesHeld (e : Fin 4096) (s : State) : (joinFree e s).pool.pulsesHeld = s.pool.pulsesHeld := rfl
@[simp] theorem joinFree_pool_pulsesRetained (e : Fin 4096) (s : State) : (joinFree e s).pool.pulsesRetained = s.pool.pulsesRetained := rfl
@[simp] theorem joinFree_pool_pulsesRefusedFull (e : Fin 4096) (s : State) : (joinFree e s).pool.pulsesRefusedFull = s.pool.pulsesRefusedFull := rfl
@[simp] theorem joinFree_pool_retainedAged (e : Fin 4096) (s : State) : (joinFree e s).pool.retainedAged = s.pool.retainedAged := rfl
@[simp] theorem joinFree_pool_retainedEvicted (e : Fin 4096) (s : State) : (joinFree e s).pool.retainedEvicted = s.pool.retainedEvicted := rfl
@[simp] theorem joinFree_pool_retainedClaimed (e : Fin 4096) (s : State) : (joinFree e s).pool.retainedClaimed = s.pool.retainedClaimed := rfl
@[simp] theorem joinFree_pool_poolWaits (e : Fin 4096) (s : State) : (joinFree e s).pool.poolWaits = s.pool.poolWaits := rfl

@[simp] theorem leaveRetention_run (e : Fin 4096) (s : State) : (leaveRetention e s).run = s.run := rfl
@[simp] theorem leaveRetention_resetHeld (e : Fin 4096) (s : State) : (leaveRetention e s).resetHeld = s.resetHeld := rfl
@[simp] theorem leaveRetention_settings (e : Fin 4096) (s : State) : (leaveRetention e s).settings = s.settings := rfl
@[simp] theorem leaveRetention_time (e : Fin 4096) (s : State) : (leaveRetention e s).time = s.time := rfl
@[simp] theorem leaveRetention_intake (e : Fin 4096) (s : State) : (leaveRetention e s).intake = s.intake := rfl
@[simp] theorem leaveRetention_sources (e : Fin 4096) (s : State) : (leaveRetention e s).sources = s.sources := rfl
@[simp] theorem leaveRetention_distributor (e : Fin 4096) (s : State) : (leaveRetention e s).distributor = s.distributor := rfl
@[simp] theorem leaveRetention_monitor (e : Fin 4096) (s : State) : (leaveRetention e s).monitor = s.monitor := rfl
@[simp] theorem leaveRetention_builder (e : Fin 4096) (s : State) : (leaveRetention e s).builder = s.builder := rfl
@[simp] theorem leaveRetention_router (e : Fin 4096) (s : State) : (leaveRetention e s).router = s.router := rfl
@[simp] theorem leaveRetention_spy (e : Fin 4096) (s : State) : (leaveRetention e s).spy = s.spy := rfl
@[simp] theorem leaveRetention_latched (e : Fin 4096) (s : State) : (leaveRetention e s).latched = s.latched := rfl
@[simp] theorem leaveRetention_cmd (e : Fin 4096) (s : State) : (leaveRetention e s).cmd = s.cmd := rfl
@[simp] theorem leaveRetention_dataLinkOut (e : Fin 4096) (s : State) : (leaveRetention e s).dataLinkOut = s.dataLinkOut := rfl
@[simp] theorem leaveRetention_replyOut (e : Fin 4096) (s : State) : (leaveRetention e s).replyOut = s.replyOut := rfl
@[simp] theorem leaveRetention_pending (e : Fin 4096) (s : State) : (leaveRetention e s).pending = s.pending := rfl
@[simp] theorem leaveRetention_table_slots (e : Fin 4096) (s : State) : (leaveRetention e s).table.slots = s.table.slots := rfl
@[simp] theorem leaveRetention_table_order (e : Fin 4096) (s : State) : (leaveRetention e s).table.order = s.table.order := rfl
@[simp] theorem leaveRetention_table_nextNumber (e : Fin 4096) (s : State) : (leaveRetention e s).table.nextNumber = s.table.nextNumber := rfl
@[simp] theorem leaveRetention_table_scanList (e : Fin 4096) (s : State) : (leaveRetention e s).table.scanList = s.table.scanList := rfl
@[simp] theorem leaveRetention_table_scanned (e : Fin 4096) (s : State) : (leaveRetention e s).table.scanned = s.table.scanned := rfl
@[simp] theorem leaveRetention_table_eventsTruncated (e : Fin 4096) (s : State) : (leaveRetention e s).table.eventsTruncated = s.table.eventsTruncated := rfl
@[simp] theorem leaveRetention_table_claimPasses (e : Fin 4096) (s : State) : (leaveRetention e s).table.claimPasses = s.table.claimPasses := rfl
@[simp] theorem leaveRetention_table_claimPassesStopped (e : Fin 4096) (s : State) : (leaveRetention e s).table.claimPassesStopped = s.table.claimPassesStopped := rfl
@[simp] theorem leaveRetention_pool_entries (e : Fin 4096) (s : State) : (leaveRetention e s).pool.entries = s.pool.entries := rfl
@[simp] theorem leaveRetention_pool_freeList (e : Fin 4096) (s : State) : (leaveRetention e s).pool.freeList = s.pool.freeList := rfl
@[simp] theorem leaveRetention_pool_inWaiting (e : Fin 4096) (s : State) : (leaveRetention e s).pool.inWaiting = s.pool.inWaiting := rfl
@[simp] theorem leaveRetention_pool_fill (e : Fin 4096) (s : State) : (leaveRetention e s).pool.fill = s.pool.fill := rfl
@[simp] theorem leaveRetention_pool_leastFree (e : Fin 4096) (s : State) : (leaveRetention e s).pool.leastFree = s.pool.leastFree := rfl
@[simp] theorem leaveRetention_pool_pulsesHeld (e : Fin 4096) (s : State) : (leaveRetention e s).pool.pulsesHeld = s.pool.pulsesHeld := rfl
@[simp] theorem leaveRetention_pool_pulsesRetained (e : Fin 4096) (s : State) : (leaveRetention e s).pool.pulsesRetained = s.pool.pulsesRetained := rfl
@[simp] theorem leaveRetention_pool_pulsesRefusedFull (e : Fin 4096) (s : State) : (leaveRetention e s).pool.pulsesRefusedFull = s.pool.pulsesRefusedFull := rfl
@[simp] theorem leaveRetention_pool_retainedAged (e : Fin 4096) (s : State) : (leaveRetention e s).pool.retainedAged = s.pool.retainedAged := rfl
@[simp] theorem leaveRetention_pool_retainedEvicted (e : Fin 4096) (s : State) : (leaveRetention e s).pool.retainedEvicted = s.pool.retainedEvicted := rfl
@[simp] theorem leaveRetention_pool_retainedClaimed (e : Fin 4096) (s : State) : (leaveRetention e s).pool.retainedClaimed = s.pool.retainedClaimed := rfl
@[simp] theorem leaveRetention_pool_poolWaits (e : Fin 4096) (s : State) : (leaveRetention e s).pool.poolWaits = s.pool.poolWaits := rfl

@[simp] theorem freePool_run (s : State) : (freePool s).run = s.run := rfl
@[simp] theorem freePool_resetHeld (s : State) : (freePool s).resetHeld = s.resetHeld := rfl
@[simp] theorem freePool_settings (s : State) : (freePool s).settings = s.settings := rfl
@[simp] theorem freePool_time (s : State) : (freePool s).time = s.time := rfl
@[simp] theorem freePool_intake (s : State) : (freePool s).intake = s.intake := rfl
@[simp] theorem freePool_sources (s : State) : (freePool s).sources = s.sources := rfl
@[simp] theorem freePool_table (s : State) : (freePool s).table = s.table := rfl
@[simp] theorem freePool_monitor (s : State) : (freePool s).monitor = s.monitor := rfl
@[simp] theorem freePool_builder (s : State) : (freePool s).builder = s.builder := rfl
@[simp] theorem freePool_router (s : State) : (freePool s).router = s.router := rfl
@[simp] theorem freePool_spy (s : State) : (freePool s).spy = s.spy := rfl
@[simp] theorem freePool_latched (s : State) : (freePool s).latched = s.latched := rfl
@[simp] theorem freePool_cmd (s : State) : (freePool s).cmd = s.cmd := rfl
@[simp] theorem freePool_dataLinkOut (s : State) : (freePool s).dataLinkOut = s.dataLinkOut := rfl
@[simp] theorem freePool_replyOut (s : State) : (freePool s).replyOut = s.replyOut := rfl
@[simp] theorem freePool_pending (s : State) : (freePool s).pending = s.pending := rfl
@[simp] theorem freePool_pool_fill (s : State) : (freePool s).pool.fill = s.pool.fill := rfl
@[simp] theorem freePool_pool_leastFree (s : State) : (freePool s).pool.leastFree = s.pool.leastFree := rfl
@[simp] theorem freePool_pool_pulsesHeld (s : State) : (freePool s).pool.pulsesHeld = s.pool.pulsesHeld := rfl
@[simp] theorem freePool_pool_pulsesRetained (s : State) : (freePool s).pool.pulsesRetained = s.pool.pulsesRetained := rfl
@[simp] theorem freePool_pool_pulsesRefusedFull (s : State) : (freePool s).pool.pulsesRefusedFull = s.pool.pulsesRefusedFull := rfl
@[simp] theorem freePool_pool_retainedAged (s : State) : (freePool s).pool.retainedAged = s.pool.retainedAged := rfl
@[simp] theorem freePool_pool_retainedEvicted (s : State) : (freePool s).pool.retainedEvicted = s.pool.retainedEvicted := rfl
@[simp] theorem freePool_pool_retainedClaimed (s : State) : (freePool s).pool.retainedClaimed = s.pool.retainedClaimed := rfl
@[simp] theorem freePool_pool_poolWaits (s : State) : (freePool s).pool.poolWaits = s.pool.poolWaits := rfl

@[simp] theorem raise_run (c : Latched) (s : State) : (raise c s).run = s.run := rfl
@[simp] theorem raise_resetHeld (c : Latched) (s : State) : (raise c s).resetHeld = s.resetHeld := rfl
@[simp] theorem raise_settings (c : Latched) (s : State) : (raise c s).settings = s.settings := rfl
@[simp] theorem raise_time (c : Latched) (s : State) : (raise c s).time = s.time := rfl
@[simp] theorem raise_intake (c : Latched) (s : State) : (raise c s).intake = s.intake := rfl
@[simp] theorem raise_sources (c : Latched) (s : State) : (raise c s).sources = s.sources := rfl
@[simp] theorem raise_distributor (c : Latched) (s : State) : (raise c s).distributor = s.distributor := rfl
@[simp] theorem raise_pool (c : Latched) (s : State) : (raise c s).pool = s.pool := rfl
@[simp] theorem raise_table (c : Latched) (s : State) : (raise c s).table = s.table := rfl
@[simp] theorem raise_monitor (c : Latched) (s : State) : (raise c s).monitor = s.monitor := rfl
@[simp] theorem raise_builder (c : Latched) (s : State) : (raise c s).builder = s.builder := rfl
@[simp] theorem raise_router (c : Latched) (s : State) : (raise c s).router = s.router := rfl
@[simp] theorem raise_spy (c : Latched) (s : State) : (raise c s).spy = s.spy := rfl
@[simp] theorem raise_cmd (c : Latched) (s : State) : (raise c s).cmd = s.cmd := rfl
@[simp] theorem raise_dataLinkOut (c : Latched) (s : State) : (raise c s).dataLinkOut = s.dataLinkOut := rfl
@[simp] theorem raise_replyOut (c : Latched) (s : State) : (raise c s).replyOut = s.replyOut := rfl
@[simp] theorem raise_pending (c : Latched) (s : State) : (raise c s).pending = s.pending := rfl

@[simp] theorem joinScanList_run (i : Fin 16) (s : State) : (joinScanList i s).run = s.run := rfl
@[simp] theorem joinScanList_resetHeld (i : Fin 16) (s : State) : (joinScanList i s).resetHeld = s.resetHeld := rfl
@[simp] theorem joinScanList_settings (i : Fin 16) (s : State) : (joinScanList i s).settings = s.settings := rfl
@[simp] theorem joinScanList_time (i : Fin 16) (s : State) : (joinScanList i s).time = s.time := rfl
@[simp] theorem joinScanList_intake (i : Fin 16) (s : State) : (joinScanList i s).intake = s.intake := rfl
@[simp] theorem joinScanList_sources (i : Fin 16) (s : State) : (joinScanList i s).sources = s.sources := rfl
@[simp] theorem joinScanList_distributor (i : Fin 16) (s : State) : (joinScanList i s).distributor = s.distributor := rfl
@[simp] theorem joinScanList_pool (i : Fin 16) (s : State) : (joinScanList i s).pool = s.pool := rfl
@[simp] theorem joinScanList_monitor (i : Fin 16) (s : State) : (joinScanList i s).monitor = s.monitor := rfl
@[simp] theorem joinScanList_builder (i : Fin 16) (s : State) : (joinScanList i s).builder = s.builder := rfl
@[simp] theorem joinScanList_router (i : Fin 16) (s : State) : (joinScanList i s).router = s.router := rfl
@[simp] theorem joinScanList_spy (i : Fin 16) (s : State) : (joinScanList i s).spy = s.spy := rfl
@[simp] theorem joinScanList_latched (i : Fin 16) (s : State) : (joinScanList i s).latched = s.latched := rfl
@[simp] theorem joinScanList_cmd (i : Fin 16) (s : State) : (joinScanList i s).cmd = s.cmd := rfl
@[simp] theorem joinScanList_dataLinkOut (i : Fin 16) (s : State) : (joinScanList i s).dataLinkOut = s.dataLinkOut := rfl
@[simp] theorem joinScanList_replyOut (i : Fin 16) (s : State) : (joinScanList i s).replyOut = s.replyOut := rfl
@[simp] theorem joinScanList_pending (i : Fin 16) (s : State) : (joinScanList i s).pending = s.pending := rfl
@[simp] theorem joinScanList_table_slots (i : Fin 16) (s : State) : (joinScanList i s).table.slots = s.table.slots := rfl
@[simp] theorem joinScanList_table_order (i : Fin 16) (s : State) : (joinScanList i s).table.order = s.table.order := rfl
@[simp] theorem joinScanList_table_nextNumber (i : Fin 16) (s : State) : (joinScanList i s).table.nextNumber = s.table.nextNumber := rfl
@[simp] theorem joinScanList_table_scanned (i : Fin 16) (s : State) : (joinScanList i s).table.scanned = s.table.scanned := rfl
@[simp] theorem joinScanList_table_visits (i : Fin 16) (s : State) : (joinScanList i s).table.visits = s.table.visits := rfl
@[simp] theorem joinScanList_table_eventsTruncated (i : Fin 16) (s : State) : (joinScanList i s).table.eventsTruncated = s.table.eventsTruncated := rfl
@[simp] theorem joinScanList_table_claimPasses (i : Fin 16) (s : State) : (joinScanList i s).table.claimPasses = s.table.claimPasses := rfl
@[simp] theorem joinScanList_table_claimPassesStopped (i : Fin 16) (s : State) : (joinScanList i s).table.claimPassesStopped = s.table.claimPassesStopped := rfl

@[simp] theorem startPass_run (i : Fin 16) (rest : List (Fin 16)) (s : State) : (startPass i rest s).run = s.run := rfl
@[simp] theorem startPass_resetHeld (i : Fin 16) (rest : List (Fin 16)) (s : State) : (startPass i rest s).resetHeld = s.resetHeld := rfl
@[simp] theorem startPass_settings (i : Fin 16) (rest : List (Fin 16)) (s : State) : (startPass i rest s).settings = s.settings := rfl
@[simp] theorem startPass_time (i : Fin 16) (rest : List (Fin 16)) (s : State) : (startPass i rest s).time = s.time := rfl
@[simp] theorem startPass_intake (i : Fin 16) (rest : List (Fin 16)) (s : State) : (startPass i rest s).intake = s.intake := rfl
@[simp] theorem startPass_sources (i : Fin 16) (rest : List (Fin 16)) (s : State) : (startPass i rest s).sources = s.sources := rfl
@[simp] theorem startPass_distributor (i : Fin 16) (rest : List (Fin 16)) (s : State) : (startPass i rest s).distributor = s.distributor := rfl
@[simp] theorem startPass_pool (i : Fin 16) (rest : List (Fin 16)) (s : State) : (startPass i rest s).pool = s.pool := rfl
@[simp] theorem startPass_monitor (i : Fin 16) (rest : List (Fin 16)) (s : State) : (startPass i rest s).monitor = s.monitor := rfl
@[simp] theorem startPass_builder (i : Fin 16) (rest : List (Fin 16)) (s : State) : (startPass i rest s).builder = s.builder := rfl
@[simp] theorem startPass_router (i : Fin 16) (rest : List (Fin 16)) (s : State) : (startPass i rest s).router = s.router := rfl
@[simp] theorem startPass_spy (i : Fin 16) (rest : List (Fin 16)) (s : State) : (startPass i rest s).spy = s.spy := rfl
@[simp] theorem startPass_latched (i : Fin 16) (rest : List (Fin 16)) (s : State) : (startPass i rest s).latched = s.latched := rfl
@[simp] theorem startPass_cmd (i : Fin 16) (rest : List (Fin 16)) (s : State) : (startPass i rest s).cmd = s.cmd := rfl
@[simp] theorem startPass_dataLinkOut (i : Fin 16) (rest : List (Fin 16)) (s : State) : (startPass i rest s).dataLinkOut = s.dataLinkOut := rfl
@[simp] theorem startPass_replyOut (i : Fin 16) (rest : List (Fin 16)) (s : State) : (startPass i rest s).replyOut = s.replyOut := rfl
@[simp] theorem startPass_pending (i : Fin 16) (rest : List (Fin 16)) (s : State) : (startPass i rest s).pending = s.pending := rfl
@[simp] theorem startPass_table_order (i : Fin 16) (rest : List (Fin 16)) (s : State) : (startPass i rest s).table.order = s.table.order := rfl
@[simp] theorem startPass_table_nextNumber (i : Fin 16) (rest : List (Fin 16)) (s : State) : (startPass i rest s).table.nextNumber = s.table.nextNumber := rfl
@[simp] theorem startPass_table_eventsTruncated (i : Fin 16) (rest : List (Fin 16)) (s : State) : (startPass i rest s).table.eventsTruncated = s.table.eventsTruncated := rfl
@[simp] theorem startPass_table_claimPassesStopped (i : Fin 16) (rest : List (Fin 16)) (s : State) : (startPass i rest s).table.claimPassesStopped = s.table.claimPassesStopped := rfl

@[simp] theorem endPass_run (i : Fin 16) (s : State) : (endPass i s).run = s.run := rfl
@[simp] theorem endPass_resetHeld (i : Fin 16) (s : State) : (endPass i s).resetHeld = s.resetHeld := rfl
@[simp] theorem endPass_settings (i : Fin 16) (s : State) : (endPass i s).settings = s.settings := rfl
@[simp] theorem endPass_time (i : Fin 16) (s : State) : (endPass i s).time = s.time := rfl
@[simp] theorem endPass_intake (i : Fin 16) (s : State) : (endPass i s).intake = s.intake := rfl
@[simp] theorem endPass_sources (i : Fin 16) (s : State) : (endPass i s).sources = s.sources := rfl
@[simp] theorem endPass_distributor (i : Fin 16) (s : State) : (endPass i s).distributor = s.distributor := rfl
@[simp] theorem endPass_pool (i : Fin 16) (s : State) : (endPass i s).pool = s.pool := rfl
@[simp] theorem endPass_monitor (i : Fin 16) (s : State) : (endPass i s).monitor = s.monitor := rfl
@[simp] theorem endPass_builder (i : Fin 16) (s : State) : (endPass i s).builder = s.builder := rfl
@[simp] theorem endPass_router (i : Fin 16) (s : State) : (endPass i s).router = s.router := rfl
@[simp] theorem endPass_spy (i : Fin 16) (s : State) : (endPass i s).spy = s.spy := rfl
@[simp] theorem endPass_latched (i : Fin 16) (s : State) : (endPass i s).latched = s.latched := rfl
@[simp] theorem endPass_cmd (i : Fin 16) (s : State) : (endPass i s).cmd = s.cmd := rfl
@[simp] theorem endPass_dataLinkOut (i : Fin 16) (s : State) : (endPass i s).dataLinkOut = s.dataLinkOut := rfl
@[simp] theorem endPass_replyOut (i : Fin 16) (s : State) : (endPass i s).replyOut = s.replyOut := rfl
@[simp] theorem endPass_pending (i : Fin 16) (s : State) : (endPass i s).pending = s.pending := rfl
@[simp] theorem endPass_table_order (i : Fin 16) (s : State) : (endPass i s).table.order = s.table.order := rfl
@[simp] theorem endPass_table_nextNumber (i : Fin 16) (s : State) : (endPass i s).table.nextNumber = s.table.nextNumber := rfl
@[simp] theorem endPass_table_scanList (i : Fin 16) (s : State) : (endPass i s).table.scanList = s.table.scanList := rfl
@[simp] theorem endPass_table_eventsTruncated (i : Fin 16) (s : State) : (endPass i s).table.eventsTruncated = s.table.eventsTruncated := rfl
@[simp] theorem endPass_table_claimPasses (i : Fin 16) (s : State) : (endPass i s).table.claimPasses = s.table.claimPasses := rfl
@[simp] theorem endPass_table_claimPassesStopped (i : Fin 16) (s : State) : (endPass i s).table.claimPassesStopped = s.table.claimPassesStopped := rfl

@[simp] theorem makeLagging_run (s : State) (src : Fin 24) : (makeLagging s src).run = s.run := rfl
@[simp] theorem makeLagging_resetHeld (s : State) (src : Fin 24) : (makeLagging s src).resetHeld = s.resetHeld := rfl
@[simp] theorem makeLagging_settings (s : State) (src : Fin 24) : (makeLagging s src).settings = s.settings := rfl
@[simp] theorem makeLagging_time (s : State) (src : Fin 24) : (makeLagging s src).time = s.time := rfl
@[simp] theorem makeLagging_intake (s : State) (src : Fin 24) : (makeLagging s src).intake = s.intake := rfl
@[simp] theorem makeLagging_distributor (s : State) (src : Fin 24) : (makeLagging s src).distributor = s.distributor := rfl
@[simp] theorem makeLagging_pool (s : State) (src : Fin 24) : (makeLagging s src).pool = s.pool := rfl
@[simp] theorem makeLagging_table (s : State) (src : Fin 24) : (makeLagging s src).table = s.table := rfl
@[simp] theorem makeLagging_monitor (s : State) (src : Fin 24) : (makeLagging s src).monitor = s.monitor := rfl
@[simp] theorem makeLagging_builder (s : State) (src : Fin 24) : (makeLagging s src).builder = s.builder := rfl
@[simp] theorem makeLagging_router (s : State) (src : Fin 24) : (makeLagging s src).router = s.router := rfl
@[simp] theorem makeLagging_spy (s : State) (src : Fin 24) : (makeLagging s src).spy = s.spy := rfl
@[simp] theorem makeLagging_latched (s : State) (src : Fin 24) : (makeLagging s src).latched = s.latched := rfl
@[simp] theorem makeLagging_cmd (s : State) (src : Fin 24) : (makeLagging s src).cmd = s.cmd := rfl
@[simp] theorem makeLagging_dataLinkOut (s : State) (src : Fin 24) : (makeLagging s src).dataLinkOut = s.dataLinkOut := rfl
@[simp] theorem makeLagging_replyOut (s : State) (src : Fin 24) : (makeLagging s src).replyOut = s.replyOut := rfl
@[simp] theorem makeLagging_pending (s : State) (src : Fin 24) : (makeLagging s src).pending = s.pending := rfl

@[simp] theorem makeDown_run (src : Fin 24) (s : State) : (makeDown src s).run = s.run := rfl
@[simp] theorem makeDown_resetHeld (src : Fin 24) (s : State) : (makeDown src s).resetHeld = s.resetHeld := rfl
@[simp] theorem makeDown_settings (src : Fin 24) (s : State) : (makeDown src s).settings = s.settings := rfl
@[simp] theorem makeDown_time (src : Fin 24) (s : State) : (makeDown src s).time = s.time := rfl
@[simp] theorem makeDown_intake (src : Fin 24) (s : State) : (makeDown src s).intake = s.intake := rfl
@[simp] theorem makeDown_distributor (src : Fin 24) (s : State) : (makeDown src s).distributor = s.distributor := rfl
@[simp] theorem makeDown_pool (src : Fin 24) (s : State) : (makeDown src s).pool = s.pool := rfl
@[simp] theorem makeDown_table (src : Fin 24) (s : State) : (makeDown src s).table = s.table := rfl
@[simp] theorem makeDown_monitor (src : Fin 24) (s : State) : (makeDown src s).monitor = s.monitor := rfl
@[simp] theorem makeDown_builder (src : Fin 24) (s : State) : (makeDown src s).builder = s.builder := rfl
@[simp] theorem makeDown_router (src : Fin 24) (s : State) : (makeDown src s).router = s.router := rfl
@[simp] theorem makeDown_spy (src : Fin 24) (s : State) : (makeDown src s).spy = s.spy := rfl
@[simp] theorem makeDown_latched (src : Fin 24) (s : State) : (makeDown src s).latched = s.latched := rfl
@[simp] theorem makeDown_cmd (src : Fin 24) (s : State) : (makeDown src s).cmd = s.cmd := rfl
@[simp] theorem makeDown_dataLinkOut (src : Fin 24) (s : State) : (makeDown src s).dataLinkOut = s.dataLinkOut := rfl
@[simp] theorem makeDown_replyOut (src : Fin 24) (s : State) : (makeDown src s).replyOut = s.replyOut := rfl
@[simp] theorem makeDown_pending (src : Fin 24) (s : State) : (makeDown src s).pending = s.pending := rfl

@[simp] theorem waitPlacement_run (p : PulseRecord) (s : State) : (waitPlacement p s).run = s.run := rfl
@[simp] theorem waitPlacement_resetHeld (p : PulseRecord) (s : State) : (waitPlacement p s).resetHeld = s.resetHeld := rfl
@[simp] theorem waitPlacement_settings (p : PulseRecord) (s : State) : (waitPlacement p s).settings = s.settings := rfl
@[simp] theorem waitPlacement_time (p : PulseRecord) (s : State) : (waitPlacement p s).time = s.time := rfl
@[simp] theorem waitPlacement_intake (p : PulseRecord) (s : State) : (waitPlacement p s).intake = s.intake := rfl
@[simp] theorem waitPlacement_sources (p : PulseRecord) (s : State) : (waitPlacement p s).sources = s.sources := rfl
@[simp] theorem waitPlacement_distributor (p : PulseRecord) (s : State) : (waitPlacement p s).distributor = s.distributor := rfl
@[simp] theorem waitPlacement_table (p : PulseRecord) (s : State) : (waitPlacement p s).table = s.table := rfl
@[simp] theorem waitPlacement_monitor (p : PulseRecord) (s : State) : (waitPlacement p s).monitor = s.monitor := rfl
@[simp] theorem waitPlacement_builder (p : PulseRecord) (s : State) : (waitPlacement p s).builder = s.builder := rfl
@[simp] theorem waitPlacement_router (p : PulseRecord) (s : State) : (waitPlacement p s).router = s.router := rfl
@[simp] theorem waitPlacement_spy (p : PulseRecord) (s : State) : (waitPlacement p s).spy = s.spy := rfl
@[simp] theorem waitPlacement_latched (p : PulseRecord) (s : State) : (waitPlacement p s).latched = s.latched := rfl
@[simp] theorem waitPlacement_cmd (p : PulseRecord) (s : State) : (waitPlacement p s).cmd = s.cmd := rfl
@[simp] theorem waitPlacement_dataLinkOut (p : PulseRecord) (s : State) : (waitPlacement p s).dataLinkOut = s.dataLinkOut := rfl
@[simp] theorem waitPlacement_replyOut (p : PulseRecord) (s : State) : (waitPlacement p s).replyOut = s.replyOut := rfl
@[simp] theorem waitPlacement_pending (p : PulseRecord) (s : State) : (waitPlacement p s).pending = s.pending := rfl
@[simp] theorem waitPlacement_pool_entries (p : PulseRecord) (s : State) : (waitPlacement p s).pool.entries = s.pool.entries := rfl
@[simp] theorem waitPlacement_pool_freeList (p : PulseRecord) (s : State) : (waitPlacement p s).pool.freeList = s.pool.freeList := rfl
@[simp] theorem waitPlacement_pool_retention (p : PulseRecord) (s : State) : (waitPlacement p s).pool.retention = s.pool.retention := rfl
@[simp] theorem waitPlacement_pool_fill (p : PulseRecord) (s : State) : (waitPlacement p s).pool.fill = s.pool.fill := rfl
@[simp] theorem waitPlacement_pool_leastFree (p : PulseRecord) (s : State) : (waitPlacement p s).pool.leastFree = s.pool.leastFree := rfl
@[simp] theorem waitPlacement_pool_pulsesHeld (p : PulseRecord) (s : State) : (waitPlacement p s).pool.pulsesHeld = s.pool.pulsesHeld := rfl
@[simp] theorem waitPlacement_pool_pulsesRetained (p : PulseRecord) (s : State) : (waitPlacement p s).pool.pulsesRetained = s.pool.pulsesRetained := rfl
@[simp] theorem waitPlacement_pool_pulsesRefusedFull (p : PulseRecord) (s : State) : (waitPlacement p s).pool.pulsesRefusedFull = s.pool.pulsesRefusedFull := rfl
@[simp] theorem waitPlacement_pool_retainedAged (p : PulseRecord) (s : State) : (waitPlacement p s).pool.retainedAged = s.pool.retainedAged := rfl
@[simp] theorem waitPlacement_pool_retainedEvicted (p : PulseRecord) (s : State) : (waitPlacement p s).pool.retainedEvicted = s.pool.retainedEvicted := rfl
@[simp] theorem waitPlacement_pool_retainedClaimed (p : PulseRecord) (s : State) : (waitPlacement p s).pool.retainedClaimed = s.pool.retainedClaimed := rfl

@[simp] theorem countOrphan_run (p : PulseRecord) (s : State) : (countOrphan p s).run = s.run := rfl
@[simp] theorem countOrphan_resetHeld (p : PulseRecord) (s : State) : (countOrphan p s).resetHeld = s.resetHeld := rfl
@[simp] theorem countOrphan_settings (p : PulseRecord) (s : State) : (countOrphan p s).settings = s.settings := rfl
@[simp] theorem countOrphan_time (p : PulseRecord) (s : State) : (countOrphan p s).time = s.time := rfl
@[simp] theorem countOrphan_intake (p : PulseRecord) (s : State) : (countOrphan p s).intake = s.intake := rfl
@[simp] theorem countOrphan_distributor (p : PulseRecord) (s : State) : (countOrphan p s).distributor = s.distributor := rfl
@[simp] theorem countOrphan_pool (p : PulseRecord) (s : State) : (countOrphan p s).pool = s.pool := rfl
@[simp] theorem countOrphan_table (p : PulseRecord) (s : State) : (countOrphan p s).table = s.table := rfl
@[simp] theorem countOrphan_monitor (p : PulseRecord) (s : State) : (countOrphan p s).monitor = s.monitor := rfl
@[simp] theorem countOrphan_builder (p : PulseRecord) (s : State) : (countOrphan p s).builder = s.builder := rfl
@[simp] theorem countOrphan_router (p : PulseRecord) (s : State) : (countOrphan p s).router = s.router := rfl
@[simp] theorem countOrphan_spy (p : PulseRecord) (s : State) : (countOrphan p s).spy = s.spy := rfl
@[simp] theorem countOrphan_latched (p : PulseRecord) (s : State) : (countOrphan p s).latched = s.latched := rfl
@[simp] theorem countOrphan_cmd (p : PulseRecord) (s : State) : (countOrphan p s).cmd = s.cmd := rfl
@[simp] theorem countOrphan_dataLinkOut (p : PulseRecord) (s : State) : (countOrphan p s).dataLinkOut = s.dataLinkOut := rfl
@[simp] theorem countOrphan_replyOut (p : PulseRecord) (s : State) : (countOrphan p s).replyOut = s.replyOut := rfl
@[simp] theorem countOrphan_pending (p : PulseRecord) (s : State) : (countOrphan p s).pending = s.pending := rfl

@[simp] theorem joinQueue_run (i : Fin 24) (e : StagingEntry) (s : State) : (joinQueue i e s).run = s.run := rfl
@[simp] theorem joinQueue_resetHeld (i : Fin 24) (e : StagingEntry) (s : State) : (joinQueue i e s).resetHeld = s.resetHeld := rfl
@[simp] theorem joinQueue_settings (i : Fin 24) (e : StagingEntry) (s : State) : (joinQueue i e s).settings = s.settings := rfl
@[simp] theorem joinQueue_time (i : Fin 24) (e : StagingEntry) (s : State) : (joinQueue i e s).time = s.time := rfl
@[simp] theorem joinQueue_intake (i : Fin 24) (e : StagingEntry) (s : State) : (joinQueue i e s).intake = s.intake := rfl
@[simp] theorem joinQueue_distributor (i : Fin 24) (e : StagingEntry) (s : State) : (joinQueue i e s).distributor = s.distributor := rfl
@[simp] theorem joinQueue_pool (i : Fin 24) (e : StagingEntry) (s : State) : (joinQueue i e s).pool = s.pool := rfl
@[simp] theorem joinQueue_table (i : Fin 24) (e : StagingEntry) (s : State) : (joinQueue i e s).table = s.table := rfl
@[simp] theorem joinQueue_monitor (i : Fin 24) (e : StagingEntry) (s : State) : (joinQueue i e s).monitor = s.monitor := rfl
@[simp] theorem joinQueue_builder (i : Fin 24) (e : StagingEntry) (s : State) : (joinQueue i e s).builder = s.builder := rfl
@[simp] theorem joinQueue_router (i : Fin 24) (e : StagingEntry) (s : State) : (joinQueue i e s).router = s.router := rfl
@[simp] theorem joinQueue_spy (i : Fin 24) (e : StagingEntry) (s : State) : (joinQueue i e s).spy = s.spy := rfl
@[simp] theorem joinQueue_latched (i : Fin 24) (e : StagingEntry) (s : State) : (joinQueue i e s).latched = s.latched := rfl
@[simp] theorem joinQueue_cmd (i : Fin 24) (e : StagingEntry) (s : State) : (joinQueue i e s).cmd = s.cmd := rfl
@[simp] theorem joinQueue_dataLinkOut (i : Fin 24) (e : StagingEntry) (s : State) : (joinQueue i e s).dataLinkOut = s.dataLinkOut := rfl
@[simp] theorem joinQueue_replyOut (i : Fin 24) (e : StagingEntry) (s : State) : (joinQueue i e s).replyOut = s.replyOut := rfl
@[simp] theorem joinQueue_pending (i : Fin 24) (e : StagingEntry) (s : State) : (joinQueue i e s).pending = s.pending := rfl

@[simp] theorem overrun_run (i : Fin 24) (s : State) : (overrun i s).run = s.run := rfl
@[simp] theorem overrun_resetHeld (i : Fin 24) (s : State) : (overrun i s).resetHeld = s.resetHeld := rfl
@[simp] theorem overrun_settings (i : Fin 24) (s : State) : (overrun i s).settings = s.settings := rfl
@[simp] theorem overrun_time (i : Fin 24) (s : State) : (overrun i s).time = s.time := rfl
@[simp] theorem overrun_intake (i : Fin 24) (s : State) : (overrun i s).intake = s.intake := rfl
@[simp] theorem overrun_distributor (i : Fin 24) (s : State) : (overrun i s).distributor = s.distributor := rfl
@[simp] theorem overrun_pool (i : Fin 24) (s : State) : (overrun i s).pool = s.pool := rfl
@[simp] theorem overrun_table (i : Fin 24) (s : State) : (overrun i s).table = s.table := rfl
@[simp] theorem overrun_monitor (i : Fin 24) (s : State) : (overrun i s).monitor = s.monitor := rfl
@[simp] theorem overrun_builder (i : Fin 24) (s : State) : (overrun i s).builder = s.builder := rfl
@[simp] theorem overrun_router (i : Fin 24) (s : State) : (overrun i s).router = s.router := rfl
@[simp] theorem overrun_spy (i : Fin 24) (s : State) : (overrun i s).spy = s.spy := rfl
@[simp] theorem overrun_cmd (i : Fin 24) (s : State) : (overrun i s).cmd = s.cmd := rfl
@[simp] theorem overrun_dataLinkOut (i : Fin 24) (s : State) : (overrun i s).dataLinkOut = s.dataLinkOut := rfl
@[simp] theorem overrun_replyOut (i : Fin 24) (s : State) : (overrun i s).replyOut = s.replyOut := rfl
@[simp] theorem overrun_pending (i : Fin 24) (s : State) : (overrun i s).pending = s.pending := rfl

@[simp] theorem malformed_run (i : Fin 24) (s : State) : (malformed i s).run = s.run := rfl
@[simp] theorem malformed_resetHeld (i : Fin 24) (s : State) : (malformed i s).resetHeld = s.resetHeld := rfl
@[simp] theorem malformed_settings (i : Fin 24) (s : State) : (malformed i s).settings = s.settings := rfl
@[simp] theorem malformed_time (i : Fin 24) (s : State) : (malformed i s).time = s.time := rfl
@[simp] theorem malformed_intake (i : Fin 24) (s : State) : (malformed i s).intake = s.intake := rfl
@[simp] theorem malformed_distributor (i : Fin 24) (s : State) : (malformed i s).distributor = s.distributor := rfl
@[simp] theorem malformed_pool (i : Fin 24) (s : State) : (malformed i s).pool = s.pool := rfl
@[simp] theorem malformed_table (i : Fin 24) (s : State) : (malformed i s).table = s.table := rfl
@[simp] theorem malformed_monitor (i : Fin 24) (s : State) : (malformed i s).monitor = s.monitor := rfl
@[simp] theorem malformed_builder (i : Fin 24) (s : State) : (malformed i s).builder = s.builder := rfl
@[simp] theorem malformed_router (i : Fin 24) (s : State) : (malformed i s).router = s.router := rfl
@[simp] theorem malformed_spy (i : Fin 24) (s : State) : (malformed i s).spy = s.spy := rfl
@[simp] theorem malformed_cmd (i : Fin 24) (s : State) : (malformed i s).cmd = s.cmd := rfl
@[simp] theorem malformed_dataLinkOut (i : Fin 24) (s : State) : (malformed i s).dataLinkOut = s.dataLinkOut := rfl
@[simp] theorem malformed_replyOut (i : Fin 24) (s : State) : (malformed i s).replyOut = s.replyOut := rfl
@[simp] theorem malformed_pending (i : Fin 24) (s : State) : (malformed i s).pending = s.pending := rfl

@[simp] theorem checkFailure_run (i : Fin 24) (s : State) : (checkFailure i s).run = s.run := rfl
@[simp] theorem checkFailure_resetHeld (i : Fin 24) (s : State) : (checkFailure i s).resetHeld = s.resetHeld := rfl
@[simp] theorem checkFailure_settings (i : Fin 24) (s : State) : (checkFailure i s).settings = s.settings := rfl
@[simp] theorem checkFailure_time (i : Fin 24) (s : State) : (checkFailure i s).time = s.time := rfl
@[simp] theorem checkFailure_intake (i : Fin 24) (s : State) : (checkFailure i s).intake = s.intake := rfl
@[simp] theorem checkFailure_distributor (i : Fin 24) (s : State) : (checkFailure i s).distributor = s.distributor := rfl
@[simp] theorem checkFailure_pool (i : Fin 24) (s : State) : (checkFailure i s).pool = s.pool := rfl
@[simp] theorem checkFailure_table (i : Fin 24) (s : State) : (checkFailure i s).table = s.table := rfl
@[simp] theorem checkFailure_monitor (i : Fin 24) (s : State) : (checkFailure i s).monitor = s.monitor := rfl
@[simp] theorem checkFailure_builder (i : Fin 24) (s : State) : (checkFailure i s).builder = s.builder := rfl
@[simp] theorem checkFailure_router (i : Fin 24) (s : State) : (checkFailure i s).router = s.router := rfl
@[simp] theorem checkFailure_spy (i : Fin 24) (s : State) : (checkFailure i s).spy = s.spy := rfl
@[simp] theorem checkFailure_cmd (i : Fin 24) (s : State) : (checkFailure i s).cmd = s.cmd := rfl
@[simp] theorem checkFailure_dataLinkOut (i : Fin 24) (s : State) : (checkFailure i s).dataLinkOut = s.dataLinkOut := rfl
@[simp] theorem checkFailure_replyOut (i : Fin 24) (s : State) : (checkFailure i s).replyOut = s.replyOut := rfl
@[simp] theorem checkFailure_pending (i : Fin 24) (s : State) : (checkFailure i s).pending = s.pending := rfl

@[simp] theorem setFraming_run (i : Fin 24) (f : Framing) (s : State) : (setFraming i f s).run = s.run := rfl
@[simp] theorem setFraming_resetHeld (i : Fin 24) (f : Framing) (s : State) : (setFraming i f s).resetHeld = s.resetHeld := rfl
@[simp] theorem setFraming_settings (i : Fin 24) (f : Framing) (s : State) : (setFraming i f s).settings = s.settings := rfl
@[simp] theorem setFraming_time (i : Fin 24) (f : Framing) (s : State) : (setFraming i f s).time = s.time := rfl
@[simp] theorem setFraming_intake (i : Fin 24) (f : Framing) (s : State) : (setFraming i f s).intake = s.intake := rfl
@[simp] theorem setFraming_distributor (i : Fin 24) (f : Framing) (s : State) : (setFraming i f s).distributor = s.distributor := rfl
@[simp] theorem setFraming_pool (i : Fin 24) (f : Framing) (s : State) : (setFraming i f s).pool = s.pool := rfl
@[simp] theorem setFraming_table (i : Fin 24) (f : Framing) (s : State) : (setFraming i f s).table = s.table := rfl
@[simp] theorem setFraming_monitor (i : Fin 24) (f : Framing) (s : State) : (setFraming i f s).monitor = s.monitor := rfl
@[simp] theorem setFraming_builder (i : Fin 24) (f : Framing) (s : State) : (setFraming i f s).builder = s.builder := rfl
@[simp] theorem setFraming_router (i : Fin 24) (f : Framing) (s : State) : (setFraming i f s).router = s.router := rfl
@[simp] theorem setFraming_spy (i : Fin 24) (f : Framing) (s : State) : (setFraming i f s).spy = s.spy := rfl
@[simp] theorem setFraming_latched (i : Fin 24) (f : Framing) (s : State) : (setFraming i f s).latched = s.latched := rfl
@[simp] theorem setFraming_cmd (i : Fin 24) (f : Framing) (s : State) : (setFraming i f s).cmd = s.cmd := rfl
@[simp] theorem setFraming_dataLinkOut (i : Fin 24) (f : Framing) (s : State) : (setFraming i f s).dataLinkOut = s.dataLinkOut := rfl
@[simp] theorem setFraming_replyOut (i : Fin 24) (f : Framing) (s : State) : (setFraming i f s).replyOut = s.replyOut := rfl
@[simp] theorem setFraming_pending (i : Fin 24) (f : Framing) (s : State) : (setFraming i f s).pending = s.pending := rfl

@[simp] theorem countFrame_run (i : Fin 24) (s : State) : (countFrame i s).run = s.run := rfl
@[simp] theorem countFrame_resetHeld (i : Fin 24) (s : State) : (countFrame i s).resetHeld = s.resetHeld := rfl
@[simp] theorem countFrame_settings (i : Fin 24) (s : State) : (countFrame i s).settings = s.settings := rfl
@[simp] theorem countFrame_time (i : Fin 24) (s : State) : (countFrame i s).time = s.time := rfl
@[simp] theorem countFrame_intake (i : Fin 24) (s : State) : (countFrame i s).intake = s.intake := rfl
@[simp] theorem countFrame_distributor (i : Fin 24) (s : State) : (countFrame i s).distributor = s.distributor := rfl
@[simp] theorem countFrame_pool (i : Fin 24) (s : State) : (countFrame i s).pool = s.pool := rfl
@[simp] theorem countFrame_table (i : Fin 24) (s : State) : (countFrame i s).table = s.table := rfl
@[simp] theorem countFrame_monitor (i : Fin 24) (s : State) : (countFrame i s).monitor = s.monitor := rfl
@[simp] theorem countFrame_builder (i : Fin 24) (s : State) : (countFrame i s).builder = s.builder := rfl
@[simp] theorem countFrame_router (i : Fin 24) (s : State) : (countFrame i s).router = s.router := rfl
@[simp] theorem countFrame_spy (i : Fin 24) (s : State) : (countFrame i s).spy = s.spy := rfl
@[simp] theorem countFrame_latched (i : Fin 24) (s : State) : (countFrame i s).latched = s.latched := rfl
@[simp] theorem countFrame_cmd (i : Fin 24) (s : State) : (countFrame i s).cmd = s.cmd := rfl
@[simp] theorem countFrame_dataLinkOut (i : Fin 24) (s : State) : (countFrame i s).dataLinkOut = s.dataLinkOut := rfl
@[simp] theorem countFrame_replyOut (i : Fin 24) (s : State) : (countFrame i s).replyOut = s.replyOut := rfl
@[simp] theorem countFrame_pending (i : Fin 24) (s : State) : (countFrame i s).pending = s.pending := rfl

@[simp] theorem popQueue_run (i : Fin 24) (rest : List StagingEntry) (s : State) : (popQueue i rest s).run = s.run := rfl
@[simp] theorem popQueue_resetHeld (i : Fin 24) (rest : List StagingEntry) (s : State) : (popQueue i rest s).resetHeld = s.resetHeld := rfl
@[simp] theorem popQueue_settings (i : Fin 24) (rest : List StagingEntry) (s : State) : (popQueue i rest s).settings = s.settings := rfl
@[simp] theorem popQueue_time (i : Fin 24) (rest : List StagingEntry) (s : State) : (popQueue i rest s).time = s.time := rfl
@[simp] theorem popQueue_intake (i : Fin 24) (rest : List StagingEntry) (s : State) : (popQueue i rest s).intake = s.intake := rfl
@[simp] theorem popQueue_pool (i : Fin 24) (rest : List StagingEntry) (s : State) : (popQueue i rest s).pool = s.pool := rfl
@[simp] theorem popQueue_table (i : Fin 24) (rest : List StagingEntry) (s : State) : (popQueue i rest s).table = s.table := rfl
@[simp] theorem popQueue_monitor (i : Fin 24) (rest : List StagingEntry) (s : State) : (popQueue i rest s).monitor = s.monitor := rfl
@[simp] theorem popQueue_builder (i : Fin 24) (rest : List StagingEntry) (s : State) : (popQueue i rest s).builder = s.builder := rfl
@[simp] theorem popQueue_router (i : Fin 24) (rest : List StagingEntry) (s : State) : (popQueue i rest s).router = s.router := rfl
@[simp] theorem popQueue_spy (i : Fin 24) (rest : List StagingEntry) (s : State) : (popQueue i rest s).spy = s.spy := rfl
@[simp] theorem popQueue_latched (i : Fin 24) (rest : List StagingEntry) (s : State) : (popQueue i rest s).latched = s.latched := rfl
@[simp] theorem popQueue_cmd (i : Fin 24) (rest : List StagingEntry) (s : State) : (popQueue i rest s).cmd = s.cmd := rfl
@[simp] theorem popQueue_dataLinkOut (i : Fin 24) (rest : List StagingEntry) (s : State) : (popQueue i rest s).dataLinkOut = s.dataLinkOut := rfl
@[simp] theorem popQueue_replyOut (i : Fin 24) (rest : List StagingEntry) (s : State) : (popQueue i rest s).replyOut = s.replyOut := rfl
@[simp] theorem popQueue_pending (i : Fin 24) (rest : List StagingEntry) (s : State) : (popQueue i rest s).pending = s.pending := rfl

@[simp] theorem countHit_run (m : Fin 4) (s : State) : (countHit m s).run = s.run := rfl
@[simp] theorem countHit_resetHeld (m : Fin 4) (s : State) : (countHit m s).resetHeld = s.resetHeld := rfl
@[simp] theorem countHit_settings (m : Fin 4) (s : State) : (countHit m s).settings = s.settings := rfl
@[simp] theorem countHit_time (m : Fin 4) (s : State) : (countHit m s).time = s.time := rfl
@[simp] theorem countHit_intake (m : Fin 4) (s : State) : (countHit m s).intake = s.intake := rfl
@[simp] theorem countHit_sources (m : Fin 4) (s : State) : (countHit m s).sources = s.sources := rfl
@[simp] theorem countHit_distributor (m : Fin 4) (s : State) : (countHit m s).distributor = s.distributor := rfl
@[simp] theorem countHit_pool (m : Fin 4) (s : State) : (countHit m s).pool = s.pool := rfl
@[simp] theorem countHit_table (m : Fin 4) (s : State) : (countHit m s).table = s.table := rfl
@[simp] theorem countHit_monitor (m : Fin 4) (s : State) : (countHit m s).monitor = s.monitor := rfl
@[simp] theorem countHit_builder (m : Fin 4) (s : State) : (countHit m s).builder = s.builder := rfl
@[simp] theorem countHit_router (m : Fin 4) (s : State) : (countHit m s).router = s.router := rfl
@[simp] theorem countHit_latched (m : Fin 4) (s : State) : (countHit m s).latched = s.latched := rfl
@[simp] theorem countHit_cmd (m : Fin 4) (s : State) : (countHit m s).cmd = s.cmd := rfl
@[simp] theorem countHit_dataLinkOut (m : Fin 4) (s : State) : (countHit m s).dataLinkOut = s.dataLinkOut := rfl
@[simp] theorem countHit_replyOut (m : Fin 4) (s : State) : (countHit m s).replyOut = s.replyOut := rfl
@[simp] theorem countHit_pending (m : Fin 4) (s : State) : (countHit m s).pending = s.pending := rfl

@[simp] theorem emptyStaging_run (s : State) : (emptyStaging s).run = s.run := rfl
@[simp] theorem emptyStaging_resetHeld (s : State) : (emptyStaging s).resetHeld = s.resetHeld := rfl
@[simp] theorem emptyStaging_settings (s : State) : (emptyStaging s).settings = s.settings := rfl
@[simp] theorem emptyStaging_time (s : State) : (emptyStaging s).time = s.time := rfl
@[simp] theorem emptyStaging_intake (s : State) : (emptyStaging s).intake = s.intake := rfl
@[simp] theorem emptyStaging_distributor (s : State) : (emptyStaging s).distributor = s.distributor := rfl
@[simp] theorem emptyStaging_pool (s : State) : (emptyStaging s).pool = s.pool := rfl
@[simp] theorem emptyStaging_table (s : State) : (emptyStaging s).table = s.table := rfl
@[simp] theorem emptyStaging_monitor (s : State) : (emptyStaging s).monitor = s.monitor := rfl
@[simp] theorem emptyStaging_builder (s : State) : (emptyStaging s).builder = s.builder := rfl
@[simp] theorem emptyStaging_router (s : State) : (emptyStaging s).router = s.router := rfl
@[simp] theorem emptyStaging_spy (s : State) : (emptyStaging s).spy = s.spy := rfl
@[simp] theorem emptyStaging_latched (s : State) : (emptyStaging s).latched = s.latched := rfl
@[simp] theorem emptyStaging_cmd (s : State) : (emptyStaging s).cmd = s.cmd := rfl
@[simp] theorem emptyStaging_dataLinkOut (s : State) : (emptyStaging s).dataLinkOut = s.dataLinkOut := rfl
@[simp] theorem emptyStaging_replyOut (s : State) : (emptyStaging s).replyOut = s.replyOut := rfl
@[simp] theorem emptyStaging_pending (s : State) : (emptyStaging s).pending = s.pending := rfl

@[simp] theorem freeTable_run (s : State) : (freeTable s).run = s.run := rfl
@[simp] theorem freeTable_resetHeld (s : State) : (freeTable s).resetHeld = s.resetHeld := rfl
@[simp] theorem freeTable_settings (s : State) : (freeTable s).settings = s.settings := rfl
@[simp] theorem freeTable_time (s : State) : (freeTable s).time = s.time := rfl
@[simp] theorem freeTable_intake (s : State) : (freeTable s).intake = s.intake := rfl
@[simp] theorem freeTable_sources (s : State) : (freeTable s).sources = s.sources := rfl
@[simp] theorem freeTable_distributor (s : State) : (freeTable s).distributor = s.distributor := rfl
@[simp] theorem freeTable_pool (s : State) : (freeTable s).pool = s.pool := rfl
@[simp] theorem freeTable_monitor (s : State) : (freeTable s).monitor = s.monitor := rfl
@[simp] theorem freeTable_builder (s : State) : (freeTable s).builder = s.builder := rfl
@[simp] theorem freeTable_router (s : State) : (freeTable s).router = s.router := rfl
@[simp] theorem freeTable_spy (s : State) : (freeTable s).spy = s.spy := rfl
@[simp] theorem freeTable_latched (s : State) : (freeTable s).latched = s.latched := rfl
@[simp] theorem freeTable_cmd (s : State) : (freeTable s).cmd = s.cmd := rfl
@[simp] theorem freeTable_dataLinkOut (s : State) : (freeTable s).dataLinkOut = s.dataLinkOut := rfl
@[simp] theorem freeTable_replyOut (s : State) : (freeTable s).replyOut = s.replyOut := rfl
@[simp] theorem freeTable_pending (s : State) : (freeTable s).pending = s.pending := rfl
@[simp] theorem freeTable_table_nextNumber (s : State) : (freeTable s).table.nextNumber = s.table.nextNumber := rfl
@[simp] theorem freeTable_table_eventsTruncated (s : State) : (freeTable s).table.eventsTruncated = s.table.eventsTruncated := rfl
@[simp] theorem freeTable_table_claimPasses (s : State) : (freeTable s).table.claimPasses = s.table.claimPasses := rfl
@[simp] theorem freeTable_table_claimPassesStopped (s : State) : (freeTable s).table.claimPassesStopped = s.table.claimPassesStopped := rfl

@[simp] theorem mergeTrigger_run (i : Fin 16) (r : Request) (s : State) : (mergeTrigger i r s).run = s.run := rfl
@[simp] theorem mergeTrigger_resetHeld (i : Fin 16) (r : Request) (s : State) : (mergeTrigger i r s).resetHeld = s.resetHeld := rfl
@[simp] theorem mergeTrigger_settings (i : Fin 16) (r : Request) (s : State) : (mergeTrigger i r s).settings = s.settings := rfl
@[simp] theorem mergeTrigger_time (i : Fin 16) (r : Request) (s : State) : (mergeTrigger i r s).time = s.time := rfl
@[simp] theorem mergeTrigger_intake (i : Fin 16) (r : Request) (s : State) : (mergeTrigger i r s).intake = s.intake := rfl
@[simp] theorem mergeTrigger_sources (i : Fin 16) (r : Request) (s : State) : (mergeTrigger i r s).sources = s.sources := rfl
@[simp] theorem mergeTrigger_distributor (i : Fin 16) (r : Request) (s : State) : (mergeTrigger i r s).distributor = s.distributor := rfl
@[simp] theorem mergeTrigger_pool (i : Fin 16) (r : Request) (s : State) : (mergeTrigger i r s).pool = s.pool := rfl
@[simp] theorem mergeTrigger_monitor (i : Fin 16) (r : Request) (s : State) : (mergeTrigger i r s).monitor = s.monitor := rfl
@[simp] theorem mergeTrigger_builder (i : Fin 16) (r : Request) (s : State) : (mergeTrigger i r s).builder = s.builder := rfl
@[simp] theorem mergeTrigger_router (i : Fin 16) (r : Request) (s : State) : (mergeTrigger i r s).router = s.router := rfl
@[simp] theorem mergeTrigger_spy (i : Fin 16) (r : Request) (s : State) : (mergeTrigger i r s).spy = s.spy := rfl
@[simp] theorem mergeTrigger_latched (i : Fin 16) (r : Request) (s : State) : (mergeTrigger i r s).latched = s.latched := rfl
@[simp] theorem mergeTrigger_cmd (i : Fin 16) (r : Request) (s : State) : (mergeTrigger i r s).cmd = s.cmd := rfl
@[simp] theorem mergeTrigger_dataLinkOut (i : Fin 16) (r : Request) (s : State) : (mergeTrigger i r s).dataLinkOut = s.dataLinkOut := rfl
@[simp] theorem mergeTrigger_replyOut (i : Fin 16) (r : Request) (s : State) : (mergeTrigger i r s).replyOut = s.replyOut := rfl
@[simp] theorem mergeTrigger_pending (i : Fin 16) (r : Request) (s : State) : (mergeTrigger i r s).pending = s.pending := rfl
@[simp] theorem mergeTrigger_table_order (i : Fin 16) (r : Request) (s : State) : (mergeTrigger i r s).table.order = s.table.order := rfl
@[simp] theorem mergeTrigger_table_nextNumber (i : Fin 16) (r : Request) (s : State) : (mergeTrigger i r s).table.nextNumber = s.table.nextNumber := rfl
@[simp] theorem mergeTrigger_table_scanList (i : Fin 16) (r : Request) (s : State) : (mergeTrigger i r s).table.scanList = s.table.scanList := rfl
@[simp] theorem mergeTrigger_table_scanned (i : Fin 16) (r : Request) (s : State) : (mergeTrigger i r s).table.scanned = s.table.scanned := rfl
@[simp] theorem mergeTrigger_table_visits (i : Fin 16) (r : Request) (s : State) : (mergeTrigger i r s).table.visits = s.table.visits := rfl
@[simp] theorem mergeTrigger_table_eventsTruncated (i : Fin 16) (r : Request) (s : State) : (mergeTrigger i r s).table.eventsTruncated = s.table.eventsTruncated := rfl
@[simp] theorem mergeTrigger_table_claimPasses (i : Fin 16) (r : Request) (s : State) : (mergeTrigger i r s).table.claimPasses = s.table.claimPasses := rfl
@[simp] theorem mergeTrigger_table_claimPassesStopped (i : Fin 16) (r : Request) (s : State) : (mergeTrigger i r s).table.claimPassesStopped = s.table.claimPassesStopped := rfl

@[simp] theorem extendWindow_run (i : Fin 16) (r : Request) (s : State) : (extendWindow i r s).run = s.run := rfl
@[simp] theorem extendWindow_resetHeld (i : Fin 16) (r : Request) (s : State) : (extendWindow i r s).resetHeld = s.resetHeld := rfl
@[simp] theorem extendWindow_settings (i : Fin 16) (r : Request) (s : State) : (extendWindow i r s).settings = s.settings := rfl
@[simp] theorem extendWindow_time (i : Fin 16) (r : Request) (s : State) : (extendWindow i r s).time = s.time := rfl
@[simp] theorem extendWindow_intake (i : Fin 16) (r : Request) (s : State) : (extendWindow i r s).intake = s.intake := rfl
@[simp] theorem extendWindow_sources (i : Fin 16) (r : Request) (s : State) : (extendWindow i r s).sources = s.sources := rfl
@[simp] theorem extendWindow_distributor (i : Fin 16) (r : Request) (s : State) : (extendWindow i r s).distributor = s.distributor := rfl
@[simp] theorem extendWindow_pool (i : Fin 16) (r : Request) (s : State) : (extendWindow i r s).pool = s.pool := rfl
@[simp] theorem extendWindow_monitor (i : Fin 16) (r : Request) (s : State) : (extendWindow i r s).monitor = s.monitor := rfl
@[simp] theorem extendWindow_builder (i : Fin 16) (r : Request) (s : State) : (extendWindow i r s).builder = s.builder := rfl
@[simp] theorem extendWindow_router (i : Fin 16) (r : Request) (s : State) : (extendWindow i r s).router = s.router := rfl
@[simp] theorem extendWindow_spy (i : Fin 16) (r : Request) (s : State) : (extendWindow i r s).spy = s.spy := rfl
@[simp] theorem extendWindow_latched (i : Fin 16) (r : Request) (s : State) : (extendWindow i r s).latched = s.latched := rfl
@[simp] theorem extendWindow_cmd (i : Fin 16) (r : Request) (s : State) : (extendWindow i r s).cmd = s.cmd := rfl
@[simp] theorem extendWindow_dataLinkOut (i : Fin 16) (r : Request) (s : State) : (extendWindow i r s).dataLinkOut = s.dataLinkOut := rfl
@[simp] theorem extendWindow_replyOut (i : Fin 16) (r : Request) (s : State) : (extendWindow i r s).replyOut = s.replyOut := rfl
@[simp] theorem extendWindow_pending (i : Fin 16) (r : Request) (s : State) : (extendWindow i r s).pending = s.pending := rfl
@[simp] theorem extendWindow_table_order (i : Fin 16) (r : Request) (s : State) : (extendWindow i r s).table.order = s.table.order := rfl
@[simp] theorem extendWindow_table_nextNumber (i : Fin 16) (r : Request) (s : State) : (extendWindow i r s).table.nextNumber = s.table.nextNumber := rfl
@[simp] theorem extendWindow_table_scanList (i : Fin 16) (r : Request) (s : State) : (extendWindow i r s).table.scanList = s.table.scanList := rfl
@[simp] theorem extendWindow_table_scanned (i : Fin 16) (r : Request) (s : State) : (extendWindow i r s).table.scanned = s.table.scanned := rfl
@[simp] theorem extendWindow_table_visits (i : Fin 16) (r : Request) (s : State) : (extendWindow i r s).table.visits = s.table.visits := rfl
@[simp] theorem extendWindow_table_eventsTruncated (i : Fin 16) (r : Request) (s : State) : (extendWindow i r s).table.eventsTruncated = s.table.eventsTruncated := rfl
@[simp] theorem extendWindow_table_claimPasses (i : Fin 16) (r : Request) (s : State) : (extendWindow i r s).table.claimPasses = s.table.claimPasses := rfl
@[simp] theorem extendWindow_table_claimPassesStopped (i : Fin 16) (r : Request) (s : State) : (extendWindow i r s).table.claimPassesStopped = s.table.claimPassesStopped := rfl

@[simp] theorem pushReply_run (r : Reply) (s : State) : (pushReply r s).run = s.run := rfl
@[simp] theorem pushReply_resetHeld (r : Reply) (s : State) : (pushReply r s).resetHeld = s.resetHeld := rfl
@[simp] theorem pushReply_settings (r : Reply) (s : State) : (pushReply r s).settings = s.settings := rfl
@[simp] theorem pushReply_time (r : Reply) (s : State) : (pushReply r s).time = s.time := rfl
@[simp] theorem pushReply_intake (r : Reply) (s : State) : (pushReply r s).intake = s.intake := rfl
@[simp] theorem pushReply_sources (r : Reply) (s : State) : (pushReply r s).sources = s.sources := rfl
@[simp] theorem pushReply_distributor (r : Reply) (s : State) : (pushReply r s).distributor = s.distributor := rfl
@[simp] theorem pushReply_pool (r : Reply) (s : State) : (pushReply r s).pool = s.pool := rfl
@[simp] theorem pushReply_table (r : Reply) (s : State) : (pushReply r s).table = s.table := rfl
@[simp] theorem pushReply_monitor (r : Reply) (s : State) : (pushReply r s).monitor = s.monitor := rfl
@[simp] theorem pushReply_builder (r : Reply) (s : State) : (pushReply r s).builder = s.builder := rfl
@[simp] theorem pushReply_router (r : Reply) (s : State) : (pushReply r s).router = s.router := rfl
@[simp] theorem pushReply_spy (r : Reply) (s : State) : (pushReply r s).spy = s.spy := rfl
@[simp] theorem pushReply_latched (r : Reply) (s : State) : (pushReply r s).latched = s.latched := rfl
@[simp] theorem pushReply_dataLinkOut (r : Reply) (s : State) : (pushReply r s).dataLinkOut = s.dataLinkOut := rfl
@[simp] theorem pushReply_replyOut (r : Reply) (s : State) : (pushReply r s).replyOut = s.replyOut := rfl
@[simp] theorem pushReply_pending (r : Reply) (s : State) : (pushReply r s).pending = s.pending := rfl

@[simp] theorem emit_run (u : LinkUnit) (s : State) : (emit u s).run = s.run := rfl
@[simp] theorem emit_resetHeld (u : LinkUnit) (s : State) : (emit u s).resetHeld = s.resetHeld := rfl
@[simp] theorem emit_settings (u : LinkUnit) (s : State) : (emit u s).settings = s.settings := rfl
@[simp] theorem emit_time (u : LinkUnit) (s : State) : (emit u s).time = s.time := rfl
@[simp] theorem emit_intake (u : LinkUnit) (s : State) : (emit u s).intake = s.intake := rfl
@[simp] theorem emit_sources (u : LinkUnit) (s : State) : (emit u s).sources = s.sources := rfl
@[simp] theorem emit_distributor (u : LinkUnit) (s : State) : (emit u s).distributor = s.distributor := rfl
@[simp] theorem emit_pool (u : LinkUnit) (s : State) : (emit u s).pool = s.pool := rfl
@[simp] theorem emit_table (u : LinkUnit) (s : State) : (emit u s).table = s.table := rfl
@[simp] theorem emit_monitor (u : LinkUnit) (s : State) : (emit u s).monitor = s.monitor := rfl
@[simp] theorem emit_builder (u : LinkUnit) (s : State) : (emit u s).builder = s.builder := rfl
@[simp] theorem emit_router (u : LinkUnit) (s : State) : (emit u s).router = s.router := rfl
@[simp] theorem emit_spy (u : LinkUnit) (s : State) : (emit u s).spy = s.spy := rfl
@[simp] theorem emit_latched (u : LinkUnit) (s : State) : (emit u s).latched = s.latched := rfl
@[simp] theorem emit_cmd (u : LinkUnit) (s : State) : (emit u s).cmd = s.cmd := rfl
@[simp] theorem emit_replyOut (u : LinkUnit) (s : State) : (emit u s).replyOut = s.replyOut := rfl
@[simp] theorem emit_pending (u : LinkUnit) (s : State) : (emit u s).pending = s.pending := rfl

@[simp] theorem losePoll_run (s : State) : (losePoll s).run = s.run := rfl
@[simp] theorem losePoll_resetHeld (s : State) : (losePoll s).resetHeld = s.resetHeld := rfl
@[simp] theorem losePoll_settings (s : State) : (losePoll s).settings = s.settings := rfl
@[simp] theorem losePoll_time (s : State) : (losePoll s).time = s.time := rfl
@[simp] theorem losePoll_intake (s : State) : (losePoll s).intake = s.intake := rfl
@[simp] theorem losePoll_sources (s : State) : (losePoll s).sources = s.sources := rfl
@[simp] theorem losePoll_distributor (s : State) : (losePoll s).distributor = s.distributor := rfl
@[simp] theorem losePoll_pool (s : State) : (losePoll s).pool = s.pool := rfl
@[simp] theorem losePoll_table (s : State) : (losePoll s).table = s.table := rfl
@[simp] theorem losePoll_monitor (s : State) : (losePoll s).monitor = s.monitor := rfl
@[simp] theorem losePoll_router (s : State) : (losePoll s).router = s.router := rfl
@[simp] theorem losePoll_spy (s : State) : (losePoll s).spy = s.spy := rfl
@[simp] theorem losePoll_cmd (s : State) : (losePoll s).cmd = s.cmd := rfl
@[simp] theorem losePoll_dataLinkOut (s : State) : (losePoll s).dataLinkOut = s.dataLinkOut := rfl
@[simp] theorem losePoll_replyOut (s : State) : (losePoll s).replyOut = s.replyOut := rfl
@[simp] theorem losePoll_pending (s : State) : (losePoll s).pending = s.pending := rfl

@[simp] theorem writePoll_run (i : Fin 16) (s : State) : (writePoll i s).run = s.run := rfl
@[simp] theorem writePoll_resetHeld (i : Fin 16) (s : State) : (writePoll i s).resetHeld = s.resetHeld := rfl
@[simp] theorem writePoll_settings (i : Fin 16) (s : State) : (writePoll i s).settings = s.settings := rfl
@[simp] theorem writePoll_time (i : Fin 16) (s : State) : (writePoll i s).time = s.time := rfl
@[simp] theorem writePoll_intake (i : Fin 16) (s : State) : (writePoll i s).intake = s.intake := rfl
@[simp] theorem writePoll_sources (i : Fin 16) (s : State) : (writePoll i s).sources = s.sources := rfl
@[simp] theorem writePoll_distributor (i : Fin 16) (s : State) : (writePoll i s).distributor = s.distributor := rfl
@[simp] theorem writePoll_pool (i : Fin 16) (s : State) : (writePoll i s).pool = s.pool := rfl
@[simp] theorem writePoll_table (i : Fin 16) (s : State) : (writePoll i s).table = s.table := rfl
@[simp] theorem writePoll_monitor (i : Fin 16) (s : State) : (writePoll i s).monitor = s.monitor := rfl
@[simp] theorem writePoll_builder (i : Fin 16) (s : State) : (writePoll i s).builder = s.builder := rfl
@[simp] theorem writePoll_spy (i : Fin 16) (s : State) : (writePoll i s).spy = s.spy := rfl
@[simp] theorem writePoll_latched (i : Fin 16) (s : State) : (writePoll i s).latched = s.latched := rfl
@[simp] theorem writePoll_cmd (i : Fin 16) (s : State) : (writePoll i s).cmd = s.cmd := rfl
@[simp] theorem writePoll_dataLinkOut (i : Fin 16) (s : State) : (writePoll i s).dataLinkOut = s.dataLinkOut := rfl
@[simp] theorem writePoll_replyOut (i : Fin 16) (s : State) : (writePoll i s).replyOut = s.replyOut := rfl
@[simp] theorem writePoll_pending (i : Fin 16) (s : State) : (writePoll i s).pending = s.pending := rfl

@[simp] theorem writeStreamWord_run (j : StreamJob) (s : State) : (writeStreamWord j s).run = s.run := rfl
@[simp] theorem writeStreamWord_resetHeld (j : StreamJob) (s : State) : (writeStreamWord j s).resetHeld = s.resetHeld := rfl
@[simp] theorem writeStreamWord_settings (j : StreamJob) (s : State) : (writeStreamWord j s).settings = s.settings := rfl
@[simp] theorem writeStreamWord_time (j : StreamJob) (s : State) : (writeStreamWord j s).time = s.time := rfl
@[simp] theorem writeStreamWord_intake (j : StreamJob) (s : State) : (writeStreamWord j s).intake = s.intake := rfl
@[simp] theorem writeStreamWord_sources (j : StreamJob) (s : State) : (writeStreamWord j s).sources = s.sources := rfl
@[simp] theorem writeStreamWord_distributor (j : StreamJob) (s : State) : (writeStreamWord j s).distributor = s.distributor := rfl
@[simp] theorem writeStreamWord_pool (j : StreamJob) (s : State) : (writeStreamWord j s).pool = s.pool := rfl
@[simp] theorem writeStreamWord_table (j : StreamJob) (s : State) : (writeStreamWord j s).table = s.table := rfl
@[simp] theorem writeStreamWord_monitor (j : StreamJob) (s : State) : (writeStreamWord j s).monitor = s.monitor := rfl
@[simp] theorem writeStreamWord_spy (j : StreamJob) (s : State) : (writeStreamWord j s).spy = s.spy := rfl
@[simp] theorem writeStreamWord_latched (j : StreamJob) (s : State) : (writeStreamWord j s).latched = s.latched := rfl
@[simp] theorem writeStreamWord_cmd (j : StreamJob) (s : State) : (writeStreamWord j s).cmd = s.cmd := rfl
@[simp] theorem writeStreamWord_dataLinkOut (j : StreamJob) (s : State) : (writeStreamWord j s).dataLinkOut = s.dataLinkOut := rfl
@[simp] theorem writeStreamWord_replyOut (j : StreamJob) (s : State) : (writeStreamWord j s).replyOut = s.replyOut := rfl
@[simp] theorem writeStreamWord_pending (j : StreamJob) (s : State) : (writeStreamWord j s).pending = s.pending := rfl

@[simp] theorem dropReadoutHead_run (rest : List ReadoutEvent) (s : State) : (dropReadoutHead rest s).run = s.run := rfl
@[simp] theorem dropReadoutHead_resetHeld (rest : List ReadoutEvent) (s : State) : (dropReadoutHead rest s).resetHeld = s.resetHeld := rfl
@[simp] theorem dropReadoutHead_settings (rest : List ReadoutEvent) (s : State) : (dropReadoutHead rest s).settings = s.settings := rfl
@[simp] theorem dropReadoutHead_time (rest : List ReadoutEvent) (s : State) : (dropReadoutHead rest s).time = s.time := rfl
@[simp] theorem dropReadoutHead_intake (rest : List ReadoutEvent) (s : State) : (dropReadoutHead rest s).intake = s.intake := rfl
@[simp] theorem dropReadoutHead_sources (rest : List ReadoutEvent) (s : State) : (dropReadoutHead rest s).sources = s.sources := rfl
@[simp] theorem dropReadoutHead_distributor (rest : List ReadoutEvent) (s : State) : (dropReadoutHead rest s).distributor = s.distributor := rfl
@[simp] theorem dropReadoutHead_pool (rest : List ReadoutEvent) (s : State) : (dropReadoutHead rest s).pool = s.pool := rfl
@[simp] theorem dropReadoutHead_table (rest : List ReadoutEvent) (s : State) : (dropReadoutHead rest s).table = s.table := rfl
@[simp] theorem dropReadoutHead_monitor (rest : List ReadoutEvent) (s : State) : (dropReadoutHead rest s).monitor = s.monitor := rfl
@[simp] theorem dropReadoutHead_builder (rest : List ReadoutEvent) (s : State) : (dropReadoutHead rest s).builder = s.builder := rfl
@[simp] theorem dropReadoutHead_spy (rest : List ReadoutEvent) (s : State) : (dropReadoutHead rest s).spy = s.spy := rfl
@[simp] theorem dropReadoutHead_latched (rest : List ReadoutEvent) (s : State) : (dropReadoutHead rest s).latched = s.latched := rfl
@[simp] theorem dropReadoutHead_cmd (rest : List ReadoutEvent) (s : State) : (dropReadoutHead rest s).cmd = s.cmd := rfl
@[simp] theorem dropReadoutHead_dataLinkOut (rest : List ReadoutEvent) (s : State) : (dropReadoutHead rest s).dataLinkOut = s.dataLinkOut := rfl
@[simp] theorem dropReadoutHead_replyOut (rest : List ReadoutEvent) (s : State) : (dropReadoutHead rest s).replyOut = s.replyOut := rfl
@[simp] theorem dropReadoutHead_pending (rest : List ReadoutEvent) (s : State) : (dropReadoutHead rest s).pending = s.pending := rfl

@[simp] theorem sampleLine_run (l : Fin 4) (level : Bool) (s : State) : (sampleLine l level s).run = s.run := rfl
@[simp] theorem sampleLine_resetHeld (l : Fin 4) (level : Bool) (s : State) : (sampleLine l level s).resetHeld = s.resetHeld := rfl
@[simp] theorem sampleLine_settings (l : Fin 4) (level : Bool) (s : State) : (sampleLine l level s).settings = s.settings := rfl
@[simp] theorem sampleLine_time (l : Fin 4) (level : Bool) (s : State) : (sampleLine l level s).time = s.time := rfl
@[simp] theorem sampleLine_sources (l : Fin 4) (level : Bool) (s : State) : (sampleLine l level s).sources = s.sources := rfl
@[simp] theorem sampleLine_distributor (l : Fin 4) (level : Bool) (s : State) : (sampleLine l level s).distributor = s.distributor := rfl
@[simp] theorem sampleLine_pool (l : Fin 4) (level : Bool) (s : State) : (sampleLine l level s).pool = s.pool := rfl
@[simp] theorem sampleLine_table (l : Fin 4) (level : Bool) (s : State) : (sampleLine l level s).table = s.table := rfl
@[simp] theorem sampleLine_monitor (l : Fin 4) (level : Bool) (s : State) : (sampleLine l level s).monitor = s.monitor := rfl
@[simp] theorem sampleLine_builder (l : Fin 4) (level : Bool) (s : State) : (sampleLine l level s).builder = s.builder := rfl
@[simp] theorem sampleLine_router (l : Fin 4) (level : Bool) (s : State) : (sampleLine l level s).router = s.router := rfl
@[simp] theorem sampleLine_spy (l : Fin 4) (level : Bool) (s : State) : (sampleLine l level s).spy = s.spy := rfl
@[simp] theorem sampleLine_latched (l : Fin 4) (level : Bool) (s : State) : (sampleLine l level s).latched = s.latched := rfl
@[simp] theorem sampleLine_cmd (l : Fin 4) (level : Bool) (s : State) : (sampleLine l level s).cmd = s.cmd := rfl
@[simp] theorem sampleLine_dataLinkOut (l : Fin 4) (level : Bool) (s : State) : (sampleLine l level s).dataLinkOut = s.dataLinkOut := rfl
@[simp] theorem sampleLine_replyOut (l : Fin 4) (level : Bool) (s : State) : (sampleLine l level s).replyOut = s.replyOut := rfl
@[simp] theorem sampleLine_pending (l : Fin 4) (level : Bool) (s : State) : (sampleLine l level s).pending = s.pending := rfl

/-! ## What the accessors read -/

@[simp] theorem source_setSource_same (i : Fin 24) (x : Source) (s : State) : source (setSource i x s) i = x := by
  simp [source, setSource]

@[simp] theorem source_setSource_ne {i j : Fin 24} (x : Source) (s : State) (h : j ≠ i) :
    source (setSource i x s) j = source s j := by
  simp [source, setSource, h]

theorem source_setSource (i j : Fin 24) (x : Source) (s : State) :
    source (setSource i x s) j = if j = i then x else source s j := get_put _ _ _ _

@[simp] theorem source_modSource_same (i : Fin 24) (f : Source → Source) (s : State) :
    source (modSource i f s) i = f (source s i) := source_setSource_same _ _ _

@[simp] theorem source_modSource_ne {i j : Fin 24} (f : Source → Source) (s : State) (h : j ≠ i) :
    source (modSource i f s) j = source s j := source_setSource_ne _ _ h

theorem source_modSource (i j : Fin 24) (f : Source → Source) (s : State) :
    source (modSource i f s) j = if j = i then f (source s i) else source s j := source_setSource _ _ _ _

@[simp] theorem context_setContext_same (i : Fin 16) (c : Context) (s : State) : context (setContext i c s) i = c := by
  simp [context, setContext]

@[simp] theorem context_setContext_ne {i j : Fin 16} (c : Context) (s : State) (h : j ≠ i) :
    context (setContext i c s) j = context s j := by
  simp [context, setContext, h]

theorem context_setContext (i j : Fin 16) (c : Context) (s : State) :
    context (setContext i c s) j = if j = i then c else context s j := get_put _ _ _ _

@[simp] theorem context_modContext_same (i : Fin 16) (f : Context → Context) (s : State) :
    context (modContext i f s) i = f (context s i) := context_setContext_same _ _ _

@[simp] theorem context_modContext_ne {i j : Fin 16} (f : Context → Context) (s : State) (h : j ≠ i) :
    context (modContext i f s) j = context s j := context_setContext_ne _ _ h

theorem context_modContext (i j : Fin 16) (f : Context → Context) (s : State) :
    context (modContext i f s) j = if j = i then f (context s i) else context s j := context_setContext _ _ _ _

@[simp] theorem poolEntry_setPoolEntry_same (e : Fin 4096) (x : PoolEntry) (s : State) :
    poolEntry (setPoolEntry e x s) e = x := by
  simp [poolEntry, setPoolEntry]

@[simp] theorem poolEntry_setPoolEntry_ne {e d : Fin 4096} (x : PoolEntry) (s : State) (h : d ≠ e) :
    poolEntry (setPoolEntry e x s) d = poolEntry s d := by
  simp [poolEntry, setPoolEntry, h]

theorem poolEntry_setPoolEntry (e d : Fin 4096) (x : PoolEntry) (s : State) :
    poolEntry (setPoolEntry e x s) d = if d = e then x else poolEntry s d := get_put _ _ _ _

/-- What an accessor reads depends on its own part of the state alone. -/
theorem source_congr {s t : State} (h : s.sources = t.sources) (i : Fin 24) : source s i = source t i := by
  simp [source, h]

/-- As `source_congr`, for contexts. -/
theorem context_congr {s t : State} (h : s.table.slots = t.table.slots) (i : Fin 16) : context s i = context t i := by
  simp [context, h]

/-- As `source_congr`, for pool entries. -/
theorem poolEntry_congr {s t : State} (h : s.pool.entries = t.pool.entries) (e : Fin 4096) :
    poolEntry s e = poolEntry t e := by
  simp [poolEntry, h]

@[simp] theorem context_setSource (i : Fin 24) (x : Source) (s : State) (x' : Fin 16) : context (setSource i x s) x' = context s x' := rfl
@[simp] theorem poolEntry_setSource (i : Fin 24) (x : Source) (s : State) (x' : Fin 4096) : poolEntry (setSource i x s) x' = poolEntry s x' := rfl
@[simp] theorem context_modSource (i : Fin 24) (f : Source → Source) (s : State) (x' : Fin 16) : context (modSource i f s) x' = context s x' := rfl
@[simp] theorem poolEntry_modSource (i : Fin 24) (f : Source → Source) (s : State) (x' : Fin 4096) : poolEntry (modSource i f s) x' = poolEntry s x' := rfl
@[simp] theorem context_countSource (i : Fin 24) (f : SourceCounters → SourceCounters) (s : State) (x' : Fin 16) : context (countSource i f s) x' = context s x' := rfl
@[simp] theorem poolEntry_countSource (i : Fin 24) (f : SourceCounters → SourceCounters) (s : State) (x' : Fin 4096) : poolEntry (countSource i f s) x' = poolEntry s x' := rfl
@[simp] theorem source_setContext (i : Fin 16) (c : Context) (s : State) (x' : Fin 24) : source (setContext i c s) x' = source s x' := rfl
@[simp] theorem poolEntry_setContext (i : Fin 16) (c : Context) (s : State) (x' : Fin 4096) : poolEntry (setContext i c s) x' = poolEntry s x' := rfl
@[simp] theorem source_modContext (i : Fin 16) (f : Context → Context) (s : State) (x' : Fin 24) : source (modContext i f s) x' = source s x' := rfl
@[simp] theorem poolEntry_modContext (i : Fin 16) (f : Context → Context) (s : State) (x' : Fin 4096) : poolEntry (modContext i f s) x' = poolEntry s x' := rfl
@[simp] theorem source_makeRef (e : Fin 4096) (p : PulseRecord) (s : State) (i : Fin 16) (x' : Fin 24) : source (makeRef e p s i) x' = source s x' := rfl
@[simp] theorem poolEntry_makeRef (e : Fin 4096) (p : PulseRecord) (s : State) (i : Fin 16) (x' : Fin 4096) : poolEntry (makeRef e p s i) x' = poolEntry s x' := rfl
@[simp] theorem source_setPoolEntry (e : Fin 4096) (x : PoolEntry) (s : State) (x' : Fin 24) : source (setPoolEntry e x s) x' = source s x' := rfl
@[simp] theorem context_setPoolEntry (e : Fin 4096) (x : PoolEntry) (s : State) (x' : Fin 16) : context (setPoolEntry e x s) x' = context s x' := rfl
@[simp] theorem source_setFreeList (l : List (Fin 4096)) (s : State) (x' : Fin 24) : source (setFreeList l s) x' = source s x' := rfl
@[simp] theorem context_setFreeList (l : List (Fin 4096)) (s : State) (x' : Fin 16) : context (setFreeList l s) x' = context s x' := rfl
@[simp] theorem poolEntry_setFreeList (l : List (Fin 4096)) (s : State) (x' : Fin 4096) : poolEntry (setFreeList l s) x' = poolEntry s x' := rfl
@[simp] theorem source_joinFree (e : Fin 4096) (s : State) (x' : Fin 24) : source (joinFree e s) x' = source s x' := rfl
@[simp] theorem context_joinFree (e : Fin 4096) (s : State) (x' : Fin 16) : context (joinFree e s) x' = context s x' := rfl
@[simp] theorem poolEntry_joinFree (e : Fin 4096) (s : State) (x' : Fin 4096) : poolEntry (joinFree e s) x' = poolEntry s x' := rfl
@[simp] theorem source_leaveRetention (e : Fin 4096) (s : State) (x' : Fin 24) : source (leaveRetention e s) x' = source s x' := rfl
@[simp] theorem context_leaveRetention (e : Fin 4096) (s : State) (x' : Fin 16) : context (leaveRetention e s) x' = context s x' := rfl
@[simp] theorem poolEntry_leaveRetention (e : Fin 4096) (s : State) (x' : Fin 4096) : poolEntry (leaveRetention e s) x' = poolEntry s x' := rfl
@[simp] theorem source_freePool (s : State) (x' : Fin 24) : source (freePool s) x' = source s x' := rfl
@[simp] theorem context_freePool (s : State) (x' : Fin 16) : context (freePool s) x' = context s x' := rfl
@[simp] theorem source_raise (c : Latched) (s : State) (x' : Fin 24) : source (raise c s) x' = source s x' := rfl
@[simp] theorem context_raise (c : Latched) (s : State) (x' : Fin 16) : context (raise c s) x' = context s x' := rfl
@[simp] theorem poolEntry_raise (c : Latched) (s : State) (x' : Fin 4096) : poolEntry (raise c s) x' = poolEntry s x' := rfl
@[simp] theorem source_joinScanList (i : Fin 16) (s : State) (x' : Fin 24) : source (joinScanList i s) x' = source s x' := rfl
@[simp] theorem context_joinScanList (i : Fin 16) (s : State) (x' : Fin 16) : context (joinScanList i s) x' = context s x' := rfl
@[simp] theorem poolEntry_joinScanList (i : Fin 16) (s : State) (x' : Fin 4096) : poolEntry (joinScanList i s) x' = poolEntry s x' := rfl
@[simp] theorem source_startPass (i : Fin 16) (rest : List (Fin 16)) (s : State) (x' : Fin 24) : source (startPass i rest s) x' = source s x' := rfl
@[simp] theorem poolEntry_startPass (i : Fin 16) (rest : List (Fin 16)) (s : State) (x' : Fin 4096) : poolEntry (startPass i rest s) x' = poolEntry s x' := rfl
@[simp] theorem source_endPass (i : Fin 16) (s : State) (x' : Fin 24) : source (endPass i s) x' = source s x' := rfl
@[simp] theorem poolEntry_endPass (i : Fin 16) (s : State) (x' : Fin 4096) : poolEntry (endPass i s) x' = poolEntry s x' := rfl
@[simp] theorem context_makeLagging (s : State) (src : Fin 24) (x' : Fin 16) : context (makeLagging s src) x' = context s x' := rfl
@[simp] theorem poolEntry_makeLagging (s : State) (src : Fin 24) (x' : Fin 4096) : poolEntry (makeLagging s src) x' = poolEntry s x' := rfl
@[simp] theorem context_makeDown (src : Fin 24) (s : State) (x' : Fin 16) : context (makeDown src s) x' = context s x' := rfl
@[simp] theorem poolEntry_makeDown (src : Fin 24) (s : State) (x' : Fin 4096) : poolEntry (makeDown src s) x' = poolEntry s x' := rfl
@[simp] theorem source_waitPlacement (p : PulseRecord) (s : State) (x' : Fin 24) : source (waitPlacement p s) x' = source s x' := rfl
@[simp] theorem context_waitPlacement (p : PulseRecord) (s : State) (x' : Fin 16) : context (waitPlacement p s) x' = context s x' := rfl
@[simp] theorem poolEntry_waitPlacement (p : PulseRecord) (s : State) (x' : Fin 4096) : poolEntry (waitPlacement p s) x' = poolEntry s x' := rfl
@[simp] theorem context_countOrphan (p : PulseRecord) (s : State) (x' : Fin 16) : context (countOrphan p s) x' = context s x' := rfl
@[simp] theorem poolEntry_countOrphan (p : PulseRecord) (s : State) (x' : Fin 4096) : poolEntry (countOrphan p s) x' = poolEntry s x' := rfl
@[simp] theorem context_joinQueue (i : Fin 24) (e : StagingEntry) (s : State) (x' : Fin 16) : context (joinQueue i e s) x' = context s x' := rfl
@[simp] theorem poolEntry_joinQueue (i : Fin 24) (e : StagingEntry) (s : State) (x' : Fin 4096) : poolEntry (joinQueue i e s) x' = poolEntry s x' := rfl
@[simp] theorem context_overrun (i : Fin 24) (s : State) (x' : Fin 16) : context (overrun i s) x' = context s x' := rfl
@[simp] theorem poolEntry_overrun (i : Fin 24) (s : State) (x' : Fin 4096) : poolEntry (overrun i s) x' = poolEntry s x' := rfl
@[simp] theorem context_malformed (i : Fin 24) (s : State) (x' : Fin 16) : context (malformed i s) x' = context s x' := rfl
@[simp] theorem poolEntry_malformed (i : Fin 24) (s : State) (x' : Fin 4096) : poolEntry (malformed i s) x' = poolEntry s x' := rfl
@[simp] theorem context_checkFailure (i : Fin 24) (s : State) (x' : Fin 16) : context (checkFailure i s) x' = context s x' := rfl
@[simp] theorem poolEntry_checkFailure (i : Fin 24) (s : State) (x' : Fin 4096) : poolEntry (checkFailure i s) x' = poolEntry s x' := rfl
@[simp] theorem context_setFraming (i : Fin 24) (f : Framing) (s : State) (x' : Fin 16) : context (setFraming i f s) x' = context s x' := rfl
@[simp] theorem poolEntry_setFraming (i : Fin 24) (f : Framing) (s : State) (x' : Fin 4096) : poolEntry (setFraming i f s) x' = poolEntry s x' := rfl
@[simp] theorem context_countFrame (i : Fin 24) (s : State) (x' : Fin 16) : context (countFrame i s) x' = context s x' := rfl
@[simp] theorem poolEntry_countFrame (i : Fin 24) (s : State) (x' : Fin 4096) : poolEntry (countFrame i s) x' = poolEntry s x' := rfl
@[simp] theorem context_popQueue (i : Fin 24) (rest : List StagingEntry) (s : State) (x' : Fin 16) : context (popQueue i rest s) x' = context s x' := rfl
@[simp] theorem poolEntry_popQueue (i : Fin 24) (rest : List StagingEntry) (s : State) (x' : Fin 4096) : poolEntry (popQueue i rest s) x' = poolEntry s x' := rfl
@[simp] theorem source_countHit (m : Fin 4) (s : State) (x' : Fin 24) : source (countHit m s) x' = source s x' := rfl
@[simp] theorem context_countHit (m : Fin 4) (s : State) (x' : Fin 16) : context (countHit m s) x' = context s x' := rfl
@[simp] theorem poolEntry_countHit (m : Fin 4) (s : State) (x' : Fin 4096) : poolEntry (countHit m s) x' = poolEntry s x' := rfl
@[simp] theorem context_emptyStaging (s : State) (x' : Fin 16) : context (emptyStaging s) x' = context s x' := rfl
@[simp] theorem poolEntry_emptyStaging (s : State) (x' : Fin 4096) : poolEntry (emptyStaging s) x' = poolEntry s x' := rfl
@[simp] theorem source_freeTable (s : State) (x' : Fin 24) : source (freeTable s) x' = source s x' := rfl
@[simp] theorem poolEntry_freeTable (s : State) (x' : Fin 4096) : poolEntry (freeTable s) x' = poolEntry s x' := rfl
@[simp] theorem source_mergeTrigger (i : Fin 16) (r : Request) (s : State) (x' : Fin 24) : source (mergeTrigger i r s) x' = source s x' := rfl
@[simp] theorem poolEntry_mergeTrigger (i : Fin 16) (r : Request) (s : State) (x' : Fin 4096) : poolEntry (mergeTrigger i r s) x' = poolEntry s x' := rfl
@[simp] theorem source_extendWindow (i : Fin 16) (r : Request) (s : State) (x' : Fin 24) : source (extendWindow i r s) x' = source s x' := rfl
@[simp] theorem poolEntry_extendWindow (i : Fin 16) (r : Request) (s : State) (x' : Fin 4096) : poolEntry (extendWindow i r s) x' = poolEntry s x' := rfl
@[simp] theorem source_pushReply (r : Reply) (s : State) (x' : Fin 24) : source (pushReply r s) x' = source s x' := rfl
@[simp] theorem context_pushReply (r : Reply) (s : State) (x' : Fin 16) : context (pushReply r s) x' = context s x' := rfl
@[simp] theorem poolEntry_pushReply (r : Reply) (s : State) (x' : Fin 4096) : poolEntry (pushReply r s) x' = poolEntry s x' := rfl
@[simp] theorem source_emit (u : LinkUnit) (s : State) (x' : Fin 24) : source (emit u s) x' = source s x' := rfl
@[simp] theorem context_emit (u : LinkUnit) (s : State) (x' : Fin 16) : context (emit u s) x' = context s x' := rfl
@[simp] theorem poolEntry_emit (u : LinkUnit) (s : State) (x' : Fin 4096) : poolEntry (emit u s) x' = poolEntry s x' := rfl
@[simp] theorem source_losePoll (s : State) (x' : Fin 24) : source (losePoll s) x' = source s x' := rfl
@[simp] theorem context_losePoll (s : State) (x' : Fin 16) : context (losePoll s) x' = context s x' := rfl
@[simp] theorem poolEntry_losePoll (s : State) (x' : Fin 4096) : poolEntry (losePoll s) x' = poolEntry s x' := rfl
@[simp] theorem source_writePoll (i : Fin 16) (s : State) (x' : Fin 24) : source (writePoll i s) x' = source s x' := rfl
@[simp] theorem context_writePoll (i : Fin 16) (s : State) (x' : Fin 16) : context (writePoll i s) x' = context s x' := rfl
@[simp] theorem poolEntry_writePoll (i : Fin 16) (s : State) (x' : Fin 4096) : poolEntry (writePoll i s) x' = poolEntry s x' := rfl
@[simp] theorem source_writeStreamWord (j : StreamJob) (s : State) (x' : Fin 24) : source (writeStreamWord j s) x' = source s x' := rfl
@[simp] theorem context_writeStreamWord (j : StreamJob) (s : State) (x' : Fin 16) : context (writeStreamWord j s) x' = context s x' := rfl
@[simp] theorem poolEntry_writeStreamWord (j : StreamJob) (s : State) (x' : Fin 4096) : poolEntry (writeStreamWord j s) x' = poolEntry s x' := rfl
@[simp] theorem source_dropReadoutHead (rest : List ReadoutEvent) (s : State) (x' : Fin 24) : source (dropReadoutHead rest s) x' = source s x' := rfl
@[simp] theorem context_dropReadoutHead (rest : List ReadoutEvent) (s : State) (x' : Fin 16) : context (dropReadoutHead rest s) x' = context s x' := rfl
@[simp] theorem poolEntry_dropReadoutHead (rest : List ReadoutEvent) (s : State) (x' : Fin 4096) : poolEntry (dropReadoutHead rest s) x' = poolEntry s x' := rfl
@[simp] theorem source_sampleLine (l : Fin 4) (level : Bool) (s : State) (x' : Fin 24) : source (sampleLine l level s) x' = source s x' := rfl
@[simp] theorem context_sampleLine (l : Fin 4) (level : Bool) (s : State) (x' : Fin 16) : context (sampleLine l level s) x' = context s x' := rfl
@[simp] theorem poolEntry_sampleLine (l : Fin 4) (level : Bool) (s : State) (x' : Fin 4096) : poolEntry (sampleLine l level s) x' = poolEntry s x' := rfl

end Sys2Proof.Machine
end

