-- ==== Sys2Proof/Laws/WireFormats.lean ====
section
/-! SUPPORT. The wire formats (spec/12_wire_formats.md): a field taken out of a word that was put together gives back what was put in, and
what the frames and blocks come to in words. -/

namespace Sys2Proof.Machine

open Sys2Proof.Safety

/-! ## Fields of words -/

/-- The low field of a word put together is its low part. -/
theorem extract_low {n m : Nat} (a : BitVec n) (b : BitVec m) : (a ++ b).extractLsb' 0 m = b := by
  apply BitVec.eq_of_getLsbD_eq
  intro i hi
  simp [BitVec.getLsbD_append, hi]

/-- A field above the low part is the field of the high part. -/
theorem extract_high {n m : Nat} (a : BitVec n) (b : BitVec m) {k w j : Nat} (h : k = m + j) :
    (a ++ b).extractLsb' k w = a.extractLsb' j w := by
  subst h
  apply BitVec.eq_of_getLsbD_eq
  intro i hi
  simp [BitVec.getLsbD_append, hi, show ¬ m + j + i < m by omega,
    show m + j + i - m = j + i by omega]

/-- The whole field of a part. -/
theorem extract_all {n : Nat} (a : BitVec n) : a.extractLsb' 0 n = a := by
  apply BitVec.eq_of_getLsbD_eq
  intro i hi
  simp [hi]

@[simp] theorem wordStamp_stampWord {t : Stamp} (h1 : t.orbit < 1048576) (h2 : t.bc < 4096) :
    wordStamp (stampWord t) = t := by
  have e1 : (stampWord t).extractLsb' 12 20 = BitVec.ofNat 20 t.orbit := by
    rw [stampWord, extract_high _ _ (j := 0) (by rfl), extract_all]
  have e2 : (stampWord t).extractLsb' 0 12 = BitVec.ofNat 12 t.bc := extract_low _ _
  simp only [wordStamp, e1, e2, BitVec.toNat_ofNat]
  cases t
  simp_all [Nat.mod_eq_of_lt]

/-! ## Samples -/

theorem places_sampleWord {a b c : Nat} (ha : a ≤ 1023) (hb : b ≤ 1023) (hc : c ≤ 1023) :
    places (sampleWord a b c) = [a, b, c] := by
  have e1 : (sampleWord a b c).extractLsb' 20 10 = BitVec.ofNat 10 a := by
    rw [sampleWord, extract_high _ _ (j := 10) (by rfl), extract_high _ _ (j := 0) (by rfl), extract_low]
  have e2 : (sampleWord a b c).extractLsb' 10 10 = BitVec.ofNat 10 b := by
    rw [sampleWord, extract_high _ _ (j := 0) (by rfl), extract_low]
  have e3 : (sampleWord a b c).extractLsb' 0 10 = BitVec.ofNat 10 c := extract_low _ _
  simp only [places, e1, e2, e3, BitVec.toNat_ofNat]
  simp [Nat.mod_eq_of_lt, show a < 1024 by omega, show b < 1024 by omega, show c < 1024 by omega]

/-- Samples take ⌈n/3⌉ words. -/
@[simp] theorem length_packSamples (xs : List Nat) : (packSamples xs).length = (xs.length + 2) / 3 := by
  fun_induction packSamples xs with
  | case1 a b c rest ih => simp [ih]; omega
  | case2 a b => simp
  | case3 a => simp
  | case4 => simp

/-- The first n samples of the words they were packed into, whatever words follow. -/
theorem unpackSamples_packSamples (xs : List Nat) (more : List Word) (h : ∀ x ∈ xs, x ≤ 1023) :
    unpackSamples xs.length (packSamples xs ++ more) = xs := by
  unfold unpackSamples
  fun_induction packSamples xs with
  | case1 a b c rest ih =>
    simp only [List.mem_cons, forall_eq_or_imp] at h
    obtain ⟨ha, hb, hc, hr⟩ := h
    have := ih hr
    rw [List.flatMap_append] at this
    simp [places_sampleWord ha hb hc, this]
  | case2 a b =>
    simp only [List.mem_cons, forall_eq_or_imp] at h
    simp [places_sampleWord h.1 h.2.1 (Nat.zero_le _)]
  | case3 a =>
    simp only [List.mem_cons, forall_eq_or_imp] at h
    simp [places_sampleWord h.1 (Nat.zero_le _) (Nat.zero_le _)]
  | case4 => simp

/-! ## Pad-link frames -/

/-- A PULSE body laid out from a pulse entry is read as that entry (R33, R34, R197). -/
theorem decodePad_pulseBody {ol : Nat} {p : PulseEntry} (check : Nat) (r : BitVec 6) (idle : Bool) (more : List Word)
    (hol : ol ≤ 4096) (hp : PulseInRange ol p) (hm : more.length = check) :
    decodePad ol check idle (pulseBody p r ++ more) = some (.pulse { p with flags := 0 }) := by
  obtain ⟨h1, h2, h3, h4, h5, h6, h7⟩ := hp
  have e0 : ∀ h : Word, h = (1#4 ++ BitVec.ofNat 8 p.row ++ BitVec.ofNat 8 p.pad ++ r ++ BitVec.ofNat 6 p.samples.length) →
      h.extractLsb' 28 4 = 1#4 ∧ (h.extractLsb' 0 6).toNat = p.samples.length ∧ (h.extractLsb' 20 8).toNat = p.row
        ∧ (h.extractLsb' 12 8).toNat = p.pad := by
    rintro h rfl
    refine ⟨?_, ?_, ?_, ?_⟩
    · rw [extract_high _ _ (j := 22) (by rfl), extract_high _ _ (j := 16) (by rfl), extract_high _ _ (j := 8) (by rfl),
        extract_high _ _ (j := 0) (by rfl), extract_all]
    · rw [extract_low]; simp; omega
    · rw [extract_high _ _ (j := 14) (by rfl), extract_high _ _ (j := 8) (by rfl), extract_high _ _ (j := 0) (by rfl),
        extract_low]
      simp; omega
    · rw [extract_high _ _ (j := 6) (by rfl), extract_high _ _ (j := 0) (by rfl), extract_low]; simp; omega
  obtain ⟨k, n, row, pad⟩ := e0 _ rfl
  have hs : wordStamp (stampWord p.stamp) = p.stamp := wordStamp_stampWord h3 (by omega)
  simp only [pulseBody, decodePad, List.cons_append, k, if_true, decodePulse, n, row, pad, hs, sampleWords]
  rw [if_neg (by omega), if_neg (by simp [hm]; omega), if_neg (by omega)]
  rw [List.take_append_of_le_length (by simp), List.take_of_length_le (by simp)]
  have := unpackSamples_packSamples p.samples [] h7
  rw [List.append_nil] at this
  rw [this]

/-- A MARK body laid out from a stamp is read as that stamp (R33, R35, R197). -/
theorem decodePad_markBody {ol : Nat} {t : Stamp} (check : Nat) (r : BitVec 28) (idle : Bool) (more : List Word) (hol : ol ≤ 4096)
    (h1 : t.orbit < 1048576) (h2 : t.bc < ol) (hm : more.length = check) :
    decodePad ol check idle (markBody t r ++ more) = some (.mark t) := by
  have k : (2#4 ++ r : Word).extractLsb' 28 4 = 2#4 := by rw [extract_high _ _ (j := 0) (by rfl), extract_all]
  have hs : wordStamp (stampWord t) = t := wordStamp_stampWord h1 (by omega)
  simp only [markBody, decodePad, List.cons_append, k, decodeMark, hs]
  simp [hm, Nat.not_le.2 h2]
  omega

/-- An IDLE body is read as IDLE where IDLE is admitted (R33, R36). -/
theorem decodePad_idleBody {ol : Nat} (check : Nat) (r : BitVec 28) (more : List Word) (hm : more.length = check) :
    decodePad ol check true (idleBody r ++ more) = some .idle := by
  have k : (3#4 ++ r : Word).extractLsb' 28 4 = 3#4 := by rw [extract_high _ _ (j := 0) (by rfl), extract_all]
  simp only [idleBody, decodePad, List.cons_append, k]
  simp [hm]
  omega

/-- The check of a frame is that of its last word on the words before it (R32). -/
theorem checkPasses_concat (body : List Word) (c : Word) : checkPasses (body ++ [c]) = checkGood body c := by
  simp [checkPasses, checkGood]

/-! ## Event blocks -/

@[simp] theorem length_pulseBlock (p : PulseRecord) : (pulseBlock p).length = pulseBlockSize p := by
  simp [pulseBlock, pulseBlockSize, sampleWords]; omega

/-- An event block has as many words as the event size (R120, R124). -/
@[simp] theorem length_blockOf (c : Context) (ps : List PulseRecord) :
    (blockOf c ps).length = sizeOfEvent c.triggers ps := by
  have h1 : ∀ ts : List Trigger, (ts.flatMap triggerEntry).length = 2 * ts.length := by
    intro ts
    induction ts with
    | nil => rfl
    | cons t ts ih => simp only [List.flatMap_cons, List.length_append, ih, triggerEntry, List.length_cons,
        List.length_nil]; omega
  have h2 : (ps.flatMap pulseBlock).length = (ps.map pulseBlockSize).sum := by
    induction ps with
    | nil => rfl
    | cons p ps ih => simp only [List.flatMap_cons, List.length_append, ih, length_pulseBlock, List.map_cons, List.sum_cons]
  simp only [blockOf, List.length_append, h1, h2, sizeOfEvent, eventHeader, List.length_cons, List.length_nil]

/-- A pulse block is read back as the pulse it was written from (R54, R126). -/
theorem pulseOfBlock_pulseBlock {p : PulseRecord} (h : RecordInRange p) (more : List Word) :
    pulseOfBlock (pulseBlock p ++ more) = some p := by
  obtain ⟨h1, h2, h3, h4, h5, h6, h7, h8, h9, h10⟩ := h
  have e0 : ∀ w : Word, w = (BitVec.ofNat 5 p.source.val ++ p.flags ++ BitVec.ofNat 6 p.samples.length ++ BitVec.ofNat 6 p.row
        ++ 0#3 ++ BitVec.ofNat 7 p.pad) →
      (w.extractLsb' 27 5).toNat = p.source.val ∧ w.extractLsb' 22 5 = p.flags
        ∧ (w.extractLsb' 16 6).toNat = p.samples.length ∧ (w.extractLsb' 10 6).toNat = p.row
        ∧ (w.extractLsb' 0 7).toNat = p.pad := by
    rintro w rfl
    refine ⟨?_, ?_, ?_, ?_, ?_⟩
    · rw [extract_high _ _ (j := 20) (by rfl), extract_high _ _ (j := 17) (by rfl), extract_high _ _ (j := 11) (by rfl),
        extract_high _ _ (j := 5) (by rfl), extract_high _ _ (j := 0) (by rfl), extract_all]
      simp; omega
    · rw [extract_high _ _ (j := 15) (by rfl), extract_high _ _ (j := 12) (by rfl), extract_high _ _ (j := 6) (by rfl),
        extract_high _ _ (j := 0) (by rfl), extract_low]
    · rw [extract_high _ _ (j := 9) (by rfl), extract_high _ _ (j := 6) (by rfl), extract_high _ _ (j := 0) (by rfl),
        extract_low]
      simp; omega
    · rw [extract_high _ _ (j := 3) (by rfl), extract_high _ _ (j := 0) (by rfl), extract_low]; simp; omega
    · rw [extract_low]; simp; omega
  have e2 : ∀ w : Word, w = (0#1 ++ BitVec.ofNat 5 p.peakIndex ++ BitVec.ofNat 10 p.peak ++ BitVec.ofNat 16 p.charge) →
      (w.extractLsb' 26 5).toNat = p.peakIndex ∧ (w.extractLsb' 16 10).toNat = p.peak
        ∧ (w.extractLsb' 0 16).toNat = p.charge := by
    rintro w rfl
    refine ⟨?_, ?_, ?_⟩
    · rw [extract_high _ _ (j := 10) (by rfl), extract_high _ _ (j := 0) (by rfl), extract_low]; simp; omega
    · rw [extract_high _ _ (j := 0) (by rfl), extract_low]; simp; omega
    · rw [extract_low]; simp; omega
  obtain ⟨a1, a2, a3, a4, a5⟩ := e0 _ rfl
  obtain ⟨c1, c2, c3⟩ := e2 _ rfl
  have hs : (⟨((stampWord p.stamp).extractLsb' 12 20).toNat, ((stampWord p.stamp).extractLsb' 0 12).toNat⟩ : Stamp) = p.stamp :=
    wordStamp_stampWord h3 h4
  simp only [pulseBlock, pulseOfBlock, List.cons_append]
  rw [dif_pos (by rw [a1]; exact p.source.isLt)]
  simp only [a1, a2, a3, a4, a5, c1, c2, c3, hs, unpackSamples_packSamples p.samples more h7]

end Sys2Proof.Machine
end

