-- ==== Sys2Proof/Laws/CommandLink.lean ====
section
/-! SUPPORT. What a command frame on a ready command link comes to, and what its octets are read as. -/

namespace Sys2Proof.Machine

open Sys2Proof.Safety

/-- A kind is named by its own code. -/
theorem ofCode_code (k : CommandKind) : CommandKind.ofCode k.code = some k := by
  cases k <;> decide

/-- The reply of an outstanding command joins the reply queue. -/
theorem buildReply_eq (st : Status) (body : List Word) (s : State) (k : CommandKind) (tag : Tag) (b : Bool)
    (h : s.cmd.outstanding = some ⟨k.code, tag, b⟩) : buildReply st body s = answered k tag b st body s := by
  simp [buildReply, h, pushReply, answered, answeredAs]

/-- On a ready link a frame whose body fits is taken and dispatched. -/
theorem endDelimiter_ready (k : CommandKind) (tag : Tag) (n : Nat) (body : List Word) (s : State)
    (h : LinkReady s) (hb : body.length ≤ 255) :
    endDelimiter (builtFrame k.code tag n body) s = dispatch k.code n body (takenBy k tag s) := by
  obtain ⟨h1, h2, h3, h4⟩ := h
  simp [endDelimiter, h1, completeFrame, noPlace, h3, Config.replyCap, Nat.not_le.2 h4, builtFrame, Config.bodyMax, hb,
    passFrame, h2, takenBy, takenAs]

/-- A command that arrives on a ready link is taken and dispatched. -/
theorem commandArrives_ready (k : CommandKind) (tag : Tag) (body : List Word) (s : State)
    (h : LinkReady s) (hb : body.length ≤ 255) :
    commandArrives k tag body s = dispatch k.code 0 body (takenBy k tag s) := endDelimiter_ready k tag 0 body s h hb

/-- What dispatch does with a named kind. -/
theorem dispatch_kind (k : CommandKind) (n : Nat) (body : List Word) (s : State) :
    dispatch k.code n body s =
      if s.run = .init ∧ k.servedInInit = false then buildReply .busyInit [] s
      else if k.admits body.length then runCommand k n body s
      else buildReply .badValue [] s := by
  simp [dispatch, ofCode_code]

@[simp] theorem takenBy_run (k : CommandKind) (tag : Tag) (s : State) : (takenBy k tag s).run = s.run := rfl
@[simp] theorem takenBy_outstanding (k : CommandKind) (tag : Tag) (s : State) :
    (takenBy k tag s).cmd.outstanding = some ⟨k.code, tag, s.cmd.frameChecked⟩ := rfl
@[simp] theorem takenBy_settings (k : CommandKind) (tag : Tag) (s : State) : (takenBy k tag s).settings = s.settings := rfl
@[simp] theorem takenBy_time (k : CommandKind) (tag : Tag) (s : State) : (takenBy k tag s).time = s.time := rfl
@[simp] theorem takenBy_intake (k : CommandKind) (tag : Tag) (s : State) : (takenBy k tag s).intake = s.intake := rfl
@[simp] theorem takenBy_sources (k : CommandKind) (tag : Tag) (s : State) : (takenBy k tag s).sources = s.sources := rfl
@[simp] theorem takenBy_distributor (k : CommandKind) (tag : Tag) (s : State) :
    (takenBy k tag s).distributor = s.distributor := rfl
@[simp] theorem takenBy_pool (k : CommandKind) (tag : Tag) (s : State) : (takenBy k tag s).pool = s.pool := rfl
@[simp] theorem takenBy_table (k : CommandKind) (tag : Tag) (s : State) : (takenBy k tag s).table = s.table := rfl
@[simp] theorem takenBy_monitor (k : CommandKind) (tag : Tag) (s : State) : (takenBy k tag s).monitor = s.monitor := rfl
@[simp] theorem takenBy_builder (k : CommandKind) (tag : Tag) (s : State) : (takenBy k tag s).builder = s.builder := rfl
@[simp] theorem takenBy_router (k : CommandKind) (tag : Tag) (s : State) : (takenBy k tag s).router = s.router := rfl
@[simp] theorem takenBy_spy (k : CommandKind) (tag : Tag) (s : State) : (takenBy k tag s).spy = s.spy := rfl
@[simp] theorem takenBy_latched (k : CommandKind) (tag : Tag) (s : State) : (takenBy k tag s).latched = s.latched := rfl
@[simp] theorem takenBy_replies (k : CommandKind) (tag : Tag) (s : State) :
    (takenBy k tag s).cmd.replies = s.cmd.replies := rfl
@[simp] theorem takenBy_configure (k : CommandKind) (tag : Tag) (s : State) :
    (takenBy k tag s).cmd.configure = s.cmd.configure := rfl
@[simp] theorem takenBy_source (k : CommandKind) (tag : Tag) (s : State) (i : Fin 24) :
    source (takenBy k tag s) i = source s i := rfl
@[simp] theorem takenBy_context (k : CommandKind) (tag : Tag) (s : State) (i : Fin 16) :
    context (takenBy k tag s) i = context s i := rfl

/-- A command whose effect `f` keeps the outstanding command is answered with the outcome of `f`. -/
theorem finish_answered (k : CommandKind) (tag : Tag) (s : State) (d : Done)
    (h : d.1.cmd.outstanding = some ⟨k.code, tag, s.cmd.frameChecked⟩) :
    finish d = answered k tag s.cmd.frameChecked d.2.1 d.2.2 d.1 := by
  simpa [finish] using buildReply_eq d.2.1 d.2.2 d.1 k tag _ h

/-! ## Octets and words -/

theorem octetsWord_octetsOfWord (w : Word) :
    octetsWord (w.extractLsb' 24 8) (w.extractLsb' 16 8) (w.extractLsb' 8 8) (w.extractLsb' 0 8) = w := by
  apply BitVec.eq_of_getLsbD_eq
  intro i hi
  simp only [octetsWord, BitVec.getLsbD_append, BitVec.getLsbD_extractLsb']
  by_cases h1 : i < 8
  · simp [h1]
  · by_cases h2 : i < 16
    · have : i - 8 < 8 := by omega
      simp [h1, this, show 8 + (i - 8) = i by omega]
    · by_cases h3 : i < 24
      · have : ¬ i - 8 < 8 := by omega
        have h5 : i - 8 - 8 < 8 := by omega
        simp [h1, this, h5, show 16 + (i - 8 - 8) = i by omega]
      · have : ¬ i - 8 < 8 := by omega
        have h5 : ¬ i - 8 - 8 < 8 := by omega
        have h6 : i - 8 - 8 - 8 < 8 := by omega
        simp [h1, this, h5, h6, show 24 + (i - 8 - 8 - 8) = i by omega]

/-- The words of octets laid out word by word, whatever fewer than four octets follow. -/
theorem wordsOfOctets_flatMap (ws : List Word) (more : List Octet) (h : more.length < 4) :
    wordsOfOctets (ws.flatMap octetsOfWord ++ more) = ws := by
  induction ws with
  | nil =>
    match more, h with
    | [], _ => rfl
    | [_], _ => rfl
    | [_, _], _ => rfl
    | [_, _, _], _ => rfl
  | cons w ws ih =>
    simp only [List.flatMap_cons, octetsOfWord, List.cons_append, List.nil_append, wordsOfOctets]
    rw [octetsWord_octetsOfWord, ih]

theorem length_flatMap_octets (ws : List Word) : (ws.flatMap octetsOfWord).length = 4 * ws.length := by
  induction ws with
  | nil => rfl
  | cons w ws ih => simp [octetsOfWord] at ih ⊢; omega

/-- The fields of a command header are what it was put together from (R198). -/
theorem header_fields (k : BitVec 8) (r : BitVec 4) (tag : Tag) (body : List Word) (h : body.length ≤ 255) :
    headerKind (commandHeader k r tag body) = k ∧ headerTag (commandHeader k r tag body) = tag
      ∧ headerLength (commandHeader k r tag body) = body.length := by
  refine ⟨?_, ?_, ?_⟩
  · rw [headerKind, commandHeader, extract_high _ _ (j := 16) (by rfl), extract_high _ _ (j := 4) (by rfl),
      extract_high _ _ (j := 0) (by rfl), extract_all]
  · rw [headerTag, commandHeader, extract_high _ _ (j := 0) (by rfl), extract_low]
  · rw [headerLength, commandHeader, extract_low]; simp; omega

/-! ## CONFIGURE (R189 to R191) -/

/-- The pairs of the words of a list of pairs. -/
theorem pairsOf_pairWords (ps : List (Word × Word)) : pairsOf (pairWords ps) = ps := by
  induction ps with
  | nil => rfl
  | cons p ps ih => simpa [pairWords, pairsOf] using ih

theorem length_pairWords (ps : List (Word × Word)) : (pairWords ps).length = 2 * ps.length := by
  induction ps with
  | nil => rfl
  | cons p ps ih => simp [pairWords] at ih ⊢; omega

/-- What one pair can do (R2, R189, R190): it is refused, or it writes one setting, and a changed OL sets bc to 0. -/
theorem applyPair_cases (p v : Word) (s : State) :
    (∃ st, applyPair p v s = .refused st)
      ∨ ∃ t c, applyPair p v s = .applied { s with
          settings := t
          time.now := if t.ol = s.settings.ol then s.time.now else ⟨s.time.now.orbit, 0⟩ } c := by
  unfold applyPair
  split
  · exact .inl ⟨_, rfl⟩
  · next k _ =>
    split
    · exact .inl ⟨_, rfl⟩
    · split
      · next t _ =>
        refine .inr ⟨t, settingClamp k v, ?_⟩
        unfold installSettings
        split
        · rfl
        · rfl
      · exact .inl ⟨_, rfl⟩

/-- Steps enough for every pair left do the same, however many they are. -/
theorem configureSteps_enough (n m : Nat) (j : ConfigureJob) (s : State) (hn : j.rest.length ≤ n)
    (hm : j.rest.length ≤ m) : configureSteps n j s = configureSteps m j s := by
  induction n generalizing m j s with
  | zero =>
    have : j.rest = [] := by simpa using hn
    unfold configureSteps; simp [this]
  | succ n ih =>
    cases hr : j.rest with
    | nil => unfold configureSteps; simp [hr]
    | cons p rest =>
      cases m with
      | zero => simp [hr] at hm
      | succ m =>
        unfold configureSteps
        simp only [hr]
        split
        · apply ih
          · simpa [ConfigureJob.next, hr] using hn
          · simpa [ConfigureJob.next, hr] using hm
        · rfl

end Sys2Proof.Machine
end

