-- ==== Sys2Proof/Laws/Settling.lean ====
section
/-! SUPPORT. What the claim scanner's own moves, a completion, an expiry, and a whole settling can do (R87 to R93, R104 to R108): one
relation `Settles` that each of them keeps, and what a settling leaves behind. -/

namespace Sys2Proof.Machine

/-- Everything a settling may change from `s` to `t`: standings and their lagging counts, the states, missing sets, flags and scan standings
of contexts that were OPEN, the scan request list and the scanner, the monitor's counters, and latched conditions. -/
structure Settles (s t : State) : Prop where
  rest : t = { s with sources := t.sources, table := t.table, monitor := t.monitor, latched := t.latched }
  table : t.table = { s.table with
    slots := t.table.slots, scanList := t.table.scanList, scanned := t.table.scanned, visits := t.table.visits
    claimPasses := t.table.claimPasses, claimPassesStopped := t.table.claimPassesStopped }
  record : ∀ i, context t i = { context s i with
    state := (context t i).state, missing := (context t i).missing, flags := (context t i).flags
    scan := (context t i).scan }
  closed : ∀ i, (context s i).state ≠ .opened → (context t i).state = (context s i).state
    ∧ (context t i).missing = (context s i).missing ∧ (context t i).flags = (context s i).flags
  leaves : ∀ i, (context s i).state = .opened →
    (context t i).state = .opened ∨ (context t i).state = .complete ∨ (context t i).state = .expired
  stays : ∀ i, (context t i).state = .opened → (context s i).state = .opened
    ∧ (context t i).missing = (context s i).missing ∧ (context t i).flags = (context s i).flags
  source : ∀ j, source t j = { source s j with
    standing := (source t j).standing
    counters := { (source s j).counters with wentLagging := (source t j).counters.wentLagging } }
  latched : ∀ k, s.latched.getLsbD k = true → t.latched.getLsbD k = true
  scanList : t.table.scanList.Sublist s.table.scanList
  quiet : ∀ i, i ∉ s.table.scanList → s.table.scanned ≠ some i → (context s i).state ≠ .opened →
    (context t i).scan = (context s i).scan ∧ t.table.scanned ≠ some i

theorem settles_refl (s : State) : Settles s s := by
  refine ⟨rfl, rfl, fun _ => rfl, fun _ _ => ⟨rfl, rfl, rfl⟩, fun _ h => .inl h, fun _ h => ⟨h, rfl, rfl⟩, fun _ => rfl,
    fun _ h => h, List.Sublist.refl _, fun _ _ h _ => ⟨rfl, h⟩⟩

theorem settles_trans {s t u : State} (h : Settles s t) (k : Settles t u) : Settles s u := by
  refine ⟨?_, ?_, ?_, ?_, ?_, ?_, ?_, fun n hn => k.latched n (h.latched n hn), k.scanList.trans h.scanList, ?_⟩
  · rw [k.rest, h.rest]
  · rw [k.table, h.table]
  · intro i; rw [k.record i, h.record i]
  · intro i hi
    obtain ⟨a, b, c⟩ := h.closed i hi
    obtain ⟨a', b', c'⟩ := k.closed i (by rw [a]; exact hi)
    exact ⟨a'.trans a, b'.trans b, c'.trans c⟩
  · intro i hi
    rcases h.leaves i hi with e | e | e
    · exact k.leaves i e
    · right; left; exact (k.closed i (by rw [e]; decide)).1.trans e
    · right; right; exact (k.closed i (by rw [e]; decide)).1.trans e
  · intro i hi
    obtain ⟨a, b, c⟩ := k.stays i hi
    obtain ⟨a', b', c'⟩ := h.stays i a
    exact ⟨a', b.trans b', c.trans c'⟩
  · intro j; rw [k.source j, h.source j]
  · intro i hi hs ho
    obtain ⟨a, b⟩ := h.quiet i hi hs ho
    obtain ⟨c, d⟩ := k.quiet i (fun m => hi (h.scanList.subset m)) b (by rw [(h.closed i ho).1]; exact ho)
    exact ⟨c.trans a, d⟩

theorem settles_foldl {α : Type} {f : State → α → State} (hf : ∀ s x, Settles s (f s x)) (l : List α) (s : State) :
    Settles s (l.foldl f s) := by
  induction l generalizing s with
  | nil => exact settles_refl s
  | cons x l ih => exact settles_trans (hf s x) (ih _)

/-! ## The claim scanner's own moves (R89, R92) -/

/-- Only scan standings, the scan request list, the scanned slot, the visit list and the count of passes move. -/
structure Scans (s t : State) : Prop where
  rest : t = { s with table := t.table }
  table : t.table = { s.table with
    slots := t.table.slots, scanList := t.table.scanList, scanned := t.table.scanned, visits := t.table.visits
    claimPasses := t.table.claimPasses }
  record : ∀ i, context t i = { context s i with scan := (context t i).scan }
  scanList : t.table.scanList <:+ s.table.scanList
  scan : ∀ i, i ∉ s.table.scanList → s.table.scanned ≠ some i → (context t i).scan = (context s i).scan
    ∧ t.table.scanned ≠ some i

theorem scans_refl (s : State) : Scans s s :=
  ⟨rfl, rfl, fun _ => rfl, List.suffix_refl _, fun _ _ h => ⟨rfl, h⟩⟩

theorem scans_trans {s t u : State} (h : Scans s t) (k : Scans t u) : Scans s u := by
  refine ⟨by rw [k.rest, h.rest], by rw [k.table, h.table], fun i => by rw [k.record i, h.record i],
    k.scanList.trans h.scanList, fun i hi hs => ?_⟩
  obtain ⟨a, b⟩ := h.scan i hi hs
  obtain ⟨c, d⟩ := k.scan i (fun m => hi (h.scanList.subset m)) b
  exact ⟨c.trans a, d⟩

theorem context_endPass (i j : Fin 16) (s : State) : context (endPass i s) j =
    if j = i then { context s i with scan := if s.table.scanList.contains i then .queued else .noScan }
    else context s j := context_modContext i j _ _

theorem context_startPass (i j : Fin 16) (rest : List (Fin 16)) (s : State) : context (startPass i rest s) j =
    if j = i then { context s i with scan := .scanning } else context s j := context_modContext i j _ _

theorem scans_endPass {s : State} {i : Fin 16} (hs : s.table.scanned = some i) : Scans s (endPass i s) := by
  refine ⟨rfl, rfl, ?_, List.suffix_refl _, ?_⟩
  · intro j; rw [context_endPass]
    split
    · next h => subst h; rfl
    · rfl
  · intro j _ hn
    have h : j ≠ i := by rintro rfl; exact hn hs
    rw [context_endPass, if_neg h]
    exact ⟨rfl, by simp [endPass]⟩

theorem scans_startPass {s : State} {i : Fin 16} {rest : List (Fin 16)} (hl : s.table.scanList = i :: rest) :
    Scans s (startPass i rest s) := by
  refine ⟨rfl, rfl, ?_, ?_, ?_⟩
  · intro j; rw [context_startPass]
    split
    · next h => subst h; rfl
    · rfl
  · rw [hl]; exact ⟨[i], rfl⟩
  · intro j hj _
    have h : j ≠ i := by rintro rfl; simp [hl] at hj
    rw [context_startPass, if_neg h]
    refine ⟨rfl, ?_⟩
    show some i ≠ some j
    simpa using fun e => h e.symm

theorem scans_scannerMove {s t : State} (h : scannerMove s = some t) : Scans s t := by
  unfold scannerMove at h
  split at h
  · next i hs =>
    split at h
    · cases h; exact scans_endPass hs
    · cases h
  · split at h
    · cases h
    · next hl => cases h; exact scans_startPass hl

theorem scans_scannerMoves (n : Nat) (s : State) : Scans s (scannerMoves n s) := by
  induction n generalizing s with
  | zero => exact scans_refl s
  | succ n ih =>
    unfold scannerMoves
    split
    · next t h => exact scans_trans (scans_scannerMove h) (ih t)
    · exact scans_refl s

/-- What the scanner's own moves can change. -/
theorem scans_settleScanner (s : State) : Scans s (settleScanner s) := scans_scannerMoves _ _

/-- A scanner that has nothing to do at once leaves the state as it is. -/
theorem settleScanner_rest {s : State} (h : scannerMove s = none) : settleScanner s = s := by
  simp [settleScanner, scannerMoves, h]

/-- How many moves the scanner can still make at most: two for each listed slot, one for a pass in progress (R89, R92). -/
def movesLeft (s : State) : Nat := 2 * s.table.scanList.length + if s.table.scanned.isSome then 1 else 0

/-- Each move leaves fewer. -/
theorem movesLeft_scannerMove {s t : State} (h : scannerMove s = some t) : movesLeft t < movesLeft s := by
  unfold scannerMove at h
  unfold movesLeft
  cases hs : s.table.scanned with
  | some i =>
    simp only [hs] at h
    split at h
    · cases h; simp [endPass]
    · cases h
  | none =>
    cases hl : s.table.scanList with
    | nil => simp [hs, hl] at h
    | cons i rest => simp only [hs, hl, Option.some.injEq] at h; subst h; simp [startPass]; omega

/-- Moves enough for all do the same, however many they are. -/
theorem scannerMoves_enough (n m : Nat) (s : State) (hn : movesLeft s ≤ n) (hm : movesLeft s ≤ m) :
    scannerMoves n s = scannerMoves m s := by
  induction n generalizing m s with
  | zero =>
    cases h : scannerMove s with
    | some t => have := movesLeft_scannerMove h; omega
    | none => cases m <;> simp [scannerMoves, h]
  | succ n ih =>
    cases h : scannerMove s with
    | some t =>
      have k := movesLeft_scannerMove h
      cases m with
      | zero => omega
      | succ m => simp only [scannerMoves, h]; exact ih m t (by omega) (by omega)
    | none => cases m <;> simp [scannerMoves, h]

theorem movesLeft_le (s : State) : movesLeft s ≤ 2 * s.table.scanList.length + 1 := by
  unfold movesLeft; split <;> omega

/-- Where the scanner has a move, it makes it and goes on (R89, R92). -/
theorem settleScanner_move {s t : State} (h : scannerMove s = some t) : settleScanner s = settleScanner t := by
  have k := movesLeft_scannerMove h
  have e := movesLeft_le s
  have e2 := movesLeft_le t
  have f : settleScanner s = scannerMoves (2 * s.table.scanList.length + 1) t := by
    rw [settleScanner, scannerMoves]; simp only [h]
  rw [f]
  exact scannerMoves_enough _ _ t (by omega) (by omega)

theorem scans_settles {s t : State} (h : Scans s t) : Settles s t := by
  have hs : ∀ j, source t j = source s j := fun j => by rw [h.rest]; rfl
  have hl : t.latched = s.latched := by rw [h.rest]
  refine ⟨by rw [h.rest], by rw [h.table], fun i => by rw [h.record i], fun i _ => ?_, fun i hi => ?_, fun i hi => ?_,
    fun j => by rw [hs j], fun k hk => by rw [hl]; exact hk, h.scanList.sublist, fun i a b _ => h.scan i a b⟩
  · rw [h.record i]; exact ⟨rfl, rfl, rfl⟩
  · left; rw [h.record i]; exact hi
  · rw [h.record i] at hi ⊢; exact ⟨hi, rfl, rfl⟩

/-! ## Completion and expiry (R87, R93, R105, R107, R108) -/

/-- The context after it left OPEN; every other one is as it was. -/
theorem context_leaveOpen (i j : Fin 16) (st : ContextState) (s : State) :
    context (leaveOpen i st s) j = if j = i then { context s i with state := st, scan := .noScan } else context s j := by
  have h := context_modContext i j (fun c => { c with state := st, scan := .noScan })
    { s with table.scanList := s.table.scanList.erase i }
  unfold leaveOpen
  split <;> exact h

@[simp] theorem source_leaveOpen (i : Fin 16) (st : ContextState) (s : State) (j : Fin 24) :
    source (leaveOpen i st s) j = source s j := by
  unfold leaveOpen; split <;> rfl

@[simp] theorem latched_leaveOpen (i : Fin 16) (st : ContextState) (s : State) : (leaveOpen i st s).latched = s.latched := by
  unfold leaveOpen; split <;> rfl

@[simp] theorem scanList_leaveOpen (i : Fin 16) (st : ContextState) (s : State) :
    (leaveOpen i st s).table.scanList = s.table.scanList.erase i := by
  unfold leaveOpen; split <;> rfl

theorem scanned_leaveOpen (i : Fin 16) (st : ContextState) (s : State) :
    (leaveOpen i st s).table.scanned = if s.table.scanned = some i then none else s.table.scanned := by
  unfold leaveOpen
  split
  · simp
  · rfl

theorem settles_leaveOpen {i : Fin 16} {st : ContextState} {s : State} (ho : (context s i).state = .opened)
    (hst : st = .complete ∨ st = .expired) : Settles s (leaveOpen i st s) := by
  refine ⟨?_, ?_, ?_, ?_, ?_, ?_, ?_, ?_, by simpa using List.erase_sublist, ?_⟩
  · unfold leaveOpen; split <;> rfl
  · unfold leaveOpen; split <;> rfl
  · intro j; rw [context_leaveOpen]
    split
    · next h => subst h; rfl
    · rfl
  · intro j hj
    have h : j ≠ i := by rintro rfl; exact hj ho
    rw [context_leaveOpen, if_neg h]; exact ⟨rfl, rfl, rfl⟩
  · intro j hj; rw [context_leaveOpen]
    split
    · right; exact hst
    · left; exact hj
  · intro j hj; rw [context_leaveOpen] at hj ⊢
    split at hj
    · rcases hst with rfl | rfl <;> cases hj
    · next h => rw [if_neg h]; exact ⟨hj, rfl, rfl⟩
  · intro j; simp
  · intro k hk; simpa using hk
  · intro j _ hs hj
    have h : j ≠ i := by rintro rfl; exact hj ho
    rw [context_leaveOpen, if_neg h, scanned_leaveOpen]
    exact ⟨rfl, by split <;> simp_all⟩

/-- The monitor's own counters moved, and nothing else. -/
theorem settles_monitor (s : State) (m : Monitor) : Settles s { s with monitor := m } :=
  ⟨rfl, rfl, fun _ => rfl, fun _ _ => ⟨rfl, rfl, rfl⟩, fun _ h => .inl h, fun _ h => ⟨h, rfl, rfl⟩, fun _ => rfl, fun _ h => h,
    List.Sublist.refl _, fun _ _ h _ => ⟨rfl, h⟩⟩

theorem settles_raise (c : Latched) (s : State) : Settles s (raise c s) :=
  ⟨rfl, rfl, fun _ => rfl, fun _ _ => ⟨rfl, rfl, rfl⟩, fun _ h => .inl h, fun _ h => ⟨h, rfl, rfl⟩, fun _ => rfl,
    fun k h => by simp only [raise, BitVec.getLsbD_or, h, Bool.true_or], List.Sublist.refl _, fun _ _ h _ => ⟨rfl, h⟩⟩

theorem settles_completeIfDone (s : State) (i : Fin 16) : Settles s (completeIfDone s i) := by
  unfold completeIfDone
  split
  · next h =>
    simp only [Bool.and_eq_true, isOpened, decide_eq_true_eq] at h
    exact settles_trans (settles_leaveOpen h.1 (.inl rfl)) (settles_monitor _ _)
  · exact settles_refl s

theorem settles_completionPass (s : State) : Settles s (completionPass s) := settles_foldl settles_completeIfDone _ _

theorem settles_makeLagging (s : State) (j : Fin 24) : Settles s (makeLagging s j) := by
  refine ⟨rfl, rfl, fun _ => rfl, fun _ _ => ⟨rfl, rfl, rfl⟩, fun _ h => .inl h, fun _ h => ⟨h, rfl, rfl⟩, ?_, fun _ h => h,
    List.Sublist.refl _, fun _ _ h _ => ⟨rfl, h⟩⟩
  intro k
  by_cases h : k = j
  · subst h; simp [makeLagging]
  · simp [makeLagging, h]

theorem settles_expire {s : State} {i : Fin 16} (ho : (context s i).state = .opened) : Settles s (expire i s) := by
  unfold expire
  set m := missingSources s i
  set f : Context → Context := fun c => { c with
    missing := sourceSet m, flags := c.flags ||| flagsIf (!m.isEmpty) eventIncomplete } with hf
  have h0 : Settles s (leaveOpen i .expired (modContext i f s)) := by
    have hc : ∀ j, context (leaveOpen i .expired (modContext i f s)) j
        = if j = i then { f (context s i) with state := .expired, scan := .noScan } else context s j := by
      intro j; rw [context_leaveOpen, context_modContext, context_modContext]
      split
      · simp
      · rfl
    refine ⟨?_, ?_, ?_, ?_, ?_, ?_, ?_, ?_, by simpa using List.erase_sublist, ?_⟩
    · unfold leaveOpen; split <;> rfl
    · unfold leaveOpen; split <;> rfl
    · intro j; rw [hc]
      split
      · next h => subst h; rfl
      · rfl
    · intro j hj
      have h : j ≠ i := by rintro rfl; exact hj ho
      rw [hc, if_neg h]; exact ⟨rfl, rfl, rfl⟩
    · intro j hj; rw [hc]
      split
      · right; right; rfl
      · left; exact hj
    · intro j hj; rw [hc] at hj ⊢
      split at hj
      · cases hj
      · next h => rw [if_neg h]; exact ⟨hj, rfl, rfl⟩
    · intro j; simp
    · intro k hk; simpa using hk
    · intro j _ hs hj
      have h : j ≠ i := by rintro rfl; exact hj ho
      rw [hc, if_neg h, scanned_leaveOpen]
      refine ⟨rfl, ?_⟩
      split
      · simp
      · exact hs
  exact settles_trans h0 (settles_trans (settles_foldl settles_makeLagging m _)
    (settles_trans (settles_monitor _ _) (settles_trans (settles_raise _ _) (settles_raise _ _))))

/-- The oldest overdue context is OPEN and at its deadline (R106). -/
theorem oldestOverdue_some {s : State} {i : Fin 16} (h : oldestOverdue s = some i) :
    i ∈ s.table.order ∧ (context s i).state = .opened ∧ deadlineReached s i = true := by
  unfold oldestOverdue at h
  have h1 := List.find?_some h
  simp only [Bool.and_eq_true, isOpened, decide_eq_true_eq] at h1
  exact ⟨List.mem_of_find?_eq_some h, h1.1, h1.2⟩

theorem settles_expiries (n : Nat) (s : State) : Settles s (expiries n s) := by
  induction n generalizing s with
  | zero => exact settles_refl s
  | succ n ih =>
    unfold expiries
    split
    · next i h =>
      exact settles_trans (settles_expire (oldestOverdue_some h).2.1) (settles_trans (settles_completionPass _) (ih _))
    · exact settles_refl s

theorem settles_returnTest (s : State) (j : Fin 24) : Settles s (returnTest s j) := by
  unfold returnTest
  split
  · refine ⟨rfl, rfl, fun _ => rfl, fun _ _ => ⟨rfl, rfl, rfl⟩, fun _ h => .inl h, fun _ h => ⟨h, rfl, rfl⟩, ?_,
      fun _ h => h, List.Sublist.refl _, fun _ _ h _ => ⟨rfl, h⟩⟩
    intro k
    by_cases h : k = j
    · subst h; simp
    · simp [h]
  · exact settles_refl s

theorem settles_returnTests (a : Option (Fin 16)) (s : State) : Settles s (returnTests a s) := by
  unfold returnTests
  split
  · exact settles_foldl settles_returnTest _ _
  · exact settles_refl s

/-- What a settling can change. -/
theorem settles_settleFrom (a : Option (Fin 16)) (s : State) : Settles s (settleFrom a s) :=
  settles_trans (settles_completionPass s) (settles_trans (settles_expiries 16 _)
    (settles_trans (settles_returnTests a _) (scans_settles (scans_settleScanner _))))

/-- What a settling whose cause left the OPEN contexts as they were can change. -/
theorem settles_settle (s : State) : Settles s (settle s) := settles_settleFrom _ s

/-! ## Step 1 of a settling, and an expiry, in full (R105 to R108) -/

/-- A settling leaves the settings, local time, the pool and the opening order as they were. -/
theorem settles_settings {s t : State} (h : Settles s t) :
    t.settings = s.settings ∧ t.time = s.time ∧ t.pool = s.pool ∧ t.table.order = s.table.order := by
  have h1 := h.rest
  exact ⟨by rw [h1], by rw [h1], by rw [h1], by rw [h.table]⟩

/-- Whether a close or a deadline is reached does not change in a settling. -/
theorem settles_reached {s t : State} (h : Settles s t) (i : Fin 16) :
    closeReached t i = closeReached s i ∧ deadlineReached t i = deadlineReached s i := by
  have := settles_settings h
  simp only [closeReached, deadlineReached, now, this.1, this.2.1]
  rw [h.record i]; simp

/-- Which contexts a source has passed does not change in a settling. -/
theorem settles_passed {s t : State} (h : Settles s t) (j : Fin 24) (i : Fin 16) : passed t j i = passed s j i := by
  have := settles_settings h
  unfold passed
  rw [h.source j, h.record i, this.1]

/-- The completion test depends on the standings alone in a settling. -/
theorem settles_completes {s t : State} (h : Settles s t)
    (hs : ∀ j, (source t j).standing = (source s j).standing) (i : Fin 16) : completes t i = completes s i := by
  simp only [completes, isActive, (settles_reached h i).1, settles_passed h, hs]

/-- The completion test (R105). -/
theorem completes_iff (s : State) (i : Fin 16) : completes s i = true ↔
    closeReached s i = true ∧ ∀ j, (source s j).standing = .active → passed s j i = true := by
  have hm : ∀ x : Fin 24, x ∈ allSources := by decide
  simp only [completes, Bool.and_eq_true, List.all_eq_true, Bool.or_eq_true, Bool.not_eq_true', isActive,
    decide_eq_false_iff_not]
  constructor
  · rintro ⟨h, h2⟩
    refine ⟨h, fun x hx => ?_⟩
    rcases h2 x (hm x) with h | h
    · exact absurd hx h
    · exact h
  · rintro ⟨h, h2⟩
    refine ⟨h, fun x _ => ?_⟩
    by_cases hx : (source s x).standing = .active
    · right; exact h2 x hx
    · left; exact hx

@[simp] theorem source_completeIfDone (s : State) (i : Fin 16) (j : Fin 24) :
    source (completeIfDone s i) j = source s j := by
  unfold completeIfDone
  split
  · exact source_leaveOpen _ _ _ _
  · rfl

/-- Completions leave every source as it was. -/
theorem source_foldl_completeIfDone (l : List (Fin 16)) (s : State) (j : Fin 24) :
    source (l.foldl completeIfDone s) j = source s j := by
  induction l generalizing s with
  | nil => rfl
  | cons a l ih => rw [List.foldl_cons, ih, source_completeIfDone]

theorem context_completeIfDone (s : State) (i j : Fin 16) : context (completeIfDone s i) j =
    if j = i ∧ isOpened s i = true ∧ completes s i = true then { context s i with state := .complete, scan := .noScan }
    else context s j := by
  unfold completeIfDone
  by_cases h : isOpened s i && completes s i
  · rw [if_pos h]
    simp only [Bool.and_eq_true] at h
    show context (leaveOpen i .complete s) j = _
    rw [context_leaveOpen]; simp [h]
  · rw [if_neg h]; simp only [Bool.and_eq_true] at h; simp [h]

/-- Step 1 of a settling over the slots of a list: the OPEN ones that pass the test are COMPLETE, every other context is as it was. -/
theorem context_foldl_completeIfDone (l : List (Fin 16)) (s : State) (j : Fin 16) :
    context (l.foldl completeIfDone s) j =
      if j ∈ l ∧ isOpened s j = true ∧ completes s j = true then { context s j with state := .complete, scan := .noScan }
      else context s j := by
  induction l generalizing s with
  | nil => simp
  | cons a l ih =>
    rw [List.foldl_cons, ih]
    have hc : ∀ i, completes (completeIfDone s a) i = completes s i :=
      settles_completes (settles_completeIfDone s a) (fun j => by rw [source_completeIfDone])
    have ho : isOpened (completeIfDone s a) j = (isOpened s j && !(decide (j = a) && completes s a)) := by
      simp only [isOpened, context_completeIfDone]
      by_cases h1 : j = a
      · subst h1
        by_cases h2 : (context s j).state = .opened <;> by_cases h3 : completes s j = true <;> simp [h2, h3]
      · simp [h1]
    rw [hc, ho, context_completeIfDone]
    by_cases h1 : j = a
    · subst h1
      by_cases h2 : isOpened s j = true <;> by_cases h3 : completes s j = true <;> simp [h2, h3]
    · simp [h1]

/-- A context that step 1 completes has left the scan request list and the scanner. -/
theorem scanList_foldl_completeIfDone (l : List (Fin 16)) (s : State) (hn : s.table.scanList.Nodup) (j : Fin 16)
    (hj : j ∈ l) (ho : isOpened s j = true) (hc : completes s j = true) :
    j ∉ (l.foldl completeIfDone s).table.scanList ∧ (l.foldl completeIfDone s).table.scanned ≠ some j := by
  induction l generalizing s with
  | nil => simp at hj
  | cons a l ih =>
    rw [List.foldl_cons]
    by_cases h1 : j = a
    · subst h1
      have e : completeIfDone s j =
          { leaveOpen j .complete s with monitor.eventsCompleted := bump s.monitor.eventsCompleted } := by
        unfold completeIfDone; simp [ho, hc]
      have a1 : j ∉ (completeIfDone s j).table.scanList := by
        rw [e]
        show j ∉ (leaveOpen j .complete s).table.scanList
        rw [scanList_leaveOpen]; exact hn.not_mem_erase
      have a2 : (completeIfDone s j).table.scanned ≠ some j := by
        rw [e]
        show (leaveOpen j .complete s).table.scanned ≠ some j
        rw [scanned_leaveOpen]; split <;> simp_all
      have a3 : (context (completeIfDone s j) j).state ≠ .opened := by rw [context_completeIfDone]; simp [ho, hc]
      have st := settles_foldl settles_completeIfDone l (completeIfDone s j)
      exact ⟨fun m => a1 (st.scanList.subset m), (st.quiet j a1 a2 a3).2⟩
    · apply ih
      · exact (settles_completeIfDone s a).scanList.nodup hn
      · simpa [h1] using hj
      · simp only [isOpened, context_completeIfDone, h1, false_and, if_false]; simpa [isOpened] using ho
      · rw [settles_completes (settles_completeIfDone s a) (fun j => by rw [source_completeIfDone])]; exact hc

/-- What follows step 1 in a settling is again of the same kind. -/
theorem settles_afterPass (a : Option (Fin 16)) (s : State) : Settles (completionPass s) (settleFrom a s) :=
  settles_trans (settles_expiries 16 _)
    (settles_trans (settles_returnTests a _) (scans_settles (scans_settleScanner _)))

/-- The sources a context misses are the ACTIVE ones that have not passed it (R108). -/
theorem mem_missingSources (s : State) (i : Fin 16) (j : Fin 24) :
    j ∈ missingSources s i ↔ (source s j).standing = .active ∧ passed s j i = false := by
  have hm : ∀ x : Fin 24, x ∈ allSources := by decide
  simp [missingSources, hm, isActive]

theorem nodup_missingSources (s : State) (i : Fin 16) : (missingSources s i).Nodup :=
  List.Nodup.filter _ (by decide)

/-- Sources made LAGGING: each of a list without repeats once, every other one as it was. -/
theorem source_foldl_makeLagging (l : List (Fin 24)) (hl : l.Nodup) (s : State) (j : Fin 24) :
    source (l.foldl makeLagging s) j = if j ∈ l then { source s j with
        standing := .lagging
        counters := { (source s j).counters with wentLagging := bump (source s j).counters.wentLagging } }
      else source s j := by
  induction l generalizing s with
  | nil => simp
  | cons a l ih =>
    simp only [List.nodup_cons] at hl
    rw [List.foldl_cons, ih hl.2, makeLagging, source_modSource]
    by_cases h1 : j = a
    · subst h1; simp [hl.1]
    · simp [h1]

/-- The sources after an expiry (R108). -/
theorem source_expire (s : State) (i : Fin 16) (j : Fin 24) :
    source (expire i s) j = if (source s j).standing = .active ∧ passed s j i = false then { source s j with
        standing := .lagging
        counters := { (source s j).counters with wentLagging := bump (source s j).counters.wentLagging } }
      else source s j := by
  unfold expire
  show source ((missingSources s i).foldl makeLagging (leaveOpen i .expired (modContext i _ s))) j = _
  rw [source_foldl_makeLagging _ (nodup_missingSources s i), source_leaveOpen]
  simp only [mem_missingSources]
  rfl

theorem table_foldl_makeLagging (l : List (Fin 24)) (s : State) : (l.foldl makeLagging s).table = s.table := by
  induction l generalizing s with
  | nil => rfl
  | cons a l ih => rw [List.foldl_cons, ih]; rfl

/-- The context after its expiry (R108). -/
theorem context_expire (s : State) (i : Fin 16) : context (expire i s) i = { context s i with
    state := .expired
    missing := sourceSet (missingSources s i)
    flags := (context s i).flags ||| (if missingSources s i = [] then 0 else eventIncomplete)
    scan := .noScan } := by
  unfold expire
  show context ((missingSources s i).foldl makeLagging (leaveOpen i .expired (modContext i _ s))) i = _
  rw [context_congr (congrArg Table.slots (table_foldl_makeLagging _ _)), context_leaveOpen, if_pos rfl,
    context_modContext_same]
  cases h : missingSources s i <;> simp [flagsIf]

/-- The return tests of a settling over the sources of a list (R104): each LAGGING source that has passed the oldest OPEN context becomes
ACTIVE, every other one is as it was. -/
theorem source_foldl_returnTest (l : List (Fin 24)) (s : State) (j : Fin 24) :
    source (l.foldl returnTest s) j =
      if j ∈ l ∧ (source s j).standing = .lagging ∧ passedOldest s j = true then { source s j with standing := .active }
      else source s j := by
  have ho : ∀ (s : State) (a k : Fin 24), passedOldest (returnTest s a) k = passedOldest s k := by
    intro s a k
    have e : oldestOpen (returnTest s a) = oldestOpen s := by unfold returnTest; split <;> rfl
    unfold passedOldest
    rw [e]
    cases oldestOpen s with
    | none => rfl
    | some i => exact settles_passed (settles_returnTest s a) k i
  induction l generalizing s with
  | nil => simp
  | cons a l ih =>
    have h1 : source (returnTest s a) j = if j = a ∧ (source s j).standing = .lagging ∧ passedOldest s j = true then
        { source s j with standing := .active } else source s j := by
      unfold returnTest
      by_cases h : j = a
      · subst h; split <;> simp_all
      · split <;> simp [h]
    rw [List.foldl_cons, ih, ho, h1]
    by_cases h : j = a
    · subst h
      by_cases h2 : (source s j).standing = .lagging <;> by_cases h3 : passedOldest s j = true <;> simp [h2, h3]
    · simp [h]

end Sys2Proof.Machine
end

