-- ==== Sys2Proof/Laws/Completion.lean ====
section
/-! SUPPORT. What a settling counts (R93, R95, R107, R108, R113), what becomes of one context and of one source in it (R104 to R108), what
it does where nothing is due, and what a claim-scan request does (R86). -/

namespace Sys2Proof.Machine

open Sys2Proof.Safety

/-! ## The predicates in the statements' words -/

theorem isOpened_iff (s : State) (i : Fin 16) : isOpened s i = true ↔ (context s i).state = .opened := by simp [isOpened]

theorem passed_iff (s : State) (j : Fin 24) (i : Fin 16) : passed s j i = true ↔ HasPassed s j (context s i).winClose := by
  unfold passed
  cases h : (source s j).watermark <;> simp [HasPassed, h]

theorem completes_iff_allHavePassed (s : State) (i : Fin 16) :
    completes s i = true ↔ closeReached s i = true ∧ AllHavePassed s (context s i).winClose := by
  rw [completes_iff]; simp only [passed_iff]

/-- A list of sources as a set holds exactly its members. -/
theorem getLsbD_sourceSet (l : List (Fin 24)) (src : Fin 24) : (sourceSet l).getLsbD src.val = true ↔ src ∈ l := by
  have key : ∀ (l : List (Fin 24)) (b : BitVec 24),
      (l.foldl (fun b src => b ||| BitVec.twoPow 24 src.val) b).getLsbD src.val = (b.getLsbD src.val || l.contains src) := by
    intro l
    induction l with
    | nil => intro b; simp
    | cons a l ih =>
      intro b
      rw [List.foldl_cons, ih]
      simp only [BitVec.getLsbD_or, BitVec.getLsbD_twoPow, List.contains_cons]
      by_cases h : src = a
      · subst h; simp
      · have : a.val ≠ src.val := fun e => h (Fin.ext e.symm)
        simp [h, this, beq_eq_decide]
  unfold sourceSet
  rw [key]; simp

/-! ## Counts -/

/-- What completions and expiries from `s` to `t` do to the counters and to the scanned slot. -/
structure Counts (s t : State) : Prop where
  settles : Settles s t
  monitor : t.monitor =
    ⟨bump^[became s t .complete] s.monitor.eventsCompleted, bump^[became s t .expired] s.monitor.incompleteEvents⟩
  scanned : t.table.scanned =
    match s.table.scanned with
    | some i => if (context s i).state = .opened ∧ (context t i).state ≠ .opened then none else some i
    | none => none
  stopped : t.table.claimPassesStopped =
    match s.table.scanned with
    | some i =>
      if (context s i).state = .opened ∧ (context t i).state ≠ .opened then bump s.table.claimPassesStopped
      else s.table.claimPassesStopped
    | none => s.table.claimPassesStopped

/-- A context leaves OPEN once, so what became of the OPEN ones adds up. -/
theorem became_add {s t u : State} (h : Settles s t) (k : Settles t u) (st : ContextState) (hst : st ≠ .opened) :
    became s u st = became s t st + became t u st := by
  have split : ∀ (l : List (Fin 16)) (P Q R : Fin 16 → Bool), (∀ i, P i = (Q i || R i)) → (∀ i, Q i = true → R i = false) →
      l.countP P = l.countP Q + l.countP R := by
    intro l P Q R h h2
    induction l with
    | nil => rfl
    | cons a l ih =>
      simp only [List.countP_cons, ih]
      have := h a
      have := h2 a
      cases hq : Q a <;> cases hr : R a <;> simp_all <;> omega
  unfold became
  rw [(settles_settings h).2.2.2]
  refine split _ _ _ _ (fun i => ?_) (fun i hq => ?_)
  · rw [← Bool.decide_or, decide_eq_decide]
    constructor
    · rintro ⟨a, b⟩
      by_cases ho : (context t i).state = .opened
      · exact .inr ⟨ho, b⟩
      · exact .inl ⟨a, by rw [← (k.closed i ho).1]; exact b⟩
    · rintro (⟨a, b⟩ | ⟨a, b⟩)
      · exact ⟨a, by rw [(k.closed i (by rw [b]; exact hst)).1]; exact b⟩
      · exact ⟨(h.stays i a).1, b⟩
  · simp only [decide_eq_true_eq, decide_eq_false_iff_not, not_and] at hq ⊢
    intro a
    rw [hq.2] at a; exact absurd a hst

theorem counts_trans {s t u : State} (h : Counts s t) (k : Counts t u) : Counts s u := by
  have left : ∀ i, (context s i).state = .opened ∧ (context t i).state ≠ .opened → (context u i).state ≠ .opened :=
    fun i h1 => by rw [(k.settles.closed i h1.2).1]; exact h1.2
  have rest : ∀ i, ¬((context s i).state = .opened ∧ (context t i).state ≠ .opened) →
      (((context t i).state = .opened ∧ (context u i).state ≠ .opened)
        ↔ ((context s i).state = .opened ∧ (context u i).state ≠ .opened)) :=
    fun i h1 => ⟨fun a => ⟨(h.settles.stays i a.1).1, a.2⟩, fun a => ⟨by by_contra hh; exact h1 ⟨a.1, hh⟩, a.2⟩⟩
  refine ⟨settles_trans h.settles k.settles, ?_, ?_, ?_⟩
  · rw [k.monitor, h.monitor, became_add h.settles k.settles .complete (by decide),
      became_add h.settles k.settles .expired (by decide)]
    simp only [Monitor.mk.injEq]
    constructor <;> rw [Nat.add_comm, Function.iterate_add_apply]
  · rw [k.scanned, h.scanned]
    cases s.table.scanned with
    | none => rfl
    | some i =>
      by_cases h1 : (context s i).state = .opened ∧ (context t i).state ≠ .opened
      · simp [h1, left i h1]
      · simp only [h1, if_false, rest i h1]
  · rw [k.stopped, h.stopped, h.scanned]
    cases s.table.scanned with
    | none => rfl
    | some i =>
      by_cases h1 : (context s i).state = .opened ∧ (context t i).state ≠ .opened
      · simp [h1, left i h1]
      · simp only [h1, if_false, rest i h1]

/-- Where no context leaves OPEN, nothing is counted. -/
theorem counts_same {s t : State} (h : Settles s t) (hc : ∀ i, (context t i).state = (context s i).state)
    (hm : t.monitor = s.monitor) (hs : t.table.scanned = s.table.scanned)
    (hp : t.table.claimPassesStopped = s.table.claimPassesStopped) : Counts s t := by
  have hb : ∀ st, st ≠ .opened → became s t st = 0 := by
    intro st hst
    unfold became
    rw [List.countP_eq_zero]
    intro i _ hh
    simp only [decide_eq_true_eq, hc] at hh
    rw [hh.1] at hh; exact hst hh.2.symm
  refine ⟨h, ?_, ?_, ?_⟩
  · rw [hb _ (by decide), hb _ (by decide), hm]; rfl
  · rw [hs]; cases s.table.scanned <;> simp [hc]
  · rw [hp]; cases s.table.scanned <;> simp [hc]

theorem counts_refl (s : State) : Counts s s := counts_same (settles_refl s) (fun _ => rfl) rfl rfl rfl

/-- One context leaves OPEN, counted under its new state; a pass in progress for it stops, counted. -/
theorem counts_leave {s t : State} (h : Settles s t) {i : Fin 16} (hi : i ∈ s.table.order) (hn : s.table.order.Nodup)
    (ho : (context s i).state = .opened) {st : ContextState} (hst : st = .complete ∨ st = .expired)
    (hc : (context t i).state = st) (hj : ∀ j, j ≠ i → (context t j).state = (context s j).state)
    (hm : t.monitor = if st = .complete then ⟨bump s.monitor.eventsCompleted, s.monitor.incompleteEvents⟩
      else ⟨s.monitor.eventsCompleted, bump s.monitor.incompleteEvents⟩)
    (hs : t.table.scanned = if s.table.scanned = some i then none else s.table.scanned)
    (hp : t.table.claimPassesStopped =
      if s.table.scanned = some i then bump s.table.claimPassesStopped else s.table.claimPassesStopped) : Counts s t := by
  have hst' : st ≠ .opened := by rcases hst with rfl | rfl <;> decide
  have hb : ∀ st', st' ≠ .opened → became s t st' = if st' = st then 1 else 0 := by
    intro st' h'
    unfold became
    split
    · next e =>
      subst e
      have e2 : (fun j => decide ((context s j).state = .opened ∧ (context t j).state = st')) = fun j => decide (j = i) := by
        funext j
        rw [decide_eq_decide]
        constructor
        · rintro ⟨a, b⟩; by_contra hh; rw [hj j hh, a] at b; exact h' b.symm
        · rintro rfl; exact ⟨ho, hc⟩
      rw [e2]
      simpa [List.count, beq_eq_decide] using List.count_eq_one_of_mem hn hi
    · next e =>
      rw [List.countP_eq_zero]
      intro j _ hh
      simp only [decide_eq_true_eq] at hh
      by_cases hji : j = i
      · subst hji; rw [hc] at hh; exact e hh.2.symm
      · rw [hj j hji, hh.1] at hh; exact h' hh.2.symm
  have key : ∀ k : Fin 16, ((context s k).state = .opened ∧ (context t k).state ≠ .opened) ↔ k = i := by
    intro k
    constructor
    · rintro ⟨x, y⟩; by_contra hh; rw [hj k hh] at y; exact y x
    · rintro rfl; exact ⟨ho, by rw [hc]; exact hst'⟩
  refine ⟨h, ?_, ?_, ?_⟩
  · rw [hb _ (by decide), hb _ (by decide), hm]
    rcases hst with rfl | rfl <;> simp
  · rw [hs]
    cases s.table.scanned with
    | none => simp
    | some k => simp only [key, Option.some.injEq]
  · rw [hp]
    cases s.table.scanned with
    | none => simp
    | some k => simp only [key, Option.some.injEq]

theorem claimPassesStopped_leaveOpen (i : Fin 16) (st : ContextState) (s : State) :
    (leaveOpen i st s).table.claimPassesStopped =
      if s.table.scanned = some i then bump s.table.claimPassesStopped else s.table.claimPassesStopped := by
  unfold leaveOpen; split <;> rfl

@[simp] theorem monitor_leaveOpen (i : Fin 16) (st : ContextState) (s : State) : (leaveOpen i st s).monitor = s.monitor := by
  unfold leaveOpen; split <;> rfl

theorem counts_completeIfDone {s : State} {i : Fin 16} (hi : i ∈ s.table.order) (hn : s.table.order.Nodup) :
    Counts s (completeIfDone s i) := by
  by_cases h : isOpened s i && completes s i
  · have e : completeIfDone s i =
        { leaveOpen i .complete s with monitor.eventsCompleted := bump s.monitor.eventsCompleted } := by
      unfold completeIfDone; rw [if_pos h]
    simp only [Bool.and_eq_true] at h
    refine counts_leave (settles_completeIfDone s i) hi hn ((isOpened_iff s i).1 h.1) (.inl rfl) ?_ ?_ ?_ ?_ ?_
    · rw [context_completeIfDone, if_pos ⟨rfl, h.1, h.2⟩]
    · intro j hj; rw [context_completeIfDone, if_neg (by tauto)]
    · rw [e]; simp
    · rw [e]; exact scanned_leaveOpen _ _ _
    · rw [e]; exact claimPassesStopped_leaveOpen _ _ _
  · have e : completeIfDone s i = s := by unfold completeIfDone; rw [if_neg h]
    rw [e]; exact counts_refl s

theorem counts_foldl_completeIfDone (l : List (Fin 16)) (s : State) (hl : ∀ i ∈ l, i ∈ s.table.order)
    (hn : s.table.order.Nodup) : Counts s (l.foldl completeIfDone s) := by
  induction l generalizing s with
  | nil => exact counts_refl s
  | cons a l ih =>
    have c := counts_completeIfDone (hl a (by simp)) hn
    have e := (settles_settings c.settles).2.2.2
    exact counts_trans c (ih _ (fun i hi => by rw [e]; exact hl i (by simp [hi])) (by rw [e]; exact hn))

/-- Step 1 of a settling counts its completions. -/
theorem counts_completionPass (s : State) (hn : s.table.order.Nodup) : Counts s (completionPass s) :=
  counts_foldl_completeIfDone _ s (fun _ h => h) hn

theorem monitor_foldl_makeLagging (l : List (Fin 24)) (s : State) : (l.foldl makeLagging s).monitor = s.monitor := by
  induction l generalizing s with
  | nil => rfl
  | cons a l ih => rw [List.foldl_cons, ih]; rfl

/-- The table after an expiry is that of the context leaving OPEN. -/
theorem table_expire (i : Fin 16) (s : State) : (expire i s).table = (leaveOpen i .expired (modContext i
    (fun c => { c with
      missing := sourceSet (missingSources s i)
      flags := c.flags ||| flagsIf (!(missingSources s i).isEmpty) eventIncomplete }) s)).table :=
  table_foldl_makeLagging _ _

/-- An expiry leaves every other context as it was. -/
theorem context_expire_ne (s : State) {i j : Fin 16} (h : j ≠ i) : context (expire i s) j = context s j := by
  rw [context_congr (congrArg Table.slots (table_expire i s)) j, context_leaveOpen, if_neg h, context_modContext, if_neg h]

theorem counts_expire {s : State} {i : Fin 16} (hi : i ∈ s.table.order) (hn : s.table.order.Nodup)
    (ho : (context s i).state = .opened) : Counts s (expire i s) := by
  refine counts_leave (settles_expire ho) hi hn ho (.inr rfl) ?_ (fun j hj => by rw [context_expire_ne s hj]) ?_ ?_ ?_
  · rw [context_expire]
  · rw [if_neg (by decide)]
    unfold expire
    show (⟨_, _⟩ : Monitor) = _
    simp only [monitor_foldl_makeLagging, monitor_leaveOpen]; rfl
  · rw [table_expire, scanned_leaveOpen]; rfl
  · rw [table_expire, claimPassesStopped_leaveOpen]; rfl

/-- Step 2 of a settling counts its expiries and the completions between them. -/
theorem counts_expiries (n : Nat) (s : State) (hn : s.table.order.Nodup) : Counts s (expiries n s) := by
  induction n generalizing s with
  | zero => exact counts_refl s
  | succ n ih =>
    unfold expiries
    split
    · next i h =>
      obtain ⟨h1, h2, _⟩ := oldestOverdue_some h
      have c1 := counts_expire h1 hn h2
      have o1 := (settles_settings c1.settles).2.2.2
      have c2 := counts_completionPass (expire i s) (by rw [o1]; exact hn)
      have o2 := (settles_settings c2.settles).2.2.2
      exact counts_trans c1 (counts_trans c2 (ih _ (by rw [o2, o1]; exact hn)))
    · exact counts_refl s

/-! ## Steps 2 and 3 of a settling, and one context or source in them -/

/-- The return tests change the sources alone. -/
theorem returnTests_sources (a : Option (Fin 16)) (s : State) :
    returnTests a s = { s with sources := (returnTests a s).sources } := by
  have one : ∀ (s : State) (j : Fin 24), returnTest s j = { s with sources := (returnTest s j).sources } := by
    intro s j; unfold returnTest; split <;> rfl
  have all : ∀ (l : List (Fin 24)) (s : State), l.foldl returnTest s = { s with sources := (l.foldl returnTest s).sources } := by
    intro l
    induction l with
    | nil => intro s; rfl
    | cons a l ih => intro s; rw [List.foldl_cons, ih, one s a]
  unfold returnTests
  split
  · exact all _ s
  · rfl

@[simp] theorem context_returnTests (a : Option (Fin 16)) (s : State) (i : Fin 16) :
    context (returnTests a s) i = context s i := by
  rw [returnTests_sources]; rfl

/-- With no OPEN context at its deadline, step 2 does nothing. -/
theorem expiries_noneOverdue {s : State} (h : NoneOverdue s) (n : Nat) : expiries n s = s := by
  have e : oldestOverdue s = none := by
    unfold oldestOverdue
    rw [List.find?_eq_none]
    intro i hi hh
    simp only [Bool.and_eq_true, isOpened_iff] at hh
    have h1 : deadlineReached s i = false := h i hi hh.1
    rw [h1] at hh; cases hh.2
  cases n <;> simp [expiries, e]

/-- No deadline comes to be reached in a settling. -/
theorem noneOverdue_settles {s t : State} (h : Settles s t) (hn : NoneOverdue s) : NoneOverdue t := by
  intro j hj ho
  rw [(settles_settings h).2.2.2] at hj
  exact ((settles_reached h j).2).trans (hn j hj (h.stays j ho).1)

/-- A context that fails the completion test is left by step 1 as it was. -/
theorem context_completionPass_fails {s : State} {i : Fin 16} (h : completes s i = false) :
    context (completionPass s) i = context s i := by
  unfold completionPass; rw [context_foldl_completeIfDone, if_neg (by simp [h])]

/-- A context that passes the completion test at the start of a settling ends it COMPLETE, with no scan and off the list. -/
theorem context_settleFrom_completes {s : State} (a : Option (Fin 16)) {i : Fin 16} (hn : s.table.scanList.Nodup)
    (hi : i ∈ s.table.order) (ho : (context s i).state = .opened) (hc : completes s i = true) :
    context (settleFrom a s) i = { context s i with state := .complete, scan := .noScan }
      ∧ i ∉ (settleFrom a s).table.scanList ∧ (settleFrom a s).table.scanned ≠ some i := by
  have hop := (isOpened_iff s i).2 ho
  have h1 : context (completionPass s) i = { context s i with state := .complete, scan := .noScan } := by
    unfold completionPass; rw [context_foldl_completeIfDone, if_pos ⟨hi, hop, hc⟩]
  obtain ⟨l1, l2⟩ := scanList_foldl_completeIfDone s.table.order s hn i hi hop hc
  have t := settles_afterPass a s
  have hne : (context (completionPass s) i).state ≠ .opened := by rw [h1]; simp
  have h3 := t.closed i hne
  have h4 := t.quiet i l1 l2 hne
  refine ⟨?_, fun m => l1 (t.scanList.subset m), h4.2⟩
  rw [t.record i, h3.1, h3.2.1, h3.2.2, h4.1, h1]

/-- Expiries of others leave a context whose close and deadline are not reached as it was, but for its scan standing. -/
theorem context_expiries_notReached (n : Nat) (s : State) {i : Fin 16} (ho : (context s i).state = .opened)
    (hc : closeReached s i = false) (hd : deadlineReached s i = false) :
    context (expiries n s) i = { context s i with scan := (context (expiries n s) i).scan } := by
  have hst : (context (expiries n s) i).state = .opened := by
    induction n generalizing s with
    | zero => exact ho
    | succ n ih =>
      unfold expiries
      split
      · next j h =>
        obtain ⟨_, h2, h3⟩ := oldestOverdue_some h
        have hij : i ≠ j := by rintro rfl; rw [hd] at h3; cases h3
        have s1 := settles_expire h2
        have s2 := settles_trans s1 (settles_completionPass (expire j s))
        have hf : completes (expire j s) i = false := by simp [completes, (settles_reached s1 i).1, hc]
        refine ih _ ?_ ((settles_reached s2 i).1.trans hc) ((settles_reached s2 i).2.trans hd)
        rw [context_completionPass_fails hf, context_expire_ne s hij]; exact ho
      · exact ho
  have st := settles_expiries n s
  have h2 := st.stays i hst
  rw [st.record i, hst, h2.2.1, h2.2.2]
  simp [ho]

/-- A context stays OPEN through a settling when its deadline is not reached and either its close is not reached, or it fails the
completion test and no context expires. -/
theorem context_settleFrom_stays {s : State} (a : Option (Fin 16)) {i : Fin 16} (ho : (context s i).state = .opened)
    (hd : deadlineReached s i = false) (hc : closeReached s i = false ∨ (completes s i = false ∧ NoneOverdue s)) :
    context (settleFrom a s) i = { context s i with scan := (context (settleFrom a s) i).scan } := by
  have hf : completes s i = false := by
    rcases hc with h | h
    · simp [completes, h]
    · exact h.1
  have t1 := settles_completionPass s
  have e1 := context_completionPass_fails hf
  have e2 : context (expiries 16 (completionPass s)) i =
      { context s i with scan := (context (expiries 16 (completionPass s)) i).scan } := by
    rcases hc with h | h
    · have := context_expiries_notReached 16 (completionPass s) (by rw [e1]; exact ho) ((settles_reached t1 i).1.trans h)
        ((settles_reached t1 i).2.trans hd)
      rw [e1] at this; exact this
    · rw [expiries_noneOverdue (noneOverdue_settles t1 h.2), e1]
  have e3 := (scans_settleScanner (returnTests a (expiries 16 (completionPass s)))).record i
  unfold settleFrom
  rw [e3, context_returnTests, e2]

/-- A source that is not ACTIVE is left by step 2 as it was. -/
theorem source_expiries_notActive (n : Nat) (s : State) {j : Fin 24} (h : (source s j).standing ≠ .active) :
    source (expiries n s) j = source s j := by
  induction n generalizing s with
  | zero => rfl
  | succ n ih =>
    unfold expiries
    split
    · next i _ =>
      have e : source (completionPass (expire i s)) j = source s j := by
        unfold completionPass; rw [source_foldl_completeIfDone, source_expire, if_neg (by tauto)]
      rw [ih _ (by rw [e]; exact h), e]
    · rfl

/-- Step 3 and the scanner's moves after it: a LAGGING source becomes ACTIVE when the oldest OPEN context is another than at the start and
the source has passed it, and otherwise stays LAGGING (R104, R106). -/
theorem source_afterExpiries {s : State} (a : Option (Fin 16)) {src : Fin 24} (h : (source s src).standing = .lagging) :
    let t := settleScanner (returnTests a s)
    let returned := oldestOpen t ≠ a ∧ ∃ j, oldestOpen t = some j ∧ HasPassed s src (context t j).winClose
    (returned → source t src = { source s src with standing := .active }) ∧ (¬returned → source t src = source s src) := by
  intro t returned
  have sc := scans_settleScanner (returnTests a s)
  have e1 : source t src = source (returnTests a s) src := by
    show source (settleScanner _) src = _
    rw [sc.rest]; rfl
  have st : Settles s t := settles_trans (settles_returnTests a s) (scans_settles sc)
  have hold : oldestOpen t = oldestOpen s := by
    have hst : ∀ j, (context t j).state = (context s j).state := fun j => by
      show (context (settleScanner _) j).state = _
      rw [sc.record j, context_returnTests]
    unfold oldestOpen
    rw [(settles_settings st).2.2.2]
    congr 1; funext j; simp [isOpened, hst]
  have hp : passedOldest s src = true ↔ ∃ j, oldestOpen t = some j ∧ HasPassed s src (context t j).winClose := by
    have hcl : ∀ j, (context t j).winClose = (context s j).winClose := fun j => by rw [st.record j]
    unfold passedOldest
    rw [hold]
    cases oldestOpen s with
    | none => simp
    | some j => simp only [passed_iff, Option.some.injEq, exists_eq_left', hcl]
  have hm : ∀ x : Fin 24, x ∈ allSources := by decide
  rw [e1]
  unfold returnTests
  by_cases hcond : oldestOpen s ≠ none ∧ oldestOpen s ≠ a
  · rw [if_pos hcond, source_foldl_returnTest]
    exact ⟨fun hr => by rw [if_pos ⟨hm _, h, hp.2 hr.2⟩],
      fun hr => by rw [if_neg]; rintro ⟨_, _, h3⟩; exact hr ⟨by rw [hold]; exact hcond.2, hp.1 h3⟩⟩
  · rw [if_neg hcond]
    refine ⟨?_, fun _ => rfl⟩
    rintro ⟨x, j, y, _⟩
    rw [hold] at x y
    exact absurd ⟨by rw [y]; simp, x⟩ hcond

/-! ## A settling where nothing is due -/

/-- With no close reached, step 1 does nothing. -/
theorem completionPass_notReached {s : State}
    (h : ∀ j ∈ s.table.order, (context s j).state = .opened → closeReached s j = false) : completionPass s = s := by
  have key : ∀ l : List (Fin 16), (∀ i ∈ l, i ∈ s.table.order) → l.foldl completeIfDone s = s := by
    intro l
    induction l with
    | nil => intro _; rfl
    | cons x l ih =>
      intro hl
      have e : completeIfDone s x = s := by
        unfold completeIfDone
        rw [if_neg]
        intro hh
        simp only [Bool.and_eq_true, isOpened_iff] at hh
        have := ((completes_iff s x).1 hh.2).1
        rw [h x (hl x (by simp)) hh.1] at this; cases this
      rw [List.foldl_cons, e]; exact ih (fun i hi => hl i (by simp [hi]))
  exact key _ (fun _ h => h)

/-- The scanner's moves read no source. -/
theorem scannerMoves_sources (n : Nat) (s : State) (x : Vector Source 24) :
    scannerMoves n { s with sources := x } = { scannerMoves n s with sources := x } := by
  induction n generalizing s with
  | zero => rfl
  | succ n ih =>
    have e : scannerMove { s with sources := x } = (scannerMove s).map fun t => { t with sources := x } := by
      unfold scannerMove
      simp only
      cases s.table.scanned with
      | some i => simp only; split <;> rfl
      | none => cases s.table.scanList <;> rfl
    unfold scannerMoves
    rw [e]
    cases scannerMove s with
    | none => rfl
    | some t => exact ih t

/-- Where no OPEN context has reached its close or deadline, a settling does to the table what the scanner does. -/
theorem table_settleFrom_nothingReached {s : State} (a : Option (Fin 16)) (h : NothingReached s) :
    (settleFrom a s).table = (settleScanner s).table := by
  unfold settleFrom settleScanner
  rw [completionPass_notReached (fun j hj ho => h.2 j hj ho), expiries_noneOverdue h.1, returnTests_sources,
    scannerMoves_sources]

/-! ## The claim-scan request (R86) -/

theorem setContext_context (i : Fin 16) (s : State) : setContext i (context s i) s = s := by simp [setContext, context]

/-- What a claim-scan request does: under depth 0 nothing; otherwise the slot joins the tail of the list when its standing is NONE, which
becomes QUEUED, or when it is SCANNING and not on the list. -/
theorem requestScan_eq (i : Fin 16) (s : State) :
    let joins := 0 < s.settings.retentionDepth
      ∧ ((context s i).scan = .noScan ∨ ((context s i).scan = .scanning ∧ i ∉ s.table.scanList))
    requestScan i s = setContext i
      { context s i with scan := if joins ∧ (context s i).scan = .noScan then .queued else (context s i).scan }
      { s with table.scanList := if joins then s.table.scanList ++ [i] else s.table.scanList } := by
  intro joins
  by_cases hj : joins
  · have hd : ¬s.settings.retentionDepth = 0 := by have := hj.1; omega
    rcases hj.2 with hs | ⟨hs, hm⟩
    · simp only [hj, hs, requestScan, hd, if_true, if_false, and_self]; rfl
    · have e : context (joinScanList i s) i = { context s i with scan := .scanning } := by rw [← hs]; rfl
      simp only [requestScan, hs, List.contains_iff_mem, hd, hm, if_false, hj, if_true, reduceCtorEq, and_false]
      rw [← setContext_context i (joinScanList i s), e]; rfl
  · have e : requestScan i s = s := by
      unfold requestScan
      split
      · rfl
      · next hd =>
        have hd : 0 < s.settings.retentionDepth := Nat.pos_of_ne_zero hd
        split
        · next hs => exact absurd ⟨hd, .inl hs⟩ hj
        · rfl
        · next hs =>
          rw [if_pos]
          rw [List.contains_iff_mem]
          by_contra hm; exact hj ⟨hd, .inr ⟨hs, hm⟩⟩
    simp only [hj, if_false, false_and]
    rw [e]
    exact (setContext_context i s).symm

end Sys2Proof.Machine
end

