-- ==== Sys2Proof/Laws/Monitors.lean ====
section
/-! SUPPORT. What a presentation to the capture monitors can do: the hits it counts, the spy entries it offers in order, the mark it leaves
(R122, R153 to R159). -/

namespace Sys2Proof.Machine

open Sys2Proof.Safety

/-- A monitor acts on what it matches at its point (R151 to R153). -/
theorem monitorActs_eq (s : State) (m : Fin 4) (pt : MonitorPoint) (p : PulseRecord) :
    monitorActs s m pt p = monitorHit s pt m p := by
  unfold monitorActs monitorHit monitorMatches
  have : ((s.settings.monitor.get m).flags == 0 || (p.flags &&& (s.settings.monitor.get m).flags) != 0)
      = decide ((s.settings.monitor.get m).flags = 0 ∨ p.flags &&& (s.settings.monitor.get m).flags ≠ 0) := by
    simp [bne, Bool.decide_or]
    rfl
  simp only [this, Bool.decide_and]
  cases (s.settings.monitor.get m).enable <;> simp
  ac_rfl

/-! ## Offered entries (R158, R159) -/

/-- An offer touches the spy queue, its two counts and the latched set, and reads neither hits nor contexts. -/
theorem offerSpy_rest (e : SpyEntry) (s : State) :
    offerSpy e s = { s with spy := (offerSpy e s).spy, latched := (offerSpy e s).latched }
    ∧ (offerSpy e s).spy.hits = s.spy.hits
    ∧ ∀ h, offerSpy e { s with spy.hits := h } = { offerSpy e s with spy.hits := h } := by
  unfold offerSpy
  refine ⟨?_, ?_, fun h => ?_⟩ <;> (simp only; split <;> rfl)

/-- So do offers one after another. -/
theorem offeredAll_rest (es : List SpyEntry) (s : State) :
    offeredAll es s = { s with spy := (offeredAll es s).spy, latched := (offeredAll es s).latched }
    ∧ (offeredAll es s).spy.hits = s.spy.hits
    ∧ ∀ h, offeredAll es { s with spy.hits := h } = { offeredAll es s with spy.hits := h } := by
  induction es generalizing s with
  | nil => exact ⟨rfl, rfl, fun _ => rfl⟩
  | cons e es ih =>
    obtain ⟨h1, h2, h3⟩ := offerSpy_rest e s
    simp only [offeredAll, List.foldl_cons] at ih ⊢
    obtain ⟨k1, k2, k3⟩ := ih (offerSpy e s)
    exact ⟨by rw [k1, h1], k2.trans h2, fun h => by rw [h3, k3]⟩

/-- An entry offered after others. -/
theorem offeredAll_concat (es : List SpyEntry) (e : SpyEntry) (s : State) :
    offeredAll (es ++ [e]) s = offerSpy e (offeredAll es s) := by simp [offeredAll, List.foldl_append]

/-! ## The arrival point (R154) -/

/-- A pulse shown to one arrival monitor after entries `es` were offered and the hits stand at `h`. -/
theorem presentArrival_offered (s : State) (es : List SpyEntry) (h : Vector Nat 4) (p : PulseRecord) (m : Fin 4) :
    presentArrival (offeredAll es { s with spy.hits := h }, p) m =
      (offeredAll (es ++ if monitorHit s .atArrival m p && hasAction s .copy m then [⟨m, none, p⟩] else [])
        { s with spy.hits := if monitorHit s .atArrival m p then put h m (bump (h.get m)) else h },
       { p with
          flags := if monitorHit s .atArrival m p && hasAction s .mark m then p.flags ||| flagMarked else p.flags }) := by
  obtain ⟨h1, h2, h3⟩ := offeredAll_rest es { s with spy.hits := h }
  have hs : (offeredAll es { s with spy.hits := h }).settings = s.settings := by rw [h1]
  have hm : monitorActs (offeredAll es { s with spy.hits := h }) m .atArrival p = monitorHit s .atArrival m p := by
    rw [monitorActs_eq]; unfold monitorHit; rw [hs]
  have hc : countHit m (offeredAll es { s with spy.hits := h })
      = offeredAll es { s with spy.hits := put h m (bump (h.get m)) } := by
    unfold countHit
    rw [h2]
    exact (h3 (put h m (bump (h.get m)))).symm
  unfold presentArrival hasAction
  simp only [hm, hs]
  cases monitorHit s .atArrival m p
  · simp
  · cases (s.settings.monitor.get m).action <;> simp [hc, offeredAll_concat]

/-! ## The release point (R122, R155) -/

/-- Each hit of a list counted on its monitor (R153). -/
def countedHits (h : Vector Nat 4) (l : List (Fin 4 × PulseRecord)) : Vector Nat 4 :=
  Vector.ofFn fun m => bump^[l.countP fun x => decide (x.1 = m)] (h.get m)

@[simp] theorem countedHits_nil (h : Vector Nat 4) : countedHits h [] = h := by
  unfold countedHits; ext k hk; simp [Vector.get]

theorem countedHits_concat (h : Vector Nat 4) (l : List (Fin 4 × PulseRecord)) (m : Fin 4) (p : PulseRecord) :
    countedHits h (l ++ [(m, p)]) = put (countedHits h l) m (bump ((countedHits h l).get m)) := by
  unfold countedHits put
  ext k hk
  simp only [Vector.getElem_ofFn, Vector.get_ofFn, List.countP_append, List.countP_cons, List.countP_nil]
  by_cases e : m = ⟨k, hk⟩
  · subst e; simp [Function.iterate_succ_apply']
  · have : m.val ≠ k := fun x => e (Fin.ext x)
    simp [e, this]

/-- The event in slot `i` is marked when `mark` holds (R157). -/
def markedWhen (i : Fin 16) (mark : Bool) (s : State) : State :=
  if mark then modContext i (fun c => { c with flags := c.flags ||| eventMarked }) s else s

/-- The mark is independent of hits and offers. -/
theorem markedWhen_rest (i : Fin 16) (mark : Bool) (s : State) :
    (markedWhen i mark s).settings = s.settings ∧ (context (markedWhen i mark s) i).number = (context s i).number
    ∧ (∀ m, countHit m (markedWhen i mark s) = markedWhen i mark (countHit m s))
    ∧ ∀ e, offerSpy e (markedWhen i mark s) = markedWhen i mark (offerSpy e s) := by
  cases mark
  · exact ⟨rfl, rfl, fun _ => rfl, fun _ => rfl⟩
  · refine ⟨rfl, by simp [markedWhen], fun _ => rfl, fun e => ?_⟩
    by_cases hq : s.spy.queue.length < Config.spyCap <;>
      simp [markedWhen, offerSpy, modContext, setContext, hq, raise, context]

/-- A mark after a mark adds nothing. -/
theorem markedWhen_markedWhen (i : Fin 16) (a : Bool) (s : State) : markedWhen i true (markedWhen i a s) = markedWhen i true s := by
  cases a
  · rfl
  · simp only [markedWhen, if_true, modContext, context_setContext]
    simp [BitVec.or_assoc, setContext, put]

/-- The state once the matches `hits` of the event in slot `i` have been acted on. -/
def afterHits (i : Fin 16) (s : State) (hits : List (Fin 4 × PulseRecord)) : State :=
  markedWhen i (hits.any fun h => hasAction s .mark h.1)
    (offeredAll ((hits.filter fun h => hasAction s .copy h.1).map fun h => ⟨h.1, some (context s i).number, h.2⟩)
      { s with spy.hits := countedHits s.spy.hits hits })

/-- One match more (R153, R155, R157 to R159). -/
theorem presentRelease_afterHits (i : Fin 16) (s : State) (hits : List (Fin 4 × PulseRecord)) (p : PulseRecord) (m : Fin 4) :
    presentRelease i p (afterHits i s hits) m = afterHits i s (hits ++ if monitorHit s .atRelease m p then [(m, p)] else []) := by
  let es := (hits.filter fun h => hasAction s .copy h.1).map fun h => (⟨h.1, some (context s i).number, h.2⟩ : SpyEntry)
  let h := countedHits s.spy.hits hits
  let mark := hits.any fun h => hasAction s .mark h.1
  obtain ⟨h1, h2, h3⟩ := offeredAll_rest es { s with spy.hits := h }
  obtain ⟨k1, k2, k3, k4⟩ := markedWhen_rest i mark (offeredAll es { s with spy.hits := h })
  have hs : (afterHits i s hits).settings = s.settings := k1.trans (by rw [h1])
  have hn : (context (afterHits i s hits) i).number = (context s i).number := k2.trans (by rw [h1]; rfl)
  have hc : countHit m (offeredAll es { s with spy.hits := h })
      = offeredAll es { s with spy.hits := put h m (bump (h.get m)) } := by
    unfold countHit
    rw [h2]
    exact (h3 (put h m (bump (h.get m)))).symm
  have hm : monitorActs (afterHits i s hits) m .atRelease p = monitorHit s .atRelease m p := by
    rw [monitorActs_eq]; unfold monitorHit; rw [hs]
  unfold presentRelease
  simp only [hm, hs, hn]
  cases monitorHit s .atRelease m p
  · simp
  · have e : countHit m (afterHits i s hits)
        = markedWhen i mark (offeredAll es { s with spy.hits := put h m (bump (h.get m)) }) := by
      rw [← hc]; exact (markedWhen_rest i mark _).2.2.1 m
    simp only [if_true, e]
    unfold afterHits
    rw [countedHits_concat]
    cases ha : (s.settings.monitor.get m).action
    · simp [hasAction, ha, offeredAll_concat, es, h, mark]
      exact (markedWhen_rest i _ _).2.2.2 _
    · simp [hasAction, ha, es, h, mark]
      exact markedWhen_markedWhen i _ _
    · simp [hasAction, ha, es, h, mark]

/-- The pulses of an event shown to the release monitors (R122, R155): every match is acted on, in order. -/
theorem presentReleases_eq (i : Fin 16) (ps : List PulseRecord) (s : State) :
    presentReleases i ps s = shownAtRelease i ps s := by
  have h1 : ∀ (p : PulseRecord) (l : List (Fin 4)) (hits : List (Fin 4 × PulseRecord)),
      l.foldl (presentRelease i p) (afterHits i s hits)
        = afterHits i s (hits ++ (l.filter fun m => monitorHit s .atRelease m p).map fun m => (m, p)) := by
    intro p l
    induction l with
    | nil => intro hits; simp
    | cons m l ih =>
      intro hits
      rw [List.foldl_cons, presentRelease_afterHits, ih]
      cases hh : monitorHit s .atRelease m p <;> simp [hh]
  have h2 : ∀ (ps : List PulseRecord) (hits : List (Fin 4 × PulseRecord)),
      ps.foldl (presentPulse i) (afterHits i s hits) = afterHits i s (hits ++ releaseHits s ps) := by
    intro ps
    induction ps with
    | nil => intro hits; simp [releaseHits]
    | cons p ps ih => intro hits; rw [List.foldl_cons, presentPulse, h1, ih]; simp [releaseHits]
  have h0 : afterHits i s [] = s := by simp [afterHits, markedWhen, offeredAll]
  have := h2 ps []
  rw [h0] at this
  exact this

end Sys2Proof.Machine
end

