-- ==== Sys2Proof/Laws/Store.lean ====
section
/-! SUPPORT. What the pool's shared operations can do: an entry taken, references made, refused and dropped, the wait of the distributor,
and an entry staged (R43, R45, R55, R58, R63, R79 to R82). -/

namespace Sys2Proof.Machine

/-! ## An entry for a placement (R58) -/

/-- What taking an entry can do: the head of the free list, or the evicted head of the retention queue, or nothing. -/
theorem takeEntry_cases (s : State) :
    (∃ e rest, s.pool.freeList = e :: rest ∧ takeEntry s = some (e, { s with
        pool.freeList := rest, pool.leastFree := min s.pool.leastFree rest.length }))
      ∨ (∃ e rest, s.pool.freeList = [] ∧ s.pool.retention = e :: rest ∧ takeEntry s = some (e, { s with
          pool.retention := rest
          pool.retainedEvicted := bump s.pool.retainedEvicted
          table.visits := s.table.visits.erase e
          latched := s.latched ||| codeBit 9 }))
      ∨ (s.pool.freeList = [] ∧ s.pool.retention = [] ∧ takeEntry s = none) := by
  cases hf : s.pool.freeList with
  | cons e rest => exact .inl ⟨e, rest, rfl, by simp [takeEntry, hf, setFreeList]⟩
  | nil =>
    cases hr : s.pool.retention with
    | cons e rest => exact .inr (.inl ⟨e, rest, rfl, rfl, by simp [takeEntry, hf, hr, leaveRetention, raise, Latched.code]⟩)
    | nil => exact .inr (.inr ⟨rfl, rfl, by simp [takeEntry, hf, hr]⟩)

/-! ## The wait of the distributor (R45) -/

/-- The end of a wait touches the distributor's wait alone. -/
theorem endWait_eq (s : State) : endWait s = { s with
    distributor.waiting := if s.pool.freeList = [] ∧ s.pool.retention = [] then s.distributor.waiting else false } := by
  cases hf : s.pool.freeList <;> cases hr : s.pool.retention <;> simp [endWait, canGive, hf, hr]

/-- A choice that leaves no pulse out changes nothing. -/
theorem noteChoice_of_not_leavesOut {s : State} (h : leavesOut s = false) : noteChoice s = s := by simp [noteChoice, h]

/-- What a choice can do: nothing, or the start of a wait, counted. -/
theorem noteChoice_cases (s : State) : noteChoice s = s
    ∨ (leavesOut s = true ∧ s.distributor.waiting = false
        ∧ noteChoice s = { s with distributor.waiting := true, pool.poolWaits := bump s.pool.poolWaits }) := by
  unfold noteChoice
  split
  · next h =>
    simp only [Bool.and_eq_true, Bool.not_eq_true'] at h
    exact .inr ⟨h.1, h.2, rfl⟩
  · exact .inl rfl

/-! ## References (R63, R79 to R82) -/

/-- The charge total after one more charge (R82). -/
theorem addCharge_eq (a b : Nat) : (addCharge a b).1 = min 16777215 (a + b)
    ∧ (addCharge a b).2 = decide (16777215 < a + b) := by
  unfold addCharge
  simp only [Config.chargeTotalMax]
  split <;> simp <;> omega

/-- A context after one more reference (R79, R82). -/
theorem withRef_eq (c : Context) (e : Fin 4096) (p : PulseRecord) : c.withRef e p = { c with
    refs := c.refs ++ [e]
    charge := min 16777215 (c.charge + p.charge)
    flags := c.flags ||| eventFlagsOf p.flags ||| (if 16777215 < c.charge + p.charge then eventChargeSat else 0) } := by
  simp [Context.withRef, addCharge_eq, flagsIf]

/-- The contexts after a reference was made in each slot of a list without repeats. -/
theorem context_foldl_makeRef (e : Fin 4096) (p : PulseRecord) (l : List (Fin 16)) (hl : l.Nodup) (s : State) (j : Fin 16) :
    context (l.foldl (makeRef e p) s) j = if j ∈ l then (context s j).withRef e p else context s j := by
  induction l generalizing s with
  | nil => simp
  | cons a l ih =>
    simp only [List.nodup_cons] at hl
    rw [List.foldl_cons, ih hl.2, makeRef, context_modContext]
    by_cases h : j = a
    · subst h; simp [hl.1]
    · simp [h]

/-- References touch the context slots alone. -/
theorem foldl_makeRef_rest (e : Fin 4096) (p : PulseRecord) (l : List (Fin 16)) (s : State) :
    l.foldl (makeRef e p) s = { s with table.slots := (l.foldl (makeRef e p) s).table.slots } := by
  induction l generalizing s with
  | nil => rfl
  | cons a l ih => rw [List.foldl_cons, ih]; rfl

/-- What a refused reference can do (R81). -/
theorem refuseRef_eq (s : State) (i : Fin 16) :
    refuseRef s i = { s with
      table.slots := (refuseRef s i).table.slots
      table.eventsTruncated := (refuseRef s i).table.eventsTruncated
      latched := (refuseRef s i).latched }
    ∧ ∀ j, context (refuseRef s i) j = if j = i then { context s i with
        lost := if (context s i).lost < 65535 then (context s i).lost + 1 else 65535
        flags := (context s i).flags ||| eventTruncated } else context s j := by
  have h : ∀ j, context (setContext i { context s i with
      lost := bumpLost (context s i).lost, flags := (context s i).flags ||| eventTruncated } s) j = if j = i then
      { context s i with
        lost := if (context s i).lost < 65535 then (context s i).lost + 1 else 65535
        flags := (context s i).flags ||| eventTruncated } else context s j := fun j => context_setContext i j _ s
  unfold refuseRef
  simp only
  split
  · exact ⟨rfl, h⟩
  · exact ⟨rfl, h⟩

/-- The contexts after references were refused in each slot of a list without repeats. -/
theorem context_foldl_refuseRef (l : List (Fin 16)) (hl : l.Nodup) (s : State) (j : Fin 16) :
    context (l.foldl refuseRef s) j = if j ∈ l then { context s j with
        lost := if (context s j).lost < 65535 then (context s j).lost + 1 else 65535
        flags := (context s j).flags ||| eventTruncated } else context s j := by
  induction l generalizing s with
  | nil => simp
  | cons a l ih =>
    simp only [List.nodup_cons] at hl
    rw [List.foldl_cons, ih hl.2, (refuseRef_eq s a).2]
    by_cases h : j = a
    · subst h; simp [hl.1]
    · simp [h]

/-- Refused references touch the context slots, the count of truncated events and the latched set alone. -/
theorem foldl_refuseRef_rest (l : List (Fin 16)) (s : State) :
    l.foldl refuseRef s = { s with
      table.slots := (l.foldl refuseRef s).table.slots
      table.eventsTruncated := (l.foldl refuseRef s).table.eventsTruncated
      latched := (l.foldl refuseRef s).latched } := by
  induction l generalizing s with
  | nil => rfl
  | cons a l ih => rw [List.foldl_cons, ih, (refuseRef_eq s a).1]

/-- Refused references count each context that was not yet TRUNCATED, and raise EVENT_TRUNCATED when there is one (R81). -/
theorem counts_foldl_refuseRef (l : List (Fin 16)) (hl : l.Nodup) (s : State) :
    (l.foldl refuseRef s).table.eventsTruncated = bump^[(l.filter fun i => !(context s i).flags.getLsbD 6).length] s.table.eventsTruncated
    ∧ (l.foldl refuseRef s).latched = (if (l.filter fun i => !(context s i).flags.getLsbD 6) = [] then s.latched else s.latched ||| codeBit 8) := by
  induction l generalizing s with
  | nil => simp
  | cons a l ih =>
    simp only [List.nodup_cons] at hl
    have hf : (l.filter fun i => !(context (refuseRef s a) i).flags.getLsbD 6) = l.filter fun i => !(context s i).flags.getLsbD 6 := by
      apply List.filter_congr
      intro d hd
      rw [(refuseRef_eq s a).2, if_neg (by rintro rfl; exact hl.1 hd)]
    obtain ⟨h1, h2⟩ := ih hl.2 (refuseRef s a)
    rw [List.foldl_cons, h1, h2, hf]
    by_cases ht : (context s a).truncated = true
    · have k : refuseRef s a = setContext a { context s a with lost := bumpLost (context s a).lost, flags := (context s a).flags ||| eventTruncated } s := by
        simp only [refuseRef, ht, if_true]
      have ht' : (context s a).flags.getLsbD 6 = true := ht
      rw [k, List.filter_cons, ht']
      exact ⟨rfl, rfl⟩
    · have k1 : (refuseRef s a).table.eventsTruncated = bump s.table.eventsTruncated := by simp only [refuseRef, ht]; rfl
      have k2 : (refuseRef s a).latched = s.latched ||| codeBit 8 := by simp only [refuseRef, ht]; rfl
      have ht' : (context s a).flags.getLsbD 6 = false := Bool.eq_false_iff.2 ht
      rw [k1, k2, List.filter_cons, ht']
      simp only [Bool.not_false, if_true, List.length_cons, Function.iterate_succ, Function.comp]
      refine ⟨trivial, ?_⟩
      split <;> simp [BitVec.or_assoc]

/-- A dropped reference touches the entry's count and the free list alone. -/
theorem dropRef_eq (s : State) (e : Fin 4096) :
    dropRef s e = { s with pool.entries := (dropRef s e).pool.entries, pool.freeList := (dropRef s e).pool.freeList }
    ∧ (∀ d, poolEntry (dropRef s e) d = if d = e then { poolEntry s e with refCount := (poolEntry s e).refCount - 1 }
        else poolEntry s d)
    ∧ (dropRef s e).pool.freeList = s.pool.freeList ++ (if (poolEntry s e).refCount = 1 then [e] else []) := by
  unfold dropRef
  split
  · next h =>
    refine ⟨rfl, fun d => ?_, by simp [h]⟩
    split
    · next hd =>
      subst hd
      have : poolEntry s d = ⟨(poolEntry s d).record, (poolEntry s d).refCount⟩ := rfl
      rw [this, h]
    · rfl
  · next h =>
    refine ⟨rfl, fun d => ?_, by simp [h, joinFree]⟩
    rw [show poolEntry (joinFree e (setPoolEntry e { poolEntry s e with refCount := 0 } s)) d
      = poolEntry (setPoolEntry e { poolEntry s e with refCount := 0 } s) d from rfl, poolEntry_setPoolEntry]
    simp [h]
  · next k h =>
    refine ⟨rfl, fun d => ?_, by simp [h]⟩
    rw [poolEntry_setPoolEntry]
    simp [h]

/-- References to different entries dropped in list order (R63): each count falls by one, and the entries that reach 0 join the free list
in that order. -/
theorem foldl_dropRef (es : List (Fin 4096)) (hn : es.Nodup) (s : State) :
    es.foldl dropRef s = { s with
      pool.entries := (es.foldl dropRef s).pool.entries
      pool.freeList := s.pool.freeList ++ es.filter fun e => decide ((poolEntry s e).refCount = 1) }
    ∧ ∀ d, poolEntry (es.foldl dropRef s) d =
        { poolEntry s d with refCount := (poolEntry s d).refCount - if d ∈ es then 1 else 0 } := by
  induction es generalizing s with
  | nil => exact ⟨by simp, fun d => by simp⟩
  | cons e es ih =>
    simp only [List.nodup_cons] at hn
    obtain ⟨h1, h2⟩ := ih hn.2 (dropRef s e)
    obtain ⟨k1, k2, k3⟩ := dropRef_eq s e
    have hf : (es.filter fun d => decide ((poolEntry (dropRef s e) d).refCount = 1))
        = es.filter fun d => decide ((poolEntry s d).refCount = 1) := by
      apply List.filter_congr
      intro d hd
      rw [k2, if_neg (by rintro rfl; exact hn.1 hd)]
    refine ⟨?_, fun d => ?_⟩
    · rw [List.foldl_cons, h1, hf, k3, k1]
      by_cases h : (poolEntry s e).refCount = 1 <;> simp [h]
    · rw [List.foldl_cons, h2, k2]
      by_cases h : d = e
      · subst h; simp [hn.1]
      · simp [h]

/-! ## Aging (R61) -/

/-- The aged entries at the head of the retention queue leave it in order for the tail of the free list, and the visit list (R61, R91). -/
theorem ageHeads_eq (old : Fin 4096 → Bool) (n : Nat) : ∀ (s : State), s.pool.retention.length ≤ n → (∀ e, headAged s e = old e) →
   ageHeads n s = { s with
      pool := { s.pool with
        freeList := s.pool.freeList ++ s.pool.retention.takeWhile old, retention := s.pool.retention.dropWhile old
        retainedAged := bump^[(s.pool.retention.takeWhile old).length] s.pool.retainedAged }
      table.visits := s.table.visits.diff (s.pool.retention.takeWhile old) } := by
  induction n with
  | zero => 
    intro s h _
    have : s.pool.retention = [] := by simpa using h
    have e1 : s.pool.retention.takeWhile old = [] := by simp [this]
    have e2 : s.pool.retention.dropWhile old = s.pool.retention := by simp [this]
    rw [e1, e2]; simp [ageHeads]
  | succ n ih =>
    intro s h ho
    cases hr : s.pool.retention with
    | nil =>
      rw [← hr]
      have e1 : s.pool.retention.takeWhile old = [] := by simp [hr]
      have e2 : s.pool.retention.dropWhile old = s.pool.retention := by simp [hr]
      simp only [ageHeads, hr]; rw [← hr, e1, e2]; simp
    | cons e rest =>
      simp only [ageHeads, hr, ho]
      cases he : old e
      · rw [← hr]
        have e1 : s.pool.retention.takeWhile old = [] := by simp [hr, he]
        have e2 : s.pool.retention.dropWhile old = s.pool.retention := by simp [hr, he]
        rw [e1, e2]; simp
      · have k : (ageHead e s).pool.retention = rest := by simp [ageHead, joinFree, leaveRetention, hr]
        simp only [if_true]
        rw [ih (ageHead e s) (by rw [k]; rw [hr] at h; simpa using h) (fun x => by rw [← ho x]; rfl), k]
        simp [ageHead, joinFree, leaveRetention, he, Function.iterate_succ]

/-! ## Staging (R42, R43) -/

/-- What staging an entry can do: it joins the queue, or is an overrun. -/
theorem stage_cases (i : Fin 24) (x : StagingEntry) (s : State) :
    ((source s i).queue.length < 16 ∧ stage i x s = noteChoice (joinQueue i x s))
      ∨ (16 ≤ (source s i).queue.length ∧ stage i x s = overrun i s) := by
  unfold stage queueHasRoom
  simp only [Config.stagingCap]
  rcases Nat.lt_or_ge (source s i).queue.length 16 with h | h
  · exact .inl ⟨h, by simp [h]⟩
  · exact .inr ⟨h, by simp [Nat.not_lt.2 h]⟩

/-! ## The entry numbers in order (R55) -/

/-- The entry numbers from `k` on are those of k..k+n−1. -/
theorem mem_entriesFrom (e : Fin 4096) (n : Nat) :
    ∀ k, k + n ≤ 4096 → (e ∈ entriesFrom k n ↔ k ≤ e.val ∧ e.val < k + n) := by
  induction n with
  | zero =>
    intro k _
    simp only [entriesFrom, List.not_mem_nil, false_iff]
    omega
  | succ n ih =>
    intro k h
    have hk : (Fin.ofNat 4096 k).val = k := by simp [Fin.ofNat]; omega
    simp only [entriesFrom, List.mem_cons, ih (k + 1) (by omega), Fin.ext_iff, hk]
    omega

/-- No entry number stands twice. -/
theorem nodup_entriesFrom (n : Nat) : ∀ k, k + n ≤ 4096 → (entriesFrom k n).Nodup := by
  induction n with
  | zero => intro k _; exact List.nodup_nil
  | succ n ih =>
    intro k h
    have hk : (Fin.ofNat 4096 k).val = k := by simp [Fin.ofNat]; omega
    refine List.nodup_cons.2 ⟨?_, ih (k + 1) (by omega)⟩
    rw [mem_entriesFrom _ _ _ (by omega), hk]
    omega

/-- `n` entry numbers are `n`. -/
@[simp] theorem length_entriesFrom (n : Nat) : ∀ k, (entriesFrom k n).length = n := by
  induction n with
  | zero => intro k; rfl
  | succ n ih => intro k; simp [entriesFrom, ih]

end Sys2Proof.Machine
end

