-- ==== Sys2Proof/Laws/Release.lean ====
section
/-! SUPPORT. What the shared operations of the release builder and the capture monitors can do (R118, R119, R122, R123, R129, R153 to R159,
R183). -/

namespace Sys2Proof.Machine

open Sys2Proof.Safety

/-- The drain is judged in DRAINING alone (R183). -/
theorem judgeDrain_of_not_draining {s : State} (h : s.run ≠ .draining) : judgeDrain s = s := by simp [judgeDrain, h]

/-- The drain is not taken while a word waits in the stream buffer (R183). -/
theorem judgeDrain_of_buffer {s : State} (h : s.router.buffer ≠ []) : judgeDrain s = s := by
  simp [judgeDrain, drained, h]

/-- The route of an event holds a destination when one of its trigger classes routes there (R118). -/
theorem routeOf_eq (s : State) (c : Context) : routeOf s c =
    ⟨c.triggers.any fun t => (s.settings.route.get t.cls).stream,
     c.triggers.any fun t => (s.settings.route.get t.cls).poll⟩ := by
  have : ∀ (l : List Trigger) (r : Route), l.foldl (fun r t => r.union (s.settings.route.get t.cls)) r
      = ⟨r.stream || l.any fun t => (s.settings.route.get t.cls).stream,
         r.poll || l.any fun t => (s.settings.route.get t.cls).poll⟩ := by
    intro l
    induction l with
    | nil => intro r; simp
    | cons a l ih => intro r; rw [List.foldl_cons, ih]; simp [Route.union, Bool.or_assoc]
  simpa [routeOf] using this c.triggers ⟨false, false⟩

/-- References dropped, whatever they are, touch the entries and the free list alone. -/
theorem foldl_dropRef_rest (es : List (Fin 4096)) (s : State) : es.foldl dropRef s = { s with
    pool.entries := (es.foldl dropRef s).pool.entries, pool.freeList := (es.foldl dropRef s).pool.freeList } := by
  induction es generalizing s with
  | nil => rfl
  | cons e es ih => rw [List.foldl_cons, ih, (dropRef_eq s e).1]

/-- What freeing a released context can do (R63, R119, R123, R129): its slot is FREE and out of the opening order, its references are
dropped, and a wait of the distributor may end. -/
theorem freeContext_eq (i : Fin 16) (s : State) :
    freeContext i s = { s with
      pool.entries := (freeContext i s).pool.entries
      pool.freeList := (freeContext i s).pool.freeList
      distributor.waiting := (freeContext i s).distributor.waiting
      table.slots := (freeContext i s).table.slots
      table.order := s.table.order.erase i }
    ∧ ∀ j, context (freeContext i s) j = if j = i then Context.freeSlot else context s j := by
  unfold freeContext dropRefs
  rw [endWait_eq, foldl_dropRef_rest]
  refine ⟨rfl, fun j => ?_⟩
  rw [context_setContext]
  rfl

/-- What the judgement of the return to IDLE does (R183). -/
theorem judgeDrain_judged (s : State) : ReturnJudged s (judgeDrain s) := by
  unfold ReturnJudged judgeDrain
  by_cases h : s.run = .draining ∧ s.table.order = [] ∧ s.builder.job = none ∧ s.router.buffer = []
  · have hd : s.run = .draining ∧ drained s = true := by
      obtain ⟨a, b, c, d⟩ := h; simp [drained, a, b, c, d]
    rw [if_pos h, if_pos hd]
    refine ⟨rfl, fun e => ?_, fun i => ?_, fun i => ?_⟩
    · simp [returnToIdle, freeTable, freePool, emptyStaging, poolEntry]
    · simp [returnToIdle, freeTable, freePool, emptyStaging, source]
    · simp [returnToIdle, freeTable, freePool, emptyStaging, context]
  · have hd : ¬(s.run = .draining ∧ drained s = true) := by
      intro k; apply h; simpa [drained, and_assoc] using k
    rw [if_neg h, if_neg hd]

/-- A context whose references are different entries leaves the part as R63 says. -/
theorem freeContext_freed (i : Fin 16) (s : State) (hn : (context s i).refs.Nodup) : Freed i s (freeContext i s) := by
  obtain ⟨h1, h2⟩ := foldl_dropRef (context s i).refs hn s
  refine ⟨?_, fun e => ?_, fun j => ?_⟩
  · unfold freeContext dropRefs
    rw [endWait_eq]
    simp only
    rw [h1]
    rfl
  · unfold freeContext dropRefs
    rw [endWait_eq]
    exact h2 e
  · exact (freeContext_eq i s).2 j

/-- What a presentation to the release monitors of the context in slot `i` can do (R153, R155, R157, R159): hits, spy entries and conditions,
and the event flag MARKED. -/
structure Presents (i : Fin 16) (s t : State) : Prop where
  rest : t = { s with spy := t.spy, latched := t.latched, table.slots := t.table.slots }
  other : ∀ j, j ≠ i → context t j = context s j
  own : context t i = context s i ∨ context t i = { context s i with flags := (context s i).flags ||| eventMarked }
  latched : ∀ k, s.latched.getLsbD k = true → t.latched.getLsbD k = true

theorem presents_refl (i : Fin 16) (s : State) : Presents i s s := ⟨rfl, fun _ _ => rfl, .inl rfl, fun _ h => h⟩

theorem presents_trans {i : Fin 16} {s t u : State} (h : Presents i s t) (k : Presents i t u) : Presents i s u := by
  refine ⟨by rw [k.rest, h.rest], fun j hj => (k.other j hj).trans (h.other j hj), ?_, fun n hn => k.latched n (h.latched n hn)⟩
  rcases h.own with a | a <;> rcases k.own with b | b
  · left; rw [b, a]
  · right; rw [b, a]
  · right; rw [b, a]
  · right; rw [b, a]; simp [BitVec.or_assoc]

theorem presents_foldl {α : Type} {i : Fin 16} {f : State → α → State} (hf : ∀ s a, Presents i s (f s a)) (l : List α)
    (s : State) : Presents i s (l.foldl f s) := by
  induction l generalizing s with
  | nil => exact presents_refl i s
  | cons a l ih => exact presents_trans (hf s a) (ih _)

theorem presents_countHit (i : Fin 16) (m : Fin 4) (s : State) : Presents i s (countHit m s) :=
  ⟨rfl, fun _ _ => rfl, .inl rfl, fun _ h => h⟩

theorem presents_offerSpy (i : Fin 16) (e : SpyEntry) (s : State) : Presents i s (offerSpy e s) := by
  unfold offerSpy
  split <;> exact ⟨rfl, fun _ _ => rfl, .inl rfl, fun k h => by simp only [raise, BitVec.getLsbD_or, h, Bool.true_or]⟩

theorem presents_presentRelease (i : Fin 16) (p : PulseRecord) (s : State) (m : Fin 4) :
    Presents i s (presentRelease i p s m) := by
  unfold presentRelease
  split
  · split
    · exact presents_trans (presents_countHit i m s) (presents_offerSpy i _ _)
    · exact presents_trans (presents_countHit i m s)
        ⟨rfl, fun j hj => by simp [hj], .inr (by simp), fun _ h => h⟩
    · exact presents_countHit i m s
  · exact presents_refl i s

/-- What the presentation of an event's pulses can do (R122, R155). -/
theorem presents_presentReleases (i : Fin 16) (ps : List PulseRecord) (s : State) :
    Presents i s (presentReleases i ps s) :=
  presents_foldl (fun s p => presents_foldl (fun s m => presents_presentRelease i p s m) _ s) _ s

/-- What an offer to the spy queue does (R159). -/
theorem offerSpy_cases (e : SpyEntry) (s : State) :
    (s.spy.queue.length < 32 ∧ offerSpy e s = { s with
        spy.queue := s.spy.queue ++ [e], spy.stored := bump s.spy.stored, latched := s.latched ||| codeBit 12 })
      ∨ (32 ≤ s.spy.queue.length ∧ offerSpy e s = { s with
        spy.lost := bump s.spy.lost, latched := s.latched ||| codeBit 13 }) := by
  rcases Nat.lt_or_ge s.spy.queue.length 32 with h | h
  · exact .inl ⟨h, by simp [offerSpy, h, Config.spyCap, raise, Latched.code]⟩
  · exact .inr ⟨h, by simp [offerSpy, Nat.not_lt.2 h, Config.spyCap, raise, Latched.code]⟩

end Sys2Proof.Machine
end

