-- ==== Sys2Proof/Laws/Stamps.lean ====
section
/-! SUPPORT. The arithmetic of stamps (R9 to R13): a distance is a residue modulo M, and adding ticks moves a stamp by that residue. -/

namespace Sys2Proof.Machine

/-- A stamp of the orbit length (R1). -/
def Stamp.Fits (ol : Nat) (a : Stamp) : Prop := a.orbit < 1048576 ∧ a.bc < ol

theorem modulus_pos {ol : Nat} (h : 0 < ol) : 0 < modulus ol := by
  simp only [modulus, Config.orbits]; omega

theorem modulus_eq_half (ol : Nat) : modulus ol = 2 * half ol := by
  simp only [modulus, half, Config.orbits]; omega

/-- The position of a stamp that fits lies below M (R9). -/
theorem position_lt {ol : Nat} {a : Stamp} (h : a.Fits ol) : position ol a < modulus ol := by
  obtain ⟨h1, h2⟩ := h
  simp only [position, modulus, Config.orbits]
  calc a.orbit * ol + a.bc < a.orbit * ol + ol := by omega
    _ = (a.orbit + 1) * ol := by rw [Nat.add_mul, Nat.one_mul]
    _ ≤ 1048576 * ol := Nat.mul_le_mul_right _ (by omega)

/-- Two stamps that fit and share a position are the same. -/
theorem position_inj {ol : Nat} {a b : Stamp} (ha : a.Fits ol) (hb : b.Fits ol) (h : position ol a = position ol b) :
    a = b := by
  obtain ⟨_, ha⟩ := ha
  obtain ⟨_, hb⟩ := hb
  have hpos : 0 < ol := by omega
  simp only [position] at h
  have h1 : a.orbit = b.orbit := by
    have := congrArg (· / ol) h
    simpa [Nat.mul_comm _ ol, Nat.mul_add_div hpos, Nat.div_eq_of_lt ha, Nat.div_eq_of_lt hb] using this
  have h2 : a.bc = b.bc := by rw [h1] at h; omega
  cases a; cases b; simp_all

/-- D(a, b) as a residue (R9). -/
theorem dist_eq {ol : Nat} (h : 0 < ol) (a b : Stamp) :
    (dist ol a b : Int) = ((position ol a : Int) - position ol b) % (modulus ol : Int) := by
  have hm := modulus_pos h
  exact Int.toNat_of_nonneg (Int.emod_nonneg _ (by omega))

theorem dist_lt {ol : Nat} (h : 0 < ol) (a b : Stamp) : dist ol a b < modulus ol := by
  have hm := modulus_pos h
  have h1 := dist_eq h a b
  have h2 := Int.emod_lt_of_pos ((position ol a : Int) - position ol b) (show (0 : Int) < modulus ol by omega)
  omega

@[simp] theorem dist_self (ol : Nat) (a : Stamp) : dist ol a a = 0 := by simp [dist]

/-- The position of a stamp n ticks on (R11). -/
theorem position_addTicks {ol : Nat} (h : 0 < ol) (a : Stamp) (n : Int) :
    (position ol (addTicks ol a n) : Int) = ((position ol a : Int) + n) % (modulus ol : Int) := by
  have hm := modulus_pos h
  have hn := Int.emod_nonneg ((position ol a : Int) + n) (show (modulus ol : Int) ≠ 0 by omega)
  simp only [addTicks, position]
  rw [Nat.div_add_mod']
  exact Int.toNat_of_nonneg hn

/-- A stamp n ticks on fits (R11). -/
theorem addTicks_fits {ol : Nat} (h : 0 < ol) (a : Stamp) (n : Int) : (addTicks ol a n).Fits ol := by
  have hm := modulus_pos h
  have hl := Int.emod_lt_of_pos ((position ol a : Int) + n) (show (0 : Int) < modulus ol by omega)
  have hn := Int.emod_nonneg ((position ol a : Int) + n) (show (modulus ol : Int) ≠ 0 by omega)
  refine ⟨?_, Nat.mod_lt _ h⟩
  simp only [addTicks]
  rw [Nat.div_lt_iff_lt_mul h]
  simp only [modulus, Config.orbits] at hl hn ⊢
  omega

/-- The distance from a stamp to the stamp n ticks on is n modulo M (R9, R11). -/
theorem dist_addTicks {ol : Nat} (h : 0 < ol) (a : Stamp) (n : Int) :
    (dist ol (addTicks ol a n) a : Int) = n % (modulus ol : Int) := by
  rw [dist_eq h, position_addTicks h, Int.emod_sub_emod]
  congr 1
  omega

/-- A stamp that fits is the one its distance after another (R9, R11). -/
theorem addTicks_dist {ol : Nat} (h : 0 < ol) {a b : Stamp} (ha : a.Fits ol) :
    addTicks ol b (dist ol a b) = a := by
  apply position_inj (addTicks_fits h _ _) ha
  have hp := position_lt ha
  have e := position_addTicks h b (dist ol a b)
  rw [dist_eq h, Int.add_emod_emod, show (position ol b : Int) + ((position ol a : Int) - position ol b) = position ol a by omega,
    ← dist_eq h, Int.emod_eq_of_lt (by omega) (by omega)] at e
  omega

/-- A residue of a negative number not below −M. -/
theorem emod_of_neg {x m : Int} (h : x < 0) (h2 : -m ≤ x) : x % m = x + m := by
  rw [← Int.add_emod_right, Int.emod_eq_of_lt (by omega) (by omega)]

/-- The distance between stamps that fit, by the order of their positions (R9). -/
theorem dist_cases {ol : Nat} (h : 0 < ol) {a b : Stamp} (ha : a.Fits ol) (hb : b.Fits ol) :
    (position ol b ≤ position ol a ∧ dist ol a b = position ol a - position ol b)
      ∨ (position ol a < position ol b ∧ dist ol a b = position ol a + modulus ol - position ol b) := by
  have e := dist_eq h a b
  have pa := position_lt ha
  have pb := position_lt hb
  rcases Nat.lt_or_ge (position ol a) (position ol b) with hlt | hge
  · rw [emod_of_neg (by omega) (by omega)] at e
    right; omega
  · rw [Int.emod_eq_of_lt (by omega) (by omega)] at e
    left; omega

/-- The two distances between different stamps add up to M (R9). -/
theorem dist_add_dist {ol : Nat} (h : 0 < ol) {a b : Stamp} (ha : a.Fits ol) (hb : b.Fits ol) (hne : a ≠ b) :
    dist ol a b + dist ol b a = modulus ol := by
  have hp : position ol a ≠ position ol b := fun e => hne (position_inj ha hb e)
  have pa := position_lt ha
  have pb := position_lt hb
  have h1 := dist_cases h ha hb
  have h2 := dist_cases h hb ha
  omega

/-- A window holds exactly the `span` stamps from its open on (R13). -/
theorem inWindow_iff {ol : Nat} (h : 0 < ol) {a b : Stamp} (hb : b.Fits ol) {span : Nat} (hs : span ≤ modulus ol) :
    inWindow ol a span b = true ↔ ∃ k : Nat, k < span ∧ b = addTicks ol a k := by
  simp only [inWindow, decide_eq_true_eq]
  constructor
  · intro hd
    exact ⟨dist ol b a, hd, (addTicks_dist h hb).symm⟩
  · rintro ⟨k, hk, rfl⟩
    have e := dist_addTicks h a k
    rw [Int.emod_eq_of_lt (by omega) (by omega)] at e
    omega

end Sys2Proof.Machine
end

