-- ==== Sys2Proof/WellFormed.lean ====
section
/-! DEFINITION. What a command must satisfy to be a whole frame of spec/12_wire_formats.md: a body fits the 8-bit body length.
Every other operand is bounded by its type, and every value of it has a meaning (a wrong value is refused by the command's
own tests, with a status code). -/

namespace Sys2Proof

/-- A CONFIGURE frame holds 0..127 pairs (R189). -/
def ConfigureOp.wellFormed : ConfigureOp → Bool
  | .frame _ pairs _ => decide (pairs.length ≤ 127)
  | .resume _ => true

/-- The command's body fits a frame. -/
def Instr.wellFormed : Instr → Bool
  | .configure op => op.wellFormed
  | .inject _ _ body => decide (body.length ≤ 254)
  | .clearConditions _ codes => decide (codes.length ≤ 255)
  | .powerUp | .resetLineAsserted | .resetLineReleased | .zeroFillEnd | .timeAdvance | .orbitPulse
  | .closeOrDeadlineReached | .lastAcceptedStampForgotten | .retainedHeadAged | .lineTriggerRequest _ _
  | .padAlignmentGained _ | .padAlignmentLost _ | .padFrameAbandoned _ | .padFrameComplete _ _ | .silenceReport _
  | .distributorTakePulse _ | .placementRetry | .distributorTakeMark | .claimVisit | .releaseStart | .streamWordWrite
  | .dataLinkUnitSend | .holdAsserted | .holdReleased | .commandAlignmentGained | .commandAlignmentLost
  | .commandFrameAbandoned | .commandFrame _ | .replySent | .identify _ | .status _ | .readSettings _ | .setTime _ _
  | .start _ | .stop _ | .abort _ | .reset _ | .softTrigger _ _ _ | .sourceControlEnable _ _ | .sourceControlDisable _ _
  | .sourceControlReset _ _ | .sourceControlSetMode _ _ _ | .readCounters _ _ | .readContexts _ | .take _ | .discard _
  | .spyTake _ | .padFrameBegins _ | .commandFrameBegins => true

end Sys2Proof
end

