-- ==== Sys2Proof/Tests/Slice0.lean ====
section
/-! SUPPORT. Tests on small states, with the spec's own worked examples where it gives them, and a witness for the hypotheses of each
statement of Certificates/Slice0/Obligations.lean. Each evaluates in the kernel. -/

namespace Sys2Proof.Tests

open Sys2Proof.Machine Sys2Proof.Safety

set_option Elab.async false

/-! ## Well-formedness refuses what no frame can carry -/

theorem test_configure_127_pairs_well_formed :
    (Instr.configure (.frame 1 (List.replicate 127 (0, 64)) 127)).wellFormed = true := by decide +kernel
theorem test_configure_128_pairs_refused :
    (Instr.configure (.frame 1 (List.replicate 128 (0, 64)) 128)).wellFormed = false := by decide +kernel
theorem test_inject_255_words_refused : (Instr.inject 1 3 (List.replicate 255 0)).wellFormed = false := by decide +kernel
theorem test_inject_254_words_well_formed : (Instr.inject 1 3 (List.replicate 254 0)).wellFormed = true := by decide +kernel
theorem test_clear_256_codes_refused : (Instr.clearConditions 1 (List.replicate 256 1)).wellFormed = false := by decide +kernel

/-! ## Small states -/

/-- The next state of an outcome; State.reset where there is none, which no test expects. -/
def out (o : Host.Outcome State Fault Refusal) : State :=
  match o with
  | .next t => t
  | _ => State.reset

/-- The state after one command. -/
def run (c : Instr) (s : State) : State := out (exec c s)

/-- A part out of its zero-fill, with five entries on the free list. -/
def part (r : RunState) : State :=
  { State.reset with run := r, pool := { Pool.default with fill := none, freeList := [0, 1, 2, 3, 4] } }

/-- In a run. -/
def running : State := part .running
/-- Idle. -/
def idle : State := part .idle
/-- At a local time. -/
def at' (o b : Nat) (s : State) : State := { s with time.now := ⟨o, b⟩ }
/-- With a command frame begun. -/
def begun (s : State) : State := { s with cmd.framing := .inFrame }
/-- An OPEN context with one trigger of class 0. -/
def opened (number : Nat) (o c : Stamp) (span : Nat) (d : Stamp) : Context :=
  { Context.freeSlot with
    state := .opened, number := number, triggers := [⟨o, 0, .line 0⟩], winOpen := o, winClose := c, span := span, deadline := d }
/-- With context `c` the youngest, in slot `i`. -/
def withContext (i : Fin 16) (c : Context) (s : State) : State :=
  setContext i c { s with table.order := s.table.order ++ [i] }
/-- With source `i` as `f` makes it. -/
def withSource (i : Fin 24) (f : Source → Source) (s : State) : State := modSource i f s
/-- A source that has sent marks up to `w` and counts. -/
def activeAt (w : Stamp) (x : Source) : Source := { x with standing := .active, watermark := some w }
/-- The pulse of the charge example (spec/03_pad_links_and_staging_queues.md). -/
def chargePulse : PulseEntry := ⟨14, 60, ⟨700, 1200⟩, [40, 120, 310, 1023, 700, 95], 0⟩
/-- A stored pulse with a stamp and a charge. -/
def record (src : Fin 24) (t : Stamp) (charge : Nat) : PulseRecord := ⟨src, 5, 6, t, [10], charge, 10, 0, 0⟩
/-- The receiver of source `i` in the middle of a frame. -/
def receiving (i : Fin 24) (s : State) : State := modSource i (fun x => { x with framing := .inFrame }) s
/-- Any body that carries a right check word. -/
def checkedFrame (ws : List Word) : List Word := ws ++ [checkWord ws]

/-! ## Resets, zero-fill, time base -/

theorem test_resetLineAsserted :
    (run .resetLineAsserted running).run = .init ∧ (run .resetLineAsserted running).resetHeld = true := by decide +kernel
theorem test_powerUp : (run .powerUp running).resetHeld = true ∧ (run .powerUp running).settings.ol = 3564 := by decide +kernel
theorem test_resetLineReleased :
    (run .resetLineReleased (run .resetLineAsserted running)).pool.fill = some 0 := by decide +kernel
/-- R64: after 4096 ticks the part is IDLE with 4096 free entries. -/
theorem test_zeroFillEnd :
    (run .zeroFillEnd { State.reset with pool.fill := some 4096 }).run = .idle
      ∧ (run .zeroFillEnd { State.reset with pool.fill := some 4096 }).pool.freeList.length = 4096 := by decide +kernel
theorem test_timeAdvance_wraps_the_orbit : (run .timeAdvance (at' 1048575 3563 running)).time.now = ⟨0, 0⟩ := by decide +kernel
/-- R4: a pulse at bc 100 is a slip; the next tick gives the next orbit's bc 0. -/
theorem test_orbitPulse_slips :
    let s := run .orbitPulse (at' 7 100 running)
    s.time.slipCount = 1 ∧ s.latched.getLsbD 2 = true ∧ (run .timeAdvance s).time.now = ⟨8, 0⟩ := by decide +kernel
theorem test_orbitPulse_aligned : (run .orbitPulse (at' 7 3563 running)).time.slipCount = 0 := by decide +kernel
theorem test_lastAcceptedStampForgotten :
    (run .lastAcceptedStampForgotten
      { at' 4807 1468 running with intake.lastAccepted := some ⟨100, 0⟩ }).intake.lastAccepted = none
      ∧ (run .lastAcceptedStampForgotten
        { at' 4807 1467 running with intake.lastAccepted := some ⟨100, 0⟩ }).intake.lastAccepted = some ⟨100, 0⟩ := by
  decide +kernel

/-- The worked case of spec/01_time_base_and_window_arithmetic.md: class 2, offset −100, length 4000, at (1000, 3500). -/
theorem test_window_and_deadline :
    let o := addTicks 3564 ⟨1000, 3500⟩ (-100)
    o = ⟨1000, 3400⟩ ∧ addTicks 3564 o 4000 = ⟨1002, 272⟩ ∧ addTicks 3564 ⟨1002, 272⟩ 8000 = ⟨1004, 1144⟩ := by
  decide +kernel
/-- R10: stamps exactly M/2 apart are each before the other. -/
theorem test_half_range : before 64 ⟨524288, 5⟩ ⟨0, 5⟩ = true ∧ before 64 ⟨0, 5⟩ ⟨524288, 5⟩ = true := by decide +kernel

/-! ## Trigger intake -/

/-- The settings of the burst example (spec/02_trigger_intake.md). -/
def burst : State :=
  { running with
    settings.holdOff := 25, settings.coalesce := 400
    settings.offset := #v[-100, 0, 0, -300, 0, 0, 0, 0]
    settings.length := #v[4000, 2000, 4000, 1000, 4000, 4000, 4000, 4000]
    settings.edge := Vector.replicate 4 .rising
    settings.cls := #v[0, 1, 0, 0]
    intake.latch := Vector.replicate 4 (some false) }

/-- Steps 1 to 3 of the burst: opens, refused within hold-off, merges. -/
def burst3 : State :=
  let low := fun (s : State) => { s with intake.latch := Vector.replicate 4 (some false), intake.sampled := Vector.replicate 4 false }
  let s1 := run (.lineTriggerRequest 0 true) (at' 500 100 burst)
  let s2 := run (.lineTriggerRequest 1 true) (at' 500 110 (low s1))
  run (.lineTriggerRequest 1 true) (at' 500 300 (low s2))

theorem test_lineTriggerRequest_burst :
    (context burst3 0).winOpen = ⟨500, 0⟩ ∧ (context burst3 0).winClose = ⟨501, 436⟩ ∧ (context burst3 0).triggers.length = 2
      ∧ burst3.intake.refusedHoldOff = 1 ∧ burst3.intake.merged = 1 ∧ burst3.intake.lastAccepted = some ⟨500, 300⟩ := by
  decide +kernel
/-- Step 4 of the burst: the reply is OPENED, event 1. -/
theorem test_softTrigger_burst :
    (run (.softTrigger 9 0 none) (begun (at' 500 900 burst3))).cmd.replies.map (fun r => r.body)
      = [[0, 1, stampWord ⟨500, 900⟩]] := by decide +kernel
/-- R24: a full table refuses a class of policy REFUSE. -/
theorem test_softTrigger_full :
    let s := { begun (at' 500 900 burst) with
      table.slots := Vector.replicate 16 (opened 0 ⟨0, 0⟩ ⟨1, 0⟩ 3564 ⟨3, 0⟩), table.order := allSlots }
    (run (.softTrigger 9 0 none) s).cmd.replies.map (fun r => r.body) = [[3, stampWord ⟨500, 900⟩]]
      ∧ (run (.softTrigger 9 0 none) s).latched.getLsbD 3 = true := by decide +kernel

/-! ## Pad links and staging queues -/

/-- A PULSE frame written out word by word, its check word computed by hand from R32 (0x4DA7). -/
theorem test_padFrameComplete_pulse :
    let s := receiving 11 running
    let t := run (.padFrameComplete 11 [0x10E3C006, 0x002BC4B0, 0x0281E136, 0x3FFAF05F, 0xFFFF4DA7]) s
    (source t 11).queue = [.pulse chargePulse] ∧ (source t 11).counters.frames = 1 := by decide +kernel
/-- The same frame with a wrong check word: staged with CHECK, LINK_MALFORMED raised (R33, R34). -/
theorem test_padFrameComplete_bad_check :
    let s := receiving 11 running
    let t := run (.padFrameComplete 11 [0x10E3C006, 0x002BC4B0, 0x0281E136, 0x3FFAF05F, 0x4DA6]) s
    (source t 11).queue = [.pulse { chargePulse with flags := flagCheck }]
      ∧ (source t 11).counters.checkFailures = 1 ∧ t.latched.getLsbD 6 = true := by decide +kernel
theorem test_padFrameBegins :
    (source (run (.padFrameBegins 3) (withSource 3 (fun x => { x with framing := .between }) running)) 3).framing = .inFrame := by
  decide +kernel
theorem test_padFrameAbandoned :
    let t := run (.padFrameAbandoned 3) (receiving 3 running)
    (source t 3).counters.malformed = 1 ∧ (source t 3).framing = .inFrame := by decide +kernel
theorem test_padAlignmentGained : (source (run (.padAlignmentGained 3) running) 3).framing = .between := by decide +kernel
theorem test_padAlignmentLost :
    let t := run (.padAlignmentLost 3) (receiving 3 running)
    (source t 3).framing = .hunting ∧ (source t 3).counters.malformed = 1 := by decide +kernel

/-- Source 4 with 16 marks waiting. -/
def fullQueue (m : SourceMode) : State :=
  withSource 4 (fun x => { x with mode := m, queue := List.replicate 16 (.mark ⟨1, 0⟩) }) running

/-- The overrun example: steps 1 to 6, with two frames lost, two marks taken, one mark joined, and pulse b joined with GAP. -/
theorem test_overrun_and_gap :
    let p := StagingEntry.pulse chargePulse
    let s := stage 4 (.mark ⟨9, 0⟩) (stage 4 p (fullQueue .link))
    let s := run .distributorTakeMark (stage 4 (.mark ⟨10, 0⟩) (run .distributorTakeMark s))
    let t := stage 4 p s
    (source s 4).gapPending = true ∧ (source s 4).counters.overruns = 2 ∧ (source t 4).gapPending = false
      ∧ (source t 4).queue.getLast? = some (.pulse { chargePulse with flags := flagGap })
      ∧ (source t 4).counters.pulsesStaged = 1 := by decide +kernel
/-- R41: a source in INJECT mode; the body has no check word. -/
theorem test_inject :
    let s := begun (withSource 4 (fun x => { x with mode := .inject }) running)
    let t := run (.inject 2 4 [0x20000000, 0x0038476C]) s
    (source t 4).queue = [.mark ⟨900, 1900⟩] ∧ t.cmd.replies.map (fun r => r.body) = [[0]] := by decide +kernel
theorem test_inject_overrun :
    (run (.inject 2 4 [0x20000000, 0x0038476C]) (begun (fullQueue .inject))).cmd.replies.map (fun r => r.body) = [[1]] := by
  decide +kernel
/-- The silent source, at the limit of 40,000 ticks. -/
theorem test_silenceReport :
    let s := withSource 2 (fun x => { activeAt ⟨904, 0⟩ x with silenceTimer := 40000 }) running
    let t := run (.silenceReport 2) s
    (source t 2).standing = .down ∧ (source t 2).counters.wentDown = 1 ∧ t.latched.getLsbD 1 = true := by decide +kernel

/-! ## The distributor and the monitors -/

/-- The queues of the round of choices: threshold 4, last served 5. -/
def round : State :=
  let q := fun (n : Nat) (x : Source) => { x with queue := List.replicate n (StagingEntry.mark ⟨1, 0⟩) }
  withSource 2 (q 5) (withSource 7 (q 1) (withSource 9 (q 4) (withSource 20 (q 2)
    { running with settings.urgency := 4, distributor.lastServed := 5 })))

/-- The source each of six takings of the round serves. -/
def served : Nat → State → List (Fin 24)
  | 0, _ => []
  | n + 1, s =>
    let t := run .distributorTakeMark s
    t.distributor.lastServed :: served n t

theorem test_round_of_choices : served 6 round = [9, 2, 2, 7, 9, 20] := by decide +kernel

/-- The charge example: charge 1998, peak 1023 at index 3, also with a second 1023 at index 5. -/
theorem test_charge :
    chargeOf 50 chargePulse.samples = 1998 ∧ peakOf chargePulse.samples = 1023 ∧ peakIndexOf chargePulse.samples = 3
      ∧ peakIndexOf [40, 120, 310, 1023, 700, 1023] = 3 := by decide +kernel

/-- The four monitors example (spec/09_capture_monitors.md), before the taking. -/
def monitors : State :=
  let d := { MonitorSettings.default with enable := true }
  withSource 11 (fun x => { x with queue := [.pulse chargePulse] })
    { running with
      settings.baseline := put running.settings.baseline 11 50
      settings.retentionDepth := 2000
      settings.monitor := #v[
        { d with sources := 0x800, flags := 8, action := .copy },
        { d with rowLo := 10, rowHi := 20, threshold := 1500, action := .mark },
        { d with flags := 16, action := .copy },
        { d with point := .atRelease, sources := 0x800, flags := 16 }]
      spy.queue := List.replicate 31 ⟨0, none, record 0 ⟨0, 0⟩ 0⟩ }

theorem test_distributorTakePulse_monitors :
    let t := run (.distributorTakePulse 0) monitors
    t.spy.hits = #v[1, 1, 1, 0] ∧ t.spy.stored = 1 ∧ t.spy.lost = 1 ∧ t.spy.queue.length = 32 ∧ t.pool.retention = [0]
      ∧ (poolEntry t 0).record.flags = 24 ∧ (poolEntry t 0).record.charge = 1998 := by decide +kernel

/-! ## Placement, claims, aging -/

/-- A context of the three contexts example with `n` references already. -/
def holding (n : Nat) (c : Context) : Context := { c with refs := List.replicate n 4000 }

/-- One pulse, three contexts: A full, B with room, C elsewhere. -/
theorem test_place_three_contexts :
    let a := holding 1024 (opened 40 ⟨699, 0⟩ ⟨701, 0⟩ 7128 ⟨709, 0⟩)
    let b := holding 310 (opened 41 ⟨700, 1000⟩ ⟨701, 0⟩ 2564 ⟨709, 0⟩)
    let c := holding 55 (opened 42 ⟨700, 1201⟩ ⟨701, 0⟩ 2363 ⟨709, 0⟩)
    let s := withContext 2 c (withContext 1 b (withContext 0 a { running with pool.freeList := [17, 18] }))
    let t := place (record 6 ⟨700, 1200⟩ 812) s
    (context t 0).lost = 1 ∧ (context t 0).flags.getLsbD 6 = true ∧ (context t 1).refs.length = 311
      ∧ (context t 1).charge = 812 ∧ context t 2 = c ∧ (poolEntry t 17).refCount = 1 ∧ t.pool.freeList = [18]
      ∧ t.pool.pulsesHeld = 1 := by decide +kernel

/-- The exhaustion example: with the free list empty the placed pulses evict the retained heads, then the distributor takes none. -/
def exhausted : State :=
  withContext 3 (opened 30 ⟨700, 0⟩ ⟨701, 0⟩ 3564 ⟨709, 0⟩)
    { running with pool.freeList := [], pool.retention := [5, 9, 2], settings.retentionDepth := 3000 }

theorem test_exhaustion :
    let p := record 13 ⟨700, 50⟩ 1
    let t := place p (place p (place p exhausted))
    let u := run (.distributorTakePulse 0) (withSource 13 (fun x => { x with queue := [.pulse chargePulse] }) t)
    (context t 3).refs = [5, 9, 2] ∧ t.pool.retainedEvicted = 3 ∧ t.latched.getLsbD 9 = true
      ∧ u.pool.poolWaits = 1 ∧ (source u 13).queue.length = 1 := by decide +kernel
/-- R59: a placement in waiting is placed when the free list has an entry. -/
theorem test_placementRetry :
    let s := { running with pool.inWaiting := some (record 1 ⟨5, 5⟩ 3), settings.retentionDepth := 100 }
    (run .placementRetry s).pool.inWaiting = none ∧ (run .placementRetry s).pool.retention = [0] := by decide +kernel

/-- Three retained entries of the aging example, at a local time. -/
def retained (o b : Nat) : State :=
  let e := fun (n : Fin 4096) (t : Stamp) (s : State) => setPoolEntry n ⟨record 1 t 0, 0⟩ s
  e 211 ⟨1003, 100⟩ (e 95 ⟨1000, 2000⟩ (e 12 ⟨1000, 3000⟩
    (at' o b { running with settings.retentionDepth := 5000, pool.retention := [211, 95, 12] })))

/-- A head that holds the queue, and the advance at which all three leave. -/
theorem test_retainedHeadAged :
    (run .retainedHeadAged (retained 1002 300)).pool.retention = [211, 95, 12]
      ∧ (run .retainedHeadAged (retained 1004 1535)).pool.retention = [211, 95, 12]
      ∧ (run .retainedHeadAged (retained 1004 1536)).pool.retention = []
      ∧ (run .retainedHeadAged (retained 1004 1536)).pool.retainedAged = 3 := by decide +kernel

/-- A pass in progress over entries 95 and 12, the window holding both. -/
def passing : State :=
  withContext 3 { opened 7 ⟨1000, 1000⟩ ⟨1001, 0⟩ 2564 ⟨1009, 0⟩ with scan := .scanning }
    { retained 1000 3100 with pool.retention := [95, 12], table.scanned := some 3, table.visits := [95, 12] }

/-- Two visits claim both entries and end the pass (R90, R92). -/
theorem test_claimVisit :
    (run .claimVisit passing).pool.retention = [12] ∧ (context (run .claimVisit passing) 3).refs = [95]
      ∧ (run .claimVisit (run .claimVisit passing)).table.scanned = none
      ∧ (context (run .claimVisit (run .claimVisit passing)) 3).scan = .noScan := by decide +kernel

/-! ## Completion and expiry -/

/-- The lagging source: events 12, 13 and 14 open, source 1 behind, at (903, 1872). -/
def lagging : State :=
  let e := fun n o c d => opened n o c 1000 d
  withContext 2 (e 14 ⟨903, 1500⟩ ⟨903, 2500⟩ ⟨905, 3372⟩)
    (withContext 1 (e 13 ⟨901, 1500⟩ ⟨901, 2500⟩ ⟨903, 3372⟩)
      (withContext 0 (e 12 ⟨901, 0⟩ ⟨901, 1000⟩ ⟨903, 1872⟩)
        (withSource 0 (activeAt ⟨903, 1900⟩) (withSource 1 (activeAt ⟨900, 3500⟩) (withSource 2 (activeAt ⟨903, 1900⟩)
          (at' 903 1872 running))))))

/-- Step 4: event 12 expires missing source 1, event 13 completes, event 14 stays OPEN. -/
theorem test_closeOrDeadlineReached :
    let t := run .closeOrDeadlineReached lagging
    (context t 0).state = .expired ∧ (context t 0).missing = 2 ∧ (context t 0).flags = eventIncomplete
      ∧ (context t 1).state = .complete ∧ (context t 1).missing = 0 ∧ (context t 2).state = .opened
      ∧ (source t 1).standing = .lagging ∧ (source t 1).counters.wentLagging = 1 := by decide +kernel

/-- Steps 5 and 6: a mark behind event 14's close leaves source 1 LAGGING, one past it makes it ACTIVE. -/
theorem test_distributorTakeMark_returns :
    let t := run .closeOrDeadlineReached lagging
    let mark := fun m s => run .distributorTakeMark (withSource 1 (fun x => { x with queue := [.mark m] }) s)
    (source (mark ⟨902, 100⟩ t) 1).standing = .lagging ∧ (source (mark ⟨903, 2600⟩ (mark ⟨902, 100⟩ t)) 1).standing = .active := by
  decide +kernel

/-! ## Release, stream and data link -/

/-- Event 30 of the worked release, at the head of the opening order and COMPLETE. -/
def finished : State :=
  let e := fun (n : Fin 4096) (i : Fin 24) (t : Nat) (c : Nat) (f : BitVec 5) (r : Nat) (s : State) =>
    setPoolEntry n ⟨{ record i ⟨610, t⟩ c with samples := List.replicate (if n = 305 then 32 else if n = 120 then 6 else 1) 9,
                                               flags := f }, r⟩ s
  e 120 11 300 1998 8 2 (e 121 4 301 30 0 1 (e 305 19 302 2100 0 1
    (withContext 5
      { opened 30 ⟨610, 200⟩ ⟨610, 3200⟩ 3000 ⟨612, 0⟩ with
        state := .complete, triggers := [⟨⟨610, 200⟩, 2, .line 2⟩], refs := [120, 121, 305], charge := 4128, flags := 8 }
      { running with
        settings.route := put running.settings.route 2 ⟨true, true⟩
        settings.monitor := put running.settings.monitor 1
          { MonitorSettings.default with enable := true, point := .atRelease, threshold := 2000, action := .mark }
        router.readout := [⟨29, List.replicate 16000 0⟩] })))

/-- The worked release's start: 33 words in the readout queue, MARKED, the stream phase at progress 0. -/
theorem test_releaseStart :
    let t := run .releaseStart finished
    readoutWords t = 16033 ∧ (context t 5).flags = 24 ∧ (context t 5).state = .releasing
      ∧ t.builder.job = some ⟨5, ⟨true, true⟩, 33, 0⟩ ∧ t.spy.hits = #v[0, 1, 0, 0] := by decide +kernel
/-- The same with too few free words: the POLL copy is lost. -/
theorem test_releaseStart_no_room :
    let t := run .releaseStart { finished with router.readout := [⟨29, List.replicate 16360 0⟩] }
    readoutWords t = 16360 ∧ t.builder.copiesLost = 1 ∧ t.latched.getLsbD 10 = true ∧ (context t 5).flags = 24 := by
  decide +kernel
/-- The end of the stream phase: 33 words, 120 held on, 121 and 305 free again. -/
theorem test_streamWordWrite :
    let t := out (execTimes .streamWordWrite 33 (run .releaseStart finished))
    t.router.buffer.length = 33 ∧ t.pool.freeList = [0, 1, 2, 3, 4, 121, 305] ∧ (poolEntry t 120).refCount = 1
      ∧ t.builder.eventsReleased = 1 ∧ (context t 5).state = .free := by decide +kernel
/-- The first words of the block: header with trigger count 1 and length 33, number 30, open (610, 200), close (610, 3200). -/
theorem test_event_block_header :
    (eventBlock finished 5).take 4 = [0x00010021, 30, 0x002620C8, 0x00262C80] := by decide +kernel
/-- R137: a unit carries its delimiters; an ABORTED ending goes first. -/
theorem test_dataLinkUnitSend :
    (run .dataLinkUnitSend { running with router.buffer := [⟨7, true, true⟩] }).dataLinkOut = [⟨true, some 7, some 1⟩]
      ∧ (run .dataLinkUnitSend { running with router.owed := some 5, router.buffer := [⟨7, true, true⟩] }).dataLinkOut
        = [⟨false, none, some 0x80000005⟩] := by decide +kernel
theorem test_hold :
    (run .dataLinkUnitSend (run .holdAsserted { running with router.buffer := [⟨7, true, true⟩] })).dataLinkOut = []
      ∧ (run .holdReleased (run .holdAsserted running)).router.hold = false := by decide +kernel

/-! ## Command link -/

/-- A STATUS of tag 3 octet by octet, and under check mode ON its check word, computed by hand from R176 (0x3CFB). -/
theorem test_commandFrame :
    (run (.commandFrame [0x02, 0x00, 0x03, 0x00]) (begun idle)).cmd.replies.map (fun r => (r.kind, r.tag, r.status))
      = [(2, 3, .ok)]
      ∧ (run (.commandFrame [0x02, 0x00, 0x03, 0x00, 0x00, 0x00, 0x3C, 0xFB])
        { begun idle with cmd.frameChecked := true }).cmd.replies.map (fun r => (r.kind, r.tag, r.status, r.checked))
      = [(2, 3, .ok, true)] := by decide +kernel
/-- The change of check mode, steps 1 and 2: B is judged under ON, too short, and A leaves the check mode ON. -/
theorem test_check_mode_change :
    let a := run (.configure (.frame 1 [(123, 1)] 1)) (run .commandFrameBegins { idle with cmd.framing := .between })
    let b := run (.commandFrame [0x02, 0x00, 0x02, 0x00]) (run .commandFrameBegins a)
    b.cmd.replies.map (fun r => (r.tag, r.status, r.checked)) = [(1, .ok, false), (2, .badLength, true)]
      ∧ b.cmd.framesReceived = 2 ∧ b.cmd.framesRefused = 1 ∧ highest b = 11 := by decide +kernel
/-- The CONFIGURE refused part way: 3 applied, index 3, clamps (1, 255) and (2, 256). -/
theorem test_configure_part_way :
    let pairs : List (Word × Word) := [(28, 3), (52, 300), (46, 100), (44, 70000), (106, 1)]
    (run (.configure (.frame 1 pairs 127)) (begun idle)).cmd.replies.map (fun r => (r.status, r.body))
      = [(.badValue, [3, 3, 2, 0x020000FF, 0x04000100])]
      ∧ (run (.configure (.frame 1 pairs 127)) (begun running)).cmd.replies.map (fun r => (r.status, r.body))
      = [(.wrongState, [1, 1, 0])] := by decide +kernel
/-- R189: the pairs may be taken one after another. -/
theorem test_configure_resumes :
    let t := run (.configure (.frame 1 [(44, 1), (45, 2)] 1)) (begun idle)
    t.settings.grace = 1 ∧ t.cmd.replies = [] ∧ (run (.configure (.resume 1)) t).settings.retentionDepth = 2
      ∧ (run (.configure (.resume 1)) t).cmd.replies.length = 1 := by decide +kernel
theorem test_identify : (run (.identify 5) (begun State.reset)).cmd.replies.map (fun r => (r.tag, r.body))
    = [(5, [2416, 1, 24, 16, 4096, 1024])] := by decide +kernel
/-- The worked sequence of conditions, step 3: {5, 6, 7, READY} with floor 1; in RUNNING with enough room. -/
def conditions : State :=
  { running with
    settings.alertFloor := 1, settings.poolMargin := 2, latched := 0xE0, router.readout := [⟨30, List.replicate 33 1⟩] }
theorem test_status : (run (.status 5) (begun conditions)).cmd.replies.map (fun r => r.body) = [[0x40E0, 5, 1, 1]] := by
  decide +kernel
/-- Step 6: clearing 2, 5 and 14 leaves LINK_MALFORMED highest and ALERT down. -/
theorem test_clearConditions :
    (run (.clearConditions 5 [2, 5, 14]) (begun { conditions with latched := 0xE4 })).cmd.replies.map (fun r => r.body)
      = [[0x40C0, 6]] := by decide +kernel
theorem test_clearConditions_bad_code :
    let t := run (.clearConditions 5 [5, 17]) (begun conditions)
    t.latched = 0xE0 ∧ t.cmd.replies.map (fun r => r.status) = [.badValue] := by decide +kernel
theorem test_readSettings :
    let b := ((run (.readSettings 5) (begun idle)).cmd.replies.flatMap fun r => r.body)
    b.length = 148 ∧ b.take 4 = [3564, 1, 0, 0] := by decide +kernel
theorem test_setTime :
    (run (.setTime 1 1048575) (begun (at' 3 7 idle))).time.now = ⟨1048575, 0⟩
      ∧ (run (.setTime 1 1048576) (begun (at' 3 7 idle))).time.now = ⟨3, 7⟩ := by decide +kernel
theorem test_start :
    (run (.start 1) (begun (withSource 2 (activeAt ⟨5, 5⟩) idle))).run = .running
      ∧ (source (run (.start 1) (begun (withSource 2 (activeAt ⟨5, 5⟩) idle))) 2).watermark = none := by decide +kernel
theorem test_stop :
    (run (.stop 1) (begun running)).run = .idle ∧ (run (.stop 1) (begun lagging)).run = .draining := by decide +kernel
/-- R140: an event open on the data link is owed an ABORTED ending with its count. -/
theorem test_abort :
    let t := run (.abort 1) (begun { lagging with
      router.inEvent := true, router.wordsSent := 6, router.buffer := [⟨1, false, false⟩] })
    t.run = .idle ∧ t.router.owed = some 6 ∧ t.router.buffer = [] ∧ t.table.order = [] := by decide +kernel
/-- R185: RESET is answered first and takes effect with its reply sent. -/
theorem test_reset_and_replySent :
    let t := run (.reset 1) (begun running)
    t.run = .running ∧ (run .replySent t).run = .init ∧ (run .replySent t).pool.fill = some 0
      ∧ (run .replySent t).replyOut.length = 1 := by decide +kernel
theorem test_sourceControlEnable : (source (run (.sourceControlEnable 1 23) (begun idle)) 23).standing = .active := by
  decide +kernel
/-- R101: disabling the only source that holds event 12 completes it. -/
theorem test_sourceControlDisable :
    (context (run (.sourceControlDisable 1 1) (begun (at' 903 1871 lagging))) 0).state = .complete := by decide +kernel
theorem test_sourceControlReset :
    (source (run (.sourceControlReset 1 4) (begun (fullQueue .link))) 4).queue = []
      ∧ (run (.sourceControlReset 1 24) (begun running)).cmd.replies.map (fun r => r.status) = [.badValue] := by
  decide +kernel
theorem test_sourceControlSetMode :
    (source (run (.sourceControlSetMode 1 4 1) (begun running)) 4).mode = .inject
      ∧ (run (.sourceControlSetMode 1 4 2) (begun running)).cmd.replies.map (fun r => r.status) = [.badValue] := by
  decide +kernel
theorem test_readCounters :
    (run (.readCounters 1 24) (begun idle)).cmd.replies.map (fun r => r.status) = [.badValue]
      ∧ (run (.readCounters 1 23) (begun idle)).cmd.replies.map (fun r => r.body.length) = [13] := by decide +kernel
theorem test_readContexts :
    (run (.readContexts 1) (begun finished)).cmd.replies.map (fun r => r.body)
      = [[0, 15, 1, 5, 2, 30, 1, 0x002620C8, 0x00262C80, 3, 0, 0, 0, 0, 0xFFFFFFFF]] := by decide +kernel

/-- The partly taken event: 31 of 150 words at the head. -/
def readout : State := begun { running with router.readout := [⟨31, List.replicate 150 8⟩, ⟨33, List.replicate 40 9⟩] }
/-- Another command frame after the reply is sent. -/
def again (s : State) : State := begun (run .replySent s)
theorem test_take :
    let t := run (.take 1) readout
    let u := run (.take 1) (again t)
    t.cmd.replies.map (fun r => r.body.take 4) = [[31, 0, 64, 86]] ∧ u.cmd.replies.map (fun r => r.body.take 4) = [[31, 64, 64, 22]]
      ∧ u.router.takePosition = 128 := by decide +kernel
theorem test_discard :
    let t := run (.discard 1) { readout with router.takePosition := 128 }
    t.cmd.replies.map (fun r => r.body) = [[31, 150, 128]] ∧ t.router.readout.length = 1 ∧ t.router.takePosition = 0 := by
  decide +kernel
theorem test_spyTake :
    (run (.spyTake 1) (begun { running with spy.queue := [⟨2, some 30, record 4 ⟨1, 2⟩ 7⟩] })).cmd.replies.map
      (fun r => r.body) = [[0x00000032, 30, 0x20011406, 0x00001002, 0x000A0007, 0x00A00000]] := by decide +kernel
theorem test_commandFrameAbandoned :
    (run .commandFrameAbandoned (begun idle)).cmd.framesAbandoned = 1
      ∧ (run .commandFrameAbandoned (begun idle)).latched.getLsbD 11 = true := by decide +kernel
theorem test_commandAlignment :
    (run .commandAlignmentGained idle).cmd.framing = .between ∧ (run .commandAlignmentLost (begun idle)).cmd.framing = .hunting := by
  decide +kernel
theorem test_idle_step : step running = .next running := by rfl
theorem test_step_runs_the_front :
    step { running with pending := [.holdAsserted, .holdReleased] }
      = .next { running with router.hold := true, pending := [.holdReleased] } := by rfl
theorem test_no_word_spells_a_command : decodeTableWord 32 0x01000000 = none := by rfl

/-! ## Witnesses: states and operands that meet the hypotheses of each statement, clause by clause -/

theorem witness_StepRunsFrontCommand :
    { running with pending := [.orbitPulse] }.pending = .orbitPulse :: [] ∧ running.pending = [] := ⟨rfl, rfl⟩

theorem witness_ZeroFillStartsStepsAndEnds :
    (run .resetLineAsserted running).resetHeld = true ∧ running.resetHeld = false
      ∧ (State.reset.resetHeld = false ∧ State.reset.pool.fill = some 0)
      ∧ (let s := { State.reset with pool.fill := some 4094 }
         s.resetHeld = false ∧ s.pool.fill = some 4094 ∧ 4094 < 4095)
      ∧ (let s := { State.reset with pool.fill := some 4095 }
         s.resetHeld = false ∧ s.pool.fill = some 4095 ∧ 4095 ≤ 4095)
      ∧ { State.reset with pool.fill := some 4096 }.pool.fill = some 4096 := by decide +kernel

theorem witness_ZeroFillTakes4096Ticks : State.reset.resetHeld = false ∧ State.reset.pool.fill = some 0 := ⟨rfl, rfl⟩

theorem witness_TimeBaseAdvancesAndSlips :
    (run .resetLineAsserted running).resetHeld = true ∧ (running.resetHeld = false ∧ running.pool.fill = none)
      ∧ (State.reset.resetHeld = false ∧ State.reset.pool.fill = some 0)
      ∧ { running with settings.timeMode := .free }.settings.timeMode = .free
      ∧ (let s := at' 3 3563 running
         s.resetHeld = false ∧ s.settings.timeMode = .locked ∧ s.time.pulseNoted = false ∧ s.time.now.bc + 1 = s.settings.ol)
      ∧ (let s := at' 3 3562 running
         s.time.pulseNoted = false ∧ s.time.now.bc + 1 < s.settings.ol) := by decide +kernel

theorem witness_LastAcceptedStampForgotten :
    let s := fun b => { at' 4807 b running with intake.lastAccepted := some ⟨100, 0⟩ }
    atOrAfter 3564 (s 1468).time.now (addTicks 3564 ⟨100, 0⟩ 16777216) = true
      ∧ atOrAfter 3564 (s 1467).time.now (addTicks 3564 ⟨100, 0⟩ 16777216) = false := by decide +kernel

theorem witness_StampAndWindowArithmetic :
    (⟨1048575, 63⟩ : Stamp).bc < 64 ∧ (⟨0, 0⟩ : Stamp).orbit < 1048576 ∧ 65535 ≤ 1048576 * 64
      ∧ dist 64 ⟨0, 0⟩ ⟨1048575, 63⟩ = 1 ∧ dist 64 ⟨1048575, 63⟩ ⟨0, 0⟩ = 67108863 := by decide +kernel

theorem witness_LineSamplesMakeRequests :
    (run .resetLineAsserted running).resetHeld = true ∧ (running.resetHeld = false ∧ running.intake.sampled.get 0 = false)
      ∧ { running with intake.sampled := Vector.replicate 4 true }.intake.sampled.get 0 = true := by decide +kernel

/-- Hold-off 25 with the stamp 24 ticks after the last accepted one, and 25 after it with the table full. -/
def heldOff : State := { burst with intake.lastAccepted := some ⟨500, 100⟩ }
/-- A full table whose youngest context coalesces with nothing. -/
def fullTable : State :=
  { heldOff with table.slots := Vector.replicate 16 (opened 0 ⟨0, 0⟩ ⟨1, 0⟩ 3564 ⟨3, 0⟩), table.order := allSlots }

theorem witness_RequestRefusals :
    idle.run ≠ .running
      ∧ (heldOff.run = .running ∧ heldOff.intake.lastAccepted = some ⟨500, 100⟩
          ∧ dist heldOff.settings.ol ⟨500, 124⟩ ⟨500, 100⟩ < heldOff.settings.holdOff)
      ∧ (fullTable.run = .running
          ∧ (∀ l, fullTable.intake.lastAccepted = some l →
              fullTable.settings.holdOff ≤ dist fullTable.settings.ol ⟨500, 125⟩ l)
          ∧ coalesceTarget fullTable ⟨⟨500, 125⟩, 0, .soft⟩ = none ∧ (∀ i, (context fullTable i).state ≠ .free)
          ∧ fullTable.settings.fullPolicy.get 0 = .refuse) := by
  refine ⟨by decide, by decide +kernel, by decide +kernel, ?_, by decide +kernel, by decide +kernel, by decide +kernel⟩
  intro l h
  cases h
  decide +kernel

/-- Every class merges into a full table, whose youngest context, in slot 15, opened at (500, 0) and closes at (500, 25) + `n`. -/
def mergeTable (n : Nat) (f : Context → Context) : State :=
  modContext 15 (fun _ => f (opened 15 ⟨500, 0⟩ ⟨500, 25 + n⟩ (25 + n) ⟨502, 0⟩))
    { at' 500 10 fullTable with settings.fullPolicy := Vector.replicate 8 .merge, settings.coalesce := 0 }

/-- Conditions 2, 4 and 5 of R22 fail one by one: the youngest is COMPLETE, has four triggers, or closes at the request's open. -/
theorem witness_RequestRefusals_merge :
    let r : Request := ⟨⟨500, 125⟩, 0, .soft⟩
    let a := mergeTable 1 (fun c => { c with state := .complete })
    let b := mergeTable 1 (fun c => { c with triggers := List.replicate 4 ⟨⟨500, 0⟩, 0, .soft⟩ })
    let d := mergeTable 0 id
    a.run = .running ∧ coalesceTarget a r = none ∧ (∀ i, (context a i).state ≠ .free) ∧ a.table.order.getLast? = some 15
      ∧ (context a 15).state ≠ .opened ∧ 4 ≤ (context b 15).triggers.length
      ∧ before d.settings.ol (addTicks d.settings.ol r.stamp (d.settings.offset.get r.cls)) (context d 15).winClose = false
      ∧ (request r a).2 = .full ∧ (request r b).2 = .full ∧ (request r d).2 = .full := by decide +kernel

/-- With all three conditions met the full table takes the request. -/
theorem witness_RequestMergesIntoYoungest_full :
    let s := mergeTable 1 id
    let r : Request := ⟨⟨500, 125⟩, 0, .soft⟩
    let o := addTicks s.settings.ol r.stamp (s.settings.offset.get r.cls)
    let c := addTicks s.settings.ol o (s.settings.length.get r.cls)
    s.run = .running ∧ s.intake.lastAccepted = some ⟨500, 100⟩ ∧ s.settings.holdOff ≤ dist s.settings.ol r.stamp ⟨500, 100⟩
      ∧ s.table.order.getLast? = some 15 ∧ (context s 15).state = .opened
      ∧ (∀ j, (context s j).state ≠ .free) ∧ s.settings.fullPolicy.get r.cls = .merge
      ∧ (context s 15).triggers.length < 4 ∧ before s.settings.ol o (context s 15).winClose = true
      ∧ after s.settings.ol c (context s 15).winClose = true
      ∧ (request r s).2 = .merged 15 := by decide +kernel

/-- The clauses that lead to the one opening: slot 0 holds an older context, and the lowest FREE slot is 1. -/
theorem witness_RequestOpensContext :
    let s := withContext 0 (opened 6 ⟨490, 0⟩ ⟨491, 0⟩ 3564 ⟨494, 0⟩) (at' 500 200 heldOff)
    let r : Request := ⟨⟨500, 125⟩, 0, .soft⟩
    s.run = .running
      ∧ (∀ l, s.intake.lastAccepted = some l → s.settings.holdOff ≤ dist s.settings.ol r.stamp l)
      ∧ coalesceTarget s r = none ∧ (context s 1).state = .free
      ∧ ∀ j : Fin 16, j.val < 1 → (context s j).state ≠ .free := by
  refine ⟨rfl, ?_, by decide +kernel, by decide +kernel, by decide +kernel⟩
  intro l h
  cases h
  decide +kernel

/-- An empty table at a local time, with source 0 ACTIVE at a watermark: a request of class 0 stamped (500, 125) opens at (500, 25), closes at
(501, 461) and has its deadline at (502, 897). -/
def opening (o b : Nat) (w : Stamp) : State :=
  withSource 0 (activeAt w) (at' o b { burst with settings.grace := 4000, settings.retentionDepth := 5000 })

/-- The one that opens. -/
def lateRequest : Request := ⟨⟨500, 125⟩, 0, .soft⟩

theorem opening_lawful (o b : Nat) (w : Stamp) : TableLawful (opening o b w) := by
  refine ⟨?_, ?_, ?_, ?_, ?_, ?_, ?_, ?_⟩
  all_goals (first | (intro j h; cases h) | exact List.nodup_nil | skip)
  · intro i; simp [opening, withSource, at', burst, running, part, State.reset, Table.default, context, Context.freeSlot]
  · intro i; simp [opening, withSource, at', burst, running, part, State.reset, Table.default, context, Context.freeSlot]

/-- At each of the four places that local time and the watermark can stand in, and with the table quiet in each scanner state. -/
theorem witness_RequestOpensContext_reached :
    let closed := fun s : State => atOrAfter s.settings.ol s.time.now ⟨501, 461⟩
    let overdue := fun s : State => atOrAfter s.settings.ol s.time.now ⟨502, 897⟩
    let a := opening 501 461 ⟨501, 461⟩
    let b := opening 502 897 ⟨501, 460⟩
    let c := opening 501 461 ⟨501, 460⟩
    let d := opening 501 460 ⟨501, 460⟩
    (context (request lateRequest d).1 0).winClose = ⟨501, 461⟩ ∧ (context (request lateRequest d).1 0).deadline = ⟨502, 897⟩
      ∧ closed a = true ∧ (context (request lateRequest a).1 0).state = .complete
      ∧ overdue b = true ∧ (context (request lateRequest b).1 0).state = .expired
      ∧ (context (request lateRequest b).1 0).missing = 1
      ∧ closed c = true ∧ overdue c = false ∧ (context (request lateRequest c).1 0).state = .opened
      ∧ closed d = false ∧ (context (request lateRequest d).1 0).state = .opened := by decide +kernel

theorem witness_RequestOpensContext_passed :
    AllHavePassed (opening 501 461 ⟨501, 461⟩) ⟨501, 461⟩ ∧ ¬AllHavePassed (opening 502 897 ⟨501, 460⟩) ⟨501, 461⟩
      ∧ NoneOverdue (opening 502 897 ⟨501, 460⟩) ∧ NothingReached (opening 501 460 ⟨501, 460⟩) := by
  refine ⟨?_, ?_, by decide +kernel, by decide +kernel⟩
  · intro src h
    have h0 : src = 0 := by revert src; decide +kernel
    subst h0
    exact ⟨_, rfl, by decide +kernel⟩
  · intro h
    obtain ⟨w, h1, h2⟩ := h 0 (by decide +kernel)
    have e : (⟨501, 460⟩ : Stamp) = w := Option.some.inj (Eq.trans (by decide +kernel) h1)
    subst e
    exact absurd h2 (by decide +kernel)

/-- A claim scan is requested at an open: under depth 0 none; in a pass for another slot the new one joins the tail; with the scanner IDLE its
own pass starts (R86, R89). -/
theorem test_open_requests_a_scan :
    let s := opening 501 460 ⟨501, 460⟩
    let quiet := { s with settings.retentionDepth := 0 }
    let busy := { withContext 0 { opened 6 ⟨501, 0⟩ ⟨502, 0⟩ 3564 ⟨504, 0⟩ with scan := .scanning } s with
      table.scanned := some 0, table.visits := [12, 95], pool.retention := [12, 95] }
    let idle := { s with pool.retention := [12] }
    let t := fun s => (request lateRequest s).1
    (t quiet).table.scanList = [] ∧ (context (t quiet) 0).scan = .noScan
      ∧ NothingReached busy ∧ coalesceTarget busy lateRequest = none
      ∧ (t busy).table.scanList = [1] ∧ (context (t busy) 1).scan = .queued ∧ (t busy).table.visits = [12, 95]
      ∧ (t idle).table.scanned = some 0 ∧ (t idle).table.visits = [12] ∧ (context (t idle) 0).scan = .scanning
      ∧ (t idle).table.scanList = [] := by decide +kernel

/-- Step 7 of the burst: the merge clips the window, at the last tick within coalesce 400 of the first trigger. The close is not moved, and
local time may have passed it. -/
theorem witness_RequestMergesIntoYoungest :
    let s := withContext 1 { opened 1 ⟨500, 800⟩ ⟨501, 1336⟩ 4100 ⟨504, 0⟩ with triggers := [⟨⟨500, 900⟩, 0, .soft⟩] }
      (at' 501 1400 { burst with intake.lastAccepted := some ⟨500, 1000⟩ })
    let r : Request := ⟨⟨500, 1299⟩, 3, .soft⟩
    let y := context s 1
    let o := addTicks s.settings.ol r.stamp (s.settings.offset.get r.cls)
    let c := addTicks s.settings.ol o (s.settings.length.get r.cls)
    s.run = .running
      ∧ (∀ l, s.intake.lastAccepted = some l → s.settings.holdOff ≤ dist s.settings.ol r.stamp l)
      ∧ s.table.order.getLast? = some 1 ∧ y.state = .opened ∧ s.settings.coalesce ≠ 0
      ∧ (∃ f rest, y.triggers = f :: rest ∧ dist s.settings.ol r.stamp f.stamp < s.settings.coalesce)
      ∧ y.triggers.length < 4 ∧ before s.settings.ol o y.winClose = true
      ∧ after s.settings.ol c y.winClose = false ∧ atOrAfter s.settings.ol s.time.now y.winClose = true := by
  refine ⟨rfl, ?_, by decide +kernel, by decide +kernel, by decide +kernel, ⟨_, _, rfl, by decide +kernel⟩, by decide +kernel,
    by decide +kernel, by decide +kernel, by decide +kernel⟩
  intro l h
  cases h
  decide +kernel

/-- A merge that moves the close from (500, 1900) to (500, 1999), with source 0 ACTIVE at a watermark, during the context's own pass. -/
def extending (b : Nat) (w : Stamp) : State :=
  withContext 1
    { opened 1 ⟨500, 800⟩ ⟨500, 1900⟩ 1100 ⟨504, 0⟩ with triggers := [⟨⟨500, 900⟩, 0, .soft⟩], scan := .scanning }
    (withSource 0 (activeAt w) (at' 500 b { burst with
      settings.retentionDepth := 5000, pool.retention := [12], table.scanned := some 1, table.visits := [12] }))

/-- The request that moves it. -/
def extendingRequest : Request := ⟨⟨500, 1299⟩, 3, .soft⟩

theorem extending_lawful (b : Nat) (w : Stamp) : TableLawful (extending b w) := by
  refine ⟨?_, ?_, ?_, ?_, ?_, ?_, ?_, ?_⟩
  · exact List.nodup_singleton 1
  · intro i
    by_cases h : i = 1 <;>
      simp [h, extending, withContext, opened, withSource, at', burst, running, part, State.reset, Table.default, context,
        setContext, Context.freeSlot]
  · exact List.nodup_nil
  · intro i h; cases h
  · intro i h; cases h; simp [extending, withContext, opened]
  · intro i
    by_cases h : i = 1
    · subst h; rfl
    · have h' : 1 ≠ i := fun e => h e.symm
      simp [h, h', extending, withContext, opened, withSource, at', burst, running, part, State.reset, Table.default, context,
        setContext, Context.freeSlot]
  · intro i h
    have : i = 1 := List.mem_singleton.1 h
    subst this
    simp [extending, withContext, opened, Context.freeSlot]
  · intro j h; cases h

/-- The new close not reached, with the rescan requested and the pass going on; reached and passed; reached and not passed;
the new deadline reached and the close not passed. -/
theorem witness_RequestMergesIntoYoungest_extends :
    let s := extending 1300 ⟨500, 1300⟩
    let t := fun b w => (request extendingRequest (extending b w)).1
    let late := (request extendingRequest { extending 3000 ⟨500, 1998⟩ with settings.grace := 1000 }).1
    after 3564 ⟨500, 1999⟩ (context s 1).winClose = true ∧ s.settings.retentionDepth = 5000
      ∧ (∀ j ∈ s.table.order, j = 1) ∧ s.table.scanned = some 1 ∧ s.table.visits ≠ [] ∧ 1 ∉ s.table.scanList
      ∧ (t 1300 ⟨500, 1300⟩).table.scanList = [1] ∧ (context (t 1300 ⟨500, 1300⟩) 1).scan = .scanning
      ∧ (context (t 1300 ⟨500, 1300⟩) 1).winClose = ⟨500, 1999⟩
      ∧ (context (t 1999 ⟨500, 1999⟩) 1).state = .complete ∧ (t 1999 ⟨500, 1999⟩).table.scanList = []
      ∧ (context (t 1999 ⟨500, 1998⟩) 1).state = .opened ∧ (t 1999 ⟨500, 1998⟩).intake.lastAccepted = some ⟨500, 1299⟩
      ∧ (context late 1).state = .expired ∧ (context late 1).missing = 1
      ∧ atOrAfter 3564 (extending 1999 ⟨500, 1998⟩).time.now ⟨500, 1999⟩ = true := by decide +kernel

/-- The worked merge that extends and clips, at step 3 of the pass with arrivals between visits (spec/05_assembly_contexts.md). -/
theorem test_merge_extends_clips_and_rescans :
    let s := withContext 3
      { opened 7 ⟨800, 800⟩ ⟨801, 236⟩ 3000 ⟨803, 1108⟩ with triggers := [⟨⟨800, 1000⟩, 0, .line 0⟩], scan := .scanning }
      (at' 800 1100 { running with
        settings.offset := #v[-200, -400, 0, 0, 0, 0, 0, 0], settings.length := #v[3000, 3500, 1, 1, 1, 1, 1, 1]
        settings.grace := 8000, settings.retentionDepth := 6000, settings.coalesce := 400, settings.holdOff := 0
        pool.retention := [40, 42, 43], table.scanned := some 3, table.visits := [42, 43] })
    let t := (request ⟨⟨800, 1100⟩, 1, .soft⟩ s).1
    let c := context t 3
    c.winOpen = ⟨800, 800⟩ ∧ c.winClose = ⟨801, 636⟩ ∧ c.span = 3400 ∧ c.deadline = ⟨803, 1508⟩ ∧ c.flags = eventWindowClipped
      ∧ c.triggers.length = 2 ∧ t.table.scanList = [3] ∧ c.scan = .scanning ∧ t.table.visits = [42, 43] := by decide +kernel

theorem witness_SoftTriggerChecksAndReply :
    LinkReady (begun running) ∧ (begun running).run ≠ .init ∧ (begun idle).run ≠ .running
      ∧ (8 ≤ (8#32).toNat ∧ (7#32).toNat < 8) ∧ 3564 ≤ (wordStamp 3564).bc ∧ (wordStamp 3563).bc < 3564
      ∧ after 3564 (wordStamp (stampWord ⟨5, 8⟩)) ⟨5, 7⟩ = true ∧ after 3564 (wordStamp (stampWord ⟨5, 7⟩)) ⟨5, 7⟩ = false
      ∧ before 3564 (wordStamp (stampWord ⟨5, 6⟩)) ⟨5, 7⟩ = true := by decide +kernel

theorem witness_PadFramingFollowsArrivals :
    let f := fun f => modSource 3 (fun x => { x with framing := f }) running
    (f .between).resetHeld = false ∧ (source (f .between) 3).mode = .link ∧ (source (f .between) 3).framing = .between
      ∧ (source (f .inFrame) 3).framing = .inFrame ∧ (source (f .hunting) 3).framing = .hunting
      ∧ (source (fullQueue .inject) 4).mode ≠ .link := by decide +kernel

theorem witness_PadFramesReadBack :
    Receiving (receiving 11 running) 11 ∧ running.settings.ol ≤ 4096 ∧ PulseInRange running.settings.ol chargePulse
      ∧ PulseInRange 3564 ⟨63, 127, ⟨1048575, 3563⟩, List.replicate 32 1023, 0⟩
      ∧ (⟨1048575, 3563⟩ : Stamp).orbit < 1048576 ∧ (⟨1048575, 3563⟩ : Stamp).bc < running.settings.ol := by decide +kernel

theorem witness_IdleFrameHasNoFurtherEffect :
    Receiving (receiving 11 running) 11 ∧ checkGood (idleBody 0) 0xA829 = true ∧ checkGood (idleBody 0) 0xA828 = false := by
  decide +kernel

/-- A frame of each kind of malformedness: unknown kind, n = 0, n = 33, a word too few, row 64, pad 128, bc = OL; MARK and IDLE. -/
theorem witness_MalformedFrameIsDiscarded :
    Receiving (receiving 11 running) 11
      ∧ ((0x00000000#32).extractLsb' 28 4).toNat = 0 ∧ ((0x40000000#32).extractLsb' 28 4).toNat = 4
      ∧ ((0x10000000#32).extractLsb' 0 6).toNat = 0 ∧ 32 < ((0x10000021#32).extractLsb' 0 6).toNat
      ∧ [stampWord ⟨0, 0⟩, 0].length ≠ 2 + ((((0x10000001#32).extractLsb' 0 6).toNat) + 2) / 3
      ∧ 63 < ((0x14000001#32).extractLsb' 20 8).toNat ∧ 127 < ((0x10080001#32).extractLsb' 12 8).toNat
      ∧ running.settings.ol ≤ ((stampWord ⟨0, 3564⟩).extractLsb' 0 12).toNat
      ∧ ([0] : List Word).length ≠ 2 ∧ ([] : List Word).length ≠ 1 := by decide +kernel

theorem witness_InjectStagesOrOverruns :
    let s := fun n => begun (withSource 4 (fun x => { x with mode := .inject, queue := List.replicate n (.mark ⟨1, 0⟩) }) running)
    LinkReady (s 15) ∧ (s 15).run = .running ∧ (source (s 15) 4).mode = .inject ∧ (s 15).settings.ol ≤ 4096
      ∧ PulseInRange (s 15).settings.ol chargePulse ∧ (source (s 15) 4).queue.length < 16
      ∧ 16 ≤ (source (s 16) 4).queue.length
      ∧ 24 ≤ (24#32).toNat ∧ (23#32).toNat = (23 : Fin 24).val ∧ (begun idle).run = .idle
      ∧ (source (begun running) 23).mode = .link ∧ (decodePad (s 15).settings.ol 0 false [0x30000000]).isNone = true := by
  decide +kernel

theorem witness_PulseChargeAndPeak :
    List.replicate 32 1023 ≠ [] ∧ (List.replicate 32 1023).length ≤ 32 ∧ (∀ x ∈ List.replicate 32 1023, x ≤ 1023)
      ∧ chargeOf 0 (List.replicate 32 1023) = 32736 := by decide +kernel

theorem witness_DistributorTakesPulse :
    (monitors.run = .running ∧ monitors.pool.inWaiting = none ∧ choice monitors = some 11
        ∧ (source monitors 11).queue = .pulse chargePulse :: [])
      ∧ (let s := withSource 13 (fun x => { x with queue := [.pulse chargePulse] }) { running with pool.freeList := [] }
         s.run = .running ∧ s.pool.inWaiting = none ∧ s.pool.freeList = [] ∧ s.pool.retention = []
          ∧ (source s 13).queue = .pulse chargePulse :: [] ∧ s.distributor.waiting = false
          ∧ { s with distributor.waiting := true }.distributor.waiting = true) := by decide +kernel

theorem witness_ArrivalMonitorsAndSpyQueue :
    monitors.spy.queue.length < 32
      ∧ 32 ≤ { monitors with spy.queue := List.replicate 32 ⟨0, none, record 0 ⟨0, 0⟩ 0⟩ }.spy.queue.length := by
  decide +kernel

theorem witness_PlacementWithoutWindow :
    (let p := record 6 ⟨702, 900⟩ 1
     containing running p.stamp = [] ∧ running.settings.retentionDepth = 0
      ∧ (let s := { running with settings.retentionDepth := 1 }
         0 < s.settings.retentionDepth ∧ s.pool.freeList = 0 :: [1, 2, 3, 4] ∧ containing s p.stamp = [])
      ∧ (0 < exhausted.settings.retentionDepth ∧ exhausted.pool.freeList = [] ∧ exhausted.pool.retention = 5 :: [9, 2]
          ∧ containing exhausted p.stamp = [])
      ∧ (let s := { exhausted with pool.retention := [] }
         s.pool.freeList = [] ∧ s.pool.retention = [] ∧ containing s p.stamp = []))
    ∧ (let s := { running with pool.inWaiting := some (record 1 ⟨5, 5⟩ 3) }
       s.pool.inWaiting = some (record 1 ⟨5, 5⟩ 3) ∧ s.pool.freeList ≠ []
        ∧ { s with pool.freeList := [] }.pool.freeList = []) := by decide +kernel

/-- In the middle of a pass an eviction shortens the visit list, here to its end, so that the pass ends (R91, R92). -/
theorem test_eviction_in_a_pass :
    let s := { passing with pool.freeList := [], table.visits := [95] }
    let t := place (record 6 ⟨1002, 0⟩ 1) s
    t.pool.retention = [12, 95] ∧ t.table.visits = [] ∧ t.table.scanned = none ∧ t.latched.getLsbD 9 = true
      ∧ (context t 3).scan = .noScan := by decide +kernel

/-- One containing context with 1023 references, and one with 1024; with a free entry, with a retained one, and with neither. -/
theorem witness_PlacementReferencesContexts :
    let a := fun n => holding n (opened 40 ⟨699, 0⟩ ⟨701, 0⟩ 7128 ⟨709, 0⟩)
    let s := withContext 1 (a 1024) (withContext 0 (a 1023) running)
    let full := withContext 1 (a 1024) running
    let room := fun s => (containing s ⟨700, 1200⟩).filter fun i => decide ((context s i).refs.length < 1024)
    s.table.order.Nodup ∧ s.pool.freeList = 0 :: [1, 2, 3, 4] ∧ containing s ⟨700, 1200⟩ ≠ [] ∧ room s ≠ []
      ∧ (context s 0).refs.length < 1024 ∧ 1024 ≤ (context s 1).refs.length
      ∧ (room exhausted ≠ [] ∧ exhausted.table.order.Nodup ∧ exhausted.pool.freeList = []
          ∧ exhausted.pool.retention = 5 :: [9, 2])
      ∧ (let e := { exhausted with pool.retention := [] }
         room e ≠ [] ∧ e.pool.freeList = [] ∧ e.pool.retention = [])
      ∧ room full = [] ∧ containing full ⟨700, 1200⟩ ≠ [] ∧ full.table.order.Nodup := by decide +kernel

/-- A contained pulse with the free list empty: by eviction, and waiting when there is nothing to evict (R58, R59). -/
theorem test_contained_pulse_evicts_or_waits :
    let p := record 13 ⟨700, 50⟩ 1
    let t := place p { exhausted with pool.retention := [] }
    (context (place p exhausted) 3).refs = [5] ∧ (place p exhausted).pool.retention = [9, 2]
      ∧ t.pool.inWaiting = some p ∧ t.pool.poolWaits = 1 ∧ (context t 3).refs = [] := by decide +kernel

theorem witness_ClaimVisitsAndPasses :
    passing.table.scanned = some 3 ∧ passing.table.visits = 95 :: [12]
      ∧ dist passing.settings.ol (poolEntry passing 95).record.stamp (context passing 3).winOpen < (context passing 3).span
      ∧ (context passing 3).refs.length < 1024
      ∧ (let s := modContext 3 (holding 1024) passing
         s.table.scanned = some 3 ∧ 1024 ≤ (context s 3).refs.length)
      ∧ (let s := modContext 3 (fun c => { c with span := 1000 }) { passing with table.visits := [95] }
         s.table.visits = 95 :: [] ∧ s.table.scanList = []
          ∧ ¬ dist s.settings.ol (poolEntry s 95).record.stamp (context s 3).winOpen < (context s 3).span)
      ∧ (let s := { passing with table.scanned := none, table.scanList := [3], table.visits := [] }
         s.table.scanned = none ∧ s.table.scanList = 3 :: [] ∧ s.pool.retention ≠ [])
      ∧ (passing.table.visits ≠ [] ∧ (running.table.scanned = none ∧ running.table.scanList = [])
          ∧ { passing with table.visits := [] }.table.scanned = some 3) := by decide +kernel

/-- Both entries of a pass age, which empties the visit list and ends the pass (R61, R91, R92). -/
theorem test_aging_in_a_pass :
    let t := run .retainedHeadAged (at' 1003 0 passing)
    t.pool.retention = [] ∧ t.pool.freeList = [0, 1, 2, 3, 4, 95, 12] ∧ t.pool.retainedAged = 2 ∧ t.table.visits = []
      ∧ t.table.scanned = none := by decide +kernel

/-- Event 13 at its close, with each ACTIVE source exactly at it. -/
theorem witness_ContextCompletes :
    let s := withContext 1 (opened 13 ⟨901, 1500⟩ ⟨901, 2500⟩ 1000 ⟨903, 3372⟩)
      (withSource 0 (activeAt ⟨901, 2500⟩) (at' 901 2500 running))
    s.table.order.Nodup ∧ s.table.scanList.Nodup ∧ 1 ∈ s.table.order ∧ (context s 1).state = .opened
      ∧ atOrAfter s.settings.ol s.time.now (context s 1).winClose = true
      ∧ ∀ src, (source s src).standing = .active →
          ∃ w, (source s src).watermark = some w ∧ atOrAfter s.settings.ol w (context s 1).winClose = true := by
  refine ⟨by decide +kernel, by decide +kernel, by decide +kernel, by decide +kernel, by decide +kernel, ?_⟩
  intro src h
  have h0 : src = 0 := by revert src; decide +kernel
  subst h0
  exact ⟨_, rfl, by decide +kernel⟩

/-- Event 12 at its deadline behind source 1, alone and with an older context past its close and not yet at its deadline. -/
theorem witness_ContextExpires :
    let s := withContext 0 (opened 12 ⟨901, 0⟩ ⟨901, 1000⟩ 1000 ⟨903, 1872⟩)
      (withContext 4 (opened 11 ⟨900, 0⟩ ⟨901, 900⟩ 4464 ⟨904, 0⟩) (withSource 1 (activeAt ⟨900, 3500⟩) (at' 903 1872 running)))
    let t := run .closeOrDeadlineReached s
    lagging.table.order = [] ++ 0 :: [1, 2] ∧ lagging.table.order.Nodup ∧ lagging.table.scanList.Nodup
      ∧ (context lagging 0).state = .opened
      ∧ atOrAfter lagging.settings.ol lagging.time.now (context lagging 0).deadline = true
      ∧ (source lagging 1).standing = .active ∧ ¬HasPassed lagging 1 (context lagging 0).winClose
      ∧ s.table.order = [4] ++ 0 :: [] ∧ (context s 4).state = .opened
      ∧ atOrAfter s.settings.ol s.time.now (context s 4).winClose = true
      ∧ atOrAfter s.settings.ol s.time.now (context s 4).deadline = false
      ∧ (context t 0).state = .expired ∧ (context t 4).state = .complete ∧ (source t 1).standing = .lagging
      ∧ t.monitor = ⟨1, 1⟩ := by
  refine ⟨by decide +kernel, by decide +kernel, by decide +kernel, by decide +kernel, by decide +kernel, by decide +kernel, ?_,
    by decide +kernel, by decide +kernel, by decide +kernel, by decide +kernel, by decide +kernel, by decide +kernel,
    by decide +kernel, by decide +kernel⟩
  rintro ⟨w, h, h2⟩
  have h1 : (⟨900, 3500⟩ : Stamp) = w := Option.some.inj (Eq.trans (by decide +kernel) h)
  subst h1
  exact absurd h2 (by decide +kernel)

/-- R93, R95, R113: the completion of the scanned context stops its pass, and both are counted. -/
theorem test_completion_stops_the_pass :
    let t := run .closeOrDeadlineReached (at' 1001 0 passing)
    (context t 3).state = .complete ∧ t.monitor = ⟨1, 0⟩ ∧ t.table.claimPassesStopped = 1 ∧ t.table.scanned = none := by
  decide +kernel

/-- The state after an expiry has moved the oldest OPEN context from slot 0 to slot 2, with source 1 LAGGING past its close. -/
theorem witness_SettlingLeavesNothingDue :
    let s := withSource 1 (fun x => { x with watermark := some ⟨903, 2500⟩ }) (run .closeOrDeadlineReached lagging)
    s.table.order.Nodup ∧ somethingReached s = false ∧ oldestOpen s = some 2 ∧ (source s 1).standing = .lagging
      ∧ (source s 1).watermark = some ⟨903, 2500⟩
      ∧ atOrAfter s.settings.ol ⟨903, 2500⟩ (context s 2).winClose = true := by decide +kernel

/-- Source 1 at the head of its queue with a mark, its standing and watermark of each kind. -/
theorem witness_DistributorTakesMark :
    let s := fun (x : Standing) (w : Option Stamp) (m : Stamp) =>
      withSource 1 (fun y => { y with standing := x, watermark := w, queue := [.mark m] })
        (withContext 0 (opened 12 ⟨901, 0⟩ ⟨901, 1000⟩ 1000 ⟨903, 1872⟩) (at' 901 500 running))
    let a := s .down (some ⟨900, 10⟩) ⟨901, 999⟩
    (a.run = .running ∧ a.pool.inWaiting = none ∧ choice a = some 1
      ∧ (source a 1).queue = .mark ⟨901, 999⟩ :: [] ∧ oldestOpen a = some 0)
    ∧ atOrAfter 3564 ⟨900, 9⟩ ⟨900, 10⟩ = false ∧ atOrAfter 3564 ⟨900, 10⟩ ⟨900, 10⟩ = true
    ∧ atOrAfter a.settings.ol ⟨901, 999⟩ (context a 0).winClose = false
    ∧ atOrAfter a.settings.ol ⟨901, 1000⟩ (context a 0).winClose = true
    ∧ choice (s .lagging none ⟨901, 1000⟩) = some 1 ∧ choice (s .active none ⟨901, 1000⟩) = some 1 := by decide +kernel

/-- R45, R49, R66: with an empty pool a pulse at the head of queue 0 is left out; the wait is counted and the mark of queue 1 is taken. -/
theorem witness_DistributorTakesMark_waits :
    let s := withSource 0 (fun x => { x with queue := [.pulse chargePulse] })
      (withSource 1 (fun x => { x with queue := [.mark ⟨901, 999⟩] }) { running with pool.freeList := [] })
    let t := run .distributorTakeMark s
    s.pool.freeList = [] ∧ s.pool.retention = [] ∧ s.distributor.waiting = false
      ∧ (source s 0).queue = .pulse chargePulse :: [] ∧ choice s = some 1 ∧ (source s 1).queue = .mark ⟨901, 999⟩ :: []
      ∧ t.pool.poolWaits = 1 ∧ t.distributor = ⟨1, true⟩ ∧ (source t 1).watermark = some ⟨901, 999⟩
      ∧ (source t 0).queue.length = 1 := by decide +kernel

theorem witness_SilenceReportTakesSourceDown :
    let s := fun x n => withSource 2 (fun y => { activeAt ⟨904, 0⟩ y with standing := x, silenceTimer := n }) running
    let due := fun (s : State) => s.run = .running ∧ (source s 2).mode = .link ∧ (source s 2).standing ≠ .disabled
      ∧ s.settings.silenceLimit ≤ (source s 2).silenceTimer ∧ (source s 2).silenceReported = false
    due (s .active 40000) ∧ due (s .down 40000) ∧ ¬due (s .active 39999) := by decide +kernel

/-- Event 30 with no route; in DRAINING its suppression ends the run. -/
theorem witness_EmptyRouteSuppressesEvent :
    let s := { finished with settings.route := Vector.replicate 8 ⟨false, false⟩ }
    s.builder.job = none ∧ s.table.order = 5 :: [] ∧ (context s 5).state = .complete
      ∧ (∀ tr ∈ (context s 5).triggers, s.settings.route.get tr.cls = ⟨false, false⟩)
      ∧ (context s 5).refs.Nodup ∧ ((context s 5).refs.all fun e => decide (1 ≤ (poolEntry s e).refCount)) = true
      ∧ (run .releaseStart { s with run := .draining }).run = .idle := by
  decide +kernel

/-- Event 30 of 33 words, with exactly 33 words free, with 32, and with {POLL} alone. -/
theorem witness_ReleaseStartWritesCopies :
    let s := fun n => { finished with router.readout := [⟨29, List.replicate n 0⟩] }
    let any := fun (f : Route → Bool) (s : State) => (context s 5).triggers.any fun tr => f (s.settings.route.get tr.cls)
    (s 0).builder.job = none ∧ (s 0).table.order = 5 :: [] ∧ (context (s 0) 5).state = .complete
      ∧ any Route.stream (s 0) = true ∧ any Route.poll (s 0) = true
      ∧ eventSize (s 16351) 5 + readoutWords (s 16351) ≤ 16384 ∧ ¬ eventSize (s 16352) 5 + readoutWords (s 16352) ≤ 16384
      ∧ (let p := { s 0 with settings.route := Vector.replicate 8 ⟨false, true⟩ }
         any Route.stream p = false ∧ any Route.poll p = true ∧ (context p 5).refs.Nodup) := by decide +kernel

/-- A {POLL} event released and one without copy: in DRAINING each ends the run; the references are dropped in the list's order. -/
theorem test_releaseStart_poll :
    let p := fun n r => { finished with
      run := r, router.readout := [⟨29, List.replicate n 0⟩], settings.route := Vector.replicate 8 ⟨false, true⟩ }
    let t := run .releaseStart (p 0 .running)
    t.builder.eventsReleased = 1 ∧ t.pool.freeList = [0, 1, 2, 3, 4, 121, 305] ∧ t.run = .running ∧ t.table.order = []
      ∧ (run .releaseStart (p 0 .draining)).run = .idle
      ∧ (run .releaseStart (p 16352 .draining)).builder.withoutCopy = 1
      ∧ (run .releaseStart (p 16352 .draining)).run = .idle := by decide +kernel

/-- A COPY and a COUNT monitor at the release point: one entry with the event number, two hits (R153, R155, R158). -/
theorem test_releaseStart_monitors :
    let t := run .releaseStart { finished with
      settings.monitor := #v[
        { MonitorSettings.default with enable := true, point := .atRelease, flags := 8, action := .copy },
        { MonitorSettings.default with enable := true, point := .atRelease, flags := 8, action := .count },
        MonitorSettings.default, MonitorSettings.default] }
    t.spy.hits = #v[1, 1, 0, 0] ∧ (t.spy.queue.map fun e => (e.monitor, e.event, e.pulse.source)) = [(0, some 30, 11)]
      ∧ (context t 5).flags = 8 ∧ t.latched.getLsbD 12 = true := by decide +kernel

theorem witness_EventBlockSizeAndPulseBlocks :
    let c := context finished 5
    let fits := fun t : Stamp => t.orbit < 1048576 ∧ t.bc < 4096
    c.triggers.length ≤ 4 ∧ c.refs.length ≤ 1024 ∧ eventSize finished 5 ≤ 14352 ∧ c.number < 4294967296 ∧ fits c.winOpen
      ∧ fits c.winClose ∧ c.lost ≤ 65535 ∧ c.charge ≤ 16777215 ∧ (∀ tr ∈ c.triggers, fits tr.stamp)
      ∧ c.triggers[0]? = some ⟨⟨610, 200⟩, 2, .line 2⟩
      ∧ RecordInRange ⟨23, 63, 127, ⟨1048575, 4095⟩, List.replicate 32 1023, 32736, 1023, 31, 31⟩ := by decide +kernel

/-- A stream phase in its last word, in an earlier word, and with the buffer full. -/
theorem witness_StreamWordJoinsTheBuffer :
    let s := fun k n => { finished with
      builder.job := some ⟨5, ⟨true, false⟩, 33, k⟩, router.buffer := List.replicate n ⟨0, false, false⟩ }
    running.builder.job = none ∧ (s 0 4095).builder.job = some ⟨5, ⟨true, false⟩, 33, 0⟩
      ∧ (s 0 4095).router.buffer.length < 4096 ∧ 4096 ≤ (s 0 4096).router.buffer.length ∧ 31 + 1 ≠ 33 ∧ 32 + 1 = 33
      ∧ (context (s 32 0) 5).refs.Nodup := by
  decide +kernel

theorem witness_StreamCopyIsTheEventBlock :
    let s := { finished with
      builder.job := some ⟨5, ⟨true, false⟩, eventSize finished 5, 0⟩
      router.buffer := List.replicate 4063 ⟨0, false, false⟩ }
    s.builder.job = some ⟨5, ⟨true, false⟩, eventSize s 5, 0⟩ ∧ s.router.buffer.length + eventSize s 5 ≤ 4096 := by
  decide +kernel

theorem witness_DataLinkSendsUnits :
    14352 ≤ 14352 ∧ endingWord true 14352 = 0x80003810#32 ∧
    { running with router.hold := true }.router.hold = true ∧ (running.router.hold = false ∧ running.resetHeld = false)
      ∧ { running with router.owed := some 5 }.router.owed = some 5
      ∧ (running.router.owed = none ∧ running.router.buffer = [])
      ∧ (let s := { running with router.buffer := [⟨7, true, false⟩, ⟨8, false, true⟩] }
         s.router.owed = none ∧ s.router.buffer = ⟨7, true, false⟩ :: [⟨8, false, true⟩]) := by
  decide +kernel

/-- A whole event before another, and in DRAINING the last one, after which the part is IDLE (R183). -/
theorem witness_WholeEventOnTheDataLink :
    let s := { running with router.buffer := marked [7, 8, 9] ++ marked [1] }
    s.router.hold = false ∧ s.resetHeld = false ∧ s.router.owed = none ∧ ([7, 8, 9] : List Word) ≠ []
      ∧ s.router.buffer = marked [7, 8, 9] ++ marked [1]
      ∧ (out (execTimes .dataLinkUnitSend 4 { s with run := .draining })).run = .idle
      ∧ (out (execTimes .dataLinkUnitSend 3 { s with run := .draining })).run = .draining := by decide +kernel

theorem witness_CommandFramingFollowsArrivals :
    idle.cmd.framing = .hunting ∧ (run .commandAlignmentGained idle).cmd.framing = .between
      ∧ (begun idle).cmd.framing = .inFrame ∧ idle.resetHeld = false ∧ (run .resetLineAsserted idle).resetHeld = true
      ∧ (frameOf (.take 3)).isSome = true := by
  decide +kernel

/-- A body of 255 words, the longest, and a CONFIGURE whose pairs are applied in one step. -/
theorem witness_WholeFrameIsItsCommand :
    (frameOf (.clearConditions 7 (List.replicate 255 5)) = some (.clearConditions, 7, List.replicate 255 5)
        ∧ (List.replicate 255 (5 : Word)).length ≤ 255 ∧ appliesAll (.clearConditions 7 (List.replicate 255 5)))
      ∧ (frameOf (.configure (.frame 7 [(44, 1)] 1)) = some (.configure, 7, [44, 1])
        ∧ appliesAll (.configure (.frame 7 [(44, 1)] 1))) :=
  ⟨⟨rfl, by decide +kernel, trivial⟩, rfl, Nat.le_refl 1⟩

theorem witness_FramingTestsRefuse :
    (begun idle).cmd.framing = .inFrame ∧ (begun idle).cmd.replies.length < 7
      ∧ ([1, 2, 3] : List Octet).length < 4 ∧ 1 ≤ ([9] : List Octet).length ∧ ([9, 9, 9] : List Octet).length ≤ 3
      ∧ ([] : List Word).length ≠ ((0x02000301#32).extractLsb' 0 8).toNat
      ∧ { begun idle with cmd.frameChecked := true }.cmd.frameChecked = true
      ∧ ([] : List Word).length = ((0x02000300#32).extractLsb' 0 8).toNat
      ∧ checkGood [0x02000300] 0x3CFA = false ∧ checkGood [0x02000300] 0x3CFB = true := by decide +kernel

/-- Some reply. -/
def someReply : Reply := ⟨2, 1, .ok, 0, [], false, false⟩

theorem witness_CommandsNotExecuted :
    let s := fun n => { begun idle with cmd.replies := List.replicate n someReply }
    frameOf (.take 3) = some (.take, 3, []) ∧ (s 8).cmd.framing = .inFrame ∧ 8 ≤ (s 8).cmd.replies.length
      ∧ (let c := { s 7 with cmd.configure := some ⟨[], 0, []⟩ }
         c.cmd.configure.isSome ∧ 7 ≤ c.cmd.replies.length)
      ∧ (let o := { s 7 with cmd.outstanding := some ⟨2, 1, false⟩ }
         ¬(8 ≤ o.cmd.replies.length ∨ (o.cmd.configure.isSome ∧ 7 ≤ o.cmd.replies.length)) ∧ o.cmd.outstanding.isSome)
      ∧ ((begun State.reset).cmd.outstanding = none ∧ (begun State.reset).run = .init) ∧ LinkReady (s 7)
      ∧ LinkReady (begun State.reset) ∧ 0x12#8 < 0x13#8 ∧ 0x05#8 = CommandKind.setTime.code := by decide +kernel

/-- The body lengths next to those that a kind admits. -/
theorem witness_CommandsNotExecuted_bodies :
    ¬bodyFits .setTime 0 ∧ ¬bodyFits .setTime 2 ∧ ¬bodyFits .softTrigger 3 ∧ ¬bodyFits .inject 0 ∧ ¬bodyFits .configure 255
      ∧ ¬bodyFits .identify 1 := by
  simp [bodyFits]

/-- Kind 0 and kind 0x13 are answered BAD_KIND, in INIT too; SET_TIME with two words BAD_VALUE (R180). -/
theorem test_bad_kind_and_bad_shape :
    let reply := fun (b : List Octet) (s : State) => (run (.commandFrame b) (begun s)).cmd.replies.map fun r => (r.kind, r.tag, r.status)
    reply [0x13, 0, 7, 0] State.reset = [(0x13, 7, .badKind)] ∧ reply [0, 0, 7, 0] idle = [(0, 7, .badKind)]
      ∧ reply [5, 0, 7, 2, 0, 0, 0, 0, 0, 0, 0, 0] idle = [(5, 7, .badValue)] := by decide +kernel

/-- A reply of one body word under check mode ON, with the largest tag. -/
def checkedReply : Reply := ⟨2, 0xFFF, .crcBad, 0x50000005, [7], true, true⟩

theorem witness_ReplySentAndReset :
    checkedReply.body.length ≤ 255 ∧ checkedReply.checked = true ∧ checkedReply.words.take 3 = [0x029FFF01, 0x50000005, 7]
      ∧ idle.cmd.replies = []
      ∧ (let s := run (.status 1) (begun idle)
         s.resetHeld = false ∧ (s.cmd.replies.map fun r => decide (r.taken = true ∧ r.kind = 9#8 ∧ r.status = .ok)) = [false])
      ∧ (let s := run (.reset 1) (begun idle)
         s.resetHeld = false ∧ (s.cmd.replies.map fun r => decide (r.taken = true ∧ r.kind = 9#8 ∧ r.status = .ok)) = [true])
      ∧ LinkReady (begun idle) ∧ (begun idle).run ≠ .init := by decide +kernel

/-- A frame has begun, the part is idle and the reply queue has one place left. -/
theorem witness_ReadingCommandsAnswer :
    let s := { begun idle with cmd.replies := List.replicate 7 someReply }
    LinkReady s ∧ s.run ≠ .init ∧ 24 ≤ (24#32).toNat ∧ (24#32) ≠ 0xFFFFFFFF#32 := by decide +kernel

theorem witness_HighestConditionSelected :
    (∀ k : Fin 17, 1 ≤ k.val → (pendingSet { conditions with latched := 0, router.readout := [] }).getLsbD k.val = false)
      ∧ (pendingSet conditions).getLsbD 5 = true ∧ (pendingSet conditions).getLsbD 14 = true := by decide +kernel

theorem witness_ConfigureAppliesUntilRefusal :
    let s := begun idle
    let ends := fun (o : Option (ConfigureJob × State)) => o.map fun x => (x.1.applied, x.1.clamps)
    LinkReady s ∧ s.run ≠ .init
      ∧ ends (applyAll [(28, 3), (52, 300)] ⟨[], 0, []⟩ (takenBy .configure 1 s)) = some (2, [(1, 255)])
      ∧ applyPair 44 70000 s = .refused .badValue
      ∧ (run (.configure (.frame 1 [(28, 3), (52, 300)] 1)) s).cmd.configure ≠ none :=
  ⟨by decide +kernel, by decide +kernel, by decide +kernel, rfl, by decide +kernel⟩

theorem witness_SettingsPairsAndReadBack :
    124 ≤ (124#32).toNat ∧ (running.run = .running ∧ (25 ≤ 25 ∧ (42 ≤ 42 ∧ 70 ≤ 70))) ∧ idle.run = .idle ∧ SettingsInRange idle := by
  refine ⟨by decide, by decide, by decide, ?_⟩
  unfold SettingsInRange
  decide +kernel

/-- Values at the ends of a range and next to them: orbit length, an offset, a route, the clamped settings, a monitor's rows. -/
theorem witness_SettingsPairsAndReadBack_values :
    settingTakes 0 64 ∧ settingTakes 0 4096 ∧ ¬settingTakes 0 63 ∧ ¬settingTakes 0 4097 ∧ settingTakes 2 (-2048)
      ∧ ¬settingTakes 2 (-2049) ∧ settingTakes 26 3 ∧ ¬settingTakes 26 4 ∧ settingTakes 46 256 ∧ ¬settingTakes 46 255
      ∧ ¬settingTakes 46 1048576 ∧ ¬settingTakes 70 256 ∧ settingTakes 71 16 ∧ settingTakes 77 0x3F00 ∧ ¬settingTakes 77 0x4000
      ∧ ¬settingTakes 77 0x0405 ∧ settingTakes 123 1 ∧ ¬settingTakes 123 2 := by
  simp [settingTakes]

/-- An OL out of range is refused with BAD_VALUE; a monitor's rows are read back, in a run too. -/
theorem test_settings_pair :
    (run (.configure (.frame 1 [(0, 63)] 1)) (begun idle)).cmd.replies.map (fun r => (r.status, r.body)) = [(.badValue, [0, 0, 0])]
      ∧ (settingValues (run (.configure (.frame 1 [(77, 0x0504)] 1)) (begun running)))[77]? = some 0x0504 := by decide +kernel

theorem witness_SetTimeInIdle :
    LinkReady (begun idle) ∧ (begun idle).run = .idle ∧ (1048575#32).toNat ≤ 1048575 ∧ 1048575 < (1048576#32).toNat
      ∧ (begun running).run = .running ∧ (begun State.reset).run = .init := by decide +kernel

theorem witness_StartGivesRunValues :
    LinkReady (begun idle) ∧ (begun idle).run = .idle ∧ LinkReady (begun (part .draining)) ∧ (part .draining).run = .draining := by
  decide +kernel

theorem witness_StopAndAbortEndTheRun :
    LinkReady (begun lagging) ∧ lagging.run = .running ∧ lagging.table.order ≠ []
      ∧ (running.table.order = [] ∧ running.builder.job = none ∧ running.router.buffer = [])
      ∧ (begun idle).run = .idle ∧ (part .draining).run = .draining := by decide +kernel

theorem witness_SourceControlActions :
    LinkReady (begun running) ∧ (begun running).run ≠ .init ∧ (source (begun running) 4).standing = .disabled
      ∧ (source (begun lagging) 1).standing ≠ .disabled ∧ (source (begun running) 4).mode = .link
      ∧ (source (begun (fullQueue .inject)) 4).mode = .inject ∧ 24 ≤ (24#8).toNat ∧ 2 ≤ (2#8).toNat
      ∧ 4 ≤ ((0x0400#32).extractLsb' 8 8).toNat := by decide +kernel

theorem witness_ClearConditionsClearsNamed :
    LinkReady (begun conditions) ∧ (begun conditions).run ≠ .init
      ∧ LinkReady (begun State.reset) ∧ (begun State.reset).run = .init
      ∧ (([1, 16] : List Word).all fun k => decide (1 ≤ k.toNat ∧ k.toNat ≤ 16)) = true ∧ (0#32).toNat = 0 ∧ 16 < (17#32).toNat := by decide +kernel

/-- 65 words left of the head event, and 64. -/
theorem witness_QueuesAreTakenFromTheHead :
    let s := fun pos => { readout with router.takePosition := pos }
    let e : SpyEntry := ⟨2, some 4294967295, record 23 ⟨1048575, 4095⟩ 1⟩
    RecordInRange e.pulse ∧ (∀ n, e.event = some n → n < 4294967296) ∧ (spyWords e 31).take 2 = [0x1F32#32, 0xFFFFFFFF#32] ∧
    LinkReady (s 85) ∧ (s 85).run ≠ .init ∧ LinkReady (begun State.reset) ∧ (begun State.reset).run = .init
      ∧ running.router.readout = [] ∧ running.spy.queue = []
      ∧ (s 85).router.readout = ⟨31, List.replicate 150 8⟩ :: [⟨33, List.replicate 40 9⟩] ∧ 64 < 150 - (s 85).router.takePosition
      ∧ 150 - (s 86).router.takePosition ≤ 64
      ∧ { readout with spy.queue := [⟨2, none, record 1 ⟨1, 1⟩ 1⟩] }.spy.queue = ⟨2, none, record 1 ⟨1, 1⟩ 1⟩ :: [] := by
  refine ⟨by decide +kernel, ?_, by decide +kernel⟩
  intro n h
  cases h
  decide

/-! ## A state that meets every invariant, one step from its command -/

/-- A run with one OPEN context that holds entry 0, and a tick to come. -/
def lawful : State :=
  setPoolEntry 0 ⟨record 6 ⟨700, 50⟩ 1, 1⟩
    (withContext 3 { opened 30 ⟨700, 0⟩ ⟨701, 0⟩ 3564 ⟨703, 872⟩ with refs := [0] }
      { at' 700 100 running with
        pool := { Pool.default with fill := none, freeList := entriesFrom 1 4095, leastFree := 4095 }
        pending := [.timeAdvance] })

/-- The state one step later. -/
def ticked : State := run .timeAdvance { lawful with pending := [] }
theorem lawful_steps : step lawful = .next ticked := rfl

theorem witness_StepsKeepSettingsAndTimeInRange :
    step lawful = .next ticked ∧ SettingsInRange lawful ∧ TimeInRange lawful := by
  refine ⟨lawful_steps, ?_, ?_⟩
  · unfold SettingsInRange
    decide +kernel
  · unfold TimeInRange
    decide +kernel

theorem witness_StepsKeepQueuesWithinRoom :
    step lawful = .next ticked ∧ QueuesWithinRoom lawful ∧ RepliesFit lawful ∧ ReadoutWithinRoom lawful := by
  refine ⟨lawful_steps, ?_, ?_, ?_⟩
  · unfold QueuesWithinRoom
    decide +kernel
  · unfold RepliesFit
    decide +kernel
  · exact ⟨by decide +kernel, by decide +kernel, rfl⟩

/-- The state promises nothing it does not hold: it is RUNNING, filled and not held. -/
theorem lawful_restOutsideRun : RestOutsideRun lawful := by
  unfold RestOutsideRun
  decide +kernel

theorem witness_StepsKeepTheStreamBracketed : step lawful = .next ticked ∧ StreamBracketed lawful :=
  ⟨lawful_steps, lawful_restOutsideRun, by decide +kernel, fun j h => by cases h⟩

theorem witness_StepsKeepTheTableLawful : step lawful = .next ticked ∧ TableLawful lawful := by
  refine ⟨lawful_steps, by decide +kernel, by decide +kernel, by decide +kernel, by decide +kernel, ?_, by decide +kernel, by decide +kernel,
    fun j h => by cases h⟩
  intro i h
  cases h

/-- The only context with references is slot 3's, which holds entry 0. -/
theorem lawful_holders (e : Fin 4096) : holders lawful e = if e = 0 then 1 else 0 := by
  have h : ∀ i, (context lawful i).refs = if i = 3 then [0] else [] := by decide +kernel
  unfold holders
  simp only [h]
  by_cases he : e = 0 <;> simp [allSlots, he]

/-- Entry 0 is held once and every other entry not at all. -/
theorem lawful_refCount (e : Fin 4096) : (poolEntry lawful e).refCount = if e = 0 then 1 else 0 := by
  unfold lawful
  by_cases he : e = 0
  · subst he
    rfl
  · rw [poolEntry_setPoolEntry]
    simp [he, poolEntry, withContext, setContext, at', running, part, Pool.default, Vector.get, PoolEntry.zero]

theorem witness_StepsKeepThePoolLawful : step lawful = .next ticked ∧ PoolLawful lawful := by
  have hf : lawful.pool.freeList = entriesFrom 1 4095 := rfl
  have hr : lawful.pool.retention = [] := rfl
  refine ⟨lawful_steps, lawful_restOutsideRun, witness_StepsKeepTheTableLawful.2, by decide +kernel, ?_, ?_, by decide +kernel, ?_, ?_,
    by decide +kernel, by decide +kernel, fun _ => rfl, ?_⟩
  · intro e
    rw [lawful_refCount, lawful_holders]
  · rw [hf]
    exact nodup_entriesFrom _ _ (by omega)
  · intro e _
    rw [hr]
    exact List.not_mem_nil
  · intro e
    rw [lawful_refCount, hf, hr, mem_entriesFrom _ _ _ (by omega)]
    by_cases he : e = 0
    · simp [he]
    · have : e.val ≠ 0 := fun h => he (Fin.ext h)
      simp [he]
      omega
  · rw [hf, length_entriesFrom]
    decide

theorem witness_StepsKeepTheWindowsLawful : step lawful = .next ticked ∧ WindowsLawful lawful :=
  ⟨lawful_steps, lawful_restOutsideRun, witness_StepsKeepTheTableLawful.2, witness_StepsKeepSettingsAndTimeInRange.2.1,
    witness_StepsKeepSettingsAndTimeInRange.2.2, by decide +kernel⟩

end Sys2Proof.Tests
end

