-- ==== Sys2Proof/Proofs/PadFrames.lean ====
section
/-! PROOF. Complete pad-link frames (spec/03_pad_links_and_staging_queues.md): what a receiving link does with one, and the IDLE frame. -/

namespace Sys2Proof.Machine

open Sys2Proof.Safety

/-- A link that is IN_FRAME counts the frame its end delimiter completes, then decodes it (R31, R33). -/
theorem exec_padFrameComplete_of_receiving {s : State} {i : Fin 24} (h : Receiving s i) (words : List Word) :
    exec (.padFrameComplete i words) s = .next (decodeFrame i words (frameCounted i s)) := by
  obtain ⟨held, link, inFrame⟩ := h
  have takes : receives s i = true ∧ (source s i).framing = .inFrame := ⟨by simp [receives, held, link], inFrame⟩
  calc exec (.padFrameComplete i words) s
      = .next (if receives s i ∧ (source s i).framing = .inFrame then decodeFrame i words (countFrame i s) else s) := rfl
    _ = .next (decodeFrame i words (countFrame i s)) := by rw [if_pos takes]
    _ = .next (decodeFrame i words (frameCounted i s)) := rfl

/-- A frame that decodes as `b` is taken as `b`, with the outcome of the check of its last word (R32, R33). -/
theorem decodeFrame_of_decodePad {s : State} {body : List Word} {c : Word} {b : PadBody} (i : Fin 24)
    (h : decodePad s.settings.ol 1 true (body ++ [c]) = some b) :
    decodeFrame i (body ++ [c]) s = takeBody i (checkGood body c) b s := by
  simp only [decodeFrame, h, checkPasses_concat]

/-- Past the check an IDLE body leaves the state alone (R36). -/
theorem takeBody_idle (i : Fin 24) (good : Bool) (s : State) :
    takeBody i good .idle s = if good then s else checkFailureCounted i s := by
  cases good with
  | true => rfl
  | false => rfl

/-- Settles O15: an IDLE frame decodes as IDLE, so the count of the frame and the outcome of its check are all that is left. -/
theorem idleFrameHasNoFurtherEffect : Obligations.IdleFrameHasNoFurtherEffect := by
  intro s i reserved c receiving
  have decodes : decodePad (frameCounted i s).settings.ol 1 true (idleBody reserved ++ [c]) = some .idle :=
    decodePad_idleBody 1 reserved [c] rfl
  rw [exec_padFrameComplete_of_receiving receiving, decodeFrame_of_decodePad i decodes, takeBody_idle]

end Sys2Proof.Machine
end

section
/-! PROOF. The highest pending condition (spec/10_conditions_and_the_alert_line.md): what the walk over the codes in default order
selects. -/

namespace Sys2Proof.Machine

/-- R169's order: `best` is a condition's code, and `k` has a lesser level than it, or the same level and no lower code. -/
def NotAbove (s : State) (best k : Nat) : Prop :=
  best ≠ 0 ∧ levelOf s.settings k ≤ levelOf s.settings best ∧ (levelOf s.settings k = levelOf s.settings best → best ≤ k)

/-- `best` is R169's choice among `codes`: code 0 or a pending one of them, with no pending one of them above it. -/
structure HighestAmong (s : State) (codes : List Nat) (best : Nat) : Prop where
  selected : best = 0 ∨ best ∈ codes ∧ (pendingSet s).getLsbD best = true
  notAbove : ∀ k ∈ codes, (pendingSet s).getLsbD k = true → NotAbove s best k

/-- A code that is not pending leaves the best so far. -/
theorem higher_of_not_pending {s : State} {k : Nat} (best : Nat) (h : (pendingSet s).getLsbD k = false) : higher s best k = best := by
  simp [higher, h]

/-- A pending code replaces code 0 and a best of a lesser level. -/
theorem higher_of_wins {s : State} {best k : Nat} (pending : (pendingSet s).getLsbD k = true)
    (wins : best = 0 ∨ levelOf s.settings best < levelOf s.settings k) : higher s best k = k := by
  simp [higher, pending, wins]

/-- A code of no greater level leaves the best so far, when there is one. -/
theorem higher_of_level_le {s : State} {best k : Nat} (found : best ≠ 0) (le : levelOf s.settings k ≤ levelOf s.settings best) :
    higher s best k = best := by
  simp [higher, found, le]

/-- The best so far stays when the next code, if pending, is not above it. -/
theorem HighestAmong.concat_keeping {s : State} {codes : List Nat} {best k : Nat} (h : HighestAmong s codes best)
    (notAbove : (pendingSet s).getLsbD k = true → NotAbove s best k) : HighestAmong s (codes ++ [k]) best where
  selected := h.selected.imp_right fun ⟨mem, pending⟩ => ⟨List.mem_append_left _ mem, pending⟩
  notAbove j hj pending := by
    obtain hj | rfl := List.mem_append.1 hj |>.imp_right List.mem_singleton.1
    · exact h.notAbove j hj pending
    · exact notAbove pending

/-- The next code becomes the choice when it is pending and its level is greater than that of the best so far, if there is one. -/
theorem HighestAmong.concat_replacing {s : State} {codes : List Nat} {best k : Nat} (h : HighestAmong s codes best)
    (positive : 0 < k) (pending : (pendingSet s).getLsbD k = true)
    (wins : best = 0 ∨ levelOf s.settings best < levelOf s.settings k) : HighestAmong s (codes ++ [k]) k where
  selected := .inr ⟨List.mem_append_right _ (List.mem_singleton_self k), pending⟩
  notAbove j hj jPending := by
    obtain hj | rfl := List.mem_append.1 hj |>.imp_right List.mem_singleton.1
    · obtain ⟨found, le, -⟩ := h.notAbove j hj jPending
      have lt : levelOf s.settings j < levelOf s.settings k := le.trans_lt (wins.resolve_left found)
      exact ⟨positive.ne', lt.le, fun same => absurd same lt.ne⟩
    · exact ⟨positive.ne', le_rfl, fun _ => le_rfl⟩

/-- One comparison keeps the choice right: an equal level does not replace the best so far, because a later code is a greater one. -/
theorem HighestAmong.concat_higher {s : State} {codes : List Nat} {best k : Nat} (h : HighestAmong s codes best)
    (positive : 0 < k) (later : ∀ j ∈ codes, j < k) : HighestAmong s (codes ++ [k]) (higher s best k) := by
  cases pending : (pendingSet s).getLsbD k with
  | false =>
    rw [higher_of_not_pending best pending]
    exact h.concat_keeping fun isPending => by simp [pending] at isPending
  | true =>
    by_cases wins : best = 0 ∨ levelOf s.settings best < levelOf s.settings k
    · rw [higher_of_wins pending wins]
      exact h.concat_replacing positive pending wins
    · obtain ⟨found, le⟩ : best ≠ 0 ∧ levelOf s.settings k ≤ levelOf s.settings best := by simpa using wins
      obtain ⟨mem, -⟩ := h.selected.resolve_left found
      rw [higher_of_level_le found le]
      exact h.concat_keeping fun _ => ⟨found, le, fun _ => (later best mem).le⟩

/-- The walk from code 0 over any ascending list of condition codes ends at R169's choice among them. -/
theorem highestAmong_foldl_higher (s : State) (codes : List Nat) (ascending : codes.Pairwise (· < ·))
    (positive : ∀ k ∈ codes, 0 < k) :
    HighestAmong s codes (codes.foldl (higher s) 0) := by
  induction codes using List.reverseRecOn with
  | nil => exact ⟨.inl rfl, fun _ h => absurd h List.not_mem_nil⟩
  | append_singleton codes k ih =>
    obtain ⟨ascending, -, before⟩ := List.pairwise_append.1 ascending
    have last : k ∈ codes ++ [k] := List.mem_append_right _ (List.mem_singleton_self k)
    rw [List.foldl_concat]
    exact (ih ascending fun j hj => positive j (List.mem_append_left _ hj)).concat_higher (positive k last)
      fun j hj => before j hj k (List.mem_singleton_self k)

theorem highestAmong_highest (s : State) : HighestAmong s allCodes (highest s) :=
  highestAmong_foldl_higher s allCodes (by decide) (by decide)

theorem mem_allCodes {k : Nat} : k ∈ allCodes ↔ 1 ≤ k ∧ k ≤ 16 := by
  have consecutive : allCodes = List.range' 1 16 := rfl
  rw [consecutive, List.mem_range'_1]
  omega

/-- Settles O44: `highest` is R169's choice among the sixteen codes, by the walk's invariant. -/
theorem highestConditionSelected : Obligations.HighestConditionSelected := by
  intro s
  obtain ⟨selected, notAbove⟩ := highestAmong_highest s
  simp only [mem_allCodes] at selected notAbove
  refine ⟨fun nonePending => ?_, fun ⟨k, one, sixteen, pending⟩ => ?_,
    fun k one sixteen pending => (notAbove k ⟨one, sixteen⟩ pending).2⟩
  · obtain zero | ⟨⟨one, sixteen⟩, pending⟩ := selected
    · exact zero
    · exact absurd pending (by simp [nonePending _ one sixteen])
  · obtain ⟨found, -⟩ := notAbove k ⟨one, sixteen⟩ pending
    obtain ⟨⟨lower, upper⟩, isPending⟩ := selected.resolve_left found
    exact ⟨lower, upper, isPending⟩

end Sys2Proof.Machine
end

section
/-! PROOF. What a step is made of: the elementary events of the part, each with the condition under which it happens, and every command as
a row of them. An invariant that each event keeps is kept by every step. -/

namespace Sys2Proof.Machine

open Sys2Proof.Safety

/-! ## The elementary events -/

/-- From `s` to `t` everything that the invariants read outside the pool's lists and the context table stays; the staging queues and the spy
queue grow within their room at most. -/
structure Frame (s t : State) : Prop where
  run : t.run = s.run
  resetHeld : t.resetHeld = s.resetHeld
  settings : t.settings = s.settings
  now : t.time.now = s.time.now
  fill : t.pool.fill = s.pool.fill
  job : t.builder.job = s.builder.job
  buffer : t.router.buffer = s.router.buffer
  inEvent : t.router.inEvent = s.router.inEvent
  readout : t.router.readout = s.router.readout
  takePosition : t.router.takePosition = s.router.takePosition
  outstanding : t.cmd.outstanding = s.cmd.outstanding
  configure : t.cmd.configure = s.cmd.configure
  replies : t.cmd.replies = s.cmd.replies
  queues : ∀ i, (source t i).queue.length ≤ max 16 (source s i).queue.length
  spy : t.spy.queue.length ≤ max 32 s.spy.queue.length

/-- From `c` to `d` a context keeps all but its missing set, its flags and its lost count, which stays within its clamp (R81). -/
structure SameRecord (c d : Context) : Prop where
  state : d.state = c.state
  triggers : d.triggers = c.triggers
  winOpen : d.winOpen = c.winOpen
  winClose : d.winClose = c.winClose
  span : d.span = c.span
  deadline : d.deadline = c.deadline
  refs : d.refs = c.refs
  charge : d.charge = c.charge
  scan : d.scan = c.scan
  lost : d.lost ≤ max 65535 c.lost

/-- From `s` to `t` nothing that the invariants read changes. -/
structure Quiet (s t : State) : Prop extends Frame s t where
  refCount : ∀ e, (poolEntry t e).refCount = (poolEntry s e).refCount
  freeList : t.pool.freeList = s.pool.freeList
  retention : t.pool.retention = s.pool.retention
  leastFree : t.pool.leastFree = s.pool.leastFree
  order : t.table.order = s.table.order
  scanList : t.table.scanList = s.table.scanList
  scanned : t.table.scanned = s.table.scanned
  visits : t.table.visits = s.table.visits
  contexts : ∀ i, SameRecord (context s i) (context t i)

/-- The events of the context table, the claim scanner and the pool. -/
inductive TableEvent : State → State → Prop where
  /-- An OPEN context completes or expires (R87). -/
  | left {s i st} (isOpen : (context s i).state = .opened) (next : st = .complete ∨ st = .expired) :
      TableEvent s (leaveOpen i st s)
  /-- The scanner ends or starts a pass (R89, R92). -/
  | scanned {s t} (moves : scannerMove s = some t) : TableEvent s t
  /-- A context is opened in a FREE slot (R71, R72). -/
  | opened {s i r} (running : s.run = .running) (free : (context s i).state = .free) :
      TableEvent s (setContext i (openedContext s r) { s with
        table.order := s.table.order ++ [i]
        table.nextNumber := (s.table.nextNumber + 1) % Config.eventNumbers })
  /-- A claim scan is requested for an OPEN context (R86). -/
  | requested {s i} (isOpen : (context s i).state = .opened) : TableEvent s (requestScan i s)
  /-- A trigger is merged (R75 steps 1 and 2). -/
  | merged {s i r} (admits : mergeable s i r = true) : TableEvent s (mergeTrigger i r s)
  /-- A merged trigger moves the close (R75 step 3). -/
  | extended {s i r} (admits : mergeable s i r = true) (later : extendsClose s i r = true) :
      TableEvent s (extendWindow i r (mergeTrigger i r s))
  /-- The head of the retention queue becomes FREE (R61). -/
  | aged {s e rest} (head : s.pool.retention = e :: rest) : TableEvent s (ageHead e s)
  /-- A visit passes its entry by (R90). -/
  | passedBy {s e rest} (head : s.table.visits = e :: rest) : TableEvent s { s with table.visits := rest }
  /-- A visit claims its entry (R62, R90). -/
  | claimed {s i e rest} (pass : s.table.scanned = some i) (head : s.table.visits = e :: rest) (room : hasRoom s i = true) :
      TableEvent s (claim i e { s with table.visits := rest })
  /-- A placement stores its pulse HELD for the contexts of `room` (R56). -/
  | held {s u v e p room} (taken : takeEntry s = some (e, u)) (quiet : Quiet u v) (listed : room.Sublist s.table.order)
      (some : room ≠ []) (fits : ∀ i ∈ room, (context s i).state = .opened ∧ hasRoom s i = true) : TableEvent s (storeHeld e p room v)
  /-- A placement stores its pulse RETAINED (R57). -/
  | retained {s u e p} (taken : takeEntry s = some (e, u)) : TableEvent s (storeRetained e p u)
  /-- The head of the opening order starts its release (R117). -/
  | releasing {s i} (head : s.table.order.head? = some i) (finished : isFinished s i = true) :
      TableEvent s (modContext i (fun c => { c with state := .releasing }) s)
  /-- A released context leaves the part (R119, R123, R129). -/
  | freed {s i} (released : (context s i).state = .releasing) (idle : s.builder.job = none) : TableEvent s (freeContext i s)

/-- The last word of the STREAM copy has joined the buffer, and the stream phase is over (R128, R129). -/
def streamEnded (j : StreamJob) (s : State) : State :=
  { writeStreamWord j s with builder.job := none, builder.eventsReleased := bump s.builder.eventsReleased }

/-- The events of the release builder's stream phase, the data link and the readout queue. -/
inductive StreamEvent : State → State → Prop where
  /-- A stream phase begins (R128). -/
  | begun {s i route size} (idle : s.builder.job = none) (head : s.table.order.head? = some i)
      (releasing : (context s i).state = .releasing) (positive : 0 < size) :
      StreamEvent s { s with builder.job := some ⟨i, route, size, 0⟩ }
  /-- A word that is not the last joins the stream buffer (R128, R136). -/
  | wrote {s j} (job : s.builder.job = some j) (room : s.router.buffer.length < 4096) (more : j.progress + 1 ≠ j.size) :
      StreamEvent s (writeStreamWord j s)
  /-- The last word joins the stream buffer, the stream phase ends, and the context leaves the part (R129, R136). -/
  | ended {s j} (job : s.builder.job = some j) (room : s.router.buffer.length < 4096) (last : j.progress + 1 = j.size) :
      StreamEvent s (freeContext j.slot (streamEnded j s))
  /-- A word is sent on the data link (R137). -/
  | sent {s w rest} (head : s.router.buffer = w :: rest) : StreamEvent s (sendWord w rest s)
  /-- A POLL copy joins the readout queue (R127, R143). -/
  | stored {s i} (fits : readoutFits s (eventSize s i) = true) : StreamEvent s (writePoll i s)
  /-- The head event leaves the readout queue (R145, R146). -/
  | dropped {s e rest} (head : s.router.readout = e :: rest) : StreamEvent s (dropReadoutHead rest s)
  /-- A TAKE moves the take position within the head event (R145). -/
  | took {s e rest n} (head : s.router.readout = e :: rest) (inside : n < e.words.length) :
      StreamEvent s { s with router.takePosition := n }

/-- The events of run control, the zero-fill, the time base and the settings store. -/
inductive RunEvent : State → State → Prop where
  /-- The return to IDLE (R183). -/
  | returned {s} (draining : s.run = .draining) (done : drained s = true) : RunEvent s (returnToIdle s)
  /-- START (R182). -/
  | started {s} (idle : s.run = .idle) : RunEvent s (startRun s)
  /-- STOP makes a run DRAINING (R183). -/
  | stopped {s} (running : s.run = .running) : RunEvent s { s with run := .draining }
  /-- ABORT (R184). -/
  | aborted {s} (inRun : inRun s = true) : RunEvent s (abortRun s)
  /-- The hold of a reset ends (R186). -/
  | released {s} (held : s.run = .init ∨ s.resetHeld = true) : RunEvent s (leaveReset s)
  /-- A tick of the zero-fill writes an entry (R64). -/
  | filled {s k} (e : Fin 4096) (n : Nat) (fill : s.pool.fill = some k) :
      RunEvent s { setPoolEntry e PoolEntry.zero s with pool.fill := some n }
  /-- The 4096th tick of the zero-fill (R64). -/
  | counted {s k} (n : Nat) (fill : s.pool.fill = some k) : RunEvent s { s with pool.fill := some n }
  /-- The end of the zero-fill (R64). -/
  | fillEnded {s} (fill : s.pool.fill = some Config.poolEntries) :
      RunEvent s { freePool (setPoolEntry 4095 PoolEntry.zero s) with pool.fill := none, run := .idle }
  /-- Local time becomes another stamp (R1, R6). -/
  | timed {s} (x : TimeBase) (fits : TimeInRange s → x.now.orbit < 1048576 ∧ x.now.bc < s.settings.ol) :
      RunEvent s { s with time := x }
  /-- A setting takes a value (R189). -/
  | set {s k w t} (allowed : ¬(k.idleOnly = true ∧ (s.run = .running ∨ s.run = .draining)))
      (takes : writeSetting k w s.settings = some t) : RunEvent s (installSettings t s)

/-- An elementary event. -/
inductive Event : State → State → Prop where
  | quiet {s t} (h : Quiet s t) : Event s t
  | table {s t} (h : TableEvent s t) : Event s t
  | stream {s t} (h : StreamEvent s t) : Event s t
  | run {s t} (h : RunEvent s t) : Event s t

/-- A row of elementary events. -/
abbrev Events : State → State → Prop := Relation.ReflTransGen Event

/-- What a step does to the outstanding command and the replies (R178, R179). -/
inductive LinkMoves (c d : CommandLink) : Prop where
  | kept (outstanding : d.outstanding = c.outstanding) (configure : d.configure = c.configure) (replies : d.replies = c.replies)
  /-- A reply that answers no taken command joins the queue. -/
  | refused (r : Reply) (own : r.taken = false) (room : c.replies.length + (if c.configure.isSome then 1 else 0) < 8)
      (outstanding : d.outstanding = c.outstanding) (configure : d.configure = c.configure) (replies : d.replies = c.replies ++ [r])
  /-- A command is taken and answered. -/
  | answered (r : Reply) (own : r.taken = true) (ready : c.outstanding = none) (room : c.replies.length < 8)
      (outstanding : d.outstanding.isSome = true) (configure : d.configure = none) (replies : d.replies = c.replies ++ [r])
  /-- A CONFIGURE is taken, and pairs of it are left. -/
  | begun (ready : c.outstanding = none) (room : c.replies.length < 8)
      (outstanding : d.outstanding.isSome = true) (configure : d.configure.isSome = true) (replies : d.replies = c.replies)
  /-- The CONFIGURE in progress goes on. -/
  | resumed (before : c.configure.isSome = true) (outstanding : d.outstanding = c.outstanding) (configure : d.configure.isSome = true)
      (replies : d.replies = c.replies)
  /-- The CONFIGURE in progress is answered. -/
  | configured (r : Reply) (own : r.taken = true) (before : c.configure.isSome = true) (outstanding : d.outstanding = c.outstanding)
      (configure : d.configure = none) (replies : d.replies = c.replies ++ [r])
  /-- The head reply is sent. -/
  | sent (r : Reply) (rest : List Reply) (head : c.replies = r :: rest)
      (outstanding : d.outstanding = if r.taken then none else c.outstanding) (configure : d.configure = c.configure)
      (replies : d.replies = rest)
  /-- A CONFIGURE in progress is not outstanding, which RepliesFit excludes. -/
  | unlawful (configure : c.configure.isSome = true) (outstanding : c.outstanding = none)

/-- What a step can do: a row of events, with what the command link does before and after them, or a reset. -/
inductive StepOutcome (s : State) : State → Prop where
  | moved {v} {b c : CommandLink} {r : List (List Word)} (events : Events { s with cmd := b } v) (link : LinkMoves s.cmd c) :
      StepOutcome s { v with cmd := c, replyOut := r }
  | held (u : State) : StepOutcome s (holdReset u)
  | restarted (u : State) : StepOutcome s (leaveReset (resetValues u))

end Sys2Proof.Machine
end

section
/-! PROOF. Every command as a row of elementary events. -/

namespace Sys2Proof.Machine

open Sys2Proof.Safety

/-! ## Rows of quiet events -/

theorem Frame.refl (s : State) : Frame s s where
  run := rfl
  resetHeld := rfl
  settings := rfl
  now := rfl
  fill := rfl
  job := rfl
  buffer := rfl
  inEvent := rfl
  readout := rfl
  takePosition := rfl
  outstanding := rfl
  configure := rfl
  replies := rfl
  queues _ := le_max_right _ _
  spy := le_max_right _ _

theorem Frame.trans {s t u : State} (h : Frame s t) (k : Frame t u) : Frame s u where
  run := k.run.trans h.run
  resetHeld := k.resetHeld.trans h.resetHeld
  settings := k.settings.trans h.settings
  now := k.now.trans h.now
  fill := k.fill.trans h.fill
  job := k.job.trans h.job
  buffer := k.buffer.trans h.buffer
  inEvent := k.inEvent.trans h.inEvent
  readout := k.readout.trans h.readout
  takePosition := k.takePosition.trans h.takePosition
  outstanding := k.outstanding.trans h.outstanding
  configure := k.configure.trans h.configure
  replies := k.replies.trans h.replies
  queues i := by have := h.queues i; have := k.queues i; omega
  spy := by have := h.spy; have := k.spy; omega

theorem SameRecord.refl (c : Context) : SameRecord c c :=
  ⟨rfl, rfl, rfl, rfl, rfl, rfl, rfl, rfl, rfl, le_max_right _ _⟩

theorem SameRecord.of_eq {c d : Context} (h : d = c) : SameRecord c d := h ▸ SameRecord.refl c

theorem SameRecord.trans {c d e : Context} (h : SameRecord c d) (k : SameRecord d e) : SameRecord c e where
  state := k.state.trans h.state
  triggers := k.triggers.trans h.triggers
  winOpen := k.winOpen.trans h.winOpen
  winClose := k.winClose.trans h.winClose
  span := k.span.trans h.span
  deadline := k.deadline.trans h.deadline
  refs := k.refs.trans h.refs
  charge := k.charge.trans h.charge
  scan := k.scan.trans h.scan
  lost := by have := h.lost; have := k.lost; omega

theorem Quiet.refl (s : State) : Quiet s s where
  toFrame := Frame.refl s
  refCount _ := rfl
  freeList := rfl
  retention := rfl
  leastFree := rfl
  order := rfl
  scanList := rfl
  scanned := rfl
  visits := rfl
  contexts _ := SameRecord.refl _

theorem Quiet.trans {s t u : State} (h : Quiet s t) (k : Quiet t u) : Quiet s u where
  toFrame := h.toFrame.trans k.toFrame
  refCount e := (k.refCount e).trans (h.refCount e)
  freeList := k.freeList.trans h.freeList
  retention := k.retention.trans h.retention
  leastFree := k.leastFree.trans h.leastFree
  order := k.order.trans h.order
  scanList := k.scanList.trans h.scanList
  scanned := k.scanned.trans h.scanned
  visits := k.visits.trans h.visits
  contexts i := (h.contexts i).trans (k.contexts i)

theorem Quiet.foldl {α : Type} {f : State → α → State} (hf : ∀ s x, Quiet s (f s x)) (l : List α) (s : State) :
    Quiet s (l.foldl f s) := by
  induction l generalizing s with
  | nil => exact Quiet.refl s
  | cons x l ih => exact (hf s x).trans (ih _)

/-- A state that keeps settings, local time, the zero-fill, the stream side and the link has the frame, whatever the rest is. -/
theorem frame_of_eq {s t : State} (h : t = { s with
      time := { s.time with slipCount := t.time.slipCount, correction := t.time.correction, pulseNoted := t.time.pulseNoted }
      intake := t.intake, sources := t.sources, distributor := t.distributor, monitor := t.monitor
      pool := { t.pool with fill := s.pool.fill }
      table := t.table
      builder := { t.builder with job := s.builder.job }
      router := { t.router with
        buffer := s.router.buffer, inEvent := s.router.inEvent, readout := s.router.readout
        takePosition := s.router.takePosition }
      spy := t.spy, latched := t.latched, dataLinkOut := t.dataLinkOut, replyOut := t.replyOut, pending := t.pending
      cmd := { t.cmd with
        outstanding := s.cmd.outstanding, configure := s.cmd.configure, replies := s.cmd.replies } })
    (queues : ∀ i, (source t i).queue.length ≤ max 16 (source s i).queue.length)
    (spy : t.spy.queue.length ≤ max 32 s.spy.queue.length) : Frame s t where
  run := by rw [h]
  resetHeld := by rw [h]
  settings := by rw [h]
  now := by rw [h]
  fill := by rw [h]
  job := by rw [h]
  buffer := by rw [h]
  inEvent := by rw [h]
  readout := by rw [h]
  takePosition := by rw [h]
  outstanding := by rw [h]
  configure := by rw [h]
  replies := by rw [h]
  queues := queues
  spy := spy

/-- The frame of a change to the context table, the pool and their counters alone. -/
theorem frame_of_eq' {s t : State} (h : t = { s with
      distributor := t.distributor, pool := { t.pool with fill := s.pool.fill }, table := t.table, latched := t.latched }) :
    Frame s t :=
  frame_of_eq (by rw [h]) (fun i => by rw [source_congr (t := s) (by rw [h])]; exact le_max_right _ _)
    (by rw [h]; exact le_max_right _ _)

/-- A state that moreover keeps the pool's lists and the table is quiet, whatever its counters and conditions are. -/
theorem quiet_of_eq {s t : State} (h : t = { s with
      time := { s.time with slipCount := t.time.slipCount, correction := t.time.correction, pulseNoted := t.time.pulseNoted }
      intake := t.intake, sources := t.sources, distributor := t.distributor, monitor := t.monitor
      pool := { t.pool with
        entries := s.pool.entries, freeList := s.pool.freeList, retention := s.pool.retention, fill := s.pool.fill
        leastFree := s.pool.leastFree }
      table := { t.table with
        slots := s.table.slots, order := s.table.order, scanList := s.table.scanList, scanned := s.table.scanned
        visits := s.table.visits }
      builder := { t.builder with job := s.builder.job }
      router := { t.router with
        buffer := s.router.buffer, inEvent := s.router.inEvent, readout := s.router.readout
        takePosition := s.router.takePosition }
      spy := t.spy, latched := t.latched, dataLinkOut := t.dataLinkOut, replyOut := t.replyOut, pending := t.pending
      cmd := { t.cmd with
        outstanding := s.cmd.outstanding, configure := s.cmd.configure, replies := s.cmd.replies } })
    (queues : ∀ i, (source t i).queue.length ≤ max 16 (source s i).queue.length)
    (spy : t.spy.queue.length ≤ max 32 s.spy.queue.length) : Quiet s t where
  toFrame := frame_of_eq (by rw [h]) queues spy
  refCount e := by rw [poolEntry_congr (t := s) (by rw [h])]
  freeList := by rw [h]
  retention := by rw [h]
  leastFree := by rw [h]
  order := by rw [h]
  scanList := by rw [h]
  scanned := by rw [h]
  visits := by rw [h]
  contexts i := SameRecord.of_eq (context_congr (by rw [h]) i)

/-- Counters and conditions alone. -/
theorem quiet_of_eq' {s t : State} (h : t = { s with
      time := { s.time with slipCount := t.time.slipCount, correction := t.time.correction, pulseNoted := t.time.pulseNoted }
      intake := t.intake, distributor := t.distributor, monitor := t.monitor
      pool := { t.pool with
        entries := s.pool.entries, freeList := s.pool.freeList, retention := s.pool.retention, fill := s.pool.fill
        leastFree := s.pool.leastFree }
      table := { t.table with
        slots := s.table.slots, order := s.table.order, scanList := s.table.scanList, scanned := s.table.scanned
        visits := s.table.visits }
      builder := { t.builder with job := s.builder.job }
      router := { t.router with
        buffer := s.router.buffer, inEvent := s.router.inEvent, readout := s.router.readout
        takePosition := s.router.takePosition }
      spy := { t.spy with queue := s.spy.queue }
      latched := t.latched, dataLinkOut := t.dataLinkOut, replyOut := t.replyOut, pending := t.pending
      cmd := { t.cmd with
        outstanding := s.cmd.outstanding, configure := s.cmd.configure, replies := s.cmd.replies } }) : Quiet s t :=
  quiet_of_eq (by rw [h]) (fun i => by rw [source_congr (t := s) (by rw [h])]; exact le_max_right _ _)
    (by rw [h]; exact le_max_right _ _)

theorem quiet_setSource {i : Fin 24} {x : Source} {s : State} (hx : x.queue.length ≤ max 16 (source s i).queue.length) :
    Quiet s (setSource i x s) := by
  refine quiet_of_eq rfl (fun j => ?_) (le_max_right _ _)
  rw [source_setSource]
  split
  · next h => rw [h]; exact hx
  · exact le_max_right _ _

theorem quiet_modSource {i : Fin 24} {f : Source → Source} (s : State) (hf : ∀ x, (f x).queue.length ≤ x.queue.length) :
    Quiet s (modSource i f s) := quiet_setSource ((hf _).trans (le_max_right _ _))

theorem quiet_raise (c : Latched) (s : State) : Quiet s (raise c s) := quiet_of_eq' rfl

theorem quiet_countSource (i : Fin 24) (f : SourceCounters → SourceCounters) (s : State) : Quiet s (countSource i f s) :=
  quiet_modSource s fun _ => le_rfl

/-- A context changed in its missing set, flags and lost count alone. -/
theorem quiet_setContext {i : Fin 16} {c : Context} {s : State} (h : SameRecord (context s i) c) : Quiet s (setContext i c s) where
  toFrame := frame_of_eq' rfl
  refCount _ := rfl
  freeList := rfl
  retention := rfl
  leastFree := rfl
  order := rfl
  scanList := rfl
  scanned := rfl
  visits := rfl
  contexts j := by
    rw [context_setContext]
    split
    · next e => rw [e]; exact h
    · exact SameRecord.refl _

theorem quiet_noteChoice (s : State) : Quiet s (noteChoice s) := by
  obtain h | ⟨-, -, h⟩ := noteChoice_cases s
  · rw [h]; exact Quiet.refl s
  · rw [h]; exact quiet_of_eq' rfl

theorem quiet_endWait (s : State) : Quiet s (endWait s) := by
  rw [endWait_eq]; exact quiet_of_eq' rfl

theorem quiet_offerSpy (e : SpyEntry) (s : State) : Quiet s (offerSpy e s) := by
  obtain ⟨room, h⟩ | ⟨-, h⟩ := offerSpy_cases e s
  · rw [h]
    refine quiet_of_eq rfl (fun _ => le_max_right _ _) ?_
    simp only [List.length_append, List.length_singleton]
    omega
  · rw [h]; exact quiet_of_eq' rfl

theorem quiet_countHit (m : Fin 4) (s : State) : Quiet s (countHit m s) := quiet_of_eq' rfl

theorem quiet_presentArrival (sp : State × PulseRecord) (m : Fin 4) : Quiet sp.1 (presentArrival sp m).1 := by
  simp only [presentArrival]
  split
  · split
    · exact (quiet_countHit m sp.1).trans (quiet_offerSpy _ _)
    · exact quiet_countHit m sp.1
    · exact quiet_countHit m sp.1
  · exact Quiet.refl _

theorem quiet_foldl_presentArrival (l : List (Fin 4)) (sp : State × PulseRecord) :
    Quiet sp.1 (l.foldl presentArrival sp).1 := by
  induction l generalizing sp with
  | nil => exact Quiet.refl _
  | cons m l ih => exact (quiet_presentArrival sp m).trans (ih _)

theorem quiet_presentArrivals (p : PulseRecord) (s : State) : Quiet s (presentArrivals p s).1 :=
  quiet_foldl_presentArrival allFour (s, p)

theorem quiet_markEvent (i : Fin 16) (s : State) :
    Quiet s (modContext i (fun c => { c with flags := c.flags ||| eventMarked }) s) :=
  quiet_setContext ⟨rfl, rfl, rfl, rfl, rfl, rfl, rfl, rfl, rfl, le_max_right _ _⟩

theorem quiet_presentRelease (i : Fin 16) (p : PulseRecord) (s : State) (m : Fin 4) : Quiet s (presentRelease i p s m) := by
  simp only [presentRelease]
  split
  · split
    · exact (quiet_countHit m s).trans (quiet_offerSpy _ _)
    · exact (quiet_countHit m s).trans (quiet_markEvent i _)
    · exact quiet_countHit m s
  · exact Quiet.refl s

theorem quiet_presentReleases (i : Fin 16) (ps : List PulseRecord) (s : State) : Quiet s (presentReleases i ps s) :=
  Quiet.foldl (fun s p => Quiet.foldl (fun s m => quiet_presentRelease i p s m) _ s) ps s

theorem bumpLost_le (n : Nat) : bumpLost n ≤ max 65535 n := by
  simp only [bumpLost, Config.lostMax]
  split <;> omega

theorem quiet_refuseRef (s : State) (i : Fin 16) : Quiet s (refuseRef s i) := by
  have lost : Quiet s (setContext i { context s i with
      lost := bumpLost (context s i).lost, flags := (context s i).flags ||| eventTruncated } s) :=
    quiet_setContext ⟨rfl, rfl, rfl, rfl, rfl, rfl, rfl, rfl, rfl, bumpLost_le _⟩
  simp only [refuseRef]
  split
  · exact lost
  · exact lost.trans (Quiet.trans (quiet_of_eq' rfl) (quiet_raise .eventTruncated _))

theorem quiet_makeLagging (s : State) (i : Fin 24) : Quiet s (makeLagging s i) := quiet_modSource s fun _ => le_rfl

theorem quiet_returnTest (s : State) (i : Fin 24) : Quiet s (returnTest s i) := by
  simp only [returnTest]
  split
  · exact quiet_modSource s fun _ => le_rfl
  · exact Quiet.refl s

theorem quiet_returnTests (a : Option (Fin 16)) (s : State) : Quiet s (returnTests a s) := by
  simp only [returnTests]
  split
  · exact Quiet.foldl quiet_returnTest _ s
  · exact Quiet.refl s

/-! ## Settling and the claim scanner as rows of events -/

theorem events_quiet {s t : State} (h : Quiet s t) : Events s t := .single (.quiet h)

theorem events_table {s t : State} (h : TableEvent s t) : Events s t := .single (.table h)

theorem events_stream {s t : State} (h : StreamEvent s t) : Events s t := .single (.stream h)

theorem events_run {s t : State} (h : RunEvent s t) : Events s t := .single (.run h)

theorem events_foldl {α : Type} {f : State → α → State} (hf : ∀ s x, Events s (f s x)) (l : List α) (s : State) :
    Events s (l.foldl f s) := by
  induction l generalizing s with
  | nil => exact .refl
  | cons x l ih => exact (hf s x).trans (ih _)

theorem events_scannerMoves (n : Nat) (s : State) : Events s (scannerMoves n s) := by
  induction n generalizing s with
  | zero => exact .refl
  | succ n ih =>
    simp only [scannerMoves]
    split
    · next t moves => exact (events_table (.scanned moves)).trans (ih t)
    · exact .refl

theorem events_settleScanner (s : State) : Events s (settleScanner s) := events_scannerMoves _ s

theorem events_completeIfDone (s : State) (i : Fin 16) : Events s (completeIfDone s i) := by
  simp only [completeIfDone]
  split
  · next h =>
    obtain ⟨isOpen, -⟩ : isOpened s i = true ∧ completes s i = true := by simpa using h
    exact (events_table (.left ((isOpened_iff s i).1 isOpen) (.inl rfl))).trans (events_quiet (quiet_of_eq' rfl))
  · exact .refl

theorem events_completionPass (s : State) : Events s (completionPass s) := events_foldl events_completeIfDone _ s

theorem events_expire {s : State} {i : Fin 16} (isOpen : (context s i).state = .opened) : Events s (expire i s) := by
  let noted := modContext i (fun c => { c with
    missing := sourceSet (missingSources s i)
    flags := c.flags ||| flagsIf (!(missingSources s i).isEmpty) eventIncomplete }) s
  have note : Events s noted :=
    events_quiet (quiet_setContext ⟨rfl, rfl, rfl, rfl, rfl, rfl, rfl, rfl, rfl, le_max_right _ _⟩)
  have leave : Events noted (leaveOpen i .expired noted) :=
    events_table (.left (by rw [context_modContext_same]; exact isOpen) (.inr rfl))
  have lag : Quiet (leaveOpen i .expired noted) (expire i s) :=
    (Quiet.foldl quiet_makeLagging (missingSources s i) _).trans (quiet_of_eq' rfl)
  exact note.trans (leave.trans (events_quiet lag))

theorem events_expiries (n : Nat) (s : State) : Events s (expiries n s) := by
  induction n generalizing s with
  | zero => exact .refl
  | succ n ih =>
    simp only [expiries]
    split
    · next i overdue =>
      obtain ⟨-, isOpen, -⟩ := oldestOverdue_some overdue
      exact (events_expire isOpen).trans ((events_completionPass _).trans (ih _))
    · exact .refl

theorem events_settleFrom (a : Option (Fin 16)) (s : State) : Events s (settleFrom a s) :=
  (events_completionPass s).trans <| (events_expiries 16 _).trans <| (events_quiet (quiet_returnTests a _)).trans <|
    events_settleScanner _

theorem events_settle (s : State) : Events s (settle s) := events_settleFrom _ s

/-! ## Placement, claims and aging as rows of events -/

theorem mem_containing {s : State} {t : Stamp} {i : Fin 16} (h : i ∈ containing s t) :
    i ∈ s.table.order ∧ (context s i).state = .opened ∧ windowHolds s t i = true := by
  obtain ⟨mem, isOpen, inside⟩ : i ∈ s.table.order ∧ isOpened s i = true ∧ windowHolds s t i = true := by
    simpa [containing] using h
  exact ⟨mem, (isOpened_iff s i).1 isOpen, inside⟩


theorem quiet_waitPlacement (p : PulseRecord) (s : State) : Quiet s (waitPlacement p s) := quiet_of_eq' rfl

theorem quiet_countOrphan (p : PulseRecord) (s : State) : Quiet s (countOrphan p s) := quiet_countSource _ _ s

theorem events_placeAmong (t : Stamp) (p : PulseRecord) (s : State) : Events s (placeAmong (containing s t) p s) := by
  simp only [placeAmong]
  split
  · split
    · next e u taken =>
      split
      · exact events_table (.retained taken)
      · next some =>
        refine events_table (.held taken (Quiet.foldl quiet_refuseRef _ u) (List.filter_sublist.trans List.filter_sublist)
          (by simpa using some) fun i hi => ?_)
        obtain ⟨mem, room⟩ := List.mem_filter.1 hi
        obtain ⟨-, isOpen, -⟩ := mem_containing mem
        exact ⟨isOpen, room⟩
    · exact events_quiet (quiet_waitPlacement p s)
  · split
    · exact events_quiet (quiet_countOrphan p s)
    · exact events_quiet (Quiet.trans (quiet_of_eq' rfl) (Quiet.foldl quiet_refuseRef _ _))

theorem events_place (p : PulseRecord) (s : State) : Events s (place p s) :=
  (events_placeAmong p.stamp p s).trans (events_settleScanner _)

theorem events_ageHeads (n : Nat) (s : State) : Events s (ageHeads n s) := by
  induction n generalizing s with
  | zero => exact .refl
  | succ n ih =>
    simp only [ageHeads]
    split
    · exact .refl
    · next e rest head =>
      split
      · exact (events_table (.aged head)).trans (ih _)
      · exact .refl

theorem events_claimVisit (s : State) : Events s (claimVisit s) := by
  simp only [claimVisit]
  split
  · next i e rest pass head =>
    refine Relation.ReflTransGen.trans ?_ (events_settleScanner _)
    have passed : Events s { s with table.visits := rest } := events_table (.passedBy head)
    simp only [visit]
    split
    · split
      · next room => exact events_table (.claimed pass head room)
      · exact passed.trans (events_quiet (quiet_refuseRef _ i))
    · exact passed
  · exact .refl

theorem events_claimVisits (n : Nat) (s : State) : Events s (claimVisits n s) := by
  induction n generalizing s with
  | zero => exact .refl
  | succ n ih => exact (events_claimVisit s).trans (ih _)

/-! ## Staging, the distributor and trigger requests as rows of events -/

theorem quiet_overrun (i : Fin 24) (s : State) : Quiet s (overrun i s) :=
  (quiet_modSource s fun _ => by exact le_rfl).trans (quiet_raise .linkOverrun _)

theorem quiet_stage (i : Fin 24) (e : StagingEntry) (s : State) : Quiet s (stage i e s) := by
  obtain ⟨room, h⟩ | ⟨-, h⟩ := stage_cases i e s
  · rw [h]
    refine Quiet.trans (quiet_setSource ?_) (quiet_noteChoice _)
    simp only [List.length_append, List.length_singleton]
    omega
  · rw [h]; exact quiet_overrun i s

theorem quiet_malformed (i : Fin 24) (s : State) : Quiet s (malformed i s) :=
  (quiet_countSource i _ s).trans (quiet_raise .linkMalformed _)

theorem quiet_checkFailure (i : Fin 24) (s : State) : Quiet s (checkFailure i s) :=
  (quiet_countSource i _ s).trans (quiet_raise .linkMalformed _)

theorem quiet_setFraming (i : Fin 24) (f : Framing) (s : State) : Quiet s (setFraming i f s) := quiet_modSource s fun _ => le_rfl

theorem quiet_padStart (i : Fin 24) (s : State) : Quiet s (padStart i s) := by
  simp only [padStart]
  split
  · split
    · exact Quiet.refl s
    · exact quiet_setFraming i _ s
    · exact quiet_malformed i s
  · exact Quiet.refl s

theorem quiet_stageInRun (i : Fin 24) (e : StagingEntry) (s : State) : Quiet s (stageInRun i e s) := by
  simp only [stageInRun]
  split
  · exact quiet_stage i e s
  · exact Quiet.refl s

theorem quiet_takeBody (i : Fin 24) (good : Bool) (b : PadBody) (s : State) : Quiet s (takeBody i good b s) := by
  have checked : Quiet s (if good then s else checkFailure i s) := by
    split
    · exact Quiet.refl s
    · exact quiet_checkFailure i s
  simp only [takeBody]
  split
  · exact checked.trans (quiet_stageInRun i _ _)
  · split
    · exact quiet_stageInRun i _ s
    · exact quiet_checkFailure i s
  · exact checked

theorem quiet_decodeFrame (i : Fin 24) (words : List Word) (s : State) : Quiet s (decodeFrame i words s) := by
  simp only [decodeFrame]
  split
  · exact quiet_takeBody i _ _ s
  · exact quiet_malformed i s

theorem quiet_countFrame (i : Fin 24) (s : State) : Quiet s (countFrame i s) := quiet_modSource s fun _ => le_rfl

theorem quiet_popQueue {s : State} {i : Fin 24} {e : StagingEntry} {rest : List StagingEntry}
    (h : (source s i).queue = e :: rest) : Quiet s (popQueue i rest s) := by
  refine Quiet.trans (t := { s with distributor.lastServed := i }) (quiet_of_eq' rfl) (quiet_setSource ?_)
  have own : source { s with distributor.lastServed := i } i = source s i := rfl
  rw [own, h]
  simp only [List.length_cons]
  omega

theorem quiet_countLate (i : Fin 24) (late : Bool) (s : State) : Quiet s (countLate i late s) := by
  simp only [countLate]
  split
  · exact quiet_countSource i _ s
  · exact Quiet.refl s

theorem events_takePulse {s : State} {i : Fin 24} {p : PulseEntry} {rest : List StagingEntry} (visits : Nat)
    (h : (source s i).queue = .pulse p :: rest) : Events s (takePulse visits i p rest s) := by
  have shown : Quiet s (presentArrivals (computedPulse s i p) (countLate i (isLate s i p.stamp) (popQueue i rest s))).1 :=
    ((quiet_popQueue h).trans (quiet_countLate i _ _)).trans (quiet_presentArrivals _ _)
  simp only [takePulse, endTaking]
  generalize presentArrivals (computedPulse s i p) (countLate i (isLate s i p.stamp) (popQueue i rest s)) = sp at shown
  exact (events_quiet shown).trans <| (events_claimVisits visits _).trans <| (events_place _ _).trans <|
    events_quiet (quiet_noteChoice _)

theorem events_takeMark (i : Fin 24) (s : State) : Events s (takeMark i s) := by
  simp only [takeMark]
  split
  · exact events_settle s
  · exact events_settle s
  · split
    · exact (events_quiet (quiet_modSource s fun _ => by exact le_rfl)).trans (events_settle _)
    · exact events_settle s
  · split
    · exact (events_quiet (quiet_modSource s fun _ => by exact le_rfl)).trans (events_settle _)
    · exact (events_quiet ((quiet_makeLagging s i).trans (quiet_raise .sourceLagging _))).trans (events_settle _)

theorem events_takeMarkEntry {s : State} {i : Fin 24} {t : Stamp} {rest : List StagingEntry}
    (h : (source s i).queue = .mark t :: rest) : Events s (takeMarkEntry i t rest s) := by
  have popped : Events s (popQueue i rest s) := events_quiet (quiet_popQueue h)
  simp only [takeMarkEntry, endTaking]
  refine popped.trans (Relation.ReflTransGen.trans ?_ (events_quiet (quiet_noteChoice _)))
  split
  · exact (events_quiet (quiet_modSource _ fun _ => by exact le_rfl)).trans (events_takeMark i _)
  · exact events_quiet (quiet_countSource i _ _)

theorem lowestFree_free {s : State} {i : Fin 16} (h : lowestFree s = some i) : (context s i).state = .free := by
  simpa using List.find?_some h

theorem context_counted (s : State) (k : Intake) (i : Fin 16) : context { s with intake := k } i = context s i := rfl

theorem events_openContext {s : State} {i : Fin 16} (r : Request) (running : s.run = .running)
    (free : (context s i).state = .free) : Events s (openContext i r s) :=
  (events_table (.opened (r := r) running free)).trans <|
    events_table (.requested (by rw [context_setContext_same]; rfl))

theorem mergeable_opened {s : State} {i : Fin 16} {r : Request} (h : mergeable s i r = true) :
    (context s i).state = .opened ∧ (context s i).triggers.length < 4
      ∧ before s.settings.ol (requestOpen s r) (context s i).winClose = true := by
  simpa [mergeable, isOpened_iff, and_assoc] using h

theorem events_mergeContext {s : State} {i : Fin 16} {r : Request} (h : mergeable s i r = true) :
    Events s (mergeContext i r s) := by
  obtain ⟨isOpen, -, -⟩ := mergeable_opened h
  simp only [mergeContext]
  split
  · next later =>
    have still : (context (extendWindow i r (mergeTrigger i r s)) i).state = .opened := by
      simp only [extendWindow, mergeTrigger, context_modContext_same]
      exact isOpen
    exact (events_table (.extended h later)).trans <| (events_table (.requested still)).trans (events_settle _)
  · exact events_table (.merged h)

theorem events_acceptOpen {s : State} {i : Fin 16} (r : Request) (running : s.run = .running)
    (free : (context s i).state = .free) : Events s (acceptOpen i r s).1 := by
  refine Relation.ReflTransGen.trans ?_ (events_settleFrom _ _)
  exact (events_quiet (t := { s with intake.accepted := bump s.intake.accepted, intake.lastAccepted := some r.stamp })
    (quiet_of_eq' rfl)).trans (events_openContext r running free)

theorem events_acceptMerge {s : State} {i : Fin 16} {r : Request} (h : mergeable s i r = true) :
    Events s (acceptMerge i r s).1 :=
  (events_quiet (t := { s with
      intake.accepted := bump s.intake.accepted, intake.merged := bump s.intake.merged
      intake.lastAccepted := some r.stamp }) (quiet_of_eq' rfl)).trans (events_mergeContext h)

theorem coalesceTarget_mergeable {s : State} {r : Request} {i : Fin 16} (h : coalesceTarget s r = some i) :
    mergeable s i r = true := by
  obtain ⟨-, both⟩ := Option.filter_eq_some_iff.1 h
  exact (Bool.and_eq_true_iff.1 both).2

theorem policyTarget_mergeable {s : State} {r : Request} {i : Fin 16} (h : policyTarget s r = some i) :
    mergeable s i r = true := by
  simp only [policyTarget] at h
  split at h
  · exact (Option.filter_eq_some_iff.1 h).2
  · cases h

theorem events_request (r : Request) (s : State) : Events s (request r s).1 := by
  simp only [request]
  split
  · exact events_quiet (quiet_of_eq' rfl)
  · next running =>
    replace running : s.run = .running := not_not.1 running
    split
    · exact events_quiet (quiet_of_eq' rfl)
    · split
      · next target => exact events_acceptMerge (coalesceTarget_mergeable target)
      · split
        · next free => exact events_acceptOpen r running (lowestFree_free free)
        · split
          · next target => exact events_acceptMerge (policyTarget_mergeable target)
          · exact events_quiet (quiet_of_eq' rfl)

/-! ## Releases and run control as rows of events -/

theorem events_judgeDrain (s : State) : Events s (judgeDrain s) := by
  simp only [judgeDrain]
  split
  · next h => exact events_run (.returned h.1 h.2)
  · exact .refl

/-- A context that is RELEASING leaves the part, and the return to IDLE is judged. -/
theorem events_freeAndJudge {s : State} {i : Fin 16} (released : (context s i).state = .releasing)
    (idle : s.builder.job = none) : Events s (judgeDrain (freeContext i s)) :=
  (events_table (.freed released idle)).trans (events_judgeDrain _)

theorem events_suppress {s : State} {i : Fin 16} (released : (context s i).state = .releasing)
    (idle : s.builder.job = none) : Events s (suppress i s) :=
  (events_quiet (t := { s with builder.eventsSuppressed := bump s.builder.eventsSuppressed }) (quiet_of_eq' rfl)).trans
    (events_freeAndJudge released idle)

theorem events_endWithoutCopy {s : State} {i : Fin 16} (released : (context s i).state = .releasing)
    (idle : s.builder.job = none) : Events s (endWithoutCopy i s) :=
  (events_quiet (t := { s with builder.withoutCopy := bump s.builder.withoutCopy }) (quiet_of_eq' rfl)).trans
    (events_freeAndJudge released idle)

theorem events_endRelease {s : State} {i : Fin 16} (released : (context s i).state = .releasing)
    (idle : s.builder.job = none) : Events s (endRelease i s) :=
  (events_quiet (t := { s with builder.job := none, builder.eventsReleased := bump s.builder.eventsReleased })
    (quiet_of_eq' (by rw [idle]))).trans (events_freeAndJudge released rfl)

theorem eventSize_pos (s : State) (i : Fin 16) : 0 < eventSize s i := by
  simp only [eventSize, sizeOfEvent]
  omega

/-- The event size depends on the triggers, the references and the pool's records alone. -/
theorem eventSize_congr {s t : State} {i : Fin 16} (triggers : (context t i).triggers = (context s i).triggers)
    (refs : (context t i).refs = (context s i).refs) (entries : t.pool.entries = s.pool.entries) :
    eventSize t i = eventSize s i := by
  simp only [eventSize, pulsesOf, triggers, refs, poolEntry_congr entries]

theorem events_writeCopies {s : State} {i : Fin 16} {route : Route} {poll : Bool} {size : Nat}
    (released : (context s i).state = .releasing) (idle : s.builder.job = none)
    (head : s.table.order.head? = some i) (positive : 0 < size) (fits : poll = true → readoutFits s (eventSize s i) = true) :
    Events s (writeCopies i route size poll s) := by
  have copied : Events s (if poll then writePoll i s else s) := by
    split
    · next h => exact events_stream (.stored (fits h))
    · exact .refl
  have still : (if poll then writePoll i s else s).builder.job = none
      ∧ (context (if poll then writePoll i s else s) i).state = .releasing
      ∧ (if poll then writePoll i s else s).table.order.head? = some i := by
    split
    · exact ⟨idle, released, head⟩
    · exact ⟨idle, released, head⟩
  obtain ⟨idle', released', head'⟩ := still
  simp only [writeCopies]
  generalize (if poll then writePoll i s else s) = u at copied idle' released' head'
  refine copied.trans ?_
  split
  · exact events_stream (.begun idle' head' released' positive)
  · exact events_endRelease released' idle'

theorem events_releaseCopies {s : State} {i : Fin 16} {route : Route} (released : (context s i).state = .releasing)
    (idle : s.builder.job = none) (head : s.table.order.head? = some i) : Events s (releaseCopies i route s) := by
  simp only [releaseCopies]
  generalize hpoll : (route.poll && readoutFits s (eventSize s i)) = poll
  have lost : ∃ u, (if (route.poll && !poll) = true then losePoll s else s) = u ∧ Quiet s u ∧ u.pool = s.pool
      ∧ u.table = s.table := by
    split
    · exact ⟨_, rfl, Quiet.trans (quiet_of_eq' rfl) (quiet_raise .readoutLost _), rfl, rfl⟩
    · exact ⟨_, rfl, Quiet.refl s, rfl, rfl⟩
  obtain ⟨u, hu, quietU, poolU, tableU⟩ := lost
  rw [hu]
  have shown := quiet_presentReleases i (pulsesOf s (context s i)) u
  have rest := (presents_presentReleases i (pulsesOf s (context s i)) u).rest
  generalize presentReleases i (pulsesOf s (context s i)) u = v at shown rest
  have quiet := quietU.trans shown
  have released' : (context v i).state = .releasing := (quiet.contexts i).state.trans released
  have idle' : v.builder.job = none := quiet.job.trans idle
  refine (events_quiet quiet).trans ?_
  split
  · exact events_endWithoutCopy released' idle'
  · refine events_writeCopies released' idle' (by rw [quiet.order]; exact head) (eventSize_pos s i) fun h => ?_
    have fits : readoutFits s (eventSize s i) = true := by
      rw [h] at hpoll; exact (Bool.and_eq_true_iff.1 hpoll).2
    have size : eventSize v i = eventSize s i :=
      eventSize_congr (quiet.contexts i).triggers (quiet.contexts i).refs (by rw [rest, ← poolU])
    rw [size]
    simp only [readoutFits, readoutWords, decide_eq_true_eq, quiet.readout] at fits ⊢
    exact of_decide_eq_true fits

theorem events_startRelease {s : State} {i : Fin 16} (idle : s.builder.job = none) (head : s.table.order.head? = some i)
    (finished : isFinished s i = true) : Events s (startRelease i s) := by
  have begun := events_table (.releasing head finished)
  have released : (context (modContext i (fun c => { c with state := .releasing }) s) i).state = .releasing := by
    rw [context_modContext_same]
  simp only [startRelease]
  refine begun.trans ?_
  split
  · exact events_releaseCopies released idle head
  · exact events_suppress released idle

end Sys2Proof.Machine
end

section
/-! PROOF. What a step can do: a row of elementary events and what the command link does with its replies, or a reset. -/

namespace Sys2Proof.Machine

open Sys2Proof.Safety

/-! ## The command link through a row of events -/

/-- From `c` to `d` the command link keeps its outstanding command, its CONFIGURE in progress and its replies. -/
structure LinkKept (c d : CommandLink) : Prop where
  outstanding : d.outstanding = c.outstanding
  configure : d.configure = c.configure
  replies : d.replies = c.replies

theorem LinkKept.refl (c : CommandLink) : LinkKept c c := ⟨rfl, rfl, rfl⟩

theorem LinkKept.trans {c d e : CommandLink} (h : LinkKept c d) (k : LinkKept d e) : LinkKept c e :=
  ⟨k.outstanding.trans h.outstanding, k.configure.trans h.configure, k.replies.trans h.replies⟩

theorem Frame.link {s t : State} (h : Frame s t) : LinkKept s.cmd t.cmd := ⟨h.outstanding, h.configure, h.replies⟩

theorem LinkKept.moves {c d : CommandLink} (h : LinkKept c d) : LinkMoves c d := .kept h.outstanding h.configure h.replies

theorem frame_leaveOpen (i : Fin 16) (st : ContextState) (s : State) : Frame s (leaveOpen i st s) := by
  simp only [leaveOpen]
  split
  · exact frame_of_eq' rfl
  · exact frame_of_eq' rfl

theorem frame_takeEntry {s u : State} {e : Fin 4096} (h : takeEntry s = some (e, u)) : Frame s u := by
  obtain ⟨e', rest, -, k⟩ | ⟨e', rest, -, -, k⟩ | ⟨-, -, k⟩ := takeEntry_cases s
  · obtain ⟨-, rfl⟩ := Prod.mk.inj (Option.some.inj (k.symm.trans h)); exact frame_of_eq' rfl
  · obtain ⟨-, rfl⟩ := Prod.mk.inj (Option.some.inj (k.symm.trans h)); exact frame_of_eq' rfl
  · rw [k] at h; cases h

theorem TableEvent.frame {s t : State} (h : TableEvent s t) : Frame s t := by
  cases h with
  | left isOpen next => exact frame_leaveOpen _ _ s
  | scanned moves => exact frame_of_eq' (by rw [(scans_scannerMove moves).rest])
  | opened running free => exact frame_of_eq' rfl
  | @requested i isOpen =>
    have same : requestScan i s = { s with table := (requestScan i s).table } := by rw [requestScan_eq]; rfl
    exact frame_of_eq' (by rw [same])
  | merged admits => exact frame_of_eq' rfl
  | extended admits later => exact frame_of_eq' rfl
  | aged head => exact frame_of_eq' rfl
  | passedBy head => exact frame_of_eq' rfl
  | claimed pass head room => exact frame_of_eq' rfl
  | @held u v e p room taken quiet listed some fits =>
    refine ((frame_takeEntry taken).trans quiet.toFrame).trans ?_
    rw [storeHeld, foldl_makeRef_rest]
    exact frame_of_eq' rfl
  | retained taken => exact (frame_takeEntry taken).trans (frame_of_eq' rfl)
  | releasing head finished => exact frame_of_eq' rfl
  | freed released idle => exact frame_of_eq' (by rw [(freeContext_eq _ s).1])

/-- ABORT in full (R131, R140, R184). -/
theorem abortRun_eq (s : State) : abortRun s = { freeTable (freePool (emptyStaging s)) with
    run := .idle
    intake.lastAccepted := none
    builder.job := none
    builder.aborted := if s.builder.job = none then s.builder.aborted else bump s.builder.aborted
    router := { s.router with
      buffer := []
      inEvent := false
      wordsSent := 0
      owed := if s.router.inEvent then some s.router.wordsSent else s.router.owed
      streamEventsAborted :=
        if s.router.inEvent then bump s.router.streamEventsAborted else s.router.streamEventsAborted }
    table := { (freeTable s).table with
      claimPassesStopped :=
        if s.table.scanned = none then s.table.claimPassesStopped else bump s.table.claimPassesStopped } } := by
  have release : abortRelease s = { s with
      builder.job := none
      builder.aborted := if s.builder.job = none then s.builder.aborted else bump s.builder.aborted } := by
    simp only [abortRelease]
    split
    · next h => simp [h]
    · next h => simp only [h, if_true]; rw [← h]
  have close : ∀ u : State, closeOpenEvent u = { u with router := { u.router with
      inEvent := false
      wordsSent := 0
      owed := if u.router.inEvent then some u.router.wordsSent else u.router.owed
      streamEventsAborted :=
        if u.router.inEvent then bump u.router.streamEventsAborted else u.router.streamEventsAborted } } := by
    intro u
    simp only [closeOpenEvent]
    split
    · next h => simp [h]
    · next h => rw [Bool.not_eq_true] at h; simp only [h, Bool.false_eq_true, if_false]
  have stop : ∀ u : State, stopPass u = { u with
      table.scanned := none
      table.visits := (stopPass u).table.visits
      table.claimPassesStopped :=
        if u.table.scanned = none then u.table.claimPassesStopped else bump u.table.claimPassesStopped } := by
    intro u
    simp only [stopPass]
    split
    · next h => simp [h]
    · next h => simp only [h, if_true]; rw [← h]
  simp only [abortRun]
  rw [stop, close, release]
  rfl

theorem Event.link {s t : State} (h : Event s t) : LinkKept s.cmd t.cmd := by
  cases h with
  | quiet h => exact h.link
  | table h => exact h.frame.link
  | stream h =>
    cases h with
    | ended job room last => rw [(freeContext_eq _ _).1]; exact ⟨rfl, rfl, rfl⟩
    | begun idle head releasing positive => exact ⟨rfl, rfl, rfl⟩
    | wrote job room more => exact ⟨rfl, rfl, rfl⟩
    | sent head => exact ⟨rfl, rfl, rfl⟩
    | stored fits => exact ⟨rfl, rfl, rfl⟩
    | dropped head => exact ⟨rfl, rfl, rfl⟩
    | took head inside => exact ⟨rfl, rfl, rfl⟩
  | run h =>
    cases h with
    | aborted inRun =>
      rw [abortRun_eq]
      exact ⟨rfl, rfl, rfl⟩
    | set allowed takes => simp only [installSettings]; split <;> exact ⟨rfl, rfl, rfl⟩
    | returned draining done => exact ⟨rfl, rfl, rfl⟩
    | started idle => exact ⟨rfl, rfl, rfl⟩
    | stopped running => exact ⟨rfl, rfl, rfl⟩
    | released held => exact ⟨rfl, rfl, rfl⟩
    | filled e n fill => exact ⟨rfl, rfl, rfl⟩
    | counted n fill => exact ⟨rfl, rfl, rfl⟩
    | fillEnded fill => exact ⟨rfl, rfl, rfl⟩
    | timed x fits => exact ⟨rfl, rfl, rfl⟩

theorem events_link {s t : State} (h : Events s t) : LinkKept s.cmd t.cmd := by
  induction h with
  | refl => exact LinkKept.refl _
  | tail _ last ih => exact ih.trans last.link

theorem outcome_of_events {s t : State} (h : Events s t) : StepOutcome s t := .moved h (events_link h).moves

/-- The command link's own counters and framing are no part of an outcome. -/
theorem outcome_of_link {s t : State} {c : CommandLink} (kept : LinkKept s.cmd c) (h : StepOutcome { s with cmd := c } t) :
    StepOutcome s t := by
  cases h with
  | moved events link =>
    refine .moved events ?_
    cases link with
    | kept outstanding configure replies =>
      exact (kept.trans ⟨outstanding, configure, replies⟩).moves
    | refused r own room outstanding configure replies =>
      exact .refused r own (by rw [← kept.replies, ← kept.configure]; exact room) (outstanding.trans kept.outstanding)
        (configure.trans kept.configure) (by rw [replies, ← kept.replies])
    | answered r own ready room outstanding configure replies =>
      exact .answered r own (kept.outstanding.symm.trans ready) (by rw [← kept.replies]; exact room) outstanding configure
        (by rw [replies, ← kept.replies])
    | begun ready room outstanding configure replies =>
      exact .begun (kept.outstanding.symm.trans ready) (by rw [← kept.replies]; exact room) outstanding configure
        (replies.trans kept.replies)
    | resumed before outstanding configure replies =>
      exact .resumed (by rw [← kept.configure]; exact before) (outstanding.trans kept.outstanding) configure
        (replies.trans kept.replies)
    | configured r own before outstanding configure replies =>
      exact .configured r own (by rw [← kept.configure]; exact before) (outstanding.trans kept.outstanding) configure
        (by rw [replies, ← kept.replies])
    | sent r rest head outstanding configure replies =>
      exact .sent r rest (kept.replies.symm.trans head) (by rw [outstanding, ← kept.outstanding])
        (configure.trans kept.configure) replies
    | unlawful configure outstanding =>
      exact .unlawful (by rw [← kept.configure]; exact configure) (kept.outstanding.symm.trans outstanding)
  | held u => exact .held u
  | restarted u => exact .restarted u

/-! ## The effects of the commands -/

theorem events_cmdSetTime (w : Word) (s : State) : Events s (cmdSetTime w s).1 := by
  simp only [cmdSetTime]
  split
  · exact .refl
  · split
    · next h => exact events_run (.timed { s.time with now := ⟨w.toNat, 0⟩, correction := false } fun inRange =>
        ⟨h, Nat.lt_of_lt_of_le (Nat.zero_lt_succ _) inRange.1⟩)
    · exact .refl

theorem events_cmdStart (s : State) : Events s (cmdStart s).1 := by
  simp only [cmdStart]
  split
  · next idle => exact events_run (.started idle)
  · exact .refl

theorem events_cmdStop (s : State) : Events s (cmdStop s).1 := by
  simp only [cmdStop]
  split
  · next running => exact (events_run (.stopped running)).trans (events_judgeDrain _)
  · exact .refl

theorem events_cmdAbort (s : State) : Events s (cmdAbort s).1 := by
  simp only [cmdAbort]
  split
  · next inRun => exact events_run (.aborted inRun)
  · exact .refl

theorem events_cmdSoftTrigger (cls : Word) (stamp : Option Word) (s : State) : Events s (cmdSoftTrigger cls stamp s).1 := by
  simp only [cmdSoftTrigger]
  split
  · exact .refl
  · split
    · exact events_quiet (quiet_of_eq' rfl)
    · split
      · exact .refl
      · exact events_request _ s

theorem events_enableSource (i : Fin 24) (s : State) : Events s (enableSource i s) := by
  have restarted : Quiet s (modSource i Source.restartTimer s) := quiet_modSource s fun _ => by exact le_rfl
  simp only [enableSource]
  split
  · exact (events_quiet (restarted.trans (quiet_modSource _ fun _ => by exact le_rfl))).trans (events_settle _)
  · exact events_quiet restarted

theorem events_disableSource (i : Fin 24) (s : State) : Events s (disableSource i s) := by
  simp only [disableSource]
  split
  · exact .refl
  · exact (events_quiet (quiet_modSource _ fun _ => by exact le_rfl)).trans (events_settle _)

theorem events_resetSource (i : Fin 24) (s : State) : Events s (resetSource i s) :=
  events_quiet (quiet_modSource s fun _ => Nat.zero_le _)

theorem events_setSourceMode (i : Fin 24) (m : SourceMode) (s : State) : Events s (setSourceMode i m s) := by
  simp only [setSourceMode]
  split
  · exact .refl
  · split
    · exact events_quiet (quiet_modSource s fun _ => by exact le_rfl)
    · exact events_quiet (quiet_modSource s fun _ => by exact le_rfl)

theorem events_onSource {act : Fin 24 → State → State} (h : ∀ i s, Events s (act i s)) (n : Nat) (s : State) :
    Events s (onSource n act s).1 := by
  simp only [onSource]
  split
  · exact h _ s
  · exact .refl

theorem events_cmdSetMode (n mode : Nat) (s : State) : Events s (cmdSetMode n mode s).1 := by
  simp only [cmdSetMode]
  split
  · exact events_onSource (fun i => events_setSourceMode i .link) n s
  · exact events_onSource (fun i => events_setSourceMode i .inject) n s
  · exact .refl

theorem events_cmdSourceControl (w : Word) (s : State) : Events s (cmdSourceControl w s).1 := by
  simp only [cmdSourceControl]
  split
  · exact events_onSource events_enableSource _ s
  · exact events_onSource events_disableSource _ s
  · exact events_onSource events_resetSource _ s
  · exact events_cmdSetMode _ _ s
  · exact .refl

theorem events_cmdInject (src : Word) (body : List Word) (s : State) : Events s (cmdInject src body s).1 := by
  simp only [cmdInject]
  split
  · exact .refl
  · next i _ =>
    split
    · exact .refl
    · split
      · exact .refl
      · split
        · exact events_quiet ((quiet_countSource i _ s).trans (quiet_stage i _ _))
        · exact events_quiet (quiet_malformed i s)

theorem events_cmdClearConditions (codes : List Word) (s : State) : Events s (cmdClearConditions codes s).1 := by
  simp only [cmdClearConditions]
  split
  · exact events_quiet (quiet_of_eq' rfl)
  · exact .refl

theorem events_cmdReadCounters (g : Word) (s : State) : Events s (cmdReadCounters g s).1 := by
  simp only [cmdReadCounters]
  split
  · exact .refl
  · split <;> exact .refl

theorem events_cmdTake (s : State) : Events s (cmdTake s).1 := by
  simp only [cmdTake]
  split
  · next e rest head =>
    simp only [takeHead]
    split
    · have counted : Events s { s with router.eventsTaken := bump s.router.eventsTaken } := events_quiet (quiet_of_eq' rfl)
      exact counted.trans (events_stream (.dropped (e := e) head))
    · next left =>
      exact events_stream (.took head (by omega))
  · exact .refl

theorem events_cmdDiscard (s : State) : Events s (cmdDiscard s).1 := by
  simp only [cmdDiscard]
  split
  · next e rest head =>
    have counted : Events s { s with router.eventsDiscarded := bump s.router.eventsDiscarded } := events_quiet (quiet_of_eq' rfl)
    exact counted.trans (events_stream (.dropped (e := e) head))
  · exact .refl

theorem events_cmdSpyTake (s : State) : Events s (cmdSpyTake s).1 := by
  simp only [cmdSpyTake]
  split
  · next e rest head =>
    refine events_quiet (quiet_of_eq rfl (fun _ => le_max_right _ _) ?_)
    simp only [head, List.length_cons]
    omega
  · exact .refl

/-! ## Dispatch -/

/-- What pairs of a CONFIGURE applied from `s` come to: their events, and the CONFIGURE still in progress or answered. -/
inductive Configured (s : State) : State → Prop where
  | left {v} (j : ConfigureJob) (events : Events s v) : Configured s { v with cmd.configure := some j }
  | ended {v} (st : Status) (body : List Word) (events : Events s v) :
      Configured s (buildReply st body { v with cmd.configure := none })

/-- What the dispatch of a command from `s` comes to: its events and its reply, or what a CONFIGURE comes to. -/
inductive Dispatched (s : State) : State → Prop where
  | built {v} (st : Status) (body : List Word) (events : Events s v) : Dispatched s (buildReply st body v)
  | configured {t} (h : Configured s t) : Dispatched s t

theorem events_applyPair {p v : Word} {s t : State} {c : Option Nat} (h : applyPair p v s = .applied t c) : Events s t := by
  simp only [applyPair] at h
  split at h
  · cases h
  · split at h
    · cases h
    · next allowed =>
      split at h
      · next takes =>
        obtain ⟨rfl, -⟩ := PairOutcome.applied.inj h
        exact events_run (.set allowed takes)
      · cases h

theorem configured_configureSteps (n : Nat) (j : ConfigureJob) (s u : State) (events : Events u s) :
    Configured u (configureSteps n j s) := by
  induction n generalizing j s with
  | zero =>
    unfold configureSteps
    split
    · exact .ended .ok _ events
    · exact .left j events
  | succ n ih =>
    unfold configureSteps
    split
    · exact .ended .ok _ events
    · simp only
      split
      · next applied => exact ih _ _ (events.trans (events_applyPair applied))
      · next st _ => exact .ended st _ events

theorem dispatched_finish {s : State} {d : Done} (events : Events s d.1) : Dispatched s (finish d) := .built _ _ events

theorem dispatched_runCommand (k : CommandKind) (n : Nat) (body : List Word) (s : State) :
    Dispatched s (runCommand k n body s) := by
  unfold runCommand
  split
  · exact dispatched_finish .refl
  · exact dispatched_finish .refl
  · exact .configured (configured_configureSteps n _ s s .refl)
  · exact dispatched_finish .refl
  · exact dispatched_finish (events_cmdSetTime _ s)
  · exact dispatched_finish (events_cmdStart s)
  · exact dispatched_finish (events_cmdStop s)
  · exact dispatched_finish (events_cmdAbort s)
  · exact dispatched_finish .refl
  · exact dispatched_finish (events_cmdSoftTrigger _ _ s)
  · exact dispatched_finish (events_cmdSoftTrigger _ _ s)
  · exact dispatched_finish (events_cmdSourceControl _ s)
  · exact dispatched_finish (events_cmdInject _ _ s)
  · exact dispatched_finish (events_cmdClearConditions _ s)
  · exact dispatched_finish (events_cmdReadCounters _ s)
  · exact dispatched_finish .refl
  · exact dispatched_finish (events_cmdTake s)
  · exact dispatched_finish (events_cmdDiscard s)
  · exact dispatched_finish (events_cmdSpyTake s)
  all_goals exact .built _ _ .refl

theorem dispatched_dispatch (kind : BitVec 8) (n : Nat) (body : List Word) (s : State) :
    Dispatched s (dispatch kind n body s) := by
  simp only [dispatch]
  split
  · exact .built _ _ .refl
  · split
    · exact .built _ _ .refl
    · split
      · exact dispatched_runCommand _ n body s
      · exact .built _ _ .refl

theorem buildReply_some {st : Status} {body : List Word} {s : State} {o : Outstanding} (h : s.cmd.outstanding = some o) :
    buildReply st body s = pushReply ⟨o.kind, o.tag, st, summaryWord s, body, o.checked, true⟩ s := by
  simp only [buildReply, h]

/-! ## Frames -/

/-- A command is taken with `c` as the link then stands, and dispatched. -/
theorem outcome_of_taken {s t : State} {c : CommandLink} (ready : s.cmd.outstanding = none) (place : noPlace s = false)
    (taken : c.outstanding.isSome = true) (configure : c.configure = s.cmd.configure) (replies : c.replies = s.cmd.replies)
    (h : Dispatched { s with cmd := c } t) : StepOutcome s t := by
  have room : s.cmd.replies.length < 8 := by
    obtain ⟨room, -⟩ : s.cmd.replies.length < 8 ∧ _ := by simpa [noPlace] using place
    exact room
  obtain ⟨o, ho⟩ := Option.isSome_iff_exists.1 taken
  cases h with
  | @built v st body events =>
    obtain ⟨outstanding', configure', replies'⟩ := events_link events
    rw [buildReply_some (outstanding'.trans ho)]
    refine .moved events ?_
    cases hc : s.cmd.configure with
    | none =>
      exact .answered _ rfl ready room (by rw [outstanding']; exact taken) (configure'.trans (configure.trans hc))
        (by rw [replies', replies])
    | some j => exact .unlawful (by rw [hc]; rfl) ready
  | configured h =>
   cases h with
   | left j events =>
    obtain ⟨outstanding', -, replies'⟩ := events_link events
    exact .moved events (.begun ready room (by rw [outstanding']; exact taken) rfl (replies'.trans replies))
   | @ended v st body events =>
    obtain ⟨outstanding', -, replies'⟩ := events_link events
    rw [buildReply_some (s := { v with cmd.configure := none }) (outstanding'.trans ho)]
    exact .moved (v := v) events (.answered _ rfl ready room (by rw [outstanding']; exact taken) rfl (by rw [replies', replies]))

theorem outcome_refused {s : State} {c : CommandLink} {l : BitVec 17} (r : Reply) (own : r.taken = false) (place : noPlace s = false)
    (outstanding : c.outstanding = s.cmd.outstanding) (configure : c.configure = s.cmd.configure)
    (replies : c.replies = s.cmd.replies ++ [r]) : StepOutcome s { s with cmd := c, latched := l } := by
  have room : s.cmd.replies.length + (if s.cmd.configure.isSome then 1 else 0) < 8 := by
    obtain ⟨room, room'⟩ : s.cmd.replies.length < 8 ∧ (s.cmd.configure.isSome = true → s.cmd.replies.length < 7) := by
      simpa [noPlace] using place
    split
    · next h => have := room' h; omega
    · omega
  exact .moved (v := { s with latched := l }) (events_quiet (quiet_of_eq' rfl)) (.refused r own room outstanding configure replies)

theorem outcome_refuseFrame (st : Status) (kind : BitVec 8) (tag : Tag) {s : State} (place : noPlace s = false) :
    StepOutcome s (refuseFrame st kind tag s) := outcome_refused _ rfl place rfl rfl rfl

theorem outcome_passFrame (kind : BitVec 8) (tag : Tag) (n : Nat) (body : List Word) {s : State} (place : noPlace s = false) :
    StepOutcome s (passFrame kind tag n body s) := by
  simp only [passFrame]
  split
  · exact outcome_refused (l := s.latched) _ rfl place rfl rfl rfl
  · next ready =>
    exact outcome_of_taken (c := { s.cmd with
      outstanding := some ⟨kind, tag, s.cmd.frameChecked⟩, commandsTaken := bump s.cmd.commandsTaken })
      ready place rfl rfl rfl (dispatched_dispatch kind n body _)

theorem outcome_builtFrame (kind : BitVec 8) (tag : Tag) (n : Nat) (body : List Word) (s : State) (place : noPlace s = false) :
    StepOutcome s (builtFrame kind tag n body s) := by
  simp only [builtFrame]
  split
  · exact outcome_passFrame kind tag n body place
  · exact outcome_refuseFrame .badLength kind tag place

theorem outcome_testWords (header : Word) (ws : List Word) (s : State) (place : noPlace s = false) :
    StepOutcome s (testWords header ws s) := by
  simp only [testWords]
  generalize headerLength header + (if s.cmd.frameChecked then 1 else 0) = n
  split
  · exact outcome_refuseFrame .badLength _ _ place
  · split
    · exact outcome_refuseFrame .crcBad _ _ place
    · exact outcome_passFrame _ _ _ _ place

theorem outcome_testOctets (octets : List Octet) (s : State) (place : noPlace s = false) :
    StepOutcome s (testOctets octets s) := by
  simp only [testOctets]
  split
  · exact outcome_refuseFrame .framing 0 0 place
  · split
    · exact outcome_testWords _ _ s place
    · exact outcome_refuseFrame .framing _ _ place

theorem outcome_endDelimiter {tests : State → State} (h : ∀ u, noPlace u = false → StepOutcome u (tests u)) (s : State) :
    StepOutcome s (endDelimiter tests s) := by
  simp only [endDelimiter, completeFrame]
  split
  · split
    · exact outcome_of_events (events_quiet (Quiet.trans (quiet_of_eq' rfl) (quiet_raise .commandFault _)))
    · next place =>
      exact outcome_of_link (c := { s.cmd with framing := .between, framesReceived := bump s.cmd.framesReceived })
        ⟨rfl, rfl, rfl⟩ (h _ (by simpa using place))
  · exact outcome_of_events .refl

theorem outcome_commandArrives (k : CommandKind) (tag : Tag) (body : List Word) (s : State) :
    StepOutcome s (commandArrives k tag body s) := outcome_endDelimiter (outcome_builtFrame _ _ _ _) s

/-- A CONFIGURE in progress goes on: answered, or left in progress, when it is outstanding. -/
theorem outcome_of_resumed {s t : State} (before : s.cmd.configure.isSome = true) (h : Configured s t) : StepOutcome s t := by
  cases h with
  | left j events =>
    obtain ⟨outstanding, -, replies⟩ := events_link events
    exact .moved events (.resumed before outstanding rfl replies)
  | @ended v st body events =>
    obtain ⟨outstanding, -, replies⟩ := events_link events
    cases hs : s.cmd.outstanding with
    | none =>
      have unanswered : buildReply st body { v with cmd.configure := none } = { v with cmd.configure := none } := by
        simp only [buildReply, outstanding, hs]
      rw [unanswered]
      exact .moved events (.unlawful before hs)
    | some o =>
      rw [buildReply_some (s := { v with cmd.configure := none }) (outstanding.trans hs)]
      exact .moved (v := v) events (.configured _ rfl before outstanding rfl (by rw [replies]))

theorem outcome_resumeConfigure (n : Nat) (s : State) : StepOutcome s (resumeConfigure n s) := by
  simp only [resumeConfigure]
  split
  · next j before => exact outcome_of_resumed (by rw [before]; rfl) (configured_configureSteps n j s s .refl)
  · exact outcome_of_events .refl

/-! ## Every command -/

theorem outcome_of_quiet {s t : State} (h : Quiet s t) : StepOutcome s t := outcome_of_events (events_quiet h)

theorem quiet_resetLine (b : Bool) (i : Fin 24) (s : State) : Quiet s (modSource i (fun x => { x with aligned := b }) s) :=
  quiet_modSource s fun _ => by exact le_rfl

theorem events_tickFill (s : State) : Events s (tickFill s) := by
  simp only [tickFill]
  split
  · next fill =>
    split
    · exact events_run (.filled _ _ fill)
    · exact events_run (.counted _ fill)
  · exact .refl

theorem quiet_tickTimers (s : State) : Quiet s (tickTimers s) := by
  refine quiet_of_eq rfl (fun i => ?_) (le_max_right _ _)
  have ticked : source (tickTimers s) i = tickTimer s (source s i) := get_mapAll _ _ _
  rw [ticked, tickTimer]
  split
  · exact le_max_right _ _
  · exact le_max_right _ _

theorem events_advanceTime (s : State) : Events s (advanceTime s) := by
  refine events_run (.timed _ fun inRange => ?_)
  obtain ⟨least, -, orbit, bc⟩ := inRange
  have wrapped : (s.time.now.orbit + 1) % 1048576 < 1048576 := Nat.mod_lt _ (by decide)
  have positive : 0 < s.settings.ol := by omega
  simp only [nextStamp]
  split
  · exact ⟨wrapped, positive⟩
  · split
    · exact ⟨orbit, by simp only; omega⟩
    · exact ⟨wrapped, positive⟩

theorem events_timeAdvance (s : State) : Events s (tickFill (tickTimers (sampleLines (advanceTime s)))) :=
  (events_advanceTime s).trans <| (events_quiet (Quiet.trans (quiet_of_eq' rfl) (quiet_tickTimers (sampleLines _)))).trans <|
    events_tickFill _

theorem quiet_orbitPulse {s t : State} (h : exec .orbitPulse s = .next t) : Quiet s t := by
  obtain rfl := Host.Outcome.next.inj h
  split
  · exact Quiet.refl s
  · simp only
    split
    · exact quiet_of_eq' rfl
    · exact quiet_of_eq' rfl

theorem events_lineTriggerRequest {s t : State} {l : Fin 4} {level : Bool}
    (h : exec (.lineTriggerRequest l level) s = .next t) : Events s t := by
  obtain rfl := Host.Outcome.next.inj h
  have sampled : Events s (sampleLine l level s) := events_quiet (quiet_of_eq' rfl)
  split
  · exact events_quiet (quiet_of_eq' rfl)
  · split
    · exact .refl
    · split
      · exact sampled.trans (events_request _ _)
      · exact sampled

theorem quiet_padAlignmentGained {s t : State} {i : Fin 24} (h : exec (.padAlignmentGained i) s = .next t) : Quiet s t := by
  obtain rfl := Host.Outcome.next.inj h
  simp only
  split
  · exact (quiet_resetLine true i s).trans (quiet_setFraming i _ _)
  · exact quiet_resetLine true i s

theorem quiet_padAlignmentLost {s t : State} {i : Fin 24} (h : exec (.padAlignmentLost i) s = .next t) : Quiet s t := by
  obtain rfl := Host.Outcome.next.inj h
  have hunting := (quiet_resetLine false i s).trans (quiet_setFraming i .hunting _)
  simp only
  split
  · split
    · exact hunting.trans (quiet_malformed i _)
    · exact hunting
    · exact hunting
  · exact quiet_resetLine false i s

theorem quiet_padFrameComplete {s t : State} {i : Fin 24} {words : List Word}
    (h : exec (.padFrameComplete i words) s = .next t) : Quiet s t := by
  obtain rfl := Host.Outcome.next.inj h
  split
  · exact (quiet_countFrame i s).trans (quiet_decodeFrame i words _)
  · exact Quiet.refl s

theorem events_silenceReport {s t : State} {i : Fin 24} (h : exec (.silenceReport i) s = .next t) : Events s t := by
  obtain rfl := Host.Outcome.next.inj h
  have reported : Quiet s (setSource i { source s i with silenceReported := true } s) := quiet_setSource (le_max_right _ _)
  simp only
  split
  · refine (events_quiet reported).trans ?_
    simp only [takeSilence]
    split
    · have down : Quiet (setSource i { source s i with silenceReported := true } s)
          (makeDown i (setSource i { source s i with silenceReported := true } s)) := quiet_modSource _ fun _ => by exact le_rfl
      exact (events_quiet (down.trans (quiet_raise .sourceDown _))).trans (events_settle _)
    · have down : Quiet (setSource i { source s i with silenceReported := true } s)
          (makeDown i (setSource i { source s i with silenceReported := true } s)) := quiet_modSource _ fun _ => by exact le_rfl
      exact (events_quiet (down.trans (quiet_raise .sourceDown _))).trans (events_settle _)
    · exact .refl
    · exact .refl
  · exact .refl

theorem events_distributorTakePulse {s t : State} {n : Nat} (h : exec (.distributorTakePulse n) s = .next t) :
    Events s t := by
  obtain rfl := Host.Outcome.next.inj h
  refine (events_quiet (quiet_noteChoice s)).trans ?_
  simp only
  split
  · split
    · split
      · next head => exact events_takePulse n head
      · exact .refl
    · exact .refl
  · exact .refl

theorem events_distributorTakeMark {s t : State} (h : exec .distributorTakeMark s = .next t) : Events s t := by
  obtain rfl := Host.Outcome.next.inj h
  refine (events_quiet (quiet_noteChoice s)).trans ?_
  simp only
  split
  · split
    · split
      · next head => exact events_takeMarkEntry head
      · exact .refl
    · exact .refl
  · exact .refl

theorem events_placementRetry {s t : State} (h : exec .placementRetry s = .next t) : Events s t := by
  obtain rfl := Host.Outcome.next.inj h
  split
  · next p _ =>
    split
    · exact .refl
    · have freed : Events s { s with pool.inWaiting := none } := events_quiet (quiet_of_eq' rfl)
      exact freed.trans <| (events_place p _).trans <| events_quiet (quiet_noteChoice _)
  · exact .refl

theorem events_releaseStart {s t : State} (h : exec .releaseStart s = .next t) : Events s t := by
  obtain rfl := Host.Outcome.next.inj h
  split
  · next i rest order =>
    split
    · next ready =>
      obtain ⟨idle, finished⟩ : s.builder.job = none ∧ isFinished s i = true := by simpa using ready
      exact events_startRelease idle (by rw [order]; rfl) finished
    · exact .refl
  · exact .refl

theorem events_streamWordWrite {s t : State} (h : exec .streamWordWrite s = .next t) : Events s t := by
  obtain rfl := Host.Outcome.next.inj h
  split
  · next j job =>
    split
    · next room =>
      split
      · next last => exact (events_stream (.ended job room last)).trans (events_judgeDrain _)
      · next more => exact events_stream (.wrote job room more)
    · exact .refl
  · exact .refl

theorem events_dataLinkUnitSend {s t : State} (h : exec .dataLinkUnitSend s = .next t) : Events s t := by
  obtain rfl := Host.Outcome.next.inj h
  split
  · exact .refl
  · split
    · exact events_quiet (quiet_of_eq' rfl)
    · next head => exact (events_stream (.sent head)).trans (events_judgeDrain _)
    · exact .refl

theorem quiet_commandStart (s : State) : Quiet s (commandStart s) := by
  simp only [commandStart]
  split
  · exact Quiet.refl s
  · exact quiet_of_eq' rfl
  · exact quiet_of_eq' rfl

theorem quiet_commandAlignmentGained {s t : State} (h : exec .commandAlignmentGained s = .next t) : Quiet s t := by
  obtain rfl := Host.Outcome.next.inj h
  simp only
  split
  · exact quiet_of_eq' rfl
  · exact quiet_of_eq' rfl

theorem quiet_commandAlignmentLost {s t : State} (h : exec .commandAlignmentLost s = .next t) : Quiet s t := by
  obtain rfl := Host.Outcome.next.inj h
  simp only
  split
  · exact quiet_of_eq' rfl
  · exact quiet_of_eq' rfl

theorem outcome_replySent {s t : State} (h : exec .replySent s = .next t) : StepOutcome s t := by
  obtain rfl := Host.Outcome.next.inj h
  split
  · exact outcome_of_events .refl
  · split
    · next r rest head =>
      split
      · exact .restarted _
      · exact .moved (b := s.cmd) .refl (.sent r rest head rfl rfl rfl)
    · exact outcome_of_events .refl

theorem events_forgotten {s t : State} (h : exec .lastAcceptedStampForgotten s = .next t) : Quiet s t := by
  obtain rfl := Host.Outcome.next.inj h
  split
  · split
    · exact quiet_of_eq' rfl
    · exact Quiet.refl s
  · exact Quiet.refl s

theorem outcome_resetLineReleased {s t : State} (h : exec .resetLineReleased s = .next t) : StepOutcome s t := by
  obtain rfl := Host.Outcome.next.inj h
  split
  · next held => exact outcome_of_events (events_run (.released (.inr held)))
  · exact outcome_of_events .refl

theorem events_zeroFillEnd {s t : State} (h : exec .zeroFillEnd s = .next t) : Events s t := by
  obtain rfl := Host.Outcome.next.inj h
  split
  · next fill => exact events_run (.fillEnded fill)
  · exact .refl

theorem events_closeOrDeadlineReached {s t : State} (h : exec .closeOrDeadlineReached s = .next t) : Events s t := by
  obtain rfl := Host.Outcome.next.inj h
  split
  · exact events_settle s
  · exact .refl

theorem events_execTimeAdvance {s t : State} (h : exec .timeAdvance s = .next t) : Events s t := by
  obtain rfl := Host.Outcome.next.inj h
  split
  · exact .refl
  · exact events_timeAdvance s

theorem outcome_configure {s t : State} {op : ConfigureOp} (h : exec (.configure op) s = .next t) : StepOutcome s t := by
  obtain rfl := Host.Outcome.next.inj h
  split
  · exact outcome_endDelimiter (outcome_builtFrame _ _ _ _) s
  · exact outcome_resumeConfigure _ s

/-- A command that arrives on the command link as its frame. -/
theorem outcome_of_commandArrives {s t : State} {k : CommandKind} {tag : Tag} {body : List Word}
    (h : (.next (commandArrives k tag body s) : Host.Outcome State Fault Refusal) = .next t) : StepOutcome s t := by
  obtain rfl := Host.Outcome.next.inj h
  exact outcome_commandArrives k tag body s

/-- What each command can do. -/
theorem outcome_exec {c : Instr} {s t : State} (h : exec c s = .next t) : StepOutcome s t := by
  cases c with
  | powerUp => obtain rfl := Host.Outcome.next.inj h; exact .held _
  | resetLineAsserted => obtain rfl := Host.Outcome.next.inj h; exact .held _
  | resetLineReleased => exact outcome_resetLineReleased h
  | zeroFillEnd => exact outcome_of_events (events_zeroFillEnd h)
  | timeAdvance => exact outcome_of_events (events_execTimeAdvance h)
  | orbitPulse => exact outcome_of_quiet (quiet_orbitPulse h)
  | closeOrDeadlineReached => exact outcome_of_events (events_closeOrDeadlineReached h)
  | lastAcceptedStampForgotten => exact outcome_of_quiet (events_forgotten h)
  | retainedHeadAged =>
    obtain rfl := Host.Outcome.next.inj h
    exact outcome_of_events <| (events_ageHeads _ s).trans <| (events_quiet (quiet_endWait _)).trans (events_settleScanner _)
  | lineTriggerRequest l level => exact outcome_of_events (events_lineTriggerRequest h)
  | padAlignmentGained i => exact outcome_of_quiet (quiet_padAlignmentGained h)
  | padAlignmentLost i => exact outcome_of_quiet (quiet_padAlignmentLost h)
  | padFrameAbandoned i => obtain rfl := Host.Outcome.next.inj h; exact outcome_of_quiet (quiet_padStart i s)
  | padFrameComplete i words => exact outcome_of_quiet (quiet_padFrameComplete h)
  | silenceReport i => exact outcome_of_events (events_silenceReport h)
  | distributorTakePulse n => exact outcome_of_events (events_distributorTakePulse h)
  | placementRetry => exact outcome_of_events (events_placementRetry h)
  | distributorTakeMark => exact outcome_of_events (events_distributorTakeMark h)
  | claimVisit => obtain rfl := Host.Outcome.next.inj h; exact outcome_of_events (events_claimVisit s)
  | releaseStart => exact outcome_of_events (events_releaseStart h)
  | streamWordWrite => exact outcome_of_events (events_streamWordWrite h)
  | dataLinkUnitSend => exact outcome_of_events (events_dataLinkUnitSend h)
  | holdAsserted => obtain rfl := Host.Outcome.next.inj h; exact outcome_of_quiet (quiet_of_eq' rfl)
  | holdReleased => obtain rfl := Host.Outcome.next.inj h; exact outcome_of_quiet (quiet_of_eq' rfl)
  | commandAlignmentGained => exact outcome_of_quiet (quiet_commandAlignmentGained h)
  | commandAlignmentLost => exact outcome_of_quiet (quiet_commandAlignmentLost h)
  | commandFrameAbandoned => obtain rfl := Host.Outcome.next.inj h; exact outcome_of_quiet (quiet_commandStart s)
  | commandFrame octets =>
    obtain rfl := Host.Outcome.next.inj h
    exact outcome_endDelimiter (outcome_testOctets octets) s
  | replySent => exact outcome_replySent h
  | configure op => exact outcome_configure h
  | padFrameBegins i => obtain rfl := Host.Outcome.next.inj h; exact outcome_of_quiet (quiet_padStart i s)
  | commandFrameBegins => obtain rfl := Host.Outcome.next.inj h; exact outcome_of_quiet (quiet_commandStart s)
  | _ => exact outcome_of_commandArrives h

/-- What each step can do. -/
theorem outcome_step {s t : State} (h : step s = .next t) : StepOutcome s t := by
  simp only [step] at h
  split at h
  · obtain rfl := Host.Outcome.next.inj h
    exact outcome_of_events .refl
  · next c rest _ =>
    cases outcome_exec h with
    | @moved v b _ _ events link =>
      have popped : Events { s with cmd := b } { s with cmd := b, pending := rest } := events_quiet (quiet_of_eq' rfl)
      exact .moved (popped.trans events) link
    | held u => exact .held u
    | restarted u => exact .restarted u

/-- An invariant that every event keeps, that reads nothing of the command link's own record, and that the resets establish, is kept by
every step. -/
theorem step_keeps {P : State → Prop} (event : ∀ s t, P s → Event s t → P t)
    (link : ∀ (s : State) c r, P s → P { s with cmd := c, replyOut := r }) (reset : ∀ u, P (resetValues u))
    (held : ∀ u, P (holdReset u)) {s t : State} (h : step s = .next t) (hs : P s) : P t := by
  have row : ∀ {s t : State}, Events s t → P s → P t := fun events hs => by
    induction events with
    | refl => exact hs
    | tail _ last ih => exact event _ _ ih last
  cases outcome_step h with
  | moved events => exact link _ _ _ (row events (link s _ s.replyOut hs))
  | held u => exact held u
  | restarted u => exact event _ _ (reset u) (.run (.released (.inl rfl)))

end Sys2Proof.Machine
end

section
/-! PROOF. The settings stay in their ranges and local time stays a stamp of the present orbit length (R1, R2, R188). -/

namespace Sys2Proof.Machine

open Sys2Proof.Safety

/-! ## What one setting written does to the ranges -/

theorem inRange_some {lo hi n : Nat} {w : Word} (h : inRange lo hi w = some n) : lo ≤ n ∧ n ≤ hi := by
  simp only [inRange] at h
  split at h
  · next bounds => obtain rfl := Option.some.inj h; exact bounds
  · cases h

theorem signedInRange_some {n : Int} {w : Word} (h : signedInRange w = some n) : -2048 ≤ n ∧ n ≤ 2047 := by
  simp only [signedInRange] at h
  split at h
  · next bounds => obtain rfl := Option.some.inj h; exact bounds
  · cases h

theorem rangeOfWord_some {top : Nat} {w : Word} {r : Nat × Nat} (h : rangeOfWord top w = some r) :
    r.1 ≤ r.2 ∧ r.2 ≤ top := by
  simp only [rangeOfWord] at h
  split at h
  · next bounds => obtain rfl := Option.some.inj h; exact bounds.2
  · cases h

theorem clamp_bounds {lo hi : Nat} (n : Nat) (h : lo ≤ hi) : lo ≤ clamp lo hi n ∧ clamp lo hi n ≤ hi := by
  simp only [clamp]
  split
  · omega
  · split <;> omega

/-- Every place of a vector keeps what holds of the value put into one place. -/
theorem forall_get_put {α : Type} {n : Nat} {v : Vector α n} {p : α → Prop} (hv : ∀ i, p (v.get i)) (i : Fin n) {x : α} (hx : p x)
    (j : Fin n) : p ((put v i x).get j) := by
  rw [get_put]
  split
  · exact hx
  · exact hv j

/-- A monitor's ranges are in order and its threshold is in range (R151). -/
def MonitorInRange (m : MonitorSettings) : Prop :=
  m.rowLo ≤ m.rowHi ∧ m.rowHi ≤ 63 ∧ m.padLo ≤ m.padHi ∧ m.padHi ≤ 127 ∧ m.threshold ≤ 32736

theorem writeMonitor_inRange {f : MonitorField} {w : Word} {m n : MonitorSettings} (h : writeMonitor f w m = some n)
    (hm : MonitorInRange m) : MonitorInRange n := by
  obtain ⟨rows, rowHi, pads, padHi, threshold⟩ := hm
  cases f with
  | enable => obtain ⟨_, -, rfl⟩ := Option.map_eq_some_iff.1 h; exact ⟨rows, rowHi, pads, padHi, threshold⟩
  | point => obtain ⟨_, -, rfl⟩ := Option.map_eq_some_iff.1 h; exact ⟨rows, rowHi, pads, padHi, threshold⟩
  | action => obtain ⟨_, -, rfl⟩ := Option.map_eq_some_iff.1 h; exact ⟨rows, rowHi, pads, padHi, threshold⟩
  | sources =>
    simp only [writeMonitor] at h
    split at h
    · obtain rfl := Option.some.inj h; exact ⟨rows, rowHi, pads, padHi, threshold⟩
    · cases h
  | flags =>
    simp only [writeMonitor] at h
    split at h
    · obtain rfl := Option.some.inj h; exact ⟨rows, rowHi, pads, padHi, threshold⟩
    · cases h
  | rows =>
    obtain ⟨_, r, rfl⟩ := Option.map_eq_some_iff.1 h
    exact ⟨(rangeOfWord_some r).1, (rangeOfWord_some r).2, pads, padHi, threshold⟩
  | pads =>
    obtain ⟨_, r, rfl⟩ := Option.map_eq_some_iff.1 h
    exact ⟨rows, rowHi, (rangeOfWord_some r).1, (rangeOfWord_some r).2, threshold⟩
  | threshold =>
    obtain ⟨_, r, rfl⟩ := Option.map_eq_some_iff.1 h
    exact ⟨rows, rowHi, pads, padHi, (inRange_some r).2⟩

theorem settingsInRange_congr {s t : State} (h : t.settings = s.settings) (hs : SettingsInRange s) : SettingsInRange t := by
  simpa only [SettingsInRange, h] using hs

theorem writeSetting_inRange {k : Setting} {w : Word} {s : State} {x : Settings} (h : writeSetting k w s.settings = some x)
    (hs : SettingsInRange s) : SettingsInRange { s with settings := x } := by
  obtain ⟨ol, offset, length, holdOff, coalesce, grace, depth, silence, baseline, urgency, contextMargin, poolMargin, monitor,
    level, floor⟩ := hs
  cases k with
  | ol =>
    obtain ⟨_, r, rfl⟩ := Option.map_eq_some_iff.1 h
    exact ⟨inRange_some r, offset, length, holdOff, coalesce, grace, depth, silence, baseline, urgency, contextMargin,
      poolMargin, monitor, level, floor⟩
  | offset c =>
    obtain ⟨_, r, rfl⟩ := Option.map_eq_some_iff.1 h
    exact ⟨ol, forall_get_put (p := fun n => -2048 ≤ n ∧ n ≤ 2047) offset c (signedInRange_some r), length, holdOff, coalesce,
      grace, depth, silence, baseline, urgency, contextMargin, poolMargin, monitor, level, floor⟩
  | length c =>
    obtain ⟨_, r, rfl⟩ := Option.map_eq_some_iff.1 h
    exact ⟨ol, offset, forall_get_put (p := fun n => 1 ≤ n ∧ n ≤ 65535) length c (inRange_some r), holdOff, coalesce, grace,
      depth, silence, baseline, urgency, contextMargin, poolMargin, monitor, level, floor⟩
  | holdOff =>
    obtain ⟨_, r, rfl⟩ := Option.map_eq_some_iff.1 h
    exact ⟨ol, offset, length, (inRange_some r).2, coalesce, grace, depth, silence, baseline, urgency, contextMargin,
      poolMargin, monitor, level, floor⟩
  | coalesce =>
    obtain ⟨_, r, rfl⟩ := Option.map_eq_some_iff.1 h
    exact ⟨ol, offset, length, holdOff, (inRange_some r).2, grace, depth, silence, baseline, urgency, contextMargin,
      poolMargin, monitor, level, floor⟩
  | grace =>
    obtain ⟨_, r, rfl⟩ := Option.map_eq_some_iff.1 h
    exact ⟨ol, offset, length, holdOff, coalesce, (inRange_some r).2, depth, silence, baseline, urgency, contextMargin,
      poolMargin, monitor, level, floor⟩
  | retentionDepth =>
    obtain ⟨_, r, rfl⟩ := Option.map_eq_some_iff.1 h
    exact ⟨ol, offset, length, holdOff, coalesce, grace, (inRange_some r).2, silence, baseline, urgency, contextMargin,
      poolMargin, monitor, level, floor⟩
  | silenceLimit =>
    obtain rfl := Option.some.inj h
    exact ⟨ol, offset, length, holdOff, coalesce, grace, depth, clamp_bounds _ (by decide), baseline, urgency, contextMargin,
      poolMargin, monitor, level, floor⟩
  | baseline i =>
    obtain rfl := Option.some.inj h
    exact ⟨ol, offset, length, holdOff, coalesce, grace, depth, silence,
      forall_get_put (p := fun n => n ≤ 255) baseline i (clamp_bounds _ (by decide)).2, urgency, contextMargin, poolMargin,
      monitor, level, floor⟩
  | urgency =>
    obtain ⟨_, r, rfl⟩ := Option.map_eq_some_iff.1 h
    exact ⟨ol, offset, length, holdOff, coalesce, grace, depth, silence, baseline, inRange_some r, contextMargin, poolMargin,
      monitor, level, floor⟩
  | contextMargin =>
    obtain ⟨_, r, rfl⟩ := Option.map_eq_some_iff.1 h
    exact ⟨ol, offset, length, holdOff, coalesce, grace, depth, silence, baseline, urgency, (inRange_some r).2, poolMargin,
      monitor, level, floor⟩
  | poolMargin =>
    obtain ⟨_, r, rfl⟩ := Option.map_eq_some_iff.1 h
    exact ⟨ol, offset, length, holdOff, coalesce, grace, depth, silence, baseline, urgency, contextMargin,
      (inRange_some r).2, monitor, level, floor⟩
  | monitor m f =>
    obtain ⟨_, r, rfl⟩ := Option.map_eq_some_iff.1 h
    exact ⟨ol, offset, length, holdOff, coalesce, grace, depth, silence, baseline, urgency, contextMargin, poolMargin,
      forall_get_put (p := MonitorInRange) monitor m (writeMonitor_inRange r (monitor m)), level, floor⟩
  | level c =>
    obtain ⟨_, r, rfl⟩ := Option.map_eq_some_iff.1 h
    exact ⟨ol, offset, length, holdOff, coalesce, grace, depth, silence, baseline, urgency, contextMargin, poolMargin, monitor,
      forall_get_put (p := fun n => n ≤ 3) level c (inRange_some r).2, floor⟩
  | alertFloor =>
    obtain ⟨_, r, rfl⟩ := Option.map_eq_some_iff.1 h
    exact ⟨ol, offset, length, holdOff, coalesce, grace, depth, silence, baseline, urgency, contextMargin, poolMargin, monitor,
      level, (inRange_some r).2⟩
  | _ =>
    obtain ⟨_, -, rfl⟩ := Option.map_eq_some_iff.1 h
    exact ⟨ol, offset, length, holdOff, coalesce, grace, depth, silence, baseline, urgency, contextMargin, poolMargin, monitor,
      level, floor⟩

/-! ## Events -/

/-- The settings and local time change by a setting written and by a stamp set alone. -/
theorem Event.settings_time {s t : State} (h : Event s t) :
    (t.settings = s.settings ∧ t.time.now = s.time.now)
      ∨ (∃ x, t = { s with time := x } ∧ (TimeInRange s → x.now.orbit < 1048576 ∧ x.now.bc < s.settings.ol))
      ∨ ∃ k w x, ¬(k.idleOnly = true ∧ (s.run = .running ∨ s.run = .draining)) ∧ writeSetting k w s.settings = some x
          ∧ t = installSettings x s := by
  cases h with
  | quiet h => exact .inl ⟨h.settings, h.now⟩
  | table h => exact .inl ⟨h.frame.settings, h.frame.now⟩
  | stream h =>
    left
    cases h with
    | ended job room last => rw [(freeContext_eq _ _).1]; exact ⟨rfl, rfl⟩
    | begun idle head releasing positive => exact ⟨rfl, rfl⟩
    | wrote job room more => exact ⟨rfl, rfl⟩
    | sent head => exact ⟨rfl, rfl⟩
    | stored fits => exact ⟨rfl, rfl⟩
    | dropped head => exact ⟨rfl, rfl⟩
    | took head inside => exact ⟨rfl, rfl⟩
  | run h =>
    cases h with
    | aborted inRun => rw [abortRun_eq]; exact .inl ⟨rfl, rfl⟩
    | returned draining done => exact .inl ⟨rfl, rfl⟩
    | started idle => exact .inl ⟨rfl, rfl⟩
    | stopped running => exact .inl ⟨rfl, rfl⟩
    | released held => exact .inl ⟨rfl, rfl⟩
    | filled e n fill => exact .inl ⟨rfl, rfl⟩
    | counted n fill => exact .inl ⟨rfl, rfl⟩
    | fillEnded fill => exact .inl ⟨rfl, rfl⟩
    | timed x fits => exact .inr (.inl ⟨x, rfl, fits⟩)
    | set allowed takes => exact .inr (.inr ⟨_, _, _, allowed, takes, rfl⟩)

theorem installSettings_settings (x : Settings) (s : State) : (installSettings x s).settings = x := by
  simp only [installSettings]
  split <;> rfl

theorem event_keeps_settingsInRange (s t : State) (hs : SettingsInRange s) (h : Event s t) : SettingsInRange t := by
  obtain ⟨settings, -⟩ | ⟨x, rfl, -⟩ | ⟨k, w, x, -, takes, rfl⟩ := h.settings_time
  · exact settingsInRange_congr settings hs
  · exact hs
  · exact settingsInRange_congr (installSettings_settings x s) (writeSetting_inRange takes hs)

/-- A written setting keeps the orbit length, or is one (R188). -/
theorem writeSetting_ol {k : Setting} {w : Word} {t x : Settings} (h : writeSetting k w t = some x) :
    x.ol = t.ol ∨ (64 ≤ x.ol ∧ x.ol ≤ 4096) := by
  cases k with
  | ol => obtain ⟨_, r, rfl⟩ := Option.map_eq_some_iff.1 h; exact .inr (inRange_some r)
  | silenceLimit => obtain rfl := Option.some.inj h; exact .inl rfl
  | baseline i => obtain rfl := Option.some.inj h; exact .inl rfl
  | _ => obtain ⟨_, -, rfl⟩ := Option.map_eq_some_iff.1 h; exact .inl rfl

theorem event_keeps_timeInRange (s t : State) (hs : TimeInRange s) (h : Event s t) : TimeInRange t := by
  obtain ⟨settings, now⟩ | ⟨x, rfl, fits⟩ | ⟨k, w, x, -, takes, rfl⟩ := h.settings_time
  · simpa only [TimeInRange, settings, now] using hs
  · exact ⟨hs.1, hs.2.1, fits hs⟩
  · obtain ⟨least, most, orbit, bc⟩ := hs
    simp only [installSettings]
    split
    · next same => exact ⟨by rw [← same] at least; exact least, by rw [← same] at most; exact most, orbit, by rw [← same] at bc; exact bc⟩
    · next changed =>
      obtain ⟨least', most'⟩ := (writeSetting_ol takes).resolve_left changed
      exact ⟨least', most', orbit, Nat.lt_of_lt_of_le (Nat.zero_lt_succ _) least'⟩

theorem settingsInRange_reset : SettingsInRange State.reset := by
  refine ⟨by decide, by decide, by decide, by decide, by decide, by decide, by decide, by decide, by decide, by decide,
    by decide, by decide, by decide, by decide, by decide⟩

theorem timeInRange_reset : TimeInRange State.reset := by
  refine ⟨by decide, by decide, by decide, by decide⟩

/-- Settles O55: each event keeps the ranges, and the reset values lie in them. -/
theorem stepsKeepSettingsAndTimeInRange : Obligations.StepsKeepSettingsAndTimeInRange := by
  intro s t h
  exact ⟨step_keeps event_keeps_settingsInRange (fun _ _ _ => id) (fun _ => settingsInRange_reset) (fun _ => settingsInRange_reset) h,
    step_keeps event_keeps_timeInRange (fun _ _ _ => id) (fun _ => timeInRange_reset) (fun _ => timeInRange_reset) h⟩

end Sys2Proof.Machine
end

section
/-! PROOF. The bounded queues stay within their room, and replies and the outstanding command fit together (R42, R136, R143, R145, R159,
R178, R179). -/

namespace Sys2Proof.Machine

open Sys2Proof.Safety

/-! ## Staging queues, spy queue and stream buffer -/

/-- What an event does to the bounded queues: each grows within its room, or stays within its length. -/
structure QueuesKept (s t : State) : Prop where
  staging : ∀ i, (source t i).queue.length ≤ max 16 (source s i).queue.length
  spy : t.spy.queue.length ≤ max 32 s.spy.queue.length
  buffer : t.router.buffer.length ≤ max 4096 s.router.buffer.length

theorem queuesKept_of_frame {s t : State} (h : Frame s t) : QueuesKept s t :=
  ⟨h.queues, h.spy, by rw [h.buffer]; exact le_max_right _ _⟩

/-- The queues are kept where the sources and the spy queue stay and the stream buffer is within its room. -/
theorem queuesKept_of_eq {s t : State} (sources : t.sources = s.sources) (spy : t.spy.queue = s.spy.queue)
    (buffer : t.router.buffer.length ≤ max 4096 s.router.buffer.length) : QueuesKept s t :=
  ⟨fun i => by rw [source_congr sources]; exact le_max_right _ _, by rw [spy]; exact le_max_right _ _, buffer⟩

/-- Emptied staging queues are within any room. -/
theorem queuesKept_of_emptied {s t : State} (queues : ∀ i, (source t i).queue = []) (spy : t.spy.queue.length ≤ s.spy.queue.length)
    (buffer : t.router.buffer.length ≤ s.router.buffer.length) : QueuesKept s t :=
  ⟨fun i => by rw [queues i]; exact Nat.zero_le _, spy.trans (le_max_right _ _), buffer.trans (le_max_right _ _)⟩

theorem source_emptyStaging (s : State) (i : Fin 24) :
    source (emptyStaging s) i = { source s i with queue := [], gapPending := false } := get_mapAll _ _ _

theorem source_startRun (s : State) (i : Fin 24) : source (startRun s) i = (source s i).atStart := get_mapAll _ _ _

theorem source_leaveReset (s : State) (i : Fin 24) :
    source (leaveReset s) i = { source s i with framing := hunt (source s i).aligned } := get_mapAll _ _ _

theorem installSettings_eq (x : Settings) (s : State) : installSettings x s = { s with
    settings := x
    time.now := if x.ol = s.settings.ol then s.time.now else ⟨s.time.now.orbit, 0⟩ } := by
  simp only [installSettings]
  split
  · next h => simp only [h, if_true]
  · next h => simp only [h, if_false]

theorem Event.queues {s t : State} (h : Event s t) : QueuesKept s t := by
  cases h with
  | quiet h => exact queuesKept_of_frame h.toFrame
  | table h => exact queuesKept_of_frame h.frame
  | stream h =>
    cases h with
    | @ended j job room last =>
      rw [(freeContext_eq _ _).1]
      refine queuesKept_of_eq rfl rfl ?_
      simp only [streamEnded, writeStreamWord, List.length_append, List.length_singleton]
      omega
    | wrote job room more =>
      refine queuesKept_of_eq rfl rfl ?_
      simp only [writeStreamWord, List.length_append, List.length_singleton]
      omega
    | @sent w rest head =>
      refine queuesKept_of_eq rfl rfl ?_
      simp only [sendWord, emit, head, List.length_cons]
      omega
    | begun idle head releasing positive => exact queuesKept_of_eq rfl rfl (le_max_right _ _)
    | stored fits => exact queuesKept_of_eq rfl rfl (le_max_right _ _)
    | dropped head => exact queuesKept_of_eq rfl rfl (le_max_right _ _)
    | took head inside => exact queuesKept_of_eq rfl rfl (le_max_right _ _)
  | run h =>
    cases h with
    | aborted inRun =>
      rw [abortRun_eq]
      exact queuesKept_of_emptied (fun i => congrArg Source.queue (source_emptyStaging s i)) le_rfl (Nat.zero_le _)
    | returned draining done =>
      exact queuesKept_of_emptied (fun i => congrArg Source.queue (source_emptyStaging s i)) le_rfl le_rfl
    | started idle =>
      exact queuesKept_of_emptied (fun i => congrArg Source.queue (source_startRun s i)) (Nat.zero_le _) (Nat.zero_le _)
    | released held =>
      refine ⟨fun i => ?_, le_max_right _ _, le_max_right _ _⟩
      rw [source_leaveReset]
      exact le_max_right _ _
    | set allowed takes =>
      rw [installSettings_eq]
      exact queuesKept_of_eq rfl rfl (le_max_right _ _)
    | stopped running => exact queuesKept_of_eq rfl rfl (le_max_right _ _)
    | filled e n fill => exact queuesKept_of_eq rfl rfl (le_max_right _ _)
    | counted n fill => exact queuesKept_of_eq rfl rfl (le_max_right _ _)
    | fillEnded fill => exact queuesKept_of_eq rfl rfl (le_max_right _ _)
    | timed x fits => exact queuesKept_of_eq rfl rfl (le_max_right _ _)

theorem event_keeps_queuesWithinRoom (s t : State) (hs : QueuesWithinRoom s) (h : Event s t) : QueuesWithinRoom t := by
  obtain ⟨staging, spy, buffer⟩ := hs
  obtain ⟨staging', spy', buffer'⟩ := h.queues
  refine ⟨fun i => ?_, by omega, by omega⟩
  have := staging i
  have := staging' i
  omega

theorem source_resetValues (s : State) (i : Fin 24) :
    source (resetValues s) i = { Source.default with aligned := (source s i).aligned } := get_mapAll _ _ _

theorem queuesWithinRoom_resetValues (s : State) : QueuesWithinRoom (resetValues s) := by
  refine ⟨fun i => ?_, Nat.zero_le _, Nat.zero_le _⟩
  rw [source_resetValues]
  exact Nat.zero_le _

/-! ## Replies -/

/-- The replies fit by the command link's own record alone (R178, R179). -/
def LinkFits (c : CommandLink) : Prop :=
  c.replies.length + (if c.configure.isSome then 1 else 0) ≤ 8
    ∧ c.replies.countP (fun r => r.taken) = (if c.outstanding.isSome ∧ c.configure = none then 1 else 0)
    ∧ (c.configure.isSome → c.outstanding.isSome)

theorem repliesFit_iff (s : State) : RepliesFit s ↔ LinkFits s.cmd := Iff.rfl

theorem countP_concat_reply (l : List Reply) (r : Reply) :
    (l ++ [r]).countP (fun r => r.taken) = l.countP (fun r => r.taken) + if r.taken then 1 else 0 := by
  rw [List.countP_append, List.countP_singleton]

theorem LinkMoves.keeps_linkFits {c d : CommandLink} (h : LinkMoves c d) (hc : LinkFits c) : LinkFits d := by
  obtain ⟨room, count, asked⟩ := hc
  cases h with
  | kept outstanding configure replies =>
    rw [LinkFits, outstanding, configure, replies]
    exact ⟨room, count, asked⟩
  | refused r own room' outstanding configure replies =>
    rw [LinkFits, outstanding, configure, replies, countP_concat_reply, own, List.length_append, List.length_singleton]
    exact ⟨by omega, count, asked⟩
  | answered r own ready room' outstanding configure replies =>
    have none' : (if c.outstanding.isSome ∧ c.configure = none then 1 else 0) = 0 := by simp [ready]
    rw [LinkFits, configure, replies, countP_concat_reply, own, List.length_append, List.length_singleton, count, none']
    simp [outstanding]
    omega
  | begun ready room' outstanding configure replies =>
    have none' : (if c.outstanding.isSome ∧ c.configure = none then 1 else 0) = 0 := by simp [ready]
    have left : d.configure ≠ none := Option.isSome_iff_ne_none.1 configure
    rw [LinkFits, replies, count, none']
    simp [outstanding, configure, left]
    omega
  | resumed before outstanding configure replies =>
    have left : c.configure ≠ none := Option.isSome_iff_ne_none.1 before
    have left' : d.configure ≠ none := Option.isSome_iff_ne_none.1 configure
    rw [before] at room
    rw [LinkFits, outstanding, replies, configure, count]
    exact ⟨room, by simp [left, left'], fun _ => asked before⟩
  | configured r own before outstanding configure replies =>
    have left : c.configure ≠ none := Option.isSome_iff_ne_none.1 before
    simp only [before, if_true] at room
    simp only [left, and_false, if_false] at count
    rw [LinkFits, outstanding, replies, configure, countP_concat_reply, own, count, List.length_append, List.length_singleton]
    simp [asked before]
    omega
  | sent r rest head outstanding configure replies =>
    rw [head, List.length_cons] at room
    rw [head, List.countP_cons] at count
    rw [LinkFits, outstanding, configure, replies]
    cases own : r.taken with
    | false =>
      rw [own] at count
      exact ⟨by omega, by simpa using count, by simpa using asked⟩
    | true =>
      rw [own] at count
      have answered : c.configure = none := by
        by_contra some
        simp [some] at count
      refine ⟨by omega, ?_, by simp [answered]⟩
      simp only [if_true] at count ⊢
      split at count
      · have none' : rest.countP (fun r => r.taken) = 0 := by omega
        rw [none']
        simp
      · omega
  | unlawful configure outstanding =>
    have := asked configure
    rw [outstanding] at this
    cases this

theorem linkFits_default : LinkFits CommandLink.default := ⟨by decide, by decide, by decide⟩

theorem step_keeps_repliesFit {s t : State} (h : step s = .next t) (hs : RepliesFit s) : RepliesFit t := by
  cases outcome_step h with
  | moved events link => exact link.keeps_linkFits hs
  | held u => exact linkFits_default
  | restarted u => exact linkFits_default

/-! ## The readout queue -/

/-- The readout queue is within its room by itself alone (R143, R145). -/
def ReadoutFits (readout : List ReadoutEvent) (position : Nat) : Prop :=
  (readout.map fun e => e.words.length).sum ≤ 16384
    ∧ (∀ e ∈ readout, e.words ≠ [])
    ∧ match readout with
      | [] => position = 0
      | e :: _ => position < e.words.length

theorem readoutWithinRoom_iff (s : State) : ReadoutWithinRoom s ↔ ReadoutFits s.router.readout s.router.takePosition := Iff.rfl

/-- With its head event gone and the take position back at 0, the queue stays within its room. -/
theorem readoutFits_tail {e : ReadoutEvent} {rest : List ReadoutEvent} {n : Nat} (h : ReadoutFits (e :: rest) n) :
    ReadoutFits rest 0 := by
  obtain ⟨room, whole, -⟩ := h
  refine ⟨by simp only [List.map_cons, List.sum_cons] at room; omega, fun x hx => whole x (List.mem_cons_of_mem _ hx), ?_⟩
  cases rest with
  | nil => rfl
  | cons x rest => exact List.length_pos_iff.2 (whole x (by simp))

/-- A whole event that fits joins the tail. -/
theorem readoutFits_concat {readout : List ReadoutEvent} {n : Nat} (h : ReadoutFits readout n) {e : ReadoutEvent} (whole : e.words ≠ [])
    (fits : e.words.length ≤ 16384 - (readout.map fun e => e.words.length).sum) : ReadoutFits (readout ++ [e]) n := by
  obtain ⟨room, wholes, inside⟩ := h
  refine ⟨?_, fun x hx => ?_, ?_⟩
  · simp only [List.map_append, List.map_singleton, List.sum_append, List.sum_singleton]
    omega
  · obtain hx | hx := List.mem_append.1 hx
    · exact wholes x hx
    · rw [List.mem_singleton.1 hx]; exact whole
  · cases readout with
    | nil =>
      obtain rfl : n = 0 := inside
      exact List.length_pos_iff.2 whole
    | cons x readout => exact inside

theorem eventBlock_ne_nil (s : State) (i : Fin 16) : eventBlock s i ≠ [] := List.cons_ne_nil _ _

theorem length_eventBlock (s : State) (i : Fin 16) : (eventBlock s i).length = eventSize s i := length_blockOf _ _

theorem event_keeps_readoutWithinRoom (s t : State) (hs : ReadoutWithinRoom s) (h : Event s t) : ReadoutWithinRoom t := by
  rw [readoutWithinRoom_iff] at hs ⊢
  cases h with
  | quiet h => rw [h.readout, h.takePosition]; exact hs
  | table h => rw [h.frame.readout, h.frame.takePosition]; exact hs
  | stream h =>
    cases h with
    | ended job room last => rw [(freeContext_eq _ _).1]; exact hs
    | begun idle head releasing positive => exact hs
    | wrote job room more => exact hs
    | sent head => exact hs
    | @stored i fits =>
      refine readoutFits_concat hs (eventBlock_ne_nil s i) ?_
      rw [length_eventBlock]
      exact of_decide_eq_true fits
    | dropped head =>
      rw [head] at hs
      exact readoutFits_tail hs
    | @took e rest n head inside =>
      rw [head] at hs
      refine ⟨by rw [head]; exact hs.1, by rw [head]; exact hs.2.1, ?_⟩
      rw [head]
      exact inside
  | run h =>
    cases h with
    | aborted inRun => rw [abortRun_eq]; exact hs
    | set allowed takes => rw [installSettings_eq]; exact hs
    | started idle => exact ⟨Nat.zero_le _, fun _ h => absurd h List.not_mem_nil, rfl⟩
    | returned draining done => exact hs
    | stopped running => exact hs
    | released held => exact hs
    | filled e n fill => exact hs
    | counted n fill => exact hs
    | fillEnded fill => exact hs
    | timed x fits => exact hs

theorem readoutWithinRoom_resetValues (s : State) : ReadoutWithinRoom (resetValues s) :=
  ⟨Nat.zero_le _, fun _ h => absurd h List.not_mem_nil, rfl⟩

/-- Settles O56: each event keeps the bounded queues within their room, and the command link's own moves keep the replies fitting. -/
theorem stepsKeepQueuesWithinRoom : Obligations.StepsKeepQueuesWithinRoom := by
  intro s t h
  exact ⟨step_keeps event_keeps_queuesWithinRoom (fun _ _ _ => id) queuesWithinRoom_resetValues queuesWithinRoom_resetValues h,
    step_keeps_repliesFit h,
    step_keeps event_keeps_readoutWithinRoom (fun _ _ _ => id) readoutWithinRoom_resetValues readoutWithinRoom_resetValues h⟩

end Sys2Proof.Machine
end

section
/-! PROOF. Outside a run nothing is in progress (R64, R97, R116, R142, R186), and the stream buffer is bracketed by its marks (R136, R137). -/

namespace Sys2Proof.Machine

open Sys2Proof.Safety

/-! ## The opening order -/

/-- What an event of the table does to the opening order: a slot joins its tail in RUNNING, or one leaves it, or nothing. -/
theorem TableEvent.order {s t : State} (h : TableEvent s t) :
    t.table.order = s.table.order
      ∨ (∃ i, s.run = .running ∧ (context s i).state = .free ∧ t.table.order = s.table.order ++ [i])
      ∨ ∃ i, s.builder.job = none ∧ t.table.order = s.table.order.erase i := by
  cases h with
  | left isOpen next => left; simp only [leaveOpen]; split <;> rfl
  | scanned moves => left; rw [(scans_scannerMove moves).table]
  | opened running free => exact .inr (.inl ⟨_, running, free, rfl⟩)
  | requested isOpen => left; rw [requestScan_eq]; rfl
  | merged admits => exact .inl rfl
  | extended admits later => exact .inl rfl
  | aged head => exact .inl rfl
  | passedBy head => exact .inl rfl
  | claimed pass head room => exact .inl rfl
  | @held u v e p room taken quiet listed some fits =>
    left
    have kept : u.table.order = s.table.order := by
      obtain ⟨e', rest, -, k⟩ | ⟨e', rest, -, -, k⟩ | ⟨-, -, k⟩ := takeEntry_cases s
      · obtain ⟨-, rfl⟩ := Prod.mk.inj (Option.some.inj (k.symm.trans taken)); rfl
      · obtain ⟨-, rfl⟩ := Prod.mk.inj (Option.some.inj (k.symm.trans taken)); rfl
      · rw [k] at taken; cases taken
    rw [storeHeld, foldl_makeRef_rest]
    exact quiet.order.trans kept
  | retained taken =>
    left
    obtain ⟨e', rest, -, k⟩ | ⟨e', rest, -, -, k⟩ | ⟨-, -, k⟩ := takeEntry_cases s
    · obtain ⟨-, rfl⟩ := Prod.mk.inj (Option.some.inj (k.symm.trans taken)); rfl
    · obtain ⟨-, rfl⟩ := Prod.mk.inj (Option.some.inj (k.symm.trans taken)); rfl
    · rw [k] at taken; cases taken
  | releasing head finished => exact .inl rfl
  | @freed i released idle => exact .inr (.inr ⟨i, idle, by rw [(freeContext_eq _ _).1]⟩)

/-- Outside a run an event of the table leaves an empty opening order empty. -/
theorem TableEvent.order_nil {s t : State} (h : TableEvent s t) (outside : inRun s = false) (empty : s.table.order = []) :
    t.table.order = [] := by
  obtain same | ⟨i, running, -, -⟩ | ⟨i, -, erased⟩ := h.order
  · rw [same, empty]
  · simp [inRun, running] at outside
  · rw [erased, empty]; rfl

/-! ## Rest outside a run -/

theorem inRun_congr {s t : State} (h : t.run = s.run) : inRun t = inRun s := by rw [inRun, inRun, h]

theorem restOutsideRun_of_frame {s t : State} (hs : RestOutsideRun s) (h : Frame s t)
    (order : inRun s = false → s.table.order = [] → t.table.order = []) : RestOutsideRun t := by
  obtain ⟨rest, init, held⟩ := hs
  refine ⟨fun outside => ?_, ?_, ?_⟩
  · rw [inRun_congr h.run] at outside
    obtain ⟨empty, idle, buffer⟩ := rest outside
    exact ⟨order outside empty, h.job.trans idle, h.buffer.trans buffer⟩
  · rw [h.fill, h.resetHeld, h.run]; exact init
  · rw [h.fill, h.resetHeld]; exact held

/-- In a run, with no zero-fill and no held reset, nothing more is asked. -/
theorem restOutsideRun_of_inRun {s : State} (hs : RestOutsideRun s) {t : State} (run : inRun s = true) (run' : t.run = s.run)
    (fill : t.pool.fill = s.pool.fill) (held : t.resetHeld = s.resetHeld) : RestOutsideRun t := by
  refine ⟨fun outside => ?_, by rw [fill, held, run']; exact hs.2.1, by rw [fill, held]; exact hs.2.2⟩
  rw [inRun_congr run', run] at outside
  cases outside

/-- Outside INIT no zero-fill runs and no reset is held. -/
theorem settled_of_restOutsideRun {s : State} (hs : RestOutsideRun s) (h : s.run ≠ .init) :
    s.pool.fill = none ∧ s.resetHeld = false := by
  obtain ⟨-, init, -⟩ := hs
  refine ⟨?_, ?_⟩
  · by_contra some
    exact h (init (.inl (Option.isSome_iff_ne_none.2 some)))
  · by_contra held
    exact h (init (.inr (by simpa using held)))

/-- A non-empty opening order, a release in progress or a word in the stream buffer means a run. -/
theorem inRun_of_busy {s : State} (hs : RestOutsideRun s)
    (h : s.table.order ≠ [] ∨ s.builder.job ≠ none ∨ s.router.buffer ≠ []) : inRun s = true := by
  by_contra outside
  obtain ⟨empty, idle, buffer⟩ := hs.1 (by simpa using outside)
  obtain h | h | h := h
  · exact h empty
  · exact h idle
  · exact h buffer

theorem ne_nil_of_head? {α : Type} {l : List α} {a : α} (h : l.head? = some a) : l ≠ [] := by
  rintro rfl
  cases h

theorem inRun_iff (s : State) : inRun s = true ↔ s.run = .running ∨ s.run = .draining := by simp [inRun]

theorem event_keeps_restOutsideRun (s t : State) (hs : RestOutsideRun s) (h : Event s t) : RestOutsideRun t := by
  cases h with
  | quiet h => exact restOutsideRun_of_frame hs h.toFrame fun _ empty => h.order.trans empty
  | table h => exact restOutsideRun_of_frame hs h.frame h.order_nil
  | stream h =>
    cases h with
    | ended job room last =>
      have run := inRun_of_busy hs (.inr (.inl (by rw [job]; exact Option.some_ne_none _)))
      rw [(freeContext_eq _ _).1]
      exact restOutsideRun_of_inRun hs run rfl rfl rfl
    | wrote job room more =>
      exact restOutsideRun_of_inRun hs (inRun_of_busy hs (.inr (.inl (by rw [job]; exact Option.some_ne_none _)))) rfl rfl rfl
    | begun idle head releasing positive =>
      exact restOutsideRun_of_inRun hs (inRun_of_busy hs (.inl (ne_nil_of_head? head))) rfl rfl rfl
    | sent head =>
      exact restOutsideRun_of_inRun hs (inRun_of_busy hs (.inr (.inr (by rw [head]; exact List.cons_ne_nil _ _)))) rfl rfl rfl
    | stored fits => exact hs
    | dropped head => exact hs
    | took head inside => exact hs
  | run h =>
    obtain ⟨rest, init, held⟩ := id hs
    cases h with
    | returned draining done =>
      obtain ⟨fill, free⟩ := settled_of_restOutsideRun hs (by rw [draining]; decide)
      obtain ⟨⟨-, idle⟩, buffer⟩ : (_ ∧ s.builder.job = none) ∧ s.router.buffer = [] := by simpa [drained] using done
      exact ⟨fun _ => ⟨rfl, idle, buffer⟩, by simp [returnToIdle, fill, free], fun _ => fill⟩
    | started idle =>
      obtain ⟨fill, free⟩ := settled_of_restOutsideRun hs (by rw [idle]; decide)
      have fill' : (startRun s).pool.fill = none := fill
      have free' : (startRun s).resetHeld = false := free
      exact ⟨by simp [startRun, inRun], by simp [fill', free'], fun _ => fill'⟩
    | stopped running =>
      obtain ⟨fill, free⟩ := settled_of_restOutsideRun hs (by rw [running]; decide)
      exact ⟨by simp [inRun], by simp [fill, free], fun _ => fill⟩
    | aborted run =>
      have notInit : s.run ≠ .init := fun e => by simp [inRun, e] at run
      obtain ⟨fill, free⟩ := settled_of_restOutsideRun hs notInit
      rw [abortRun_eq]
      exact ⟨fun _ => ⟨rfl, rfl, rfl⟩, by simp [fill, free], fun _ => fill⟩
    | released h =>
      have isInit : s.run = .init := h.elim id fun k => init (.inr k)
      exact ⟨rest, fun _ => isInit, fun k => by cases k⟩
    | @filled k e n fill =>
      have isInit : s.run = .init := init (.inl (by rw [fill]; rfl))
      exact ⟨rest, fun _ => isInit, fun k => by rw [held k] at fill; cases fill⟩
    | @counted k n fill =>
      have isInit : s.run = .init := init (.inl (by rw [fill]; rfl))
      exact ⟨rest, fun _ => isInit, fun k => by rw [held k] at fill; cases fill⟩
    | fillEnded fill =>
      have isInit : s.run = .init := init (.inl (by rw [fill]; rfl))
      have free : s.resetHeld = false := by
        by_contra k
        rw [held (by simpa using k)] at fill
        cases fill
      exact ⟨fun _ => rest (by simp [inRun, isInit]), by simp [free], fun _ => rfl⟩
    | timed x fits => exact hs
    | set allowed takes => rw [installSettings_eq]; exact hs

theorem restOutsideRun_resetValues (s : State) : RestOutsideRun (resetValues s) :=
  ⟨fun _ => ⟨rfl, rfl, rfl⟩, fun _ => rfl, fun _ => rfl⟩

theorem restOutsideRun_holdReset (s : State) : RestOutsideRun (holdReset s) :=
  ⟨fun _ => ⟨rfl, rfl, rfl⟩, fun _ => rfl, fun _ => rfl⟩

/-! ## The stream buffer -/

/-- The words of the buffer and the builder fit together by themselves alone (R136, R137). -/
def StreamFits (inEvent : Bool) (buffer : List StreamWord) (job : Option StreamJob) : Prop :=
  bracketed inEvent buffer = some (match job with
      | some j => decide (0 < j.progress)
      | none => false)
    ∧ ∀ j, job = some j → j.progress < j.size

theorem streamBracketed_iff (s : State) :
    StreamBracketed s ↔ RestOutsideRun s ∧ StreamFits s.router.inEvent s.router.buffer s.builder.job := Iff.rfl

/-- One word more is read from the link state that the words before it leave. -/
theorem bracketed_concat {inside after : Bool} {ws : List StreamWord} (h : bracketed inside ws = some after) (w : StreamWord) :
    bracketed inside (ws ++ [w]) = if w.first = after then none else some (!w.last) := by
  induction ws generalizing inside with
  | nil =>
    obtain rfl := Option.some.inj h
    rfl
  | cons v ws ih =>
    simp only [bracketed] at h
    rw [List.cons_append, bracketed]
    split at h
    · cases h
    · next ok => rw [if_neg ok]; exact ih h

/-- The word written at stream progress k is marked FIRST at 0, where the words before it end outside an event, and only there. -/
theorem bracketed_streamWord {inside : Bool} {ws : List StreamWord} {k : Nat} (h : bracketed inside ws = some (decide (0 < k)))
    (w : Word) (last : Bool) : bracketed inside (ws ++ [⟨w, decide (k = 0), last⟩]) = some (!last) := by
  have right : ¬ decide (k = 0) = decide (0 < k) := by
    cases k with
    | zero => decide
    | succ k => simp
  rw [bracketed_concat h, if_neg right]

theorem streamFits_written {inside : Bool} {ws : List StreamWord} {j : StreamJob} (h : StreamFits inside ws (some j)) (w : Word)
    (more : j.progress + 1 ≠ j.size) :
    StreamFits inside (ws ++ [⟨w, decide (j.progress = 0), decide (j.progress + 1 = j.size)⟩])
      (some { j with progress := j.progress + 1 }) := by
  obtain ⟨words, progress⟩ := h
  refine ⟨?_, fun k hk => ?_⟩
  · rw [bracketed_streamWord words, decide_eq_false more]
    simp
  · obtain rfl := Option.some.inj hk
    have := progress j rfl
    simp only
    omega

theorem streamFits_ended {inside : Bool} {ws : List StreamWord} {j : StreamJob} (h : StreamFits inside ws (some j)) (w : Word)
    (last : j.progress + 1 = j.size) :
    StreamFits inside (ws ++ [⟨w, decide (j.progress = 0), decide (j.progress + 1 = j.size)⟩]) none := by
  obtain ⟨words, -⟩ := h
  refine ⟨?_, fun k hk => by cases hk⟩
  rw [bracketed_streamWord words, decide_eq_true last]
  rfl

theorem streamFits_sent {inside : Bool} {w : StreamWord} {rest : List StreamWord} {job : Option StreamJob}
    (h : StreamFits inside (w :: rest) job) : StreamFits (!w.last) rest job := by
  obtain ⟨words, progress⟩ := h
  simp only [bracketed] at words
  split at words
  · cases words
  · exact ⟨words, progress⟩

theorem streamFits_empty : StreamFits false [] none := ⟨rfl, fun _ h => by cases h⟩

theorem event_keeps_streamBracketed (s t : State) (hs : StreamBracketed s) (h : Event s t) : StreamBracketed t := by
  rw [streamBracketed_iff] at hs ⊢
  obtain ⟨rest, fits⟩ := hs
  refine ⟨event_keeps_restOutsideRun s t rest h, ?_⟩
  cases h with
  | quiet h => rw [h.inEvent, h.buffer, h.job]; exact fits
  | table h => rw [h.frame.inEvent, h.frame.buffer, h.frame.job]; exact fits
  | stream h =>
    cases h with
    | ended job room last =>
      rw [job] at fits
      rw [(freeContext_eq _ _).1]
      exact streamFits_ended fits _ last
    | wrote job room more =>
      rw [job] at fits
      exact streamFits_written fits _ more
    | begun idle head releasing positive =>
      rw [idle] at fits
      refine ⟨fits.1, fun j hj => ?_⟩
      obtain rfl := Option.some.inj hj
      exact positive
    | sent head =>
      rw [head] at fits
      exact streamFits_sent fits
    | stored _ => exact fits
    | dropped head => exact fits
    | took head inside => exact fits
  | run h =>
    cases h with
    | started idle =>
      obtain ⟨-, noJob, buffer⟩ := rest.1 (by simp [inRun, idle])
      rw [buffer, noJob] at fits
      exact fits
    | aborted run => rw [abortRun_eq]; exact streamFits_empty
    | set allowed takes => rw [installSettings_eq]; exact fits
    | returned draining done => exact fits
    | stopped running => exact fits
    | released held => exact fits
    | filled e n fill => exact fits
    | counted n fill => exact fits
    | fillEnded fill => exact fits
    | timed x _ => exact fits

/-- Settles O57: each event keeps the brackets, and a reset leaves an empty buffer between events. -/
theorem stepsKeepTheStreamBracketed : Obligations.StepsKeepTheStreamBracketed := by
  intro s t h hs
  exact step_keeps event_keeps_streamBracketed (fun _ _ _ => id) (fun u => ⟨restOutsideRun_resetValues u, streamFits_empty⟩)
    (fun u => ⟨restOutsideRun_holdReset u, streamFits_empty⟩) h hs

end Sys2Proof.Machine
end

section
/-! PROOF. The law of the context table and its lists (R68, R69, R74, R79, R84, R85, R88). -/

namespace Sys2Proof.Machine

open Sys2Proof.Safety

/-! ## The law, part by part -/

/-- A non-FREE context's lists, lost count and charge total are within their bounds (R74, R79, R81, R82). -/
def InBounds (c : Context) : Prop :=
  1 ≤ c.triggers.length ∧ c.triggers.length ≤ 4 ∧ c.refs.length ≤ 1024 ∧ c.lost ≤ 65535 ∧ c.charge ≤ 16777215

/-- The scan standing that the scan request list and the scanner give slot `i` (R88). -/
def standingOf (scanned : Option (Fin 16)) (scanList : List (Fin 16)) (i : Fin 16) : ScanStanding :=
  if scanned = some i then .scanning else if i ∈ scanList then .queued else .noScan

/-- The table's law with its parts named. -/
structure TableLaw (s : State) : Prop where
  nodup : s.table.order.Nodup
  order : ∀ i, i ∈ s.table.order ↔ (context s i).state ≠ .free
  scanNodup : s.table.scanList.Nodup
  listed : ∀ i ∈ s.table.scanList, (context s i).state = .opened
  scanned : ∀ i, s.table.scanned = some i → (context s i).state = .opened
  scan : ∀ i, (context s i).scan = standingOf s.table.scanned s.table.scanList i
  bounds : ∀ i ∈ s.table.order, InBounds (context s i)
  job : ∀ j, s.builder.job = some j → s.table.order.head? = some j.slot ∧ (context s j.slot).state = .releasing

theorem tableLawful_iff (s : State) : TableLawful s ↔ TableLaw s := by
  constructor
  · rintro ⟨nodup, order, scanNodup, listed, scanned, scan, bounds, job⟩
    exact ⟨nodup, order, scanNodup, listed, scanned, scan, bounds, job⟩
  · rintro ⟨nodup, order, scanNodup, listed, scanned, scan, bounds, job⟩
    exact ⟨nodup, order, scanNodup, listed, scanned, scan, bounds, job⟩

theorem TableLaw.mem_order_of_opened {s : State} (h : TableLaw s) {i : Fin 16} (isOpen : (context s i).state = .opened) :
    i ∈ s.table.order := (h.order i).2 (by rw [isOpen]; decide)

/-- A slot that is not OPEN is neither listed nor scanned. -/
theorem TableLaw.unscanned {s : State} (h : TableLaw s) {i : Fin 16} (notOpen : (context s i).state ≠ .opened) :
    i ∉ s.table.scanList ∧ s.table.scanned ≠ some i :=
  ⟨fun listed => notOpen (h.listed i listed), fun scanned => notOpen (h.scanned i scanned)⟩

/-- The law is kept where the lists stay, and every context keeps its state, its scan standing and its bounds. -/
theorem TableLaw.of_records {s t : State} (h : TableLaw s) (order : t.table.order = s.table.order)
    (scanList : t.table.scanList = s.table.scanList) (scanned : t.table.scanned = s.table.scanned)
    (job : t.builder.job = s.builder.job)
    (records : ∀ i, (context t i).state = (context s i).state ∧ (context t i).scan = (context s i).scan)
    (bounds : ∀ i ∈ s.table.order, InBounds (context s i) → InBounds (context t i)) : TableLaw t where
  nodup := by rw [order]; exact h.nodup
  order i := by rw [order, (records i).1]; exact h.order i
  scanNodup := by rw [scanList]; exact h.scanNodup
  listed i hi := by rw [(records i).1]; exact h.listed i (by rw [← scanList]; exact hi)
  scanned i hi := by rw [(records i).1]; exact h.scanned i (by rw [← scanned]; exact hi)
  scan i := by rw [(records i).2, scanned, scanList]; exact h.scan i
  bounds i hi := by rw [order] at hi; exact bounds i hi (h.bounds i hi)
  job j hj := by rw [order, (records j.slot).1]; exact h.job j (by rw [← job]; exact hj)

/-- The law reads the table and the builder's job alone. -/
theorem TableLaw.congr {s t : State} (h : TableLaw s) (slots : t.table.slots = s.table.slots) (order : t.table.order = s.table.order)
    (scanList : t.table.scanList = s.table.scanList) (scanned : t.table.scanned = s.table.scanned)
    (job : t.builder.job = s.builder.job) : TableLaw t :=
  h.of_records order scanList scanned job (fun i => by rw [context_congr slots]; exact ⟨rfl, rfl⟩)
    fun i _ b => by rw [context_congr slots]; exact b

/-! ## The bounds of one context -/

theorem SameRecord.inBounds {c d : Context} (h : SameRecord c d) (hc : InBounds c) : InBounds d := by
  obtain ⟨least, most, refs, lost, charge⟩ := hc
  rw [InBounds, h.triggers, h.refs, h.charge]
  exact ⟨least, most, refs, by have := h.lost; omega, charge⟩

theorem inBounds_withRef {c : Context} (e : Fin 4096) (p : PulseRecord) (h : InBounds c) (room : c.refs.length < 1024) :
    InBounds (c.withRef e p) := by
  obtain ⟨least, most, -, lost, -⟩ := h
  rw [withRef_eq]
  refine ⟨least, most, ?_, lost, Nat.min_le_left _ _⟩
  simp only [List.length_append, List.length_singleton]
  omega

/-! ## Events of the table -/

theorem nodup_concat_of_notMem {α : Type} {l : List α} {a : α} (h : l.Nodup) (away : a ∉ l) : (l ++ [a]).Nodup :=
  List.nodup_append.2 ⟨h, List.nodup_singleton a, fun b hb c hc e => away (by rw [← List.mem_singleton.1 hc, ← e]; exact hb)⟩

theorem TableLaw.of_quiet {s t : State} (h : TableLaw s) (q : Quiet s t) : TableLaw t :=
  h.of_records q.order q.scanList q.scanned q.job (fun i => ⟨(q.contexts i).state, (q.contexts i).scan⟩)
    fun i _ => (q.contexts i).inBounds

theorem standingOf_leave {scanned : Option (Fin 16)} {scanList : List (Fin 16)} {i j : Fin 16} (h : j ≠ i) :
    standingOf (if scanned = some i then none else scanned) (scanList.erase i) j = standingOf scanned scanList j := by
  have same : (if scanned = some i then none else scanned) = some j ↔ scanned = some j := by
    split
    · next e => simp [e, Ne.symm h]
    · exact Iff.rfl
  simp only [standingOf, same, List.mem_erase_of_ne h]

theorem tableLaw_leaveOpen {s : State} {i : Fin 16} {st : ContextState} (h : TableLaw s) (isOpen : (context s i).state = .opened)
    (next : st = .complete ∨ st = .expired) : TableLaw (leaveOpen i st s) := by
  have order : (leaveOpen i st s).table.order = s.table.order := by simp only [leaveOpen]; split <;> rfl
  have notFree : st ≠ .free := by rintro rfl; simp at next
  have other : ∀ j, (context s j).state ≠ .opened → j ≠ i := fun j hj e => hj (e ▸ isOpen)
  constructor
  case nodup => rw [order]; exact h.nodup
  case order =>
    intro j
    rw [order, context_leaveOpen]
    split
    · next e =>
      rw [e]
      exact ⟨fun _ => notFree, fun _ => h.mem_order_of_opened isOpen⟩
    · exact h.order j
  case scanNodup => rw [scanList_leaveOpen]; exact h.scanNodup.erase i
  case listed =>
    intro j hj
    rw [scanList_leaveOpen] at hj
    have ne : j ≠ i := fun e => h.scanNodup.not_mem_erase (e ▸ hj)
    rw [context_leaveOpen, if_neg ne]
    exact h.listed j (List.mem_of_mem_erase hj)
  case scanned =>
    intro j hj
    rw [scanned_leaveOpen] at hj
    split at hj
    · cases hj
    · next e =>
      have ne : j ≠ i := fun k => e (k ▸ hj)
      rw [context_leaveOpen, if_neg ne]
      exact h.scanned j hj
  case scan =>
    intro j
    rw [scanned_leaveOpen, scanList_leaveOpen, context_leaveOpen]
    split
    · next e =>
      have none' : (if s.table.scanned = some i then none else s.table.scanned) ≠ some i := by
        split
        · simp
        · assumption
      rw [e, standingOf, if_neg none', if_neg h.scanNodup.not_mem_erase]
    · next e => rw [standingOf_leave e]; exact h.scan j
  case bounds =>
    intro j hj
    rw [order] at hj
    rw [context_leaveOpen]
    split
    · next e => rw [e] at hj; exact h.bounds i hj
    · exact h.bounds j hj
  case job =>
    intro j hj
    have hj : s.builder.job = some j := (frame_leaveOpen i st s).job.symm.trans hj
    obtain ⟨head, releasing⟩ := h.job j hj
    rw [order, context_leaveOpen, if_neg (other _ (by rw [releasing]; decide))]
    exact ⟨head, releasing⟩

theorem tableLaw_endPass {s : State} {i : Fin 16} (h : TableLaw s) (pass : s.table.scanned = some i) : TableLaw (endPass i s) := by
  have record : ∀ j, context (endPass i s) j = { context s j with
      scan := standingOf none s.table.scanList j } := by
    intro j
    rw [context_endPass]
    split
    · next e => rw [e]; simp [standingOf]
    · next e =>
      have ne : ¬ some i = some j := fun k => e (Option.some.inj k).symm
      have scan := h.scan j
      rw [pass, standingOf, if_neg ne] at scan
      simp only [standingOf, reduceCtorEq, if_false, ← scan]
  constructor
  case nodup => exact h.nodup
  case order => intro j; rw [record]; exact h.order j
  case scanNodup => exact h.scanNodup
  case listed => intro j hj; rw [record]; exact h.listed j hj
  case scanned => intro j hj; cases hj
  case scan => intro j; rw [record]; rfl
  case bounds => intro j hj; rw [record]; exact h.bounds j hj
  case job => intro j hj; rw [record]; exact h.job j hj

theorem tableLaw_startPass {s : State} {i : Fin 16} {rest : List (Fin 16)} (h : TableLaw s) (idle : s.table.scanned = none)
    (list : s.table.scanList = i :: rest) : TableLaw (startPass i rest s) := by
  have nodup := h.scanNodup
  rw [list] at nodup
  obtain ⟨away, nodup⟩ := List.nodup_cons.1 nodup
  have record : ∀ j, context (startPass i rest s) j = { context s j with scan := standingOf (some i) rest j } := by
    intro j
    rw [context_startPass]
    split
    · next e => rw [e]; simp [standingOf]
    · next e =>
      have ne : ¬ some i = some j := fun k => e (Option.some.inj k).symm
      have scan := h.scan j
      rw [idle, list] at scan
      simp only [standingOf, reduceCtorEq, if_false, List.mem_cons, e, false_or] at scan
      simp only [standingOf, ne, if_false, ← scan]
  constructor
  case nodup => exact h.nodup
  case order => intro j; rw [record]; exact h.order j
  case scanNodup => exact nodup
  case listed => intro j hj; rw [record]; exact h.listed j (by rw [list]; exact List.mem_cons_of_mem _ hj)
  case scanned =>
    intro j hj
    obtain rfl : i = j := Option.some.inj hj
    rw [record]
    exact h.listed i (by rw [list]; exact List.mem_cons_self)
  case scan => intro j; rw [record]; rfl
  case bounds => intro j hj; rw [record]; exact h.bounds j hj
  case job => intro j hj; rw [record]; exact h.job j hj

/-- What the scanner's next move is: the end of a pass with nothing left to visit, or the start of the next one (R89, R92). -/
theorem scannerMove_cases {s t : State} (h : scannerMove s = some t) :
    (∃ i, s.table.scanned = some i ∧ s.table.visits = [] ∧ t = endPass i s)
      ∨ ∃ i rest, s.table.scanned = none ∧ s.table.scanList = i :: rest ∧ t = startPass i rest s := by
  simp only [scannerMove] at h
  split at h
  · next i pass =>
    split at h
    · next empty => exact .inl ⟨i, pass, List.isEmpty_iff.1 empty, (Option.some.inj h).symm⟩
    · cases h
  · next idle =>
    split at h
    · cases h
    · next i rest list => exact .inr ⟨i, rest, idle, list, (Option.some.inj h).symm⟩

theorem tableLaw_scannerMove {s t : State} (h : TableLaw s) (moves : scannerMove s = some t) : TableLaw t := by
  obtain ⟨i, pass, -, rfl⟩ | ⟨i, rest, idle, list, rfl⟩ := scannerMove_cases moves
  · exact tableLaw_endPass h pass
  · exact tableLaw_startPass h idle list

theorem head?_append_of_some {α : Type} {l : List α} {a b : α} (h : l.head? = some a) : (l ++ [b]).head? = some a := by
  cases l with
  | nil => cases h
  | cons c l => exact h

theorem tableLaw_opened {s : State} {i : Fin 16} (r : Request) (h : TableLaw s) (free : (context s i).state = .free) (n : Nat) :
    TableLaw (setContext i (openedContext s r) { s with table.order := s.table.order ++ [i], table.nextNumber := n }) := by
  have away : i ∉ s.table.order := fun mem => (h.order i).1 mem free
  obtain ⟨unlisted, unscanned⟩ := h.unscanned (i := i) (by rw [free]; decide)
  have record : ∀ j, context (setContext i (openedContext s r) { s with
      table.order := s.table.order ++ [i], table.nextNumber := n }) j = if j = i then openedContext s r else context s j :=
    fun j => context_setContext i j _ _
  constructor
  case nodup => exact nodup_concat_of_notMem h.nodup away
  case order =>
    intro j
    rw [record]
    split
    · next e => simp [e, openedContext]
    · next e =>
      rw [← h.order j]
      simp [e]
  case scanNodup => exact h.scanNodup
  case listed =>
    intro j hj
    have ne : j ≠ i := fun e => unlisted (e ▸ hj)
    rw [record, if_neg ne]
    exact h.listed j hj
  case scanned =>
    intro j hj
    have ne : j ≠ i := fun e => unscanned (e ▸ hj)
    rw [record, if_neg ne]
    exact h.scanned j hj
  case scan =>
    intro j
    rw [record]
    split
    · next e => subst e; simp [standingOf, unscanned, unlisted, openedContext]
    · exact h.scan j
  case bounds =>
    intro j hj
    rw [record]
    split
    · exact ⟨le_rfl, by simp [openedContext], by simp [openedContext], by simp [openedContext], by simp [openedContext]⟩
    · next e =>
      have mem : j ∈ s.table.order ++ [i] := hj
      rw [List.mem_append, List.mem_singleton] at mem
      exact h.bounds j (mem.resolve_right e)
  case job =>
    intro j hj
    obtain ⟨head, releasing⟩ := h.job j hj
    have ne : j.slot ≠ i := by
      intro e
      rw [e, free] at releasing
      cases releasing
    rw [record, if_neg ne]
    exact ⟨head?_append_of_some head, releasing⟩

theorem tableLaw_requestScan {s : State} {i : Fin 16} (h : TableLaw s) (isOpen : (context s i).state = .opened) :
    TableLaw (requestScan i s) := by
  rw [requestScan]
  split
  · exact h
  · split
    · next standing =>
      have scan := h.scan i
      have fresh : s.table.scanned ≠ some i ∧ i ∉ s.table.scanList := by
        rw [standing, standingOf] at scan
        split at scan
        · cases scan
        · split at scan
          · cases scan
          · exact ⟨by assumption, by assumption⟩
      have record : ∀ j, context (modContext i (fun c => { c with scan := .queued }) (joinScanList i s)) j
          = { context s j with scan := standingOf s.table.scanned (s.table.scanList ++ [i]) j } := by
        intro j
        rw [context_modContext]
        split
        · next e => rw [e]; simp [standingOf, fresh.1]
        · next e =>
          have same : standingOf s.table.scanned (s.table.scanList ++ [i]) j = (context s j).scan := by
            rw [h.scan j]; simp [standingOf, e]
          rw [same]; rfl
      constructor
      case nodup => exact h.nodup
      case order => intro j; rw [record]; exact h.order j
      case scanNodup => exact nodup_concat_of_notMem h.scanNodup fresh.2
      case listed =>
        intro j hj
        have mem : j ∈ s.table.scanList ++ [i] := hj
        rw [record]
        obtain mem | mem := List.mem_append.1 mem
        · exact h.listed j mem
        · rw [List.mem_singleton.1 mem]; exact isOpen
      case scanned => intro j hj; rw [record]; exact h.scanned j hj
      case scan => intro j; rw [record]; rfl
      case bounds => intro j hj; rw [record]; exact h.bounds j hj
      case job => intro j hj; rw [record]; exact h.job j hj
    · exact h
    · next standing =>
      split
      · exact h
      · next unlisted =>
        replace unlisted : i ∉ s.table.scanList := by simpa using unlisted
        have pass : s.table.scanned = some i := by
          have scan := h.scan i
          by_contra no
          rw [standing, standingOf, if_neg no, if_neg unlisted] at scan
          cases scan
        constructor
        case nodup => exact h.nodup
        case order => exact h.order
        case scanNodup => exact nodup_concat_of_notMem h.scanNodup unlisted
        case listed =>
          intro j hj
          have mem : j ∈ s.table.scanList ++ [i] := hj
          obtain mem | mem := List.mem_append.1 mem
          · exact h.listed j mem
          · rw [List.mem_singleton.1 mem]; exact isOpen
        case scanned => exact h.scanned
        case scan =>
          intro j
          refine (h.scan j).trans ?_
          by_cases e : j = i
          · simp [standingOf, e, pass, joinScanList]
          · simp [standingOf, e, joinScanList]
        case bounds => exact h.bounds
        case job => exact h.job

/-- A context changed in its record, with state, scan standing and bounds kept. -/
theorem tableLaw_modContext {s : State} {i : Fin 16} {f : Context → Context} (h : TableLaw s)
    (record : (f (context s i)).state = (context s i).state ∧ (f (context s i)).scan = (context s i).scan)
    (bounds : InBounds (context s i) → InBounds (f (context s i))) : TableLaw (modContext i f s) :=
  h.of_records rfl rfl rfl rfl
    (fun j => by
      rw [context_modContext]
      split
      · next e => rw [e]; exact record
      · exact ⟨rfl, rfl⟩)
    fun j _ b => by
      rw [context_modContext]
      split
      · next e => exact bounds (e ▸ b)
      · exact b

theorem tableLaw_mergeTrigger {s : State} {i : Fin 16} {r : Request} (h : TableLaw s) (room : (context s i).triggers.length < 4) :
    TableLaw (mergeTrigger i r s) :=
  tableLaw_modContext h ⟨rfl, rfl⟩ fun ⟨_, _, refs, lost, charge⟩ =>
    ⟨by simp, by simp; omega, refs, lost, charge⟩

theorem tableLaw_takeEntry {s u : State} {e : Fin 4096} (h : TableLaw s) (taken : takeEntry s = some (e, u)) : TableLaw u := by
  obtain ⟨e', rest, -, k⟩ | ⟨e', rest, -, -, k⟩ | ⟨-, -, k⟩ := takeEntry_cases s
  · obtain ⟨-, rfl⟩ := Prod.mk.inj (Option.some.inj (k.symm.trans taken)); exact h.congr rfl rfl rfl rfl rfl
  · obtain ⟨-, rfl⟩ := Prod.mk.inj (Option.some.inj (k.symm.trans taken)); exact h.congr rfl rfl rfl rfl rfl
  · rw [k] at taken; cases taken

theorem context_takeEntry {s u : State} {e : Fin 4096} (taken : takeEntry s = some (e, u)) (i : Fin 16) :
    context u i = context s i := by
  obtain ⟨e', rest, -, k⟩ | ⟨e', rest, -, -, k⟩ | ⟨-, -, k⟩ := takeEntry_cases s
  · obtain ⟨-, rfl⟩ := Prod.mk.inj (Option.some.inj (k.symm.trans taken)); rfl
  · obtain ⟨-, rfl⟩ := Prod.mk.inj (Option.some.inj (k.symm.trans taken)); rfl
  · rw [k] at taken; cases taken

/-- The contexts after a pulse was stored HELD for those of `room` (R56). -/
theorem context_storeHeld {room : List (Fin 16)} (nodup : room.Nodup) (e : Fin 4096) (p : PulseRecord) (s : State) (i : Fin 16) :
    context (storeHeld e p room s) i = if i ∈ room then (context s i).withRef e p else context s i :=
  context_foldl_makeRef e p room nodup _ i

theorem tableLaw_storeHeld {s : State} {room : List (Fin 16)} (h : TableLaw s) (nodup : room.Nodup) (e : Fin 4096) (p : PulseRecord)
    (fits : ∀ i ∈ room, (context s i).refs.length < 1024) : TableLaw (storeHeld e p room s) := by
  have rest : (storeHeld e p room s).table = { s.table with slots := (storeHeld e p room s).table.slots }
      ∧ (storeHeld e p room s).builder = s.builder := by
    rw [storeHeld, foldl_makeRef_rest]
    exact ⟨rfl, rfl⟩
  obtain ⟨table, builder⟩ := rest
  refine h.of_records (by rw [table]) (by rw [table]) (by rw [table]) (by rw [builder]) (fun i => ?_) fun i _ b => ?_
  · rw [context_storeHeld nodup]
    split
    · rw [withRef_eq]; exact ⟨rfl, rfl⟩
    · exact ⟨rfl, rfl⟩
  · rw [context_storeHeld nodup]
    split
    · next mem => exact inBounds_withRef e p b (fits i mem)
    · exact b

theorem head?_erase {α : Type} [DecidableEq α] {l : List α} {a b : α} (h : l.head? = some a) (ne : a ≠ b) :
    (l.erase b).head? = some a := by
  cases l with
  | nil => cases h
  | cons c l =>
    obtain rfl := Option.some.inj h
    rw [List.erase_cons_tail (by simpa using ne)]
    rfl

theorem tableLaw_freeContext {s : State} {i : Fin 16} (h : TableLaw s) (released : (context s i).state = .releasing)
    (idle : s.builder.job = none) : TableLaw (freeContext i s) := by
  obtain ⟨rest, record⟩ := freeContext_eq i s
  obtain ⟨unlisted, unscanned⟩ := h.unscanned (i := i) (by rw [released]; decide)
  have order : (freeContext i s).table.order = s.table.order.erase i := by rw [rest]
  have scanList : (freeContext i s).table.scanList = s.table.scanList := by rw [rest]
  have scanned : (freeContext i s).table.scanned = s.table.scanned := by rw [rest]
  have job : (freeContext i s).builder.job = s.builder.job := by rw [rest]
  constructor
  case nodup => rw [order]; exact h.nodup.erase i
  case order =>
    intro j
    rw [order, record, h.nodup.mem_erase_iff]
    split
    · next e => simp [e, Context.freeSlot]
    · next e => simp [e, h.order j]
  case scanNodup => rw [scanList]; exact h.scanNodup
  case listed =>
    intro j hj
    rw [scanList] at hj
    have ne : j ≠ i := fun e => unlisted (e ▸ hj)
    rw [record, if_neg ne]
    exact h.listed j hj
  case scanned =>
    intro j hj
    rw [scanned] at hj
    have ne : j ≠ i := fun e => unscanned (e ▸ hj)
    rw [record, if_neg ne]
    exact h.scanned j hj
  case scan =>
    intro j
    rw [scanList, scanned, record]
    split
    · next e => subst e; simp [standingOf, unscanned, unlisted, Context.freeSlot]
    · exact h.scan j
  case bounds =>
    intro j hj
    rw [order, h.nodup.mem_erase_iff] at hj
    rw [record, if_neg hj.1]
    exact h.bounds j hj.2
  case job => intro j hj; rw [job, idle] at hj; cases hj

theorem tableLaw_releasing {s : State} {i : Fin 16} (h : TableLaw s) (finished : isFinished s i = true) :
    TableLaw (modContext i (fun c => { c with state := .releasing }) s) := by
  have notOpen : (context s i).state ≠ .opened := fun e => by simp [isFinished, e] at finished
  have notFree : (context s i).state ≠ .free := fun e => by simp [isFinished, e] at finished
  obtain ⟨unlisted, unscanned⟩ := h.unscanned notOpen
  constructor
  case nodup => exact h.nodup
  case order =>
    intro j
    rw [context_modContext]
    split
    · next e => rw [e]; exact ⟨fun _ h => ContextState.noConfusion h, fun _ => (h.order i).2 notFree⟩
    · exact h.order j
  case scanNodup => exact h.scanNodup
  case listed =>
    intro j hj
    have ne : j ≠ i := fun e => unlisted (e ▸ hj)
    rw [context_modContext, if_neg ne]
    exact h.listed j hj
  case scanned =>
    intro j hj
    have ne : j ≠ i := fun e => unscanned (e ▸ hj)
    rw [context_modContext, if_neg ne]
    exact h.scanned j hj
  case scan =>
    intro j
    rw [context_modContext]
    split
    · next e => rw [e]; exact h.scan i
    · exact h.scan j
  case bounds =>
    intro j hj
    rw [context_modContext]
    split
    · next e => rw [e] at hj; exact h.bounds i hj
    · exact h.bounds j hj
  case job =>
    intro j hj
    obtain ⟨head, releasing⟩ := h.job j hj
    refine ⟨head, ?_⟩
    rw [context_modContext]
    split
    · rfl
    · exact releasing

theorem tableLaw_extendWindow {s : State} {i : Fin 16} {r : Request} (h : TableLaw s) : TableLaw (extendWindow i r s) := by
  simp only [extendWindow]
  exact tableLaw_modContext h ⟨rfl, rfl⟩ fun b => b

theorem tableLaw_claim {s : State} {i : Fin 16} {e : Fin 4096} {rest : List (Fin 4096)} (h : TableLaw s) (room : hasRoom s i = true) :
    TableLaw (claim i e { s with table.visits := rest }) := by
  simp only [claim, makeRef]
  refine tableLaw_modContext (h.congr rfl rfl rfl rfl rfl) ?_ fun b => ?_
  · rw [withRef_eq]; exact ⟨rfl, rfl⟩
  · exact inBounds_withRef _ _ b (of_decide_eq_true room)

/-- An event of the table keeps its law. -/
theorem TableEvent.tableLaw {s t : State} (h : TableEvent s t) (hs : TableLaw s) : TableLaw t := by
  cases h with
  | left isOpen next => exact tableLaw_leaveOpen hs isOpen next
  | scanned moves => exact tableLaw_scannerMove hs moves
  | opened running free => exact tableLaw_opened _ hs free _
  | requested isOpen => exact tableLaw_requestScan hs isOpen
  | merged admits => exact tableLaw_mergeTrigger hs (mergeable_opened admits).2.1
  | extended admits later => exact tableLaw_extendWindow (tableLaw_mergeTrigger hs (mergeable_opened admits).2.1)
  | aged head => exact hs.congr rfl rfl rfl rfl rfl
  | passedBy head => exact hs.congr rfl rfl rfl rfl rfl
  | claimed pass head room => exact tableLaw_claim hs room
  | @held u v e p room taken quiet listed some fits =>
    refine tableLaw_storeHeld ((tableLaw_takeEntry hs taken).of_quiet quiet) (listed.nodup hs.nodup) e p fun i hi => ?_
    rw [(quiet.contexts i).refs, context_takeEntry taken]
    exact of_decide_eq_true (fits i hi).2
  | retained taken => exact (tableLaw_takeEntry hs taken).congr rfl rfl rfl rfl rfl
  | releasing head finished => exact tableLaw_releasing hs finished
  | freed released idle => exact tableLaw_freeContext hs released idle

/-! ## Every event -/

/-- An empty table with no release in progress meets the law. -/
theorem tableLaw_empty {s : State} (order : s.table.order = []) (scanList : s.table.scanList = []) (scanned : s.table.scanned = none)
    (free : ∀ i, context s i = Context.freeSlot) (idle : s.builder.job = none) : TableLaw s where
  nodup := by rw [order]; exact List.nodup_nil
  order i := by rw [order, free]; simp [Context.freeSlot]
  scanNodup := by rw [scanList]; exact List.nodup_nil
  listed i hi := by rw [scanList] at hi; cases hi
  scanned i hi := by rw [scanned] at hi; cases hi
  scan i := by rw [scanList, scanned, free]; rfl
  bounds i hi := by rw [order] at hi; cases hi
  job j hj := by rw [idle] at hj; cases hj

theorem context_freeTable (s : State) (i : Fin 16) : context (freeTable s) i = Context.freeSlot := get_replicate _ _

theorem context_startRun (s : State) (i : Fin 16) : context (startRun s) i = Context.freeSlot := get_replicate _ _

theorem context_resetValues (s : State) (i : Fin 16) : context (resetValues s) i = Context.freeSlot := get_replicate _ _

theorem event_keeps_tableLaw (s t : State) (hs : TableLaw s) (h : Event s t) : TableLaw t := by
  cases h with
  | quiet h => exact hs.of_quiet h
  | table h => exact h.tableLaw hs
  | stream h =>
    cases h with
    | @ended j job room last =>
      have done : TableLaw (streamEnded j s) :=
        { nodup := hs.nodup, order := hs.order, scanNodup := hs.scanNodup, listed := hs.listed, scanned := hs.scanned
          scan := hs.scan, bounds := hs.bounds, job := fun _ h => by cases h }
      exact tableLaw_freeContext done (hs.job j job).2 rfl
    | @wrote j job room more =>
      refine ⟨hs.nodup, hs.order, hs.scanNodup, hs.listed, hs.scanned, hs.scan, hs.bounds, fun k hk => ?_⟩
      obtain rfl := Option.some.inj hk
      exact hs.job j job
    | begun idle head releasing positive =>
      refine ⟨hs.nodup, hs.order, hs.scanNodup, hs.listed, hs.scanned, hs.scan, hs.bounds, fun k hk => ?_⟩
      obtain rfl := Option.some.inj hk
      exact ⟨head, releasing⟩
    | sent head => exact hs.congr rfl rfl rfl rfl rfl
    | stored fits => exact hs.congr rfl rfl rfl rfl rfl
    | dropped head => exact hs.congr rfl rfl rfl rfl rfl
    | took head inside => exact hs.congr rfl rfl rfl rfl rfl
  | run h =>
    cases h with
    | returned draining done =>
      obtain ⟨⟨-, idle⟩, -⟩ : (_ ∧ s.builder.job = none) ∧ s.router.buffer = [] := by simpa [drained] using done
      exact tableLaw_empty rfl rfl rfl (context_freeTable _) idle
    | started idle => exact tableLaw_empty rfl rfl rfl (context_startRun s) rfl
    | aborted run => rw [abortRun_eq]; exact tableLaw_empty rfl rfl rfl (context_freeTable s) rfl
    | set allowed takes => rw [installSettings_eq]; exact hs.congr rfl rfl rfl rfl rfl
    | stopped running => exact hs.congr rfl rfl rfl rfl rfl
    | released held => exact hs.congr rfl rfl rfl rfl rfl
    | filled e n fill => exact hs.congr rfl rfl rfl rfl rfl
    | counted n fill => exact hs.congr rfl rfl rfl rfl rfl
    | fillEnded fill => exact hs.congr rfl rfl rfl rfl rfl
    | timed x fits => exact hs.congr rfl rfl rfl rfl rfl

theorem tableLaw_resetValues (s : State) : TableLaw (resetValues s) := tableLaw_empty rfl rfl rfl (context_resetValues s) rfl

theorem tableLaw_holdReset (s : State) : TableLaw (holdReset s) := tableLaw_empty rfl rfl rfl (context_resetValues s) rfl

/-- Settles O58: each event keeps the table's law, and a reset leaves an empty table. -/
theorem stepsKeepTheTableLawful : Obligations.StepsKeepTheTableLawful := by
  intro s t h hs
  rw [tableLawful_iff] at hs ⊢
  exact step_keeps event_keeps_tableLaw (fun _ _ _ h => h.congr rfl rfl rfl rfl rfl) tableLaw_resetValues tableLaw_holdReset h hs

end Sys2Proof.Machine
end

section
/-! PROOF. The pool's law (R53, R55, R61, R63, R79, R89, R92): reference counts are the references held, and the free list and the retention
queue share out the entries of count 0. -/

namespace Sys2Proof.Machine

open Sys2Proof.Safety

/-! ## Counting the holders of an entry -/

theorem allSlots_eq_finRange : allSlots = List.finRange 16 := by decide

/-- The holders of an entry are as many as the slots that hold it. -/
theorem holders_eq_card (s : State) (e : Fin 4096) :
    holders s e = (Finset.univ.filter fun i : Fin 16 => e ∈ (context s i).refs).card := by
  rw [holders, allSlots_eq_finRange, Finset.card_def, Finset.filter_val, ← Multiset.countP_eq_card_filter]
  refine Eq.trans (List.countP_congr fun i _ => ?_) (Multiset.coe_countP _ (List.finRange 16)).symm
  simp

theorem holders_congr {s t : State} {e : Fin 4096} (h : ∀ i, e ∈ (context t i).refs ↔ e ∈ (context s i).refs) :
    holders t e = holders s e := by simp only [holders_eq_card, h]

theorem holders_eq_zero {s : State} {e : Fin 4096} : holders s e = 0 ↔ ∀ i, e ∉ (context s i).refs := by
  rw [holders_eq_card, Finset.card_eq_zero, Finset.filter_eq_empty_iff]
  simp

/-- An entry held by exactly the slots of a list without repeats has as many holders. -/
theorem holders_eq_length {s : State} {e : Fin 4096} {l : List (Fin 16)} (nodup : l.Nodup)
    (h : ∀ i, e ∈ (context s i).refs ↔ i ∈ l) : holders s e = l.length := by
  rw [holders_eq_card, ← List.toFinset_card_of_nodup nodup]
  congr 1
  ext i
  simp [h]

/-- An entry that one slot lets go has one holder less. -/
theorem holders_dropped {s t : State} {e : Fin 4096} {i : Fin 16}
    (h : ∀ j, e ∈ (context t j).refs ↔ j ≠ i ∧ e ∈ (context s j).refs) :
    holders t e = holders s e - if e ∈ (context s i).refs then 1 else 0 := by
  have erased : (Finset.univ.filter fun j : Fin 16 => e ∈ (context t j).refs)
      = (Finset.univ.filter fun j : Fin 16 => e ∈ (context s j).refs).erase i := by
    ext j; simp [h]
  rw [holders_eq_card, holders_eq_card, erased, Finset.card_erase_eq_ite]
  simp only [Finset.mem_filter, Finset.mem_univ, true_and]
  split <;> rfl

/-! ## The law, part by part, with one entry possibly on its way -/

/-- The pool's law with its parts named; `out` is an entry that a placement or a claim has in hand, which stands on neither list. -/
structure PoolLaw (out : Option (Fin 4096)) (s : State) : Prop where
  empty : ∀ i, (context s i).state = .free → (context s i).refs = []
  counts : ∀ e, (poolEntry s e).refCount = holders s e
  freeNodup : s.pool.freeList.Nodup
  retentionNodup : s.pool.retention.Nodup
  apart : ∀ e, e ∈ s.pool.freeList → e ∉ s.pool.retention
  idle : ∀ e, (poolEntry s e).refCount = 0 ↔ (e ∈ s.pool.freeList ∨ e ∈ s.pool.retention) ∨ out = some e
  gone : ∀ e, out = some e → e ∉ s.pool.freeList ∧ e ∉ s.pool.retention
  refsNodup : ∀ i, (context s i).refs.Nodup
  visits : s.table.visits.Sublist s.pool.retention
  unscanned : s.table.scanned = none → s.table.visits = []
  least : s.pool.leastFree ≤ s.pool.freeList.length

theorem poolLawful_iff (s : State) : PoolLawful s ↔ RestOutsideRun s ∧ TableLaw s ∧ PoolLaw none s := by
  rw [← tableLawful_iff]
  constructor
  · rintro ⟨rest, table, empty, counts, freeNodup, retentionNodup, apart, idle, refsNodup, visits, unscanned, least⟩
    refine ⟨rest, table, empty, counts, freeNodup, retentionNodup, apart, fun e => by simpa using idle e, fun _ h => ?_,
      refsNodup, visits, unscanned, least⟩
    cases h
  · rintro ⟨rest, table, empty, counts, freeNodup, retentionNodup, apart, idle, -, refsNodup, visits, unscanned, least⟩
    exact ⟨rest, table, empty, counts, freeNodup, retentionNodup, apart, fun e => by simpa using idle e, refsNodup, visits, unscanned, least⟩

/-- The law is kept where counts, lists and references stay, and the visits stay in order. -/
theorem PoolLaw.of_refs {out : Option (Fin 4096)} {s t : State} (h : PoolLaw out s)
    (refCount : ∀ e, (poolEntry t e).refCount = (poolEntry s e).refCount) (freeList : t.pool.freeList = s.pool.freeList)
    (retention : t.pool.retention = s.pool.retention) (leastFree : t.pool.leastFree = s.pool.leastFree)
    (refs : ∀ i, (context t i).refs = (context s i).refs) (empty : ∀ i, (context t i).state = .free → (context t i).refs = [])
    (visits : t.table.visits.Sublist s.pool.retention) (unscanned : t.table.scanned = none → t.table.visits = []) : PoolLaw out t where
  empty := empty
  counts e := by rw [refCount, h.counts, holders_congr fun i => by rw [refs]]
  freeNodup := by rw [freeList]; exact h.freeNodup
  retentionNodup := by rw [retention]; exact h.retentionNodup
  apart e he := by rw [retention]; exact h.apart e (by rw [← freeList]; exact he)
  idle e := by rw [refCount, freeList, retention]; exact h.idle e
  gone e he := by rw [freeList, retention]; exact h.gone e he
  refsNodup i := by rw [refs]; exact h.refsNodup i
  visits := by rw [retention]; exact visits
  unscanned := unscanned
  least := by rw [leastFree, freeList]; exact h.least

/-- The law reads the pool's counts and lists, the contexts and the scanner alone. -/
theorem PoolLaw.congr {out : Option (Fin 4096)} {s t : State} (h : PoolLaw out s)
    (refCount : ∀ e, (poolEntry t e).refCount = (poolEntry s e).refCount) (freeList : t.pool.freeList = s.pool.freeList)
    (retention : t.pool.retention = s.pool.retention) (leastFree : t.pool.leastFree = s.pool.leastFree)
    (slots : t.table.slots = s.table.slots) (visits : t.table.visits = s.table.visits)
    (scanned : t.table.scanned = s.table.scanned) : PoolLaw out t :=
  h.of_refs refCount freeList retention leastFree (fun i => by rw [context_congr slots])
    (fun i => by rw [context_congr slots]; exact h.empty i) (by rw [visits]; exact h.visits)
    fun k => by rw [visits]; exact h.unscanned (scanned.symm.trans k)

theorem PoolLaw.of_quiet {out : Option (Fin 4096)} {s t : State} (h : PoolLaw out s) (q : Quiet s t) : PoolLaw out t :=
  h.of_refs q.refCount q.freeList q.retention q.leastFree (fun i => (q.contexts i).refs)
    (fun i free => by rw [(q.contexts i).refs]; exact h.empty i ((q.contexts i).state.symm.trans free))
    (by rw [q.visits]; exact h.visits) fun k => by rw [q.visits]; exact h.unscanned (q.scanned.symm.trans k)

/-- An entry in hand is held by nobody. -/
theorem PoolLaw.unheld {e : Fin 4096} {s : State} (h : PoolLaw (some e) s) (i : Fin 16) : e ∉ (context s i).refs :=
  holders_eq_zero.1 ((h.counts e).symm.trans ((h.idle e).2 (.inr rfl))) i

/-! ## An entry leaves the lists -/

theorem poolLaw_leaveRetention {s : State} {e : Fin 4096} (h : PoolLaw none s) (retained : e ∈ s.pool.retention) :
    PoolLaw (some e) (leaveRetention e s) where
  empty := h.empty
  counts := h.counts
  freeNodup := h.freeNodup
  retentionNodup := h.retentionNodup.erase e
  apart d hd mem := h.apart d hd (List.mem_of_mem_erase mem)
  idle d := by
    refine (h.idle d).trans ?_
    simp only [leaveRetention, h.retentionNodup.mem_erase_iff, reduceCtorEq, or_false, Option.some.injEq]
    by_cases same : e = d
    · subst same; simp [retained]
    · simp [same, Ne.symm same]
  gone d hd := by
    obtain rfl := Option.some.inj hd
    exact ⟨fun mem => h.apart _ mem retained, h.retentionNodup.not_mem_erase⟩
  refsNodup := h.refsNodup
  visits := h.visits.erase e
  unscanned k := by
    have none := h.unscanned k
    simp [leaveRetention, none]
  least := h.least

theorem poolLaw_takeFree {s : State} {e : Fin 4096} {rest : List (Fin 4096)} (h : PoolLaw none s) (head : s.pool.freeList = e :: rest) :
    PoolLaw (some e) (setFreeList rest s) where
  empty := h.empty
  counts := h.counts
  freeNodup := (List.nodup_cons.1 (head ▸ h.freeNodup)).2
  retentionNodup := h.retentionNodup
  apart d hd := h.apart d (by rw [head]; exact List.mem_cons_of_mem _ hd)
  idle d := by
    refine (h.idle d).trans ?_
    simp only [setFreeList, head, List.mem_cons, reduceCtorEq, or_false, Option.some.injEq]
    constructor
    · rintro ((rfl | mem) | mem)
      · exact .inr rfl
      · exact .inl (.inl mem)
      · exact .inl (.inr mem)
    · rintro ((mem | mem) | rfl)
      · exact .inl (.inr mem)
      · exact .inr mem
      · exact .inl (.inl rfl)
  gone d hd := by
    obtain rfl := Option.some.inj hd
    exact ⟨(List.nodup_cons.1 (head ▸ h.freeNodup)).1, h.apart _ (by rw [head]; exact List.mem_cons_self)⟩
  refsNodup := h.refsNodup
  visits := h.visits
  unscanned := h.unscanned
  least := Nat.min_le_right _ _

/-- A placement's entry is in hand (R58). -/
theorem poolLaw_takeEntry {s u : State} {e : Fin 4096} (h : PoolLaw none s) (taken : takeEntry s = some (e, u)) :
    PoolLaw (some e) u := by
  simp only [takeEntry] at taken
  split at taken
  · next d rest head =>
    obtain ⟨rfl, rfl⟩ := Prod.mk.inj (Option.some.inj taken)
    exact poolLaw_takeFree h head
  · split at taken
    · next d rest head =>
      obtain ⟨rfl, rfl⟩ := Prod.mk.inj (Option.some.inj taken)
      exact (poolLaw_leaveRetention h (by rw [head]; exact List.mem_cons_self)).congr (fun _ => rfl) rfl rfl rfl rfl rfl rfl
    · cases taken

/-! ## An entry in hand finds its place -/

/-- The entry in hand becomes HELD with a reference in each slot of `room` (R56, R62). -/
theorem PoolLaw.hold {e : Fin 4096} {s t : State} {room : List (Fin 16)} (h : PoolLaw (some e) s) (nodup : room.Nodup) (some : room ≠ [])
    (own : (poolEntry t e).refCount = room.length) (other : ∀ d, d ≠ e → (poolEntry t d).refCount = (poolEntry s d).refCount)
    (pool : t.pool.freeList = s.pool.freeList ∧ t.pool.retention = s.pool.retention ∧ t.pool.leastFree = s.pool.leastFree)
    (scanner : t.table.visits = s.table.visits ∧ t.table.scanned = s.table.scanned)
    (refs : ∀ i, (context t i).refs = if i ∈ room then (context s i).refs ++ [e] else (context s i).refs)
    (states : ∀ i, (context t i).state = (context s i).state) (used : ∀ i ∈ room, (context s i).state ≠ .free) : PoolLaw none t := by
  obtain ⟨freeList, retention, leastFree⟩ := pool
  obtain ⟨visits, scanned⟩ := scanner
  have holdsOwn : ∀ i, e ∈ (context t i).refs ↔ i ∈ room := by
    intro i
    rw [refs]
    split
    · next mem => simp [mem]
    · next away => simp [away, h.unheld i]
  have holdsOther : ∀ d, d ≠ e → ∀ i, d ∈ (context t i).refs ↔ d ∈ (context s i).refs := by
    intro d ne i
    rw [refs]
    split
    · simp [ne]
    · rfl
  obtain ⟨notFree, notRetained⟩ := h.gone e rfl
  constructor
  case empty =>
    intro i free
    rw [states] at free
    rw [refs, if_neg fun mem => used i mem free]
    exact h.empty i free
  case counts =>
    intro d
    by_cases same : d = e
    · rw [same, own, holders_eq_length nodup holdsOwn]
    · rw [other d same, h.counts, holders_congr (holdsOther d same)]
  case freeNodup => rw [freeList]; exact h.freeNodup
  case retentionNodup => rw [retention]; exact h.retentionNodup
  case apart => rw [freeList, retention]; exact h.apart
  case idle =>
    intro d
    rw [freeList, retention]
    by_cases same : d = e
    · have positive : room.length ≠ 0 := fun z => some (List.length_eq_zero_iff.1 z)
      rw [same, own]
      simp [positive, notFree, notRetained]
    · rw [other d same, h.idle d]
      simp [Ne.symm same]
  case gone => intro d hd; cases hd
  case refsNodup =>
    intro i
    rw [refs]
    split
    · exact nodup_concat_of_notMem (h.refsNodup i) (h.unheld i)
    · exact h.refsNodup i
  case visits => rw [visits, retention]; exact h.visits
  case unscanned => rw [visits, scanned]; exact h.unscanned
  case least => rw [leastFree, freeList]; exact h.least

/-- The entry in hand becomes RETAINED (R57). -/
theorem poolLaw_storeRetained {s : State} {e : Fin 4096} (p : PulseRecord) (h : PoolLaw (some e) s) :
    PoolLaw none (storeRetained e p s) := by
  obtain ⟨notFree, notRetained⟩ := h.gone e rfl
  have zero : (poolEntry s e).refCount = 0 := (h.idle e).2 (.inr rfl)
  have counts : ∀ d, (poolEntry (storeRetained e p s) d).refCount = (poolEntry s d).refCount := by
    intro d
    refine (congrArg PoolEntry.refCount (poolEntry_setPoolEntry e d ⟨p, 0⟩ s)).trans ?_
    split
    · next same => rw [same, zero]
    · rfl
  constructor
  case empty => exact h.empty
  case counts => intro d; rw [counts]; exact h.counts d
  case freeNodup => exact h.freeNodup
  case retentionNodup => exact nodup_concat_of_notMem h.retentionNodup notRetained
  case apart =>
    intro d hd mem
    obtain mem | mem := List.mem_append.1 mem
    · exact h.apart d hd mem
    · rw [List.mem_singleton.1 mem] at hd; exact notFree hd
  case idle =>
    intro d
    rw [counts, h.idle d]
    simp only [storeRetained, setPoolEntry, List.mem_append, List.mem_singleton, Option.some.injEq, reduceCtorEq, or_false, or_assoc,
      eq_comm (a := e)]
  case gone => intro d hd; cases hd
  case refsNodup => exact h.refsNodup
  case visits => exact h.visits.trans (List.sublist_append_left _ _)
  case unscanned => exact h.unscanned
  case least => exact h.least

/-- The entry in hand becomes FREE (R61). -/
theorem poolLaw_joinFree {s : State} {e : Fin 4096} (h : PoolLaw (some e) s) : PoolLaw none (joinFree e s) := by
  obtain ⟨notFree, notRetained⟩ := h.gone e rfl
  constructor
  case empty => exact h.empty
  case counts => exact h.counts
  case freeNodup => exact nodup_concat_of_notMem h.freeNodup notFree
  case retentionNodup => exact h.retentionNodup
  case apart =>
    intro d hd
    obtain mem | mem := List.mem_append.1 hd
    · exact h.apart d mem
    · rw [List.mem_singleton.1 mem]; exact notRetained
  case idle =>
    intro d
    refine (h.idle d).trans ?_
    simp only [joinFree, List.mem_append, List.mem_singleton, Option.some.injEq, reduceCtorEq, or_false, eq_comm (a := e)]
    exact or_right_comm
  case gone => intro d hd; cases hd
  case refsNodup => exact h.refsNodup
  case visits => exact h.visits
  case unscanned => exact h.unscanned
  case least =>
    have more : s.pool.freeList.length ≤ (s.pool.freeList ++ [e]).length := by simp
    exact h.least.trans more

/-! ## Events of the table -/

theorem poolLaw_storeHeld {s : State} {e : Fin 4096} {room : List (Fin 16)} (p : PulseRecord) (h : PoolLaw (some e) s)
    (nodup : room.Nodup) (some : room ≠ []) (used : ∀ i ∈ room, (context s i).state ≠ .free) : PoolLaw none (storeHeld e p room s) := by
  have rest := foldl_makeRef_rest e p room { setPoolEntry e ⟨p, room.length⟩ s with pool.pulsesHeld := bump s.pool.pulsesHeld }
  have entries : ∀ d, poolEntry (storeHeld e p room s) d = if d = e then ⟨p, room.length⟩ else poolEntry s d := by
    intro d
    rw [storeHeld, rest]
    exact poolEntry_setPoolEntry e d ⟨p, room.length⟩ s
  refine h.hold nodup some (by rw [entries, if_pos rfl]) (fun d ne => by rw [entries, if_neg ne]) ?_ ?_ (fun i => ?_) (fun i => ?_) used
  · rw [storeHeld, rest]; exact ⟨rfl, rfl, rfl⟩
  · rw [storeHeld, rest]; exact ⟨rfl, rfl⟩
  · rw [context_storeHeld nodup, withRef_eq]; split <;> rfl
  · rw [context_storeHeld nodup, withRef_eq]; split <;> rfl

theorem poolLaw_claim {s : State} {i : Fin 16} {e : Fin 4096} {rest : List (Fin 4096)} (h : PoolLaw none s)
    (isOpen : (context s i).state = .opened) (head : s.table.visits = e :: rest) (scanning : s.table.scanned = some i) :
    PoolLaw none (claim i e { s with table.visits := rest }) := by
  have retained : e ∈ s.pool.retention := h.visits.mem (by rw [head]; exact List.mem_cons_self)
  have inHand := poolLaw_leaveRetention h retained
  have entries : ∀ d, poolEntry (claim i e { s with table.visits := rest }) d
      = if d = e then ⟨(poolEntry s e).record, 1⟩ else poolEntry s d := fun d => poolEntry_setPoolEntry e d _ s
  have contexts : ∀ j, context (claim i e { s with table.visits := rest }) j
      = if j = i then (context s i).withRef e (poolEntry s e).record else context s j := fun j => context_modContext i j _ _
  refine inHand.hold (List.nodup_singleton i) (by simp) (by rw [entries, if_pos rfl]; rfl) (fun d ne => by rw [entries, if_neg ne]; rfl)
    ⟨rfl, rfl, rfl⟩ ⟨?_, rfl⟩ (fun j => ?_) (fun j => ?_) fun j mem => ?_
  · exact (by rw [leaveRetention, head, List.erase_cons_head] : rest = (leaveRetention e s).table.visits)
  · rw [contexts, withRef_eq]
    simp only [List.mem_singleton]
    split
    · next same => rw [same]; rfl
    · rfl
  · rw [contexts, withRef_eq]
    split
    · next same => rw [same]; rfl
    · rfl
  · rw [List.mem_singleton.1 mem]
    exact fun free => by rw [show (context s i).state = .free from free] at isOpen; cases isOpen

theorem poolLaw_leaveOpen {s : State} {i : Fin 16} {st : ContextState} (h : PoolLaw none s)
    (next : st = .complete ∨ st = .expired) : PoolLaw none (leaveOpen i st s) := by
  have notFree : st ≠ .free := by rintro rfl; simp at next
  have pool : (leaveOpen i st s).pool = s.pool := by simp only [leaveOpen]; split <;> rfl
  have visits : (leaveOpen i st s).table.visits = if s.table.scanned = some i then [] else s.table.visits := by
    simp only [leaveOpen]; split <;> rfl
  have refs : ∀ j, (context (leaveOpen i st s) j).refs = (context s j).refs := by
    intro j
    rw [context_leaveOpen]
    split
    · next e => rw [e]
    · rfl
  refine h.of_refs (fun e => by rw [poolEntry, pool]; rfl) (by rw [pool]) (by rw [pool]) (by rw [pool]) refs (fun j free => ?_) ?_ fun k => ?_
  · rw [context_leaveOpen] at free
    split at free
    · exact absurd free notFree
    · rw [refs]; exact h.empty j free
  · rw [visits]
    split
    · exact List.nil_sublist _
    · exact h.visits
  · rw [scanned_leaveOpen] at k
    rw [visits]
    split
    · rfl
    · next other => rw [if_neg other] at k; exact h.unscanned k

theorem poolLaw_scannerMove {s t : State} (h : PoolLaw none s) (table : TableLaw s) (moves : scannerMove s = some t) : PoolLaw none t := by
  obtain ⟨i, pass, -, rfl⟩ | ⟨i, rest, idle, list, rfl⟩ := scannerMove_cases moves
  · have refs : ∀ j, (context (endPass i s) j).refs = (context s j).refs ∧ (context (endPass i s) j).state = (context s j).state := by
      intro j
      rw [context_endPass]
      split
      · next e => rw [e]; exact ⟨rfl, rfl⟩
      · exact ⟨rfl, rfl⟩
    exact h.of_refs (fun _ => rfl) rfl rfl rfl (fun j => (refs j).1)
      (fun j free => by rw [(refs j).1]; exact h.empty j ((refs j).2.symm.trans free)) (List.nil_sublist _) fun _ => rfl
  · have refs : ∀ j, (context (startPass i rest s) j).refs = (context s j).refs
        ∧ (context (startPass i rest s) j).state = (context s j).state := by
      intro j
      rw [context_startPass]
      split
      · next e => rw [e]; exact ⟨rfl, rfl⟩
      · exact ⟨rfl, rfl⟩
    exact h.of_refs (fun _ => rfl) rfl rfl rfl (fun j => (refs j).1)
      (fun j free => by rw [(refs j).1]; exact h.empty j ((refs j).2.symm.trans free)) (List.Sublist.refl _) fun k => by cases k

/-- A context whose record changes, with its references kept, and that is not FREE afterwards. -/
theorem poolLaw_modContext {s : State} {i : Fin 16} {f : Context → Context} (h : PoolLaw none s)
    (refs : (f (context s i)).refs = (context s i).refs) (used : (f (context s i)).state = .free → (context s i).state = .free) :
    PoolLaw none (modContext i f s) := by
  have kept : ∀ j, (context (modContext i f s) j).refs = (context s j).refs := by
    intro j
    rw [context_modContext]
    split
    · next e => rw [e]; exact refs
    · rfl
  refine h.of_refs (fun _ => rfl) rfl rfl rfl kept (fun j free => ?_) h.visits h.unscanned
  rw [kept]
  rw [context_modContext] at free
  split at free
  · next e => rw [e]; exact h.empty i (used free)
  · exact h.empty j free

theorem poolLaw_requestScan {s : State} (i : Fin 16) (h : PoolLaw none s) : PoolLaw none (requestScan i s) := by
  have listed : PoolLaw none (joinScanList i s) := h.congr (fun _ => rfl) rfl rfl rfl rfl rfl rfl
  rw [requestScan]
  split
  · exact h
  · split
    · exact poolLaw_modContext listed rfl id
    · exact h
    · split
      · exact h
      · exact listed

theorem poolLaw_opened {s : State} {i : Fin 16} (r : Request) (h : PoolLaw none s) (free : (context s i).state = .free) (n : Nat) :
    PoolLaw none (setContext i (openedContext s r) { s with table.order := s.table.order ++ [i], table.nextNumber := n }) := by
  have record : ∀ j, context (setContext i (openedContext s r) { s with
      table.order := s.table.order ++ [i], table.nextNumber := n }) j = if j = i then openedContext s r else context s j :=
    fun j => context_setContext i j _ _
  refine h.of_refs (fun _ => rfl) rfl rfl rfl (fun j => ?_) (fun j hj => ?_) h.visits h.unscanned
  · rw [record]
    split
    · next e => rw [e, h.empty i free]; rfl
    · rfl
  · rw [record] at hj ⊢
    split at hj
    · cases hj
    · next e => rw [if_neg e]; exact h.empty j hj

theorem poolLaw_freeContext {s : State} (i : Fin 16) (h : PoolLaw none s) : PoolLaw none (freeContext i s) := by
  obtain ⟨rest, entries, record⟩ := freeContext_freed i s (h.refsNodup i)
  have freeList : (freeContext i s).pool.freeList
      = s.pool.freeList ++ ((context s i).refs.filter fun e => decide ((poolEntry s e).refCount = 1)) := by rw [rest]
  have retention : (freeContext i s).pool.retention = s.pool.retention := by rw [rest]
  have holds : ∀ e j, e ∈ (context (freeContext i s) j).refs ↔ j ≠ i ∧ e ∈ (context s j).refs := by
    intro e j
    rw [record]
    split
    · next same => simp [same, Context.freeSlot]
    · next ne => simp [ne]
  have positive : ∀ e ∈ (context s i).refs, (poolEntry s e).refCount ≠ 0 := by
    intro e he zero
    exact holders_eq_zero.1 ((h.counts e).symm.trans zero) i he
  have unlisted : ∀ e, (poolEntry s e).refCount ≠ 0 → e ∉ s.pool.freeList ∧ e ∉ s.pool.retention := fun e held =>
    ⟨fun mem => held ((h.idle e).2 (.inl (.inl mem))), fun mem => held ((h.idle e).2 (.inl (.inr mem)))⟩
  constructor
  case empty =>
    intro j free
    rw [record] at free ⊢
    split
    · rfl
    · next ne => rw [if_neg ne] at free; exact h.empty j free
  case counts => intro e; rw [entries, h.counts, holders_dropped (holds e)]
  case freeNodup =>
    rw [freeList]
    refine List.nodup_append.2 ⟨h.freeNodup, (h.refsNodup i).filter _, fun e he d hd same => ?_⟩
    exact (unlisted d (positive d (List.mem_filter.1 hd).1)).1 (same ▸ he)
  case retentionNodup => rw [retention]; exact h.retentionNodup
  case apart =>
    intro e he
    rw [freeList] at he
    rw [retention]
    obtain mem | mem := List.mem_append.1 he
    · exact h.apart e mem
    · exact (unlisted e (positive e (List.mem_filter.1 mem).1)).2
  case idle =>
    intro e
    rw [entries, freeList, retention]
    simp only [List.mem_append, List.mem_filter, decide_eq_true_eq, reduceCtorEq, or_false]
    have before := h.idle e
    by_cases mem : e ∈ (context s i).refs
    · have held := positive e mem
      obtain ⟨notFree, notRetained⟩ := unlisted e held
      simp only [mem, if_true, notFree, notRetained, true_and, false_or, or_false]
      omega
    · simpa [mem] using before
  case gone => intro e he; cases he
  case refsNodup =>
    intro j
    rw [record]
    split
    · exact List.nodup_nil
    · exact h.refsNodup j
  case visits => rw [retention, rest]; exact h.visits
  case unscanned => rw [rest]; exact h.unscanned
  case least =>
    have more := List.length_append (as := s.pool.freeList)
      (bs := (context s i).refs.filter fun e => decide ((poolEntry s e).refCount = 1))
    rw [freeList, more, rest]
    exact h.least.trans (Nat.le_add_right _ _)

/-- An event of the table keeps the pool's law. -/
theorem TableEvent.poolLaw {s t : State} (h : TableEvent s t) (table : TableLaw s) (hs : PoolLaw none s) : PoolLaw none t := by
  cases h with
  | left isOpen next => exact poolLaw_leaveOpen hs next
  | scanned moves => exact poolLaw_scannerMove hs table moves
  | opened running free => exact poolLaw_opened _ hs free _
  | requested isOpen => exact poolLaw_requestScan _ hs
  | merged admits => exact poolLaw_modContext hs rfl id
  | extended admits later =>
    simp only [extendWindow]
    exact poolLaw_modContext (poolLaw_modContext hs rfl id) rfl id
  | @aged e rest head =>
    have retained : e ∈ s.pool.retention := by rw [head]; exact List.mem_cons_self
    exact (poolLaw_joinFree (poolLaw_leaveRetention hs retained)).congr (fun _ => rfl) rfl rfl rfl rfl rfl rfl
  | @passedBy e rest head =>
    have visits := hs.visits
    rw [head] at visits
    exact hs.of_refs (fun _ => rfl) rfl rfl rfl (fun _ => rfl) hs.empty ((List.sublist_cons_self e rest).trans visits) fun k => by
      have none := hs.unscanned k
      rw [head] at none
      cases none
  | claimed pass head room => exact poolLaw_claim hs (table.scanned _ pass) head pass
  | @held u v e p room taken quiet listed some fits =>
    refine poolLaw_storeHeld p ((poolLaw_takeEntry hs taken).of_quiet quiet) (listed.nodup table.nodup) some fun i hi => ?_
    rw [(quiet.contexts i).state, context_takeEntry taken, (fits i hi).1]
    decide
  | retained taken => exact poolLaw_storeRetained _ (poolLaw_takeEntry hs taken)
  | releasing head finished => exact poolLaw_modContext hs rfl fun h => by cases h
  | freed released idle => exact poolLaw_freeContext _ hs

/-! ## Every event -/

theorem mem_allEntries (e : Fin 4096) : e ∈ allEntries := (mem_entriesFrom e 4096 0 le_rfl).2 ⟨Nat.zero_le _, by omega⟩

/-- A pool with every entry FREE and nothing held meets the law. -/
theorem poolLaw_allFree {s : State} (counts : ∀ e, (poolEntry s e).refCount = 0) (freeList : s.pool.freeList = allEntries)
    (retention : s.pool.retention = []) (refs : ∀ i, (context s i).refs = []) (visits : s.table.visits = [])
    (least : s.pool.leastFree ≤ 4096) : PoolLaw none s where
  empty i _ := refs i
  counts e := by rw [counts, holders_eq_zero.2 fun i => by rw [refs]; exact List.not_mem_nil]
  freeNodup := by rw [freeList]; exact nodup_entriesFrom 4096 0 le_rfl
  retentionNodup := by rw [retention]; exact List.nodup_nil
  apart e _ := by rw [retention]; exact List.not_mem_nil
  idle e := by simp [counts, freeList, mem_allEntries]
  gone e h := by cases h
  refsNodup i := by rw [refs]; exact List.nodup_nil
  visits := by rw [visits]; exact List.nil_sublist _
  unscanned _ := visits
  least := by rw [freeList, allEntries, length_entriesFrom]; exact least

theorem PoolLaw.least_le {s : State} (h : PoolLaw none s) : s.pool.leastFree ≤ 4096 :=
  h.least.trans (by simpa using h.freeNodup.length_le_card)

theorem poolEntry_freePool (s : State) (e : Fin 4096) : poolEntry (freePool s) e = { poolEntry s e with refCount := 0 } := get_mapAll _ _ _

theorem poolEntry_startRun (s : State) (e : Fin 4096) : poolEntry (startRun s) e = { poolEntry s e with refCount := 0 } := get_mapAll _ _ _

theorem poolEntry_resetValues (s : State) (e : Fin 4096) : poolEntry (resetValues s) e = { poolEntry s e with refCount := 0 } :=
  get_mapAll _ _ _

/-- While the zero-fill runs, no entry is held and no pass is in progress (R64, R97). -/
theorem settled_of_fill {s : State} {k : Nat} (rest : RestOutsideRun s) (table : TableLaw s) (pool : PoolLaw none s)
    (fill : s.pool.fill = some k) :
    (∀ i, (context s i).refs = []) ∧ (∀ e, (poolEntry s e).refCount = 0) ∧ s.table.visits = [] := by
  have init : s.run = .init := rest.2.1 (.inl (by rw [fill]; rfl))
  obtain ⟨order, -⟩ := rest.1 (by simp [inRun, init])
  have free : ∀ i, (context s i).state = .free := fun i => by
    by_contra used
    have mem := (table.order i).2 used
    rw [order] at mem
    cases mem
  have refs : ∀ i, (context s i).refs = [] := fun i => pool.empty i (free i)
  refine ⟨refs, fun e => ?_, ?_⟩
  · rw [pool.counts, holders_eq_zero]
    intro i
    rw [refs]
    exact List.not_mem_nil
  · apply pool.unscanned
    cases pass : s.table.scanned with
    | none => rfl
    | some i =>
      have isOpen := table.scanned i pass
      rw [free] at isOpen
      cases isOpen

/-- The pool's law with what it rests on. -/
def PoolInvariant (s : State) : Prop := RestOutsideRun s ∧ TableLaw s ∧ PoolLaw none s

theorem event_keeps_poolLaw {s t : State} (hs : PoolInvariant s) (h : Event s t) : PoolLaw none t := by
  obtain ⟨rest, table, pool⟩ := hs
  cases h with
  | quiet h => exact pool.of_quiet h
  | table h => exact h.poolLaw table pool
  | stream h =>
    cases h with
    | @ended j job room last =>
      have done : PoolLaw none (streamEnded j s) := pool.congr (fun _ => rfl) rfl rfl rfl rfl rfl rfl
      exact poolLaw_freeContext _ done
    | wrote job room more => exact pool.congr (fun _ => rfl) rfl rfl rfl rfl rfl rfl
    | begun idle head releasing positive => exact pool.congr (fun _ => rfl) rfl rfl rfl rfl rfl rfl
    | sent head => exact pool.congr (fun _ => rfl) rfl rfl rfl rfl rfl rfl
    | stored fits => exact pool.congr (fun _ => rfl) rfl rfl rfl rfl rfl rfl
    | dropped head => exact pool.congr (fun _ => rfl) rfl rfl rfl rfl rfl rfl
    | took head inside => exact pool.congr (fun _ => rfl) rfl rfl rfl rfl rfl rfl
  | run h =>
    have freed : ∀ u : State, ∀ i, (context (freeTable u) i).refs = [] := fun u i => by rw [context_freeTable]; rfl
    cases h with
    | returned draining done =>
      exact poolLaw_allFree (fun e => congrArg PoolEntry.refCount (poolEntry_freePool s e)) rfl rfl (freed _) rfl pool.least_le
    | started idle =>
      exact poolLaw_allFree (fun e => congrArg PoolEntry.refCount (poolEntry_startRun s e)) rfl rfl
        (fun i => by rw [context_startRun]; rfl) rfl le_rfl
    | aborted run =>
      rw [abortRun_eq]
      exact poolLaw_allFree (fun e => congrArg PoolEntry.refCount (poolEntry_freePool s e)) rfl rfl (freed s) rfl pool.least_le
    | set allowed takes => rw [installSettings_eq]; exact pool.congr (fun _ => rfl) rfl rfl rfl rfl rfl rfl
    | stopped running => exact pool.congr (fun _ => rfl) rfl rfl rfl rfl rfl rfl
    | released held => exact pool.congr (fun _ => rfl) rfl rfl rfl rfl rfl rfl
    | filled e n fill =>
      obtain ⟨-, counts, -⟩ := settled_of_fill rest table pool fill
      refine pool.congr (fun d => ?_) rfl rfl rfl rfl rfl rfl
      refine (congrArg PoolEntry.refCount (poolEntry_setPoolEntry e d PoolEntry.zero s)).trans ?_
      split
      · rw [counts]; rfl
      · rfl
    | counted n fill => exact pool.congr (fun _ => rfl) rfl rfl rfl rfl rfl rfl
    | fillEnded fill =>
      obtain ⟨refs, -, visits⟩ := settled_of_fill rest table pool fill
      exact poolLaw_allFree (fun e => congrArg PoolEntry.refCount (poolEntry_freePool _ e)) rfl rfl refs visits pool.least_le
    | timed x fits => exact pool.congr (fun _ => rfl) rfl rfl rfl rfl rfl rfl

theorem event_keeps_poolInvariant (s t : State) (hs : PoolInvariant s) (h : Event s t) : PoolInvariant t :=
  ⟨event_keeps_restOutsideRun s t hs.1 h, event_keeps_tableLaw s t hs.2.1 h, event_keeps_poolLaw hs h⟩

theorem poolLaw_resetValues (u : State) : PoolLaw none (resetValues u) :=
  poolLaw_allFree (fun e => congrArg PoolEntry.refCount (poolEntry_resetValues u e)) rfl rfl
    (fun i => by rw [context_resetValues]; rfl) rfl le_rfl

/-- Settles O59: each event keeps the pool's law, and a reset leaves every entry FREE. -/
theorem stepsKeepThePoolLawful : Obligations.StepsKeepThePoolLawful := by
  intro s t h hs
  rw [poolLawful_iff] at hs ⊢
  exact step_keeps event_keeps_poolInvariant
    (fun _ _ _ ⟨rest, table, pool⟩ =>
      ⟨rest, table.congr rfl rfl rfl rfl rfl, pool.congr (fun _ => rfl) rfl rfl rfl rfl rfl rfl⟩)
    (fun u => ⟨restOutsideRun_resetValues u, tableLaw_resetValues u, poolLaw_resetValues u⟩)
    (fun u => ⟨restOutsideRun_holdReset u, tableLaw_holdReset u, (poolLaw_resetValues u).congr (fun _ => rfl) rfl rfl rfl rfl rfl rfl⟩) h hs

end Sys2Proof.Machine
end

section
/-! PROOF. The windows of the context table (R13, R14, R75, R77): close, deadline and span of each context fit together, and a merge adds at
most 65,534 ticks to a span. -/

namespace Sys2Proof.Machine

open Sys2Proof.Safety

/-! ## The arithmetic of a merge -/

/-- Distances add up modulo M (R9). -/
theorem dist_chain {ol : Nat} (h : 0 < ol) (a b c : Stamp) : dist ol a c = (dist ol a b + dist ol b c) % modulus ol := by
  have whole : (dist ol a c : Int) = ((dist ol a b + dist ol b c : Nat) : Int) % (modulus ol : Int) := by
    rw [Int.natCast_add, dist_eq h a b, dist_eq h b c, dist_eq h a c, ← Int.add_emod]
    congr 1
    omega
  exact_mod_cast whole

/-- Distances add up, or exceed their sum modulo M by M (R9). -/
theorem dist_chain_cases {ol : Nat} (h : 0 < ol) (a b c : Stamp) :
    dist ol a c = dist ol a b + dist ol b c ∨ dist ol a c + modulus ol = dist ol a b + dist ol b c := by
  have first := dist_lt h a b
  have second := dist_lt h b c
  rw [dist_chain h a b c]
  obtain small | large := Nat.lt_or_ge (dist ol a b + dist ol b c) (modulus ol)
  · exact .inl (Nat.mod_eq_of_lt small)
  · right
    rw [Nat.mod_eq_sub_mod large, Nat.mod_eq_of_lt (by omega)]
    omega

/-- The distance of n ticks is n, below M (R9, R11). -/
theorem dist_addTicks_of_lt {ol n : Nat} (h : 0 < ol) (a : Stamp) (small : n < modulus ol) : dist ol (addTicks ol a n) a = n := by
  have e := dist_addTicks h a n
  rw [Int.emod_eq_of_lt (by omega) (by omega)] at e
  exact_mod_cast e

/-- A window that opens before a close and closes after it closes less than its length after it (R10, R77). -/
theorem dist_lt_length {ol : Nat} (h : 64 ≤ ol) {o c : Stamp} {n : Nat} (fits : n ≤ 65535) (opensBefore : before ol o c = true)
    (closesAfter : after ol (addTicks ol o n) c = true) : dist ol (addTicks ol o n) c < n := by
  have chain := dist_chain_cases (by omega : 0 < ol) (addTicks ol o n) o c
  have step := dist_addTicks_of_lt (by omega : 0 < ol) o (n := n) (by simp only [modulus, Config.orbits]; omega)
  have bound := dist_lt (by omega : 0 < ol) o c
  simp only [before, after, atOrAfter, Bool.not_eq_true', Bool.and_eq_true, decide_eq_true_eq, decide_eq_false_iff_not] at opensBefore closesAfter
  simp only [modulus, half, Config.orbits] at chain opensBefore closesAfter bound
  omega

/-! ## The law of one window -/

/-- A context's window: its close lies span ticks after its open, its deadline grace ticks after its close, and its span is within the bound
of its triggers (R13, R14, R77). -/
structure WindowLaw (ol grace : Nat) (c : Context) : Prop where
  fits : c.winOpen.Fits ol
  close : c.winClose = addTicks ol c.winOpen c.span
  deadline : c.deadline = addTicks ol c.winClose grace
  least : 1 ≤ c.span
  most : c.span ≤ 65535 + 65534 * (c.triggers.length - 1)

/-- From `c` to `d` a context keeps its window and its triggers. -/
structure SameWindow (c d : Context) : Prop where
  winOpen : d.winOpen = c.winOpen
  winClose : d.winClose = c.winClose
  span : d.span = c.span
  deadline : d.deadline = c.deadline
  triggers : d.triggers = c.triggers

theorem SameWindow.refl (c : Context) : SameWindow c c := ⟨rfl, rfl, rfl, rfl, rfl⟩

theorem SameRecord.sameWindow {c d : Context} (h : SameRecord c d) : SameWindow c d :=
  ⟨h.winOpen, h.winClose, h.span, h.deadline, h.triggers⟩

theorem WindowLaw.of_same {ol grace : Nat} {c d : Context} (h : WindowLaw ol grace c) (same : SameWindow c d) : WindowLaw ol grace d where
  fits := by rw [same.winOpen]; exact h.fits
  close := by rw [same.winClose, same.winOpen, same.span]; exact h.close
  deadline := by rw [same.deadline, same.winClose]; exact h.deadline
  least := by rw [same.span]; exact h.least
  most := by rw [same.span, same.triggers]; exact h.most

/-- Every non-FREE context's window meets the law. -/
def WindowsHold (s : State) : Prop := ∀ i ∈ s.table.order, WindowLaw s.settings.ol s.settings.grace (context s i)

theorem windowsLawful_iff (s : State) : WindowsLawful s ↔ RestOutsideRun s ∧ TableLaw s ∧ SettingsInRange s ∧ TimeInRange s ∧ WindowsHold s := by
  rw [← tableLawful_iff]
  constructor
  · rintro ⟨rest, table, settings, time, windows⟩
    refine ⟨rest, table, settings, time, fun i hi => ?_⟩
    obtain ⟨orbit, bc, close, deadline, least, most⟩ := windows i hi
    exact ⟨⟨orbit, bc⟩, close, deadline, least, most⟩
  · rintro ⟨rest, table, settings, time, windows⟩
    refine ⟨rest, table, settings, time, fun i hi => ?_⟩
    obtain ⟨⟨orbit, bc⟩, close, deadline, least, most⟩ := windows i hi
    exact ⟨orbit, bc, close, deadline, least, most⟩

/-- The law is kept where no slot joins the opening order and every context in it keeps its window. -/
theorem WindowsHold.of_same {s t : State} (h : WindowsHold s) (ol : t.settings.ol = s.settings.ol)
    (grace : t.settings.grace = s.settings.grace) (order : ∀ i ∈ t.table.order, i ∈ s.table.order)
    (same : ∀ i ∈ t.table.order, SameWindow (context s i) (context t i)) : WindowsHold t := fun i hi => by
  rw [ol, grace]
  exact (h i (order i hi)).of_same (same i hi)

/-- The law reads the settings, the opening order and the contexts alone. -/
theorem WindowsHold.congr {s t : State} (h : WindowsHold s) (settings : t.settings = s.settings) (slots : t.table.slots = s.table.slots)
    (order : t.table.order = s.table.order) : WindowsHold t :=
  h.of_same (by rw [settings]) (by rw [settings]) (fun i hi => order ▸ hi) fun i _ => by rw [context_congr slots]; exact SameWindow.refl _

theorem windowsHold_of_order_nil {s : State} (h : s.table.order = []) : WindowsHold s := fun i hi => by rw [h] at hi; cases hi

/-! ## Events -/

/-- The window a request opens (R13, R14, R72). -/
theorem windowLaw_openedContext {s : State} (r : Request) (ol : 64 ≤ s.settings.ol) (range : SettingsInRange s) :
    WindowLaw s.settings.ol s.settings.grace (openedContext s r) := by
  obtain ⟨-, -, length, -⟩ := range
  obtain ⟨least, most⟩ := length r.cls
  exact ⟨addTicks_fits (by omega) _ _, rfl, rfl, least, by simpa [openedContext] using most⟩

/-- A merged trigger only widens the bound (R77). -/
theorem windowLaw_merged {ol grace : Nat} {c : Context} (h : WindowLaw ol grace c) (r : Request) (flags : BitVec 9) :
    WindowLaw ol grace { c with triggers := c.triggers ++ [r], flags := flags } where
  fits := h.fits
  close := h.close
  deadline := h.deadline
  least := h.least
  most := by
    have most := h.most
    simp only [List.length_append, List.length_singleton]
    omega

/-- A close moved later by a merge (R75, R77). -/
theorem windowLaw_extended {ol grace : Nat} {c : Context} {o : Stamp} {n : Nat} (h : WindowLaw ol grace c) (r : Request) (flags : BitVec 9)
    (large : 64 ≤ ol) (few : 1 ≤ c.triggers.length ∧ c.triggers.length < 4) (fits : n ≤ 65535)
    (opensBefore : before ol o c.winClose = true) (later : after ol (addTicks ol o n) c.winClose = true) :
    WindowLaw ol grace { c with
      triggers := c.triggers ++ [r]
      flags := flags
      winClose := addTicks ol o n
      span := dist ol (addTicks ol o n) c.winOpen
      deadline := addTicks ol (addTicks ol o n) grace } := by
  have positive : 0 < ol := by omega
  obtain ⟨one, few⟩ := few
  have most := h.most
  have gain := dist_lt_length large fits opensBefore later
  have chain := dist_chain_cases positive (addTicks ol o n) c.winClose c.winOpen
  have old := dist_addTicks_of_lt positive c.winOpen (n := c.span) (by simp only [modulus, Config.orbits]; omega)
  rw [← h.close] at old
  have span : dist ol (addTicks ol o n) c.winOpen = dist ol (addTicks ol o n) c.winClose + c.span := by
    simp only [modulus, Config.orbits] at chain
    omega
  have moved : 0 < dist ol (addTicks ol o n) c.winClose := by
    simp only [after, Bool.and_eq_true, decide_eq_true_eq] at later
    exact later.1
  constructor
  case fits => exact h.fits
  case close => exact (addTicks_dist positive (addTicks_fits positive o n)).symm
  case deadline => rfl
  case least =>
    simp only [span]
    omega
  case most =>
    simp only [List.length_append, List.length_singleton, span]
    omega

/-- A context changed, with its new window lawful. -/
theorem windowsHold_modContext {s : State} {i : Fin 16} {f : Context → Context} (h : WindowsHold s)
    (law : WindowLaw s.settings.ol s.settings.grace (context s i) → WindowLaw s.settings.ol s.settings.grace (f (context s i))) :
    WindowsHold (modContext i f s) := by
  intro j hj
  rw [context_modContext]
  split
  · next e => rw [e] at hj; exact law (h i hj)
  · exact h j hj

theorem windowsHold_opened {s : State} (i : Fin 16) (r : Request) (h : WindowsHold s) (ol : 64 ≤ s.settings.ol)
    (range : SettingsInRange s) (n : Nat) :
    WindowsHold (setContext i (openedContext s r) { s with table.order := s.table.order ++ [i], table.nextNumber := n }) := by
  have record : ∀ j, context (setContext i (openedContext s r) { s with
      table.order := s.table.order ++ [i], table.nextNumber := n }) j = if j = i then openedContext s r else context s j :=
    fun j => context_setContext i j _ _
  intro j hj
  rw [record]
  split
  · exact windowLaw_openedContext r ol range
  · next ne =>
    have mem : j ∈ s.table.order ++ [i] := hj
    rw [List.mem_append, List.mem_singleton] at mem
    exact h j (mem.resolve_right ne)

theorem windowsHold_extended {s : State} {i : Fin 16} {r : Request} (h : WindowsHold s) (table : TableLaw s) (ol : 64 ≤ s.settings.ol)
    (range : SettingsInRange s) (admits : mergeable s i r = true) (later : extendsClose s i r = true) :
    WindowsHold (extendWindow i r (mergeTrigger i r s)) := by
  obtain ⟨isOpen, few, opensBefore⟩ := mergeable_opened admits
  obtain ⟨-, -, length, -⟩ := range
  obtain ⟨one, -⟩ := table.bounds i (table.mem_order_of_opened isOpen)
  intro j hj
  simp only [extendWindow, mergeTrigger, context_modContext]
  split
  · next e =>
    rw [e] at hj
    exact windowLaw_extended (h i hj) r _ ol ⟨one, few⟩ (length r.cls).2 opensBefore later
  · exact h j hj

/-- An event of the table keeps the windows lawful. -/
theorem TableEvent.windowsHold {s t : State} (h : TableEvent s t) (table : TableLaw s) (ol : 64 ≤ s.settings.ol)
    (range : SettingsInRange s) (hs : WindowsHold s) : WindowsHold t := by
  have frame := h.frame
  have settings := frame.settings
  cases h with
  | @left i st isOpen next =>
    have order : (leaveOpen i st s).table.order = s.table.order := by simp only [leaveOpen]; split <;> rfl
    refine hs.of_same (by rw [settings]) (by rw [settings]) (fun j hj => order ▸ hj) fun j _ => ?_
    rw [context_leaveOpen]
    split
    · next e => rw [e]; exact ⟨rfl, rfl, rfl, rfl, rfl⟩
    · exact SameWindow.refl _
  | scanned moves =>
    obtain ⟨i, -, -, rfl⟩ | ⟨i, rest, -, -, rfl⟩ := scannerMove_cases moves
    · have moved : WindowsHold { s with table.scanned := none, table.visits := [] } := hs.congr rfl rfl rfl
      exact windowsHold_modContext moved fun w => w.of_same ⟨rfl, rfl, rfl, rfl, rfl⟩
    · have moved : WindowsHold { s with
          table.scanList := rest, table.scanned := some i, table.visits := s.pool.retention
          table.claimPasses := bump s.table.claimPasses } := hs.congr rfl rfl rfl
      exact windowsHold_modContext moved fun w => w.of_same ⟨rfl, rfl, rfl, rfl, rfl⟩
  | opened running free => exact windowsHold_opened _ _ hs ol range _
  | @requested i isOpen =>
    have listed : WindowsHold (joinScanList i s) := hs.congr rfl rfl rfl
    rw [requestScan]
    split
    · exact hs
    · split
      · exact windowsHold_modContext listed fun w => w.of_same ⟨rfl, rfl, rfl, rfl, rfl⟩
      · exact hs
      · split
        · exact hs
        · exact listed
  | merged admits => exact windowsHold_modContext hs fun w => windowLaw_merged w _ _
  | extended admits later => exact windowsHold_extended hs table ol range admits later
  | aged head => exact hs.congr rfl rfl rfl
  | passedBy head => exact hs.congr rfl rfl rfl
  | @claimed i e rest pass head room =>
    simp only [claim, makeRef]
    exact windowsHold_modContext (hs.congr rfl rfl rfl) fun w => w.of_same (by rw [withRef_eq]; exact ⟨rfl, rfl, rfl, rfl, rfl⟩)
  | @held u v e p room taken quiet listed some fits =>
    have order : (storeHeld e p room v).table.order = s.table.order := by
      rw [storeHeld, foldl_makeRef_rest]
      refine quiet.order.trans ?_
      obtain ⟨d, rest, -, k⟩ | ⟨d, rest, -, -, k⟩ | ⟨-, -, k⟩ := takeEntry_cases s
      · obtain ⟨-, rfl⟩ := Prod.mk.inj (Option.some.inj (k.symm.trans taken)); rfl
      · obtain ⟨-, rfl⟩ := Prod.mk.inj (Option.some.inj (k.symm.trans taken)); rfl
      · rw [k] at taken; cases taken
    refine hs.of_same (by rw [settings]) (by rw [settings]) (fun j hj => order ▸ hj) fun j _ => ?_
    rw [context_storeHeld (listed.nodup table.nodup), ← context_takeEntry taken j]
    split
    · have same := (quiet.contexts j).sameWindow
      rw [withRef_eq]
      exact ⟨same.winOpen, same.winClose, same.span, same.deadline, same.triggers⟩
    · exact (quiet.contexts j).sameWindow
  | @retained u e p taken =>
    refine hs.of_same (by rw [settings]) (by rw [settings]) (fun j hj => ?_) fun j _ => ?_
    · obtain ⟨d, rest, -, k⟩ | ⟨d, rest, -, -, k⟩ | ⟨-, -, k⟩ := takeEntry_cases s
      · obtain ⟨-, rfl⟩ := Prod.mk.inj (Option.some.inj (k.symm.trans taken)); exact hj
      · obtain ⟨-, rfl⟩ := Prod.mk.inj (Option.some.inj (k.symm.trans taken)); exact hj
      · rw [k] at taken; cases taken
    · rw [← context_takeEntry taken j]; exact SameWindow.refl _
  | releasing head finished => exact windowsHold_modContext hs fun w => w.of_same ⟨rfl, rfl, rfl, rfl, rfl⟩
  | @freed i released idle =>
    obtain ⟨rest, record⟩ := freeContext_eq i s
    have order : (freeContext i s).table.order = s.table.order.erase i := by rw [rest]
    refine hs.of_same (by rw [settings]) (by rw [settings]) (fun j hj => ?_) fun j hj => ?_
    · rw [order] at hj; exact List.mem_of_mem_erase hj
    · rw [order, table.nodup.mem_erase_iff] at hj
      rw [record, if_neg hj.1]
      exact SameWindow.refl _

/-- A setting that may be written in a run keeps orbit length and grace (R189). -/
theorem writeSetting_keeps_ol_grace {k : Setting} {w : Word} {t x : Settings} (h : writeSetting k w t = some x)
    (inRun : k.idleOnly = false) : x.ol = t.ol ∧ x.grace = t.grace := by
  cases k with
  | ol => cases inRun
  | timeMode => cases inRun
  | offset => cases inRun
  | length => cases inRun
  | fullPolicy => cases inRun
  | holdOff => cases inRun
  | coalesce => cases inRun
  | grace => cases inRun
  | retentionDepth => cases inRun
  | silenceLimit => cases inRun
  | baseline => cases inRun
  | _ => obtain ⟨_, -, rfl⟩ := Option.map_eq_some_iff.1 h; exact ⟨rfl, rfl⟩

/-- The windows' law with what it rests on. -/
def WindowsInvariant (s : State) : Prop := RestOutsideRun s ∧ TableLaw s ∧ SettingsInRange s ∧ TimeInRange s ∧ WindowsHold s

theorem event_keeps_windowsHold {s t : State} (hs : WindowsInvariant s) (h : Event s t) : WindowsHold t := by
  obtain ⟨rest, table, range, time, windows⟩ := hs
  cases h with
  | quiet h =>
    exact windows.of_same (by rw [h.settings]) (by rw [h.settings]) (fun i hi => h.order ▸ hi) fun i _ => (h.contexts i).sameWindow
  | table h => exact h.windowsHold table time.1 range windows
  | stream h =>
    cases h with
    | @ended j job room last =>
      obtain ⟨rest, record⟩ := freeContext_eq j.slot (streamEnded j s)
      have order : (freeContext j.slot (streamEnded j s)).table.order = s.table.order.erase j.slot := by rw [rest]; rfl
      refine windows.of_same (by rw [rest]; rfl) (by rw [rest]; rfl) (fun i hi => ?_) fun i hi => ?_
      · rw [order] at hi; exact List.mem_of_mem_erase hi
      · rw [order, table.nodup.mem_erase_iff] at hi
        rw [record, if_neg hi.1]
        exact SameWindow.refl _
    | wrote job room more => exact windows.congr rfl rfl rfl
    | begun idle head releasing positive => exact windows.congr rfl rfl rfl
    | sent head => exact windows.congr rfl rfl rfl
    | stored fits => exact windows.congr rfl rfl rfl
    | dropped head => exact windows.congr rfl rfl rfl
    | took head inside => exact windows.congr rfl rfl rfl
  | run h =>
    cases h with
    | returned draining done => exact windowsHold_of_order_nil rfl
    | started idle => exact windowsHold_of_order_nil rfl
    | aborted run => rw [abortRun_eq]; exact windowsHold_of_order_nil rfl
    | @set k w x allowed takes =>
      cases only : k.idleOnly with
      | true =>
        have outside : inRun s = false := by
          rw [Bool.eq_false_iff]
          exact fun run => allowed ⟨only, (inRun_iff s).1 run⟩
        have order : (installSettings x s).table.order = s.table.order := by rw [installSettings_eq]
        exact windowsHold_of_order_nil (order.trans (rest.1 outside).1)
      | false =>
        obtain ⟨ol, grace⟩ := writeSetting_keeps_ol_grace takes only
        have slots : (installSettings x s).table = s.table := by rw [installSettings_eq]
        exact windows.of_same (by rw [installSettings_settings, ol]) (by rw [installSettings_settings, grace])
          (fun i hi => by rw [slots] at hi; exact hi) fun i _ => by rw [context_congr (by rw [slots])]; exact SameWindow.refl _
    | stopped running => exact windows.congr rfl rfl rfl
    | released held => exact windows.congr rfl rfl rfl
    | filled e n fill => exact windows.congr rfl rfl rfl
    | counted n fill => exact windows.congr rfl rfl rfl
    | fillEnded fill => exact windows.congr rfl rfl rfl
    | timed x fits => exact windows.congr rfl rfl rfl

theorem event_keeps_windowsInvariant (s t : State) (hs : WindowsInvariant s) (h : Event s t) : WindowsInvariant t := by
  have windows := event_keeps_windowsHold hs h
  obtain ⟨rest, table, range, time, -⟩ := hs
  exact ⟨event_keeps_restOutsideRun s t rest h, event_keeps_tableLaw s t table h, event_keeps_settingsInRange s t range h,
    event_keeps_timeInRange s t time h, windows⟩

/-- With at most four triggers no span exceeds 262,137 ticks (R74, R77). -/
theorem span_le_of_windows {s : State} (table : TableLaw s) (windows : WindowsHold s) :
    ∀ i ∈ s.table.order, (context s i).span ≤ 262137 := by
  intro i hi
  obtain ⟨-, few, -⟩ := table.bounds i hi
  have most := (windows i hi).most
  omega

/-- Settles O60: each event keeps the windows lawful, a reset leaves none, and the law bounds every span. -/
theorem stepsKeepTheWindowsLawful : Obligations.StepsKeepTheWindowsLawful := by
  intro s t h hs
  rw [windowsLawful_iff] at hs ⊢
  have kept : WindowsInvariant t := step_keeps event_keeps_windowsInvariant
    (fun _ _ _ ⟨rest, table, range, time, windows⟩ =>
      ⟨rest, table.congr rfl rfl rfl rfl rfl, range, time, windows.congr rfl rfl rfl⟩)
    (fun u => ⟨restOutsideRun_resetValues u, tableLaw_resetValues u, settingsInRange_reset, timeInRange_reset, windowsHold_of_order_nil rfl⟩)
    (fun u => ⟨restOutsideRun_holdReset u, tableLaw_holdReset u, settingsInRange_reset, timeInRange_reset, windowsHold_of_order_nil rfl⟩) h hs
  obtain ⟨rest, table, range, time, windows⟩ := kept
  exact ⟨⟨rest, table, range, time, windows⟩, span_le_of_windows table windows⟩

end Sys2Proof.Machine
end

section
/-! PROOF. The queue of commands, the resets, the zero-fill, the time base and the arithmetic of stamps (R1 to R19, R64, R186). -/

namespace Sys2Proof.Machine

open Sys2Proof.Safety

/-! ## The arithmetic of stamps -/

/-- Within its orbit a stamp moves by n modulo the orbit length (R11). -/
theorem bc_addTicks {ol : Nat} (h : 0 < ol) (a : Stamp) (n : Int) : ((addTicks ol a n).bc : Int) = ((a.bc : Int) + n) % ol := by
  have whole : (modulus ol : Int) ≠ 0 := by have := modulus_pos h; omega
  have divides : (ol : Int) ∣ (modulus ol : Int) := ⟨1048576, by simp only [modulus, Config.orbits]; omega⟩
  have nonneg := Int.emod_nonneg ((position ol a : Int) + n) whole
  simp only [addTicks, Int.natCast_emod, Int.toNat_of_nonneg nonneg]
  rw [Int.emod_emod_of_dvd _ divides]
  simp only [position, Int.natCast_add, Int.natCast_mul]
  rw [show ((a.orbit : Int) * ol + a.bc + n) = (a.bc + n) + ol * a.orbit by rw [Int.mul_comm]; omega, Int.add_mul_emod_self_left]

/-- Settles O7: each clause is a law of distances and sums of ticks. -/
theorem stampAndWindowArithmetic : Obligations.StampAndWindowArithmetic := by
  intro ol span a b n h ha hb orbitA orbitB fits
  have m : modulus ol = 1048576 * ol := rfl
  obtain ⟨orbit, bc⟩ := addTicks_fits h a n
  exact ⟨dist_self ol a, fun ne => m ▸ dist_add_dist h ⟨orbitA, ha⟩ ⟨orbitB, hb⟩ ne, m ▸ dist_addTicks h a n, bc, orbit,
    bc_addTicks h a n, inWindow_iff h ⟨orbitB, hb⟩ (m ▸ fits)⟩

/-! ## The zero-fill -/

/-- A tick of the fill before the last writes the next entry (R64). -/
theorem tickFill_writes {s : State} {k : Nat} (fill : s.pool.fill = some k) (more : k < 4095) :
    tickFill s = { setPoolEntry (Fin.ofNat 4096 k) PoolEntry.zero s with pool.fill := some (k + 1) } := by
  simp only [tickFill, fill]
  exact if_pos more

/-- The 4096th tick leaves the last entry to ZERO_FILL_END (R64). -/
theorem tickFill_last {s : State} {k : Nat} (fill : s.pool.fill = some k) (last : 4095 ≤ k) :
    tickFill s = { s with pool.fill := some 4096 } := by
  simp only [tickFill, fill]
  exact if_neg (Nat.not_lt.2 last)

/-- A tick of the fill touches the pool's entries and the place of the fill alone. -/
theorem tickFill_rest (s : State) : tickFill s = { s with
    pool := if s.pool.fill = none then s.pool
      else { s.pool with entries := (tickFill s).pool.entries, fill := (tickFill s).pool.fill } } := by
  cases fill : s.pool.fill with
  | none => simp [tickFill, fill]
  | some k =>
    obtain more | last := Nat.lt_or_ge k 4095
    · rw [tickFill_writes fill more]; rfl
    · rw [tickFill_last fill last]; rfl

/-- The state after one tick, with the zero-fill left out (R1, R16, R38). -/
def ticked (s : State) : State := tickTimers (sampleLines (advanceTime s))

theorem exec_timeAdvance {s : State} (free : s.resetHeld = false) : exec .timeAdvance s = .next (tickFill (ticked s)) := by
  show execTimeAdvance s = _
  rw [execTimeAdvance, free]
  rfl

/-- What the ticks of a zero-fill have done so far: entries 0 to k−1 are written, except the last one (R64). -/
def FillStands (k : Nat) (s : State) : Prop :=
  s.resetHeld = false ∧ s.pool.fill = some k ∧ ∀ e : Fin 4096, e.val < k → e.val < 4095 → poolEntry s e = PoolEntry.zero

theorem val_ofNat_entry {k : Nat} (h : k < 4096) : (Fin.ofNat 4096 k).val = k := Nat.mod_eq_of_lt h

theorem poolEntry_tickFill {s : State} {k : Nat} (fill : s.pool.fill = some k) (more : k < 4095) (e : Fin 4096) :
    poolEntry (tickFill s) e = if e.val = k then PoolEntry.zero else poolEntry s e := by
  rw [tickFill_writes fill more]
  refine (poolEntry_setPoolEntry _ e _ s).trans ?_
  simp only [Fin.ext_iff, val_ofNat_entry (show k < 4096 by omega)]

theorem fillStands_tick {s : State} {k : Nat} (h : FillStands k s) (more : k < 4096) : FillStands (k + 1) (tickFill (ticked s)) := by
  obtain ⟨free, fill, written⟩ := h
  have fill' : (ticked s).pool.fill = some k := fill
  obtain early | last := Nat.lt_or_ge k 4095
  · refine ⟨?_, ?_, fun e below inside => ?_⟩
    · rw [tickFill_rest]; exact free
    · rw [tickFill_writes fill' early]
    · rw [poolEntry_tickFill fill' early]
      split
      · rfl
      · next other => exact written e (by omega) inside
  · have k' : k = 4095 := by omega
    rw [tickFill_last fill' last]
    exact ⟨free, by rw [k'], fun e _ inside => written e (by omega) inside⟩

/-- n ticks of a fill that has n entries or more before it (R64). -/
theorem execTimes_fill (n : Nat) : ∀ (k : Nat) (s : State), k + n ≤ 4096 → FillStands k s →
    ∃ t, execTimes .timeAdvance n s = .next t ∧ FillStands (k + n) t := by
  induction n with
  | zero => intro k s _ h; exact ⟨s, rfl, h⟩
  | succ n ih =>
    intro k s room h
    obtain ⟨t, runs, stands⟩ := ih (k + 1) _ (by omega) (fillStands_tick h (by omega))
    refine ⟨t, ?_, by rw [show k + (n + 1) = k + 1 + n by omega]; exact stands⟩
    rw [execTimes, exec_timeAdvance h.1]
    exact runs

/-- The end of the zero-fill (R64). -/
def fillDone (s : State) : State := { freePool (setPoolEntry 4095 PoolEntry.zero s) with pool.fill := none, run := .idle }

theorem exec_zeroFillEnd {s : State} (fill : s.pool.fill = some 4096) : exec .zeroFillEnd s = .next (fillDone s) := by
  show execZeroFillEnd s = _
  rw [execZeroFillEnd, fill]
  rfl

theorem poolEntry_fillDone (s : State) (e : Fin 4096) :
    poolEntry (fillDone s) e = { poolEntry (setPoolEntry 4095 PoolEntry.zero s) e with refCount := 0 } := get_mapAll _ _ _

/-- Settles O4, by induction on the number of ticks: tick k writes entry k, and the end writes the last one. -/
theorem zeroFillTakes4096Ticks : Obligations.ZeroFillTakes4096Ticks := by
  intro s free fill
  obtain ⟨t, runs, -, full, written⟩ :=
    execTimes_fill 4096 0 s le_rfl ⟨free, fill, fun _ below => absurd below (Nat.not_lt_zero _)⟩
  refine ⟨t, runs, fillDone t, exec_zeroFillEnd full, rfl, rfl, rfl, rfl, fun e => ?_⟩
  rw [poolEntry_fillDone, poolEntry_setPoolEntry]
  split
  · rfl
  · next other =>
    have inside : e.val < 4095 := by
      have ne : e.val ≠ 4095 := fun h => other (Fin.ext h)
      omega
    rw [written e (by omega) inside]
    rfl

/-- Settles O3, by the branches of the release, of a tick and of the end of the fill. -/
theorem zeroFillStartsStepsAndEnds : Obligations.ZeroFillStartsStepsAndEnds := by
  refine ⟨fun s => ⟨fun held => ?_, fun free => ?_⟩, fun s k free fill => ?_, fun s fill => ?_⟩
  · refine ⟨leaveReset s, ?_, rfl, source_leaveReset s⟩
    show execResetLineReleased s = _
    rw [execResetLineReleased, held]
    rfl
  · show execResetLineReleased s = _
    rw [execResetLineReleased, free]
    rfl
  · have fill' : (ticked s).pool.fill = some k := fill
    refine ⟨_, exec_timeAdvance free, fun more => ⟨?_, fun e => poolEntry_tickFill fill' more e⟩, fun last => ?_⟩
    · rw [tickFill_writes fill' more]; rfl
    · rw [tickFill_last fill' last]; rfl
  · refine ⟨fillDone s, exec_zeroFillEnd fill, rfl, fun e => by rw [poolEntry_fillDone], ?_⟩
    rw [poolEntry_fillDone, poolEntry_setPoolEntry_same]
    rfl

/-! ## The time base -/

theorem source_ticked (s : State) (i : Fin 24) : source (ticked s) i =
    if s.run = .running ∧ (source s i).mode = .link ∧ (source s i).standing ≠ .disabled
        ∧ (source s i).silenceTimer < s.settings.silenceLimit then
      { source s i with silenceTimer := (source s i).silenceTimer + 1 }
    else source s i := by
  have tick : source (ticked s) i = tickTimer (sampleLines (advanceTime s)) (source s i) := get_mapAll _ _ _
  have counts : (timerRuns (sampleLines (advanceTime s)) (source s i) && decide ((source s i).silenceTimer < s.settings.silenceLimit)) = true
      ↔ s.run = .running ∧ (source s i).mode = .link ∧ (source s i).standing ≠ .disabled
        ∧ (source s i).silenceTimer < s.settings.silenceLimit := by
    rw [show timerRuns (sampleLines (advanceTime s)) (source s i) = timerRuns s (source s i) from rfl]
    simp [timerRuns, and_assoc]
  rw [tick, tickTimer]
  exact if_congr counts rfl rfl

/-- Local time after a tick (R1, R4). -/
theorem nextStamp_eq (ol : Nat) (correction : Bool) (t : Stamp) : nextStamp ol correction t =
    if correction = false ∧ t.bc < ol - 1 then ⟨t.orbit, t.bc + 1⟩ else ⟨(t.orbit + 1) % 1048576, 0⟩ := by
  cases correction with
  | true => rfl
  | false => simp [nextStamp, Config.orbits]

/-- Settles O5: a tick is local time, latches, timers and fill, one after another; a pulse is judged by its three tests. -/
theorem timeBaseAdvancesAndSlips : Obligations.TimeBaseAdvancesAndSlips := by
  intro s
  refine ⟨fun held => ?_, fun free => ?_, fun ignored => ?_, fun free locked fresh => ⟨fun aligned => ?_, fun early => ?_⟩⟩
  · show execTimeAdvance s = _
    rw [execTimeAdvance, held]
    rfl
  · refine ⟨_, exec_timeAdvance free, ?_, ?_, ?_, fun l => ⟨?_, ?_⟩, fun i => ?_⟩
    · rw [← nextStamp_eq, tickFill_rest]; rfl
    · exact congrArg State.pool (tickFill_rest (ticked s))
    · rw [tickFill_rest]; rfl
    · rw [tickFill_rest]; exact get_mapAll _ _ _
    · rw [tickFill_rest]; exact get_replicate _ _
    · rw [tickFill_rest]; exact source_ticked s i
  · show execOrbitPulse s = _
    rw [execOrbitPulse, if_pos (by simpa [or_assoc] using ignored)]
  · show execOrbitPulse s = _
    rw [execOrbitPulse, if_neg (by simp [free, locked, fresh])]
    simp only [aligned, if_true]
  · show execOrbitPulse s = _
    rw [execOrbitPulse, if_neg (by simp [free, locked, fresh])]
    simp only [show s.time.now.bc + 1 ≠ s.settings.ol by omega, if_false]
    rfl

/-- Settles O6, by the one test of the command. -/
theorem lastAcceptedStampForgotten : Obligations.LastAcceptedStampForgotten := by
  intro s l last
  refine ⟨fun reached => ?_, fun early => ?_⟩
  · show execLastAcceptedStampForgotten s = _
    simp only [execLastAcceptedStampForgotten, last]
    exact congrArg Host.Outcome.next (if_pos reached)
  · show execLastAcceptedStampForgotten s = _
    simp only [execLastAcceptedStampForgotten, last]
    exact congrArg Host.Outcome.next (if_neg (Bool.eq_false_iff.1 early))

/-! ## The queue of commands and the resets -/

/-- Settles O1, by the two cases of the queue. -/
theorem stepRunsFrontCommand : Obligations.StepRunsFrontCommand :=
  ⟨fun c rest s front => by rw [step, front], fun s empty => by rw [step, empty]⟩

theorem heldAtResetValues_holdReset (s : State) : HeldAtResetValues s (holdReset s) :=
  ⟨rfl, rfl, rfl, rfl, rfl, rfl, rfl, fun e => congrArg PoolEntry.refCount (poolEntry_resetValues s e), rfl, rfl, rfl, rfl, rfl, rfl, rfl,
    rfl, rfl⟩

theorem source_powerOn (s : State) (i : Fin 24) : source (powerOn s) i = { source s i with aligned := false } := get_mapAll _ _ _

theorem poolEntry_powerOn (s : State) (e : Fin 4096) : poolEntry (powerOn s) e = PoolEntry.zero := get_replicate _ _

/-- Settles O2: both commands hold the reset values, power-up with the decoders and the pool's records cleared first. -/
theorem resetsHoldEveryBlock : Obligations.ResetsHoldEveryBlock := by
  intro s
  refine ⟨⟨holdReset s, rfl, heldAtResetValues_holdReset s, rfl, source_resetValues s⟩,
    ⟨holdReset (powerOn s), rfl, heldAtResetValues_holdReset (powerOn s), rfl, fun i => ?_, fun e => ?_⟩⟩
  · refine (source_resetValues (powerOn s) i).trans ?_
    rw [source_powerOn]
    rfl
  · refine (poolEntry_resetValues (powerOn s) e).trans ?_
    rw [poolEntry_powerOn]
    rfl

/-! ## The reset state -/

theorem restOutsideRun_reset : RestOutsideRun State.reset := ⟨fun _ => ⟨rfl, rfl, rfl⟩, fun _ => rfl, fun held => by cases held⟩

theorem context_reset (i : Fin 16) : context State.reset i = Context.freeSlot := get_replicate _ _

theorem tableLaw_reset : TableLaw State.reset := tableLaw_empty rfl rfl rfl context_reset rfl

theorem poolLaw_reset : PoolLaw none State.reset :=
  poolLaw_allFree (fun e => congrArg PoolEntry.refCount (get_replicate PoolEntry.zero e)) rfl rfl (fun i => by rw [context_reset]; rfl) rfl le_rfl

/-- Settles O54: at reset the queues and the table are empty, every entry is FREE, and the settings have their defaults. -/
theorem invariantsHoldAtReset : Obligations.InvariantsHoldAtReset := by
  have queues : QueuesWithinRoom State.reset := by
    refine ⟨fun i => ?_, Nat.zero_le _, Nat.zero_le _⟩
    rw [show source State.reset i = Source.default from get_replicate _ _]
    exact Nat.zero_le _
  exact ⟨settingsInRange_reset, timeInRange_reset, queues, ⟨Nat.zero_le _, rfl, fun h => by cases h⟩,
    ⟨Nat.zero_le _, fun _ h => absurd h List.not_mem_nil, rfl⟩, ⟨restOutsideRun_reset, rfl, fun _ h => by cases h⟩,
    (tableLawful_iff _).2 tableLaw_reset, (poolLawful_iff _).2 ⟨restOutsideRun_reset, tableLaw_reset, poolLaw_reset⟩,
    (windowsLawful_iff _).2 ⟨restOutsideRun_reset, tableLaw_reset, settingsInRange_reset, timeInRange_reset, windowsHold_of_order_nil rfl⟩⟩

end Sys2Proof.Machine
end

section
/-! PROOF. The completion monitor: what a settling leaves behind, which context it completes or expires, and the silence report (R102 to
R113). -/

namespace Sys2Proof.Machine

open Sys2Proof.Safety

/-! ## What is due -/

theorem somethingReached_eq_false_iff (s : State) : somethingReached s = false ↔ NothingReached s := by
  have clause : somethingReached s = false ↔ ∀ j ∈ s.table.order, (context s j).state = .opened →
      closeReached s j = false ∧ deadlineReached s j = false := by
    simp [somethingReached, isOpened]
  rw [clause]
  exact ⟨fun h => ⟨fun j hj isOpen => (h j hj isOpen).2, fun j hj isOpen => (h j hj isOpen).1⟩,
    fun h j hj isOpen => ⟨h.2 j hj isOpen, h.1 j hj isOpen⟩⟩

theorem somethingReached_of {s : State} {i : Fin 16} (mem : i ∈ s.table.order) (isOpen : (context s i).state = .opened)
    (due : closeReached s i = true ∨ deadlineReached s i = true) : somethingReached s = true := by
  simp only [somethingReached, List.any_eq_true, Bool.and_eq_true, Bool.or_eq_true, isOpened_iff]
  exact ⟨i, mem, isOpen, due⟩

theorem exec_closeOrDeadlineReached {s : State} (due : somethingReached s = true) :
    exec .closeOrDeadlineReached s = .next (settle s) := by
  show execCloseOrDeadlineReached s = _
  rw [execCloseOrDeadlineReached, if_pos due]

/-! ## What a settling counts -/

/-- Step 3 and the scanner's moves change no context's state and no count of the monitor. -/
structure OnlyReturns (s t : State) : Prop where
  states : ∀ i, (context t i).state = (context s i).state
  monitor : t.monitor = s.monitor
  stopped : t.table.claimPassesStopped = s.table.claimPassesStopped

theorem onlyReturns_afterExpiries (a : Option (Fin 16)) (s : State) : OnlyReturns s (settleScanner (returnTests a s)) := by
  have scans := scans_settleScanner (returnTests a s)
  refine ⟨fun i => ?_, ?_, ?_⟩
  · rw [scans.record i, context_returnTests]
  · rw [scans.rest, returnTests_sources]
  · rw [scans.table, returnTests_sources]

/-- The counters of a settling (R93, R95, R107, R108, R113). -/
theorem settlingCounted_settleFrom (a : Option (Fin 16)) {s : State} (nodup : s.table.order.Nodup) :
    SettlingCounted s (settleFrom a s) := by
  have first := counts_completionPass s nodup
  have order := (settles_settings first.settles).2.2.2
  have counts := counts_trans first (counts_expiries 16 (completionPass s) (by rw [order]; exact nodup))
  obtain ⟨states, monitor, stopped⟩ := onlyReturns_afterExpiries a (expiries 16 (completionPass s))
  have same : ∀ st, became s (settleFrom a s) st = became s (expiries 16 (completionPass s)) st := fun st =>
    List.countP_congr fun i _ => by rw [settleFrom, states]
  refine ⟨?_, ?_⟩
  · rw [same, same, settleFrom, monitor, counts.monitor]
  · rw [settleFrom, stopped, counts.stopped]
    cases s.table.scanned with
    | none => rfl
    | some i => simp only [states]

/-! ## A settling leaves nothing due -/

/-- Every OPEN context fails the completion test. -/
def NoneCompletes (s : State) : Prop := ∀ i ∈ s.table.order, (context s i).state = .opened → completes s i = false

theorem noneCompletes_completionPass (s : State) : NoneCompletes (completionPass s) := by
  intro i mem isOpen
  have settles := settles_completionPass s
  have order := (settles_settings settles).2.2.2
  have wasOpen := (settles.stays i isOpen).1
  rw [settles_completes settles (fun j => by rw [completionPass, source_foldl_completeIfDone]) i]
  by_contra passes
  rw [completionPass, context_foldl_completeIfDone,
    if_pos ⟨order ▸ mem, (isOpened_iff s i).2 wasOpen, Bool.eq_false_iff.not_left.1 passes⟩] at isOpen
  cases isOpen

/-- The slots whose contexts are OPEN. -/
def openSlots (s : State) : Finset (Fin 16) := Finset.univ.filter fun i => i ∈ s.table.order ∧ (context s i).state = .opened

theorem mem_openSlots (s : State) (i : Fin 16) : i ∈ openSlots s ↔ i ∈ s.table.order ∧ (context s i).state = .opened := by
  simp [openSlots]

/-- A context that leaves OPEN in a settling leaves fewer OPEN. -/
theorem card_openSlots_lt {s t : State} {i : Fin 16} (h : Settles s t) (was : i ∈ openSlots s) (left : (context t i).state ≠ .opened) :
    (openSlots t).card < (openSlots s).card := by
  refine Finset.card_lt_card ⟨fun j hj => ?_, fun all => ?_⟩
  · rw [mem_openSlots, (settles_settings h).2.2.2] at hj
    exact (mem_openSlots s j).2 ⟨hj.1, (h.stays j hj.2).1⟩
  · exact left ((mem_openSlots t i).1 (all was)).2

/-- Step 2 goes on until no OPEN context is overdue, and leaves none that passes the completion test (R106). -/
theorem expiries_leaves_nothing (n : Nat) : ∀ s : State, (openSlots s).card ≤ n → NoneCompletes s →
    NoneCompletes (expiries n s) ∧ oldestOverdue (expiries n s) = none := by
  induction n with
  | zero =>
    intro s few fails
    refine ⟨fails, List.find?_eq_none.2 fun i mem overdue => ?_⟩
    have isOpen := (isOpened_iff s i).1 (Bool.and_eq_true_iff.1 overdue).1
    have member := (mem_openSlots s i).2 ⟨mem, isOpen⟩
    rw [Finset.card_eq_zero.1 (Nat.le_zero.1 few)] at member
    exact absurd member (Finset.notMem_empty i)
  | succ n ih =>
    intro s few fails
    cases overdue : oldestOverdue s with
    | none => simpa [expiries, overdue] using fails
    | some i =>
      obtain ⟨mem, isOpen, -⟩ := oldestOverdue_some overdue
      have expires := settles_expire (i := i) isOpen
      have settles := settles_trans expires (settles_completionPass (expire i s))
      have left : (context (completionPass (expire i s)) i).state ≠ .opened := by
        intro still
        have before := ((settles_completionPass (expire i s)).stays i still).1
        rw [context_expire] at before
        cases before
      have fewer := card_openSlots_lt settles ((mem_openSlots s i).2 ⟨mem, isOpen⟩) left
      have goesOn : expiries (n + 1) s = expiries n (completionPass (expire i s)) := by simp [expiries, overdue]
      rw [goesOn]
      exact ih _ (by omega) (noneCompletes_completionPass _)

/-- More ACTIVE sources complete no context. -/
theorem completes_of_active {s t : State} {i : Fin 16} (settles : Settles s t)
    (active : ∀ j, (source s j).standing = .active → (source t j).standing = .active) (h : completes t i = true) :
    completes s i = true := by
  obtain ⟨reached, passes⟩ := (completes_iff t i).1 h
  refine (completes_iff s i).2 ⟨(settles_reached settles i).1.symm.trans reached, fun j hj => ?_⟩
  exact (settles_passed settles j i).symm.trans (passes j (active j hj))

theorem standing_returnTests (a : Option (Fin 16)) (s : State) (j : Fin 24) (h : (source s j).standing = .active) :
    (source (returnTests a s) j).standing = .active := by
  simp only [returnTests]
  split
  · rw [source_foldl_returnTest]
    split
    · rfl
    · exact h
  · exact h

theorem source_settleScanner (s : State) (j : Fin 24) : source (settleScanner s) j = source s j := by
  rw [(scans_settleScanner s).rest]; rfl

/-- Nothing is due after a settling (R106). -/
theorem settleFrom_leaves_nothing (a : Option (Fin 16)) (s : State) {i : Fin 16} (mem : i ∈ s.table.order)
    (isOpen : isOpened (settleFrom a s) i = true) :
    completes (settleFrom a s) i = false ∧ deadlineReached (settleFrom a s) i = false := by
  have few : (openSlots (completionPass s)).card ≤ 16 := (Finset.card_le_univ _).trans_eq (Fintype.card_fin 16)
  obtain ⟨fails, noOverdue⟩ := expiries_leaves_nothing 16 _ few (noneCompletes_completionPass s)
  have early : Settles s (expiries 16 (completionPass s)) := settles_trans (settles_completionPass s) (settles_expiries 16 _)
  have late : Settles (expiries 16 (completionPass s)) (settleFrom a s) :=
    settles_trans (settles_returnTests a _) (scans_settles (scans_settleScanner _))
  have mem' : i ∈ (expiries 16 (completionPass s)).table.order := by rw [(settles_settings early).2.2.2]; exact mem
  have wasOpen := (late.stays i ((isOpened_iff _ i).1 isOpen)).1
  constructor
  · by_contra passes
    have before := completes_of_active late
      (fun j hj => by rw [settleFrom, source_settleScanner]; exact standing_returnTests a _ j hj) (Bool.eq_false_iff.not_left.1 passes)
    rw [fails i mem' wasOpen] at before
    cases before
  · rw [(settles_reached late i).2]
    have clear := List.find?_eq_none.1 noOverdue i mem'
    simpa [isOpened, wasOpen] using clear

/-! ## Step 3 alone -/

/-- Where nothing is due at its start, a settling is step 3 and the scanner's moves (R106). -/
theorem settleFrom_nothingReached (a : Option (Fin 16)) {s : State} (h : NothingReached s) :
    settleFrom a s = settleScanner (returnTests a s) := by
  rw [settleFrom, completionPass_notReached (fun j hj isOpen => h.2 j hj isOpen), expiries_noneOverdue h.1]

theorem mem_allSources (j : Fin 24) : j ∈ allSources := by revert j; decide

theorem source_returnTests (a : Option (Fin 16)) (s : State) (src : Fin 24) : source (returnTests a s) src =
    if (oldestOpen s ≠ none ∧ oldestOpen s ≠ a) ∧ (source s src).standing = .lagging ∧ passedOldest s src = true then
      { source s src with standing := .active }
    else source s src := by
  simp only [returnTests]
  split
  · next tests => rw [source_foldl_returnTest]; exact if_congr (by simp [mem_allSources, tests]) rfl rfl
  · next rests => rw [if_neg fun h => rests h.1]

theorem passedOldest_iff (s : State) (src : Fin 24) : passedOldest s src = true ↔
    ∃ i, oldestOpen s = some i ∧ HasPassed s src (context s i).winClose := by
  unfold passedOldest
  cases oldestOpen s with
  | none => simp
  | some i => simp [passed_iff]

/-- Settles O28: each expiry leaves fewer contexts OPEN, so 16 of them leave nothing overdue; step 3 only adds ACTIVE sources. -/
theorem settlingLeavesNothingDue : Obligations.SettlingLeavesNothingDue := by
  refine ⟨fun s a nodup => ⟨settlingCounted_settleFrom a nodup, fun i mem isOpen => settleFrom_leaves_nothing a s mem isOpen⟩,
    fun s a src nothing => ?_⟩
  rw [settleFrom_nothingReached a ((somethingReached_eq_false_iff s).1 nothing), source_settleScanner, source_returnTests]
  intro returns
  have same : ((oldestOpen s ≠ none ∧ oldestOpen s ≠ a) ∧ (source s src).standing = .lagging ∧ passedOldest s src = true) ↔ returns := by
    rw [passedOldest_iff]
    constructor
    · rintro ⟨⟨some, other⟩, lagging, i, oldest, w, known, after⟩
      exact ⟨some, other, lagging, i, w, oldest, known, after⟩
    · rintro ⟨some, other, lagging, i, w, oldest, known, after⟩
      exact ⟨⟨some, other⟩, lagging, i, oldest, w, known, after⟩
  exact ⟨fun h => if_pos (same.2 h), fun h => if_neg fun k => h (same.1 k)⟩

/-! ## One context completes -/

/-- Settles O26, by what a settling does with a context that passes the test at its start. -/
theorem contextCompletes : Obligations.ContextCompletes := by
  intro s i nodup scanNodup mem isOpen reached passes
  have completesNow : completes s i = true := (completes_iff_allHavePassed s i).2 ⟨reached, passes⟩
  obtain ⟨record, unlisted, unscanned⟩ := context_settleFrom_completes (oldestOpen s) scanNodup mem isOpen completesNow
  obtain ⟨settings, time, pool, order⟩ := settles_settings (settles_settle s)
  exact ⟨settle s, exec_closeOrDeadlineReached (somethingReached_of mem isOpen (.inl reached)), record, unlisted, unscanned,
    settlingCounted_settleFrom _ nodup, pool, order, settings, time⟩

/-! ## One context expires -/

/-- The context in slot `i` is the oldest OPEN one at its deadline, and some ACTIVE source has not passed it (R106, R108). -/
structure ExpiresFirst (s : State) (i : Fin 16) : Prop where
  mem : i ∈ s.table.order
  isOpen : (context s i).state = .opened
  overdue : deadlineReached s i = true
  fails : completes s i = false
  first : s.table.order.find? (fun j => isOpened s j && deadlineReached s j) = some i

theorem find?_middle {α : Type} {p : α → Bool} {before after : List α} {a : α} (fails : ∀ b ∈ before, p b = false) (holds : p a = true) :
    (before ++ a :: after).find? p = some a := by
  rw [List.find?_append, List.find?_eq_none.2 fun b hb => by simp [fails b hb], List.find?_cons, holds]
  rfl

/-- After step 1 the context is still the first to expire. -/
theorem oldestOverdue_completionPass {s : State} {i : Fin 16} (h : ExpiresFirst s i) : oldestOverdue (completionPass s) = some i := by
  have settles := settles_completionPass s
  have record := context_completionPass_fails h.fails
  obtain ⟨-, before, after, split, others⟩ := List.find?_eq_some_iff_append.1 h.first
  rw [oldestOverdue, (settles_settings settles).2.2.2, split]
  refine find?_middle (fun j hj => ?_) ?_
  · have notDue := others j hj
    by_contra due
    obtain ⟨isOpen, reached⟩ := Bool.and_eq_true_iff.1 (Bool.eq_false_iff.not_left.1 due)
    have wasOpen := (settles.stays j ((isOpened_iff _ j).1 isOpen)).1
    rw [(settles_reached settles j).2] at reached
    simp [(isOpened_iff s j).2 wasOpen, reached] at notDue
  · rw [(settles_reached settles i).2, h.overdue, (isOpened_iff _ i).2 (by rw [record]; exact h.isOpen)]
    rfl

theorem expiries_first {s : State} {i : Fin 16} (h : ExpiresFirst s i) :
    expiries 16 (completionPass s) = expiries 15 (completionPass (expire i (completionPass s))) := by
  rw [expiries, oldestOverdue_completionPass h]

/-- The ACTIVE sources that have not passed a context are the same after step 1. -/
theorem mem_missing_completionPass (s : State) (i : Fin 16) (src : Fin 24) : src ∈ missingSources (completionPass s) i ↔
    (source s src).standing = .active ∧ ¬HasPassed s src (context s i).winClose := by
  rw [mem_missingSources, settles_passed (settles_completionPass s), ← passed_iff, Bool.not_eq_true]
  rw [completionPass, source_foldl_completeIfDone]

theorem missingSources_ne_nil {s : State} {i : Fin 16} (h : ∃ src, (source s src).standing = .active ∧ ¬HasPassed s src (context s i).winClose) :
    missingSources (completionPass s) i ≠ [] := by
  obtain ⟨src, missing⟩ := h
  exact List.ne_nil_of_mem ((mem_missing_completionPass s i src).2 missing)

/-- What follows the expiry in a settling. -/
theorem settles_afterExpire (a : Option (Fin 16)) {s : State} {i : Fin 16} (h : ExpiresFirst s i) :
    Settles (expire i (completionPass s)) (settleFrom a s) := by
  rw [settleFrom, expiries_first h]
  exact settles_trans (settles_completionPass _) <| settles_trans (settles_expiries 15 _) <|
    settles_trans (settles_returnTests a _) (scans_settles (scans_settleScanner _))

/-- The record of the context that expires first (R108). -/
theorem context_settleFrom_expires (a : Option (Fin 16)) {s : State} {i : Fin 16} (h : ExpiresFirst s i) (nodup : s.table.scanList.Nodup)
    (missing : ∃ src, (source s src).standing = .active ∧ ¬HasPassed s src (context s i).winClose) :
    context (settleFrom a s) i = { context s i with
        state := .expired, missing := sourceSet (missingSources (completionPass s) i)
        flags := (context s i).flags ||| eventIncomplete, scan := .noScan } := by
  have record := context_completionPass_fails h.fails
  have expired := context_expire (completionPass s) i
  have closed : (context (expire i (completionPass s)) i).state ≠ .opened := by rw [expired]; simp
  have settles := settles_afterExpire a h
  have scanList : (completionPass s).table.scanList.Nodup := (settles_completionPass s).scanList.nodup nodup
  have unlisted : i ∉ (expire i (completionPass s)).table.scanList := by
    rw [table_expire, scanList_leaveOpen]
    exact scanList.not_mem_erase
  have unscanned : (expire i (completionPass s)).table.scanned ≠ some i := by
    rw [table_expire, scanned_leaveOpen]
    split
    · simp
    · next other => exact other
  obtain ⟨state, missingSet, flags⟩ := settles.closed i closed
  obtain ⟨scan, -⟩ := settles.quiet i unlisted unscanned closed
  rw [settles.record i, state, missingSet, flags, scan, expired, record]
  simp [flagsIf, missingSources_ne_nil missing]

/-- A source that misses the context that expires first becomes LAGGING, counted once, before step 3 (R108, R113). -/
theorem source_expiries_missing {s : State} {i : Fin 16} (h : ExpiresFirst s i) {src : Fin 24}
    (missing : (source s src).standing = .active ∧ ¬HasPassed s src (context s i).winClose) :
    source (expiries 16 (completionPass s)) src = { source s src with
      standing := .lagging
      counters := { (source s src).counters with wentLagging := bump (source s src).counters.wentLagging } } := by
  have before : source (completionPass s) src = source s src := by rw [completionPass, source_foldl_completeIfDone]
  have lagging := source_expire (completionPass s) i src
  rw [if_pos ((mem_missingSources _ i src).1 ((mem_missing_completionPass s i src).2 missing)), before] at lagging
  have kept : source (completionPass (expire i (completionPass s))) src = source (expire i (completionPass s)) src := by
    rw [completionPass, source_foldl_completeIfDone]
  rw [expiries_first h, source_expiries_notActive 15 _ (by rw [kept, lagging]; simp), kept, lagging]

theorem latched_expire (s : State) (i : Fin 16) : (expire i s).latched.getLsbD 7 = true ∧ (expire i s).latched.getLsbD 5 = true := by
  simp only [expire, raise, Latched.code, codeBit]
  constructor <;> simp [BitVec.getLsbD_or]

/-- A settling moves no watermark. -/
theorem hasPassed_settles {s t : State} (h : Settles s t) (src : Fin 24) (c : Stamp) : HasPassed t src c ↔ HasPassed s src c := by
  have watermark : (source t src).watermark = (source s src).watermark := by rw [h.source src]
  rw [HasPassed, HasPassed, watermark, (settles_settings h).1]

/-- Settles O27: the settling expires the context first; the missing sources are judged once, and step 3 returns the ones that passed. -/
theorem contextExpires : Obligations.ContextExpires := by
  intro s i older younger split nodup scanNodup isOpen overdue early missing some
  have mem : i ∈ s.table.order := by rw [split]; simp
  have first : ExpiresFirst s i := by
    refine ⟨mem, isOpen, overdue, ?_, ?_⟩
    · obtain ⟨src, active, behind⟩ := some
      by_contra passes
      exact behind (((completes_iff_allHavePassed s i).1 (Bool.eq_false_iff.not_left.1 passes)).2 src active)
    · rw [split]
      refine find?_middle (fun j hj => ?_) ?_
      · by_contra due
        obtain ⟨open', reached⟩ := Bool.and_eq_true_iff.1 (Bool.eq_false_iff.not_left.1 due)
        exact Bool.false_ne_true ((early j hj ((isOpened_iff s j).1 open')).symm.trans reached)
      · exact Bool.and_eq_true_iff.2 ⟨(isOpened_iff s i).2 isOpen, overdue⟩
  have record := context_settleFrom_expires (oldestOpen s) first scanNodup some
  have settles := settles_afterExpire (oldestOpen s) first
  obtain ⟨incomplete, lagging⟩ := latched_expire (completionPass s) i
  refine ⟨settle s, exec_closeOrDeadlineReached (somethingReached_of mem isOpen (.inr overdue)), ?_, fun src => ?_, fun src missed => ?_,
    settles.latched 7 incomplete, settles.latched 5 lagging, settlingCounted_settleFrom _ nodup⟩
  · rw [settle, record]
  · rw [settle, record, getLsbD_sourceSet]
    exact mem_missing_completionPass s i src
  · have fell := source_expiries_missing first missed
    obtain ⟨goesBack, staysBehind⟩ := source_afterExpiries (s := expiries 16 (completionPass s)) (oldestOpen s) (src := src) (by rw [fell])
    simp only [hasPassed_settles (settles_trans (settles_completionPass s) (settles_expiries 16 _))] at goesBack staysBehind
    intro returned
    refine ⟨fun h => ?_, fun h => ?_, ?_⟩
    · rw [settle, settleFrom, goesBack h]
    · rw [settle, settleFrom, staysBehind h, fell]
    · by_cases h : returned
      · rw [settle, settleFrom, goesBack h, fell]
      · rw [settle, settleFrom, staysBehind h, fell]

/-! ## The silence report -/

theorem setSource_setSource (i : Fin 24) (x y : Source) (s : State) : setSource i y (setSource i x s) = setSource i y s := by
  simp only [setSource, put_put]

/-- Settles O30, by whether the report is due and by the source's standing. -/
theorem silenceReportTakesSourceDown : Obligations.SilenceReportTakesSourceDown := by
  intro s i x due
  have test : (timerRuns s (source s i) && decide (s.settings.silenceLimit ≤ (source s i).silenceTimer)
      && !(source s i).silenceReported) = true ↔ due := by
    simp [due, x, timerRuns, and_assoc]
  have reports : due → exec (.silenceReport i) s = .next (takeSilence i (setSource i { x with silenceReported := true } s)) := fun h => by
    show execSilenceReport i s = _
    rw [execSilenceReport, if_pos (test.2 h)]
  refine ⟨fun early => ?_, fun now down => ?_, fun now alive => ?_⟩
  · show execSilenceReport i s = _
    rw [execSilenceReport, if_neg fun h => early (test.1 h)]
  · rw [reports now, takeSilence, source_setSource_same]
    simp only [down]
  · have made : makeDown i (setSource i { x with silenceReported := true } s) = setSource i { x with
        silenceReported := true, standing := .down
        counters := { x.counters with wentDown := bump x.counters.wentDown } } s := by
      rw [makeDown, modSource, source_setSource_same, setSource_setSource]
    rw [reports now, takeSilence, source_setSource_same, made]
    obtain active | lagging := alive
    · simp only [active]
    · simp only [lagging]

end Sys2Proof.Machine
end

section
/-! PROOF. Trigger intake: samples of the lines, refusals, and what an open and a merge leave behind (R16 to R24, R71 to R76, R110). -/

namespace Sys2Proof.Machine

open Sys2Proof.Safety

/-! ## The acceptance tests -/

theorem withinHoldOff_eq_false {s : State} {r : Request}
    (h : ∀ l, s.intake.lastAccepted = some l → s.settings.holdOff ≤ dist s.settings.ol r.stamp l) : withinHoldOff s r = false := by
  unfold withinHoldOff
  split
  · next l last => exact decide_eq_false (Nat.not_lt.2 (h l last))
  · rfl

theorem mem_allSlots (i : Fin 16) : i ∈ allSlots := by revert i; decide

theorem allSlots_split : ∀ i : Fin 16, allSlots = (allSlots.filter fun j => decide (j.val < i.val))
    ++ i :: allSlots.filter fun j => decide (i.val < j.val) := by decide

theorem lowestFree_eq_none {s : State} (h : ∀ i, (context s i).state ≠ .free) : lowestFree s = none :=
  List.find?_eq_none.2 fun i _ => by simpa using h i

theorem lowestFree_eq_some {s : State} {i : Fin 16} (free : (context s i).state = .free)
    (lowest : ∀ j : Fin 16, j.val < i.val → (context s j).state ≠ .free) : lowestFree s = some i := by
  rw [lowestFree, allSlots_split i]
  refine find?_middle (fun j hj => ?_) (by simpa using free)
  simpa using lowest j (by simpa using (List.mem_filter.1 hj).2)

/-- The tests of a request in RUNNING past hold-off (R22 to R24). -/
theorem request_past_holdOff {s : State} {r : Request} (running : s.run = .running)
    (past : ∀ l, s.intake.lastAccepted = some l → s.settings.holdOff ≤ dist s.settings.ol r.stamp l) :
    request r s = match coalesceTarget s r with
      | some i => acceptMerge i r s
      | none =>
        match lowestFree s with
        | some i => acceptOpen i r s
        | none =>
          match policyTarget s r with
          | some i => acceptMerge i r s
          | none => (raise .triggerLost { s with intake.refusedFull := bump s.intake.refusedFull }, .full) := by
  rw [request, if_neg (not_not.2 running), withinHoldOff_eq_false past]
  rfl

/-- The policy of a full table finds no context when it is REFUSE or the youngest fails condition 2, 4 or 5 of R22 (R24). -/
theorem policyTarget_eq_none {s : State} {r : Request}
    (h : s.settings.fullPolicy.get r.cls = .refuse ∨ ∀ i, s.table.order.getLast? = some i → mergeable s i r = false) :
    policyTarget s r = none := by
  unfold policyTarget
  split
  · next merge =>
    obtain refuse | fails := h
    · rw [refuse] at merge; cases merge
    · rw [Option.filter_eq_none_iff]
      intro i last
      rw [fails i last]
      exact Bool.false_ne_true
  · rfl

/-- Settles O9, by the tests in their order. -/
theorem requestRefusals : Obligations.RequestRefusals := by
  intro s r
  refine ⟨fun outside => by rw [request, if_pos outside], fun running l last within => ?_, fun running past apart full refuses => ?_⟩
  · rw [request, if_neg (not_not.2 running), if_pos (by simp [withinHoldOff, last, within])]
  · rw [request_past_holdOff running past, apart, lowestFree_eq_none full, policyTarget_eq_none]
    · rfl
    · refine refuses.imp_right fun fails i last => ?_
      by_contra merges
      obtain ⟨isOpen, few, opensBefore⟩ := mergeable_opened (Bool.eq_false_iff.not_left.1 merges)
      obtain notOpen | many | late := fails i last
      · exact notOpen isOpen
      · exact Nat.not_le.2 few many
      · exact Bool.false_ne_true (late.symm.trans opensBefore)

/-! ## Trigger lines -/

/-- A sample makes a request when the latch held a level and the selected edge lies between it and the level (R16, R17). -/
theorem lineRequests_eq (l : Fin 4) (level : Bool) (s : State) : lineRequests l level s =
    match s.settings.edge.get l, s.intake.latch.get l with
    | .rising, some old => !old && level
    | .falling, some old => old && !level
    | .both, some old => old != level
    | _, _ => false := by
  unfold lineRequests
  cases s.intake.latch.get l with
  | none => cases s.settings.edge.get l <;> rfl
  | some old => cases s.settings.edge.get l <;> rfl

/-- Settles O8, by the tests of a sample. -/
theorem lineSamplesMakeRequests : Obligations.LineSamplesMakeRequests := by
  intro s l level sampled wanted
  refine ⟨fun held => ?_, fun free again => ?_, fun free fresh => ?_⟩
  · show execLineTriggerRequest l level s = _
    rw [execLineTriggerRequest, if_pos held]
  · show execLineTriggerRequest l level s = _
    rw [execLineTriggerRequest, if_neg (by simp [free]), if_pos again]
  · show execLineTriggerRequest l level s = _
    rw [execLineTriggerRequest, if_neg (by simp [free]), if_neg (by simp [fresh]), lineRequests_eq]
    rfl

/-! ## A context changed before a settling -/

theorem setContext_table_replaced (i : Fin 16) (c d : Context) (l : List (Fin 16)) (s : State) :
    setContext i d { setContext i c s with table.scanList := l } = setContext i d { s with table.scanList := l } := by
  simp only [setContext, put_put]

theorem allHavePassed_congr {s t : State} (sources : t.sources = s.sources) (settings : t.settings = s.settings) (c : Stamp) :
    AllHavePassed t c ↔ AllHavePassed s c := by
  have same : ∀ src, source t src = source s src := fun src => by simp only [source, sources]
  simp only [AllHavePassed, HasPassed, same, settings]

theorem completes_eq_true {s : State} {i : Fin 16} (closed : closeReached s i = true) (all : AllHavePassed s (context s i).winClose) :
    completes s i = true := (completes_iff_allHavePassed s i).2 ⟨closed, all⟩

theorem completes_eq_false {s : State} {i : Fin 16} (some : ¬AllHavePassed s (context s i).winClose) : completes s i = false := by
  rw [Bool.eq_false_iff]
  exact fun h => some ((completes_iff_allHavePassed s i).1 h).2

theorem not_allHavePassed {s : State} {c : Stamp} (h : ¬AllHavePassed s c) :
    ∃ src, (source s src).standing = .active ∧ ¬HasPassed s src c := by
  simp only [AllHavePassed, not_forall] at h
  obtain ⟨src, active, behind⟩ := h
  exact ⟨src, active, behind⟩

/-- What else a settling leaves as it was. -/
theorem settles_others {s t : State} (h : Settles s t) :
    t.table.nextNumber = s.table.nextNumber ∧ t.intake = s.intake ∧ t.router = s.router := by
  rw [h.rest]
  refine ⟨?_, rfl, rfl⟩
  rw [h.table]

/-- The expiry of the youngest context, where no other is overdue (R106, R108). -/
theorem expiresFirst_of_last {s : State} {i : Fin 16} {older : List (Fin 16)} (order : s.table.order = older ++ [i])
    (isOpen : (context s i).state = .opened) (overdue : deadlineReached s i = true) (fails : completes s i = false)
    (early : ∀ j ∈ older, (context s j).state = .opened → deadlineReached s j = false) : ExpiresFirst s i where
  mem := by rw [order]; simp
  isOpen := isOpen
  overdue := overdue
  fails := fails
  first := by
    rw [order]
    refine find?_middle (fun j hj => ?_) (Bool.and_eq_true_iff.2 ⟨(isOpened_iff s i).2 isOpen, overdue⟩)
    by_contra due
    obtain ⟨open', reached⟩ := Bool.and_eq_true_iff.1 (Bool.eq_false_iff.not_left.1 due)
    exact Bool.false_ne_true ((early j hj ((isOpened_iff s j).1 open')).symm.trans reached)

/-- The missing set of a context that expired first (R108). -/
theorem missing_of_expired {s : State} {i : Fin 16} (a : Option (Fin 16)) (h : ExpiresFirst s i) (nodup : s.table.scanList.Nodup)
    (some : ¬AllHavePassed s (context s i).winClose) :
    context (settleFrom a s) i = { context s i with
        state := .expired, missing := (context (settleFrom a s) i).missing
        flags := (context s i).flags ||| eventIncomplete, scan := .noScan }
      ∧ ∀ src : Fin 24, (context (settleFrom a s) i).missing.getLsbD src.val = true ↔
          (source s src).standing = .active ∧ ¬HasPassed s src (context s i).winClose := by
  have record := context_settleFrom_expires a h nodup (not_allHavePassed some)
  refine ⟨by rw [record], fun src => ?_⟩
  rw [record, getLsbD_sourceSet]
  exact mem_missing_completionPass s i src

/-- The scanner stays where it is while a pass has visits left (R89, R92). -/
theorem settleScanner_pass {s : State} {j : Fin 16} (pass : s.table.scanned = some j) (left : s.table.visits ≠ []) : settleScanner s = s :=
  settleScanner_rest (by simp [scannerMove, pass, left])

theorem settleScanner_idle {s : State} (idle : s.table.scanned = none) (empty : s.table.scanList = []) : settleScanner s = s :=
  settleScanner_rest (by simp [scannerMove, idle, empty])

theorem settleScanner_start {s : State} {i : Fin 16} {rest : List (Fin 16)} (idle : s.table.scanned = none)
    (list : s.table.scanList = i :: rest) : settleScanner s = settleScanner (startPass i rest s) :=
  settleScanner_move (by simp [scannerMove, idle, list])

theorem settleScanner_end {s : State} {i : Fin 16} (pass : s.table.scanned = some i) (done : s.table.visits = []) :
    settleScanner s = settleScanner (endPass i s) := settleScanner_move (by simp [scannerMove, pass, done])

/-! ## An open -/

/-- The record that an accepted request opens, with its scan standing (R72, R86). -/
def openRecord (s : State) (r : Request) : Context :=
  { openedContext s r with scan := if 0 < s.settings.retentionDepth then .queued else .noScan }

/-- The state in which an accepted request has opened its context, before the monitor settles (R23, R71, R72, R86). -/
def openedState (s : State) (r : Request) (i : Fin 16) : State :=
  setContext i (openRecord s r) { s with
    intake := { s.intake with accepted := bump s.intake.accepted, lastAccepted := some r.stamp }
    table.order := s.table.order ++ [i]
    table.nextNumber := (s.table.nextNumber + 1) % 4294967296
    table.scanList := if 0 < s.settings.retentionDepth then s.table.scanList ++ [i] else s.table.scanList }

theorem openContext_eq (s : State) (r : Request) (i : Fin 16) :
    openContext i r { s with intake.accepted := bump s.intake.accepted, intake.lastAccepted := some r.stamp } = openedState s r i := by
  rw [openContext, requestScan_eq, context_setContext_same]
  simp only [openedContext, setContext_settings, setContext_table_scanList, true_or, and_true]
  exact setContext_table_replaced i _ _ _ _

theorem context_openedState (s : State) (r : Request) (i j : Fin 16) :
    context (openedState s r i) j = if j = i then openRecord s r else context s j := context_setContext i j _ _

/-- A request that does not coalesce and finds its FREE slot (R23). -/
theorem request_opens {s : State} {r : Request} {i : Fin 16} (running : s.run = .running)
    (past : ∀ l, s.intake.lastAccepted = some l → s.settings.holdOff ≤ dist s.settings.ol r.stamp l) (apart : coalesceTarget s r = none)
    (slot : lowestFree s = some i) :
    request r s = (settleFrom (oldestOpen s) (openedState s r i), .opened s.table.nextNumber) := by
  rw [request_past_holdOff running past, apart, slot]
  simp only [acceptOpen]
  rw [openContext_eq]

theorem noneOverdue_openedState {s : State} {r : Request} {i : Fin 16} (h : NoneOverdue s)
    (early : deadlineReached (openedState s r i) i = false) : NoneOverdue (openedState s r i) := by
  intro j hj isOpen
  by_cases same : j = i
  · rw [same]; exact early
  · rw [context_openedState, if_neg same] at isOpen ⊢
    have mem : j ∈ s.table.order ++ [i] := hj
    rw [List.mem_append, List.mem_singleton] at mem
    exact h j (mem.resolve_right same) isOpen

theorem nothingReached_openedState {s : State} {r : Request} {i : Fin 16} (h : NothingReached s)
    (early : deadlineReached (openedState s r i) i = false) (notClosed : closeReached (openedState s r i) i = false) :
    NothingReached (openedState s r i) := by
  refine ⟨noneOverdue_openedState h.1 early, fun j hj isOpen => ?_⟩
  by_cases same : j = i
  · rw [same]; exact notClosed
  · rw [context_openedState, if_neg same] at isOpen ⊢
    have mem : j ∈ s.table.order ++ [i] := hj
    rw [List.mem_append, List.mem_singleton] at mem
    exact h.2 j (mem.resolve_right same) isOpen

/-- A FREE slot is on no list. -/
theorem TableLaw.free_unlisted {s : State} (h : TableLaw s) {i : Fin 16} (free : (context s i).state = .free) :
    i ∉ s.table.order ∧ i ∉ s.table.scanList :=
  ⟨fun mem => (h.order i).1 mem free, (h.unscanned (by rw [free]; decide)).1⟩

theorem nodup_scanList_openedState {s : State} {r : Request} {i : Fin 16} (h : TableLaw s) (free : (context s i).state = .free) :
    (openedState s r i).table.scanList.Nodup := by
  show (if 0 < s.settings.retentionDepth then s.table.scanList ++ [i] else s.table.scanList).Nodup
  split
  · exact nodup_concat_of_notMem h.scanNodup (h.free_unlisted free).2
  · exact h.scanNodup

/-- The first pass of a context opened with the scanner IDLE and the list empty (R89). -/
theorem table_openedState_starts {s : State} {r : Request} {i : Fin 16} (scans : 0 < s.settings.retentionDepth)
    (idle : s.table.scanned = none) (empty : s.table.scanList = []) (retained : s.pool.retention ≠ []) :
    (settleScanner (openedState s r i)).table = { s.table with
      slots := put s.table.slots i { openRecord s r with scan := .scanning }
      order := s.table.order ++ [i]
      nextNumber := (s.table.nextNumber + 1) % 4294967296
      scanned := some i, visits := s.pool.retention, claimPasses := bump s.table.claimPasses } := by
  have list : (openedState s r i).table.scanList = [i] := by
    show (if 0 < s.settings.retentionDepth then s.table.scanList ++ [i] else s.table.scanList) = [i]
    rw [if_pos scans, empty]
    rfl
  rw [settleScanner_start (s := openedState s r i) idle list,
    settleScanner_pass (s := startPass i [] (openedState s r i)) (j := i) rfl retained]
  have record : context (openedState s r i) i = openRecord s r := by rw [context_openedState, if_pos rfl]
  simp only [startPass, modContext]
  rw [show context { openedState s r i with
      table.scanList := [], table.scanned := some i, table.visits := (openedState s r i).pool.retention
      table.claimPasses := bump (openedState s r i).table.claimPasses } i = context (openedState s r i) i from rfl, record]
  simp only [setContext, openedState, put_put, empty]

/-- Settles O10: the request opens the lowest FREE slot, and what the settling and the scanner then do follows from what is due. -/
theorem requestOpensContext : Obligations.RequestOpensContext := by
  intro s r i ol o c d scans closed overdue running past apart free lowest record u t
  have asks : request r s = (settleFrom (oldestOpen s) u, .opened s.table.nextNumber) :=
    request_opens running past apart (lowestFree_eq_some free lowest)
  have after : t = settleFrom (oldestOpen s) u := congrArg Prod.fst asks
  have own : context u i = record := by rw [show u = openedState s r i from rfl, context_openedState, if_pos rfl]; rfl
  have isOpen : (context u i).state = .opened := by rw [own]
  have closeIff : closeReached u i = atOrAfter ol s.time.now c := by rw [closeReached, own]; rfl
  have deadlineIff : deadlineReached u i = atOrAfter ol s.time.now d := by rw [deadlineReached, own]; rfl
  have closeOf : (context u i).winClose = c := by rw [own]
  have all : AllHavePassed u (context u i).winClose ↔ AllHavePassed s c := by
    rw [closeOf]; exact allHavePassed_congr rfl rfl c
  have settles : Settles u t := after ▸ settles_settleFrom _ u
  obtain ⟨settings, time, pool, order⟩ := settles_settings settles
  obtain ⟨number, intake, router⟩ := settles_others settles
  refine ⟨congrArg Prod.snd asks, after, order, number, intake, settings, time, pool, router,
    ⟨(context t i).scan, ?_⟩, fun nothing notClosed early => ?_, fun law reached passes => ?_, fun law due behind nothing => ?_,
    fun early stays => ?_⟩
  · rw [settles.record i, own]
  · have rests : t.table = (settleScanner u).table := by
      rw [after]
      exact table_settleFrom_nothingReached _ (nothingReached_openedState nothing
        (deadlineIff.trans (Bool.eq_false_iff.2 early)) (closeIff.trans (Bool.eq_false_iff.2 notClosed)))
    refine ⟨rests, fun j pass left => ?_, fun idle empty => ⟨fun none => ?_, fun some retained => ?_⟩⟩
    · rw [rests, settleScanner_pass (s := u) (j := j) pass left]
    · have list : u.table.scanList = [] := by
        show (if 0 < s.settings.retentionDepth then s.table.scanList ++ [i] else s.table.scanList) = []
        rw [if_neg none, empty]
      rw [rests, settleScanner_idle (s := u) idle list]
    · rw [rests]
      exact table_openedState_starts some idle empty retained
  · have table := (tableLawful_iff s).1 law
    obtain ⟨record', -⟩ := context_settleFrom_completes (s := u) (oldestOpen s) (nodup_scanList_openedState table free)
      (show i ∈ u.table.order by simp [u]) isOpen (completes_eq_true (closeIff.trans reached) (all.2 passes))
    rw [after, record', own]
  · have table := (tableLawful_iff s).1 law
    have first : ExpiresFirst u i := expiresFirst_of_last (older := s.table.order) rfl isOpen (deadlineIff.trans due)
      (completes_eq_false fun h => behind (all.1 h)) fun j hj open' => by
        have ne : j ≠ i := fun e => (table.free_unlisted free).1 (e ▸ hj)
        have same : context u j = context s j := by rw [show u = openedState s r i from rfl, context_openedState, if_neg ne]
        rw [same] at open'
        rw [deadlineReached, same]
        exact nothing j hj open'
    obtain ⟨record', missing⟩ := missing_of_expired (oldestOpen s) first (nodup_scanList_openedState table free)
      fun h => behind (all.1 h)
    rw [← after, own] at record'
    rw [← after, closeOf] at missing
    exact ⟨record'.trans (by simp [record]), missing⟩
  · have early' : deadlineReached u i = false := deadlineIff.trans (Bool.eq_false_iff.2 early)
    have kept := context_settleFrom_stays (oldestOpen s) isOpen early' (stays.imp
      (fun notClosed => closeIff.trans (Bool.eq_false_iff.2 notClosed))
      fun ⟨behind, nothing⟩ => ⟨completes_eq_false fun h => behind (all.1 h), noneOverdue_openedState nothing early'⟩)
    rw [← after, own] at kept
    exact kept

/-! ## A merge -/

/-- The state in which a request has been counted as merged (R22, R24). -/
def mergeCounted (s : State) (r : Request) : State :=
  { s with intake := { s.intake with accepted := bump s.intake.accepted, merged := bump s.intake.merged, lastAccepted := some r.stamp } }

/-- The record with the trigger joined (R75 steps 1 and 2). -/
def mergedRecord (s : State) (r : Request) (i : Fin 16) : Context :=
  { context s i with
    triggers := (context s i).triggers ++ [r]
    flags := (context s i).flags ||| (if before s.settings.ol (requestOpen s r) (context s i).winOpen then eventWindowClipped else 0) }

theorem mergeTrigger_eq (s : State) (r : Request) (i : Fin 16) :
    mergeTrigger i r (mergeCounted s r) = setContext i (mergedRecord s r i) (mergeCounted s r) := rfl

/-- The state in which a merge has moved the close and requested the rescan, before the monitor settles (R75 step 3, R86). -/
def extendedState (s : State) (r : Request) (i : Fin 16) : State :=
  let joins := 0 < s.settings.retentionDepth
    ∧ ((context s i).scan = .noScan ∨ ((context s i).scan = .scanning ∧ i ∉ s.table.scanList))
  setContext i
    { mergedRecord s r i with
      winClose := requestClose s r
      span := dist s.settings.ol (requestClose s r) (context s i).winOpen
      deadline := addTicks s.settings.ol (requestClose s r) s.settings.grace
      scan := if joins ∧ (context s i).scan = .noScan then .queued else (context s i).scan }
    { mergeCounted s r with table.scanList := if joins then s.table.scanList ++ [i] else s.table.scanList }

theorem setContext_setContext (i : Fin 16) (c d : Context) (s : State) : setContext i d (setContext i c s) = setContext i d s := by
  simp only [setContext, put_put]

theorem extendWindow_eq (s : State) (r : Request) (i : Fin 16) : extendWindow i r (mergeTrigger i r (mergeCounted s r))
    = setContext i { mergedRecord s r i with
        winClose := requestClose s r
        span := dist s.settings.ol (requestClose s r) (context s i).winOpen
        deadline := addTicks s.settings.ol (requestClose s r) s.settings.grace } (mergeCounted s r) := by
  simp only [extendWindow]
  rw [mergeTrigger_eq, modContext, setContext_setContext, context_setContext_same]
  rfl

theorem requestScan_extended (s : State) (r : Request) (i : Fin 16) :
    requestScan i (extendWindow i r (mergeTrigger i r (mergeCounted s r))) = extendedState s r i := by
  rw [extendWindow_eq, requestScan_eq, context_setContext_same]
  exact setContext_table_replaced i _ _ _ _

/-- The tests send a request that merges to the youngest context, by the coalescing or by the policy (R22, R24). -/
theorem request_merges {s : State} {r : Request} {i : Fin 16} (running : s.run = .running)
    (past : ∀ l, s.intake.lastAccepted = some l → s.settings.holdOff ≤ dist s.settings.ol r.stamp l)
    (last : s.table.order.getLast? = some i) (admits : mergeable s i r = true)
    (either : withinCoalesce s i r = true ∨ ((∀ j, (context s j).state ≠ .free) ∧ s.settings.fullPolicy.get r.cls = .merge)) :
    request r s = acceptMerge i r s := by
  rw [request_past_holdOff running past]
  cases within : withinCoalesce s i r with
  | true =>
    have target : coalesceTarget s r = some i := by simp [coalesceTarget, youngest, last, within, admits]
    rw [target]
  | false =>
    obtain ⟨full, merge⟩ := either.resolve_left (by rw [within]; exact Bool.false_ne_true)
    have apart : coalesceTarget s r = none := by simp [coalesceTarget, youngest, last, within]
    have target : policyTarget s r = some i := by simp [policyTarget, youngest, last, merge, admits]
    rw [apart, lowestFree_eq_none full, target]

theorem acceptMerge_eq (s : State) (r : Request) (i : Fin 16) : acceptMerge i r s =
    (if after s.settings.ol (requestClose s r) (context s i).winClose then settle (extendedState s r i)
      else setContext i (mergedRecord s r i) (mergeCounted s r), .merged (context s i).number) := by
  rw [← requestScan_extended, ← mergeTrigger_eq]
  rfl

theorem context_extendedState (s : State) (r : Request) {i j : Fin 16} (ne : j ≠ i) : context (extendedState s r i) j = context s j :=
  context_setContext_ne _ _ ne

theorem nodup_scanList_extendedState {s : State} {r : Request} {i : Fin 16} (h : TableLaw s) :
    (extendedState s r i).table.scanList.Nodup := by
  show (if 0 < s.settings.retentionDepth
    ∧ ((context s i).scan = .noScan ∨ ((context s i).scan = .scanning ∧ i ∉ s.table.scanList)) then s.table.scanList ++ [i]
    else s.table.scanList).Nodup
  split
  · next joins =>
    refine nodup_concat_of_notMem h.scanNodup ?_
    obtain none | ⟨-, away⟩ := joins.2
    · intro listed
      have scan := h.scan i
      rw [none, standingOf, if_pos listed] at scan
      split at scan <;> cases scan
    · exact away
  · exact h.scanNodup

/-- The order before its youngest slot, which it does not hold again. -/
theorem order_of_last {s : State} {i : Fin 16} (last : s.table.order.getLast? = some i) :
    ∃ older, s.table.order = older ++ [i] := List.getLast?_eq_some_iff.1 last

/-- Settles O11: the request merges into the youngest context, and what the settling then does follows from what is due. -/
theorem requestMergesIntoYoungest : Obligations.RequestMergesIntoYoungest := by
  intro s r i ol y o c d closed overdue running past last isOpen either few opensBefore merged counted joins extended u t
  have admits : mergeable s i r = true := by
    simp only [mergeable, Bool.and_eq_true, decide_eq_true_eq]
    exact ⟨⟨(isOpened_iff s i).2 isOpen, few⟩, opensBefore⟩
  have asks : request r s = acceptMerge i r s := request_merges running past last admits <| either.imp_left
    fun ⟨positive, f, rest, triggers, near⟩ => by
      have triggers : (context s i).triggers = f :: rest := triggers
      have near : dist s.settings.ol r.stamp f.stamp < s.settings.coalesce := near
      simp [withinCoalesce, positive, triggers, near]
  rw [acceptMerge_eq] at asks
  have after' : t = if after ol c y.winClose then settle u else setContext i merged counted := congrArg Prod.fst asks
  have own : context u i = extended := context_setContext_same _ _ _
  have settles : Settles u (settle u) := settles_settle u
  obtain ⟨settings, time, pool, order⟩ := settles_settings settles
  obtain ⟨number, intake, router⟩ := settles_others settles
  have kept : t.intake = counted.intake ∧ t.table.order = s.table.order ∧ t.table.nextNumber = s.table.nextNumber ∧ t.pool = s.pool := by
    rw [after']
    split
    · exact ⟨intake, order, number, pool⟩
    · exact ⟨rfl, rfl, rfl, rfl⟩
  obtain ⟨keptIntake, keptOrder, keptNumber, keptPool⟩ := kept
  refine ⟨congrArg Prod.snd asks, keptIntake, keptOrder, keptNumber, keptPool, fun same => ?_, fun later => ?_⟩
  · rw [after', same]; rfl
  have moved : t = settle u := by rw [after', if_pos later]
  have openU : (context u i).state = .opened := by rw [own]; exact isOpen
  have closeIff : closeReached u i = atOrAfter ol s.time.now c := by rw [closeReached, own]; rfl
  have deadlineIff : deadlineReached u i = atOrAfter ol s.time.now d := by rw [deadlineReached, own]; rfl
  have closeOf : (context u i).winClose = c := by rw [own]
  have all : AllHavePassed u (context u i).winClose ↔ AllHavePassed s c := by
    rw [closeOf]; exact allHavePassed_congr rfl rfl c
  have other : ∀ j, j ≠ i → context u j = context s j := fun j ne => context_extendedState s r ne
  have noneOverdue : (∀ j ∈ s.table.order, j ≠ i → (context s j).state = .opened →
      atOrAfter ol s.time.now (context s j).deadline = false) → deadlineReached u i = false → NoneOverdue u := by
    intro others early j hj open'
    by_cases same : j = i
    · rw [same]; exact early
    · rw [other j same] at open' ⊢
      exact others j hj same open'
  refine ⟨moved, fun others notClosed early => ?_, fun law reached passes => ?_, fun others => ⟨fun law due behind => ?_,
    fun early behind => ?_⟩, fun notClosed early => ?_⟩
  · have early' : deadlineReached u i = false := deadlineIff.trans (Bool.eq_false_iff.2 early)
    have nothing : NothingReached u := by
      refine ⟨noneOverdue (fun j hj ne open' => (others j hj ne open').2) early', fun j hj open' => ?_⟩
      by_cases same : j = i
      · rw [same]; exact closeIff.trans (Bool.eq_false_iff.2 notClosed)
      · rw [other j same] at open' ⊢
        exact (others j hj same open').1
    have rests : t.table = (settleScanner u).table := by rw [moved]; exact table_settleFrom_nothingReached _ nothing
    exact ⟨rests, fun j pass left => by rw [rests, settleScanner_pass (s := u) (j := j) pass left]⟩
  · have table := (tableLawful_iff s).1 law
    obtain ⟨record, -⟩ := context_settleFrom_completes (s := u) (oldestOpen u) (nodup_scanList_extendedState table)
      (table.mem_order_of_opened isOpen) openU (completes_eq_true (closeIff.trans reached) (all.2 passes))
    rw [moved, settle, record, own]
  · have table := (tableLawful_iff s).1 law
    obtain ⟨older, split⟩ := order_of_last last
    have away : i ∉ older := by
      have nodup := table.nodup
      rw [split] at nodup
      exact fun mem => (List.nodup_append.1 nodup).2.2 i mem i (List.mem_singleton_self i) rfl
    have first : ExpiresFirst u i := expiresFirst_of_last (older := older) split openU (deadlineIff.trans due)
      (completes_eq_false fun h => behind (all.1 h)) fun j hj open' => by
        have ne : j ≠ i := fun e => away (e ▸ hj)
        rw [other j ne] at open'
        rw [deadlineReached, other j ne]
        exact others j (by rw [split]; exact List.mem_append_left _ hj) ne open'
    obtain ⟨record, missing⟩ := missing_of_expired (oldestOpen u) first (nodup_scanList_extendedState table) fun h => behind (all.1 h)
    rw [← settle, ← moved, own] at record
    rw [← settle, ← moved, closeOf] at missing
    exact ⟨record, missing⟩
  · have early' : deadlineReached u i = false := deadlineIff.trans (Bool.eq_false_iff.2 early)
    have stays := context_settleFrom_stays (oldestOpen u) openU early'
      (.inr ⟨completes_eq_false fun h => behind (all.1 h), noneOverdue others early'⟩)
    rw [← settle, ← moved, own] at stays
    exact stays
  · have stays := context_settleFrom_stays (oldestOpen u) openU (deadlineIff.trans (Bool.eq_false_iff.2 early))
      (.inl (closeIff.trans (Bool.eq_false_iff.2 notClosed)))
    rw [← settle, ← moved, own] at stays
    exact stays

end Sys2Proof.Machine
end

section
/-! PROOF. Link receivers, INJECT and the distributor (R31 to R50): what a complete frame decodes as, who is chosen, and what a taking
does. -/

namespace Sys2Proof.Machine

open Sys2Proof.Safety

/-! ## Commands on a ready link -/

/-- A command that is served and whose body is admitted runs on the state in which its frame was taken (R180). -/
theorem commandArrives_runs {k : CommandKind} {tag : Tag} {body : List Word} {s : State} (ready : LinkReady s)
    (served : s.run ≠ .init ∨ k.servedInInit = true) (fits : body.length ≤ 255) (admits : k.admits body.length = true) :
    commandArrives k tag body s = runCommand k 0 body (takenBy k tag s) := by
  have here : ¬((takenBy k tag s).run = .init ∧ k.servedInInit = false) := by
    rintro ⟨init, refused⟩
    obtain running | serves := served
    · exact running init
    · rw [serves] at refused; cases refused
  rw [commandArrives_ready k tag body s ready fits, dispatch_kind, if_neg here, if_pos admits]

/-- In INIT every kind but IDENTIFY and STATUS is answered BUSY_INIT (R180). -/
theorem commandArrives_init {k : CommandKind} {tag : Tag} {body : List Word} {s : State} (ready : LinkReady s) (init : s.run = .init)
    (unserved : k.servedInInit = false) (fits : body.length ≤ 255) :
    commandArrives k tag body s = answered k tag s.cmd.frameChecked .busyInit [] (takenBy k tag s) := by
  rw [commandArrives_ready k tag body s ready fits, dispatch_kind, if_pos ⟨init, unserved⟩]
  exact buildReply_eq _ _ _ k tag _ rfl

/-- The reply of a command whose effect keeps the outstanding command. -/
theorem finish_taken {k : CommandKind} {tag : Tag} {s : State} {d : Done} {t : State} {st : Status} {body : List Word} (done : d = (t, st, body))
    (kept : t.cmd.outstanding = (takenBy k tag s).cmd.outstanding) : finish d = answered k tag s.cmd.frameChecked st body t := by
  subst done
  exact finish_answered k tag s _ kept

/-! ## Sources changed twice -/

theorem modSource_modSource (i : Fin 24) (f g : Source → Source) (s : State) :
    modSource i g (modSource i f s) = modSource i (fun x => g (f x)) s := by
  simp only [modSource, setSource_setSource, source_setSource_same]

theorem modSource_congr {i : Fin 24} {f g : Source → Source} {s : State} (h : f (source s i) = g (source s i)) :
    modSource i f s = modSource i g s := by simp only [modSource, h]

theorem modSource_eq_setSource {i : Fin 24} {f : Source → Source} {s : State} : modSource i f s = setSource i (f (source s i)) s := rfl

/-! ## The receiver's framing (R31, R40) -/

theorem receives_iff (s : State) (i : Fin 24) : receives s i = true ↔ s.resetHeld = false ∧ (source s i).mode = .link := by
  simp [receives]

/-- What a start delimiter does at a receiver. -/
theorem padStart_cases (s : State) (i : Fin 24) :
    let takes := s.resetHeld = false ∧ (source s i).mode = .link
    (takes → (source s i).framing = .between → padStart i s = modSource i (fun x => { x with framing := .inFrame }) s)
      ∧ (takes → (source s i).framing = .inFrame → padStart i s = malformedCounted i s)
      ∧ (¬takes ∨ (source s i).framing = .hunting → padStart i s = s) := by
  intro takes
  have test : receives s i = true ↔ takes := receives_iff s i
  refine ⟨fun here between => ?_, fun here inFrame => ?_, fun away => ?_⟩
  · simp only [padStart, test.2 here, between]; rfl
  · simp only [padStart, test.2 here, inFrame]; rfl
  · unfold padStart
    split
    · next here => simp only [away.resolve_left (not_not.2 (test.1 here))]
    · rfl

/-- Settles O13, by whether the receiver takes arrivals and by its framing state. -/
theorem padFramingFollowsArrivals : Obligations.PadFramingFollowsArrivals := by
  intro s i takes framed decoder lost
  have test : receives s i = true ↔ takes := receives_iff s i
  obtain ⟨begins, abandons, ignores⟩ := padStart_cases s i
  refine ⟨fun c hc => ?_, fun here hunting => ?_, fun away => ?_, fun here outside => ?_, fun here inside => ?_, fun away => ?_, fun away words => ?_⟩
  · have start : exec c s = .next (padStart i s) := by
      obtain rfl | rfl : c = .padFrameBegins i ∨ c = .padFrameAbandoned i := by simpa using hc
      · rfl
      · rfl
    rw [start]
    exact ⟨fun here between => by rw [begins here between], fun here inFrame => by rw [abandons here inFrame],
      fun away => by rw [ignores away]⟩
  · show execPadAlignmentGained i s = _
    rw [execPadAlignmentGained, if_pos ⟨test.2 here, hunting⟩]
    rfl
  · show execPadAlignmentGained i s = _
    rw [execPadAlignmentGained, if_neg]
    rintro ⟨here, hunting⟩
    obtain not | other := away
    · exact not (test.1 here)
    · exact other hunting
  · show execPadAlignmentLost i s = _
    rw [execPadAlignmentLost, if_pos (test.2 here)]
    cases framing : (source s i).framing with
    | inFrame => exact absurd framing outside
    | between => rfl
    | hunting => rfl
  · show execPadAlignmentLost i s = _
    rw [execPadAlignmentLost, if_pos (test.2 here), inside]
    rfl
  · show execPadAlignmentLost i s = _
    rw [execPadAlignmentLost, if_neg fun h => away (test.1 h)]
  · show execPadFrameComplete i words s = _
    rw [execPadFrameComplete, if_neg]
    rintro ⟨here, inFrame⟩
    obtain not | other := away
    · exact not (test.1 here)
    · exact other inFrame

/-! ## The CRC bit by bit (R32) -/

theorem crcBit_eq (c : BitVec 16) (b : Bool) : crcBit c b = (c <<< 1) ^^^ (if c.getLsbD 15 = b then 0 else 0x1021#16) := by
  have top : c.msb = c.getLsbD 15 := by simp [BitVec.msb_eq_getLsbD_last]
  rw [crcBit, top]
  cases c.getLsbD 15 with
  | true => cases b <;> simp
  | false => cases b <;> simp

/-- The bits of a word from bit n−1 down go into the CRC one after another. -/
theorem crcBits_eq (w : Word) (n : Nat) : ∀ c, crcBits w n c = ((List.range n).map fun k => w.getLsbD (n - 1 - k)).foldl crcBit c := by
  induction n with
  | zero => intro c; rfl
  | succ n ih =>
    intro c
    rw [crcBits, ih, List.range_succ_eq_map, List.map_cons, List.foldl_cons, List.map_map]
    simp only [Function.comp_def, Nat.succ_eq_add_one, Nat.add_sub_cancel, Nat.sub_zero]
    refine congrArg (List.foldl crcBit _) (List.map_congr_left fun k _ => ?_)
    rw [show n - (k + 1) = n - 1 - k by omega]

theorem foldl_flatMap {α β γ : Type} (f : γ → β → γ) (g : α → List β) (l : List α) : ∀ c, (l.flatMap g).foldl f c
    = l.foldl (fun c a => (g a).foldl f c) c := by
  induction l with
  | nil => intro c; rfl
  | cons a l ih => intro c; rw [List.flatMap_cons, List.foldl_append, ih]; rfl

theorem crc_eq (ws : List Word) : crc ws = (ws.flatMap fun w => (List.range 32).map fun k => w.getLsbD (31 - k)).foldl
    (fun (c : BitVec 16) b => (c <<< 1) ^^^ (if c.getLsbD 15 = b then 0 else 0x1021#16)) 0xFFFF#16 := by
  rw [foldl_flatMap, crc]
  have word : ∀ c (w : Word), crcBits w 32 c = ((List.range 32).map fun k => w.getLsbD (31 - k)).foldl
      (fun (c : BitVec 16) b => (c <<< 1) ^^^ (if c.getLsbD 15 = b then 0 else 0x1021#16)) c := fun c w => by
    rw [crcBits_eq w 32 c, show crcBit = fun (c : BitVec 16) b => (c <<< 1) ^^^ (if c.getLsbD 15 = b then 0 else 0x1021#16) from
      funext fun c => funext fun b => crcBit_eq c b]
  simp only [word]

/-! ## Complete frames (R31 to R37) -/

theorem stageInRun_eq (i : Fin 24) (e : StagingEntry) (s : State) :
    stageInRun i e s = if s.run = .running ∨ s.run = .draining then stage i e s else s := by
  simp only [stageInRun, inRun_iff]

/-- A pulse that decodes is staged in a run, with CHECK when the check failed (R33, R34, R37). -/
theorem takeBody_pulse (i : Fin 24) (good : Bool) (p : PulseEntry) (s : State) : takeBody i good (.pulse p) s =
    (let counted := if good then s else checkFailureCounted i s
     if s.run = .running ∨ s.run = .draining then stage i (.pulse { p with flags := if good then 0 else flagCheck }) counted else counted) := by
  cases good with
  | true => exact stageInRun_eq i _ s
  | false => exact stageInRun_eq i _ (checkFailure i s)

/-- A mark that decodes is staged in a run when the check passes, and discarded otherwise (R33, R35, R37). -/
theorem takeBody_mark (i : Fin 24) (good : Bool) (t : Stamp) (s : State) : takeBody i good (.mark t) s =
    (let counted := if good then s else checkFailureCounted i s
     if good = true ∧ (s.run = .running ∨ s.run = .draining) then stage i (.mark t) counted else counted) := by
  cases good with
  | true => exact (stageInRun_eq i _ s).trans (if_congr (by simp) rfl rfl)
  | false => rfl

/-- Settles O14: the frames decode as what they carry, and the check decides what is staged. -/
theorem padFramesReadBack : Obligations.PadFramesReadBack := by
  refine ⟨crc_eq, ?_⟩
  intro s i p m reserved reserved' c receiving ol pulse orbit bc counted goodP goodM
  constructor
  · have decodes : decodePad (frameCounted i s).settings.ol 1 true (pulseBody p reserved ++ [c]) = some (.pulse { p with flags := 0 }) :=
      decodePad_pulseBody 1 reserved true [c] ol pulse rfl
    rw [exec_padFrameComplete_of_receiving receiving, decodeFrame_of_decodePad i decodes, takeBody_pulse]
    rfl
  · have decodes : decodePad (frameCounted i s).settings.ol 1 true (markBody m reserved' ++ [c]) = some (.mark m) :=
      decodePad_markBody 1 reserved' true [c] ol orbit bc rfl
    rw [exec_padFrameComplete_of_receiving receiving, decodeFrame_of_decodePad i decodes, takeBody_mark]
    rfl

/-- A PULSE frame of wrong n, word count, row, pad or bc is malformed (R33, R34, R197). -/
theorem decodePulse_eq_none {ol : Nat} {header : Word} {ws : List Word}
    (h : (header.extractLsb' 0 6).toNat = 0 ∨ 32 < (header.extractLsb' 0 6).toNat
      ∨ ws.length ≠ 2 + ((header.extractLsb' 0 6).toNat + 2) / 3
      ∨ 63 < (header.extractLsb' 20 8).toNat ∨ 127 < (header.extractLsb' 12 8).toNat
      ∨ ∃ w rest, ws = w :: rest ∧ ol ≤ (w.extractLsb' 0 12).toNat) : decodePulse ol 1 header (header :: ws) = none := by
  cases ws with
  | nil => rfl
  | cons st rest =>
    have late : (∃ w tail, st :: rest = w :: tail ∧ ol ≤ (w.extractLsb' 0 12).toNat) → ol ≤ (wordStamp st).bc := by
      rintro ⟨w, tail, same, reached⟩
      obtain ⟨rfl, -⟩ := List.cons.inj same
      exact reached
    simp only [decodePulse, sampleWords]
    split
    · rfl
    · next inside =>
      by_cases count : (header :: st :: rest).length ≠ 2 + ((header.extractLsb' 0 6).toNat + 2) / 3 + 1
      · exact if_pos count
      · refine (if_neg count).trans (if_pos ?_)
        simp only [List.length_cons] at h count
        obtain zero | many | length | row | pad | bc := h
        · exact absurd (.inl zero) inside
        · exact absurd (.inr many) inside
        · exact absurd (by omega) length
        · exact .inl row
        · exact .inr (.inl pad)
        · exact .inr (.inr (late bc))

theorem decodeMark_eq_none {ol : Nat} {header : Word} {ws : List Word}
    (h : ws.length ≠ 2 ∨ ∃ w rest, ws = w :: rest ∧ ol ≤ (w.extractLsb' 0 12).toNat) : decodeMark ol 1 (header :: ws) = none := by
  cases ws with
  | nil => rfl
  | cons st rest =>
    simp only [decodeMark]
    split
    · rfl
    · next count =>
      simp only [List.length_cons] at h count
      rw [if_pos]
      obtain length | ⟨w, tail, same, reached⟩ := h
      · exact absurd (by omega) length
      · obtain ⟨rfl, -⟩ := List.cons.inj same
        exact reached

/-- Settles O16, by the kind that the header names. -/
theorem malformedFrameIsDiscarded : Obligations.MalformedFrameIsDiscarded := by
  intro s i header ws receiving kind n bc bad
  have kindIs : ∀ k : BitVec 4, header.extractLsb' 28 4 = k ↔ kind = k.toNat := fun k => BitVec.toNat_inj.symm
  have decodes : decodePad (frameCounted i s).settings.ol 1 true (header :: ws) = none := by
    simp only [decodePad, kindIs, and_true]
    split
    · next pulse =>
      have pulse : kind = 1 := pulse
      obtain unknown | ⟨-, fails⟩ | ⟨mark, -⟩ | ⟨idle, -⟩ := bad
      · omega
      · exact decodePulse_eq_none fails
      · omega
      · omega
    · next notPulse =>
      have notPulse : kind ≠ 1 := notPulse
      split
      · next mark =>
        have mark : kind = 2 := mark
        obtain unknown | ⟨pulse, -⟩ | ⟨-, fails⟩ | ⟨idle, -⟩ := bad
        · omega
        · omega
        · exact decodeMark_eq_none fails
        · omega
      · next notMark =>
        have notMark : kind ≠ 2 := notMark
        split
        · next idle =>
          have idle : kind = 3 := idle
          obtain unknown | ⟨pulse, -⟩ | ⟨mark, -⟩ | ⟨-, length⟩ := bad
          · omega
          · omega
          · omega
          · rw [if_pos (by simpa using length)]
        · rfl
  rw [exec_padFrameComplete_of_receiving receiving, decodeFrame, decodes]
  rfl

/-! ## INJECT (R41 to R43) -/

theorem cmd_noteChoice (s : State) : (noteChoice s).cmd = s.cmd := by
  obtain same | ⟨-, -, waits⟩ := noteChoice_cases s
  · rw [same]
  · rw [waits]

/-- INJECT of a body that passes, on an INJECT source in a run (R41). -/
theorem exec_inject_taken {s : State} {tag : Tag} {i : Fin 24} {body : List Word} {b : PadBody} {e : StagingEntry} (ready : LinkReady s)
    (run : s.run = .running ∨ s.run = .draining) (mode : (source s i).mode = .inject) (fits : body.length ≤ 254)
    (decodes : decodePad s.settings.ol 0 false body = some b) (entry : injectEntry b = some e) :
    exec (.inject tag (num i.val) body) s = .next (finish (injectEntryTaken i e (takenBy .inject tag s))) := by
  have notInit : s.run ≠ .init := by rintro init; rw [init] at run; simp at run
  have notIdle : s.run ≠ .idle := by rintro idle; rw [idle] at run; simp at run
  have named : sourceOf (num i.val).toNat = some i := by
    have small : (num i.val).toNat = i.val := by simp [num]; omega
    simp [sourceOf, small]
  show Host.Outcome.next (commandArrives .inject tag (num i.val :: body) s) = _
  rw [commandArrives_runs ready (.inl notInit) (by simpa using Nat.succ_le_succ fits) (by simp [CommandKind.admits])]
  simp only [runCommand, cmdInject, named, takenBy_run, notIdle, if_false, takenBy_source, mode, reduceCtorEq, takenBy_settings, decodes,
    Option.bind_some, entry]

theorem queueHasRoom_countSource (i : Fin 24) (f : SourceCounters → SourceCounters) (s : State) :
    queueHasRoom (countSource i f s) i = queueHasRoom s i := by simp [queueHasRoom, countSource]

/-- The reply of an INJECT that the queue has room for (R41, R42). -/
theorem inject_joins {s : State} {tag : Tag} {i : Fin 24} {e : StagingEntry} (room : (source s i).queue.length < 16) :
    finish (injectEntryTaken i e (takenBy .inject tag s)) = answered .inject tag s.cmd.frameChecked .ok [0]
      (noteChoice (joinQueue i e (countSource i (fun c => { c with frames := bump c.frames }) (takenBy .inject tag s)))) := by
  refine finish_taken ?_ ?_
  · have has : queueHasRoom (takenBy .inject tag s) i = true := decide_eq_true room
    simp only [injectEntryTaken, stage, queueHasRoom_countSource, has, if_true]
  · rw [cmd_noteChoice]; rfl

/-- The reply of an INJECT that overruns (R41, R43). -/
theorem inject_overruns {s : State} {tag : Tag} {i : Fin 24} {e : StagingEntry} (full : 16 ≤ (source s i).queue.length) :
    finish (injectEntryTaken i e (takenBy .inject tag s)) = answered .inject tag s.cmd.frameChecked .ok [1]
      (overrun i (countSource i (fun c => { c with frames := bump c.frames }) (takenBy .inject tag s))) := by
  refine finish_taken ?_ rfl
  have none : queueHasRoom (takenBy .inject tag s) i = false := decide_eq_false (Nat.not_lt.2 full)
  simp only [injectEntryTaken, stage, queueHasRoom_countSource, none, Bool.false_eq_true, if_false]

theorem overrun_counted (i : Fin 24) (s : State) : overrun i (countSource i (fun c => { c with frames := bump c.frames }) s) =
    raise .linkOverrun (modSource i (fun x => { x with
      gapPending := true
      counters := { x.counters with frames := bump x.counters.frames, overruns := bump x.counters.overruns } }) s) := by
  rw [overrun, countSource, modSource_modSource]

/-- A pulse staged after its body was counted (R41, R43). -/
theorem joinQueue_pulse (i : Fin 24) (p : PulseEntry) (s : State) :
    joinQueue i (.pulse { p with flags := 0 }) (countSource i (fun c => { c with frames := bump c.frames }) s) =
      modSource i (fun x => { x with
        queue := x.queue ++ [.pulse { p with flags := if x.gapPending then flagGap else 0 }]
        gapPending := false
        counters := { x.counters with frames := bump x.counters.frames, pulsesStaged := bump x.counters.pulsesStaged } }) s := by
  rw [joinQueue, countSource, modSource_modSource]
  refine modSource_congr ?_
  simp [withGap, flagsIf, StagingEntry.isPulse]

theorem joinQueue_mark (i : Fin 24) (t : Stamp) (s : State) :
    joinQueue i (.mark t) (countSource i (fun c => { c with frames := bump c.frames }) s) =
      modSource i (fun x => { x with
        queue := x.queue ++ [.mark t]
        counters := { x.counters with frames := bump x.counters.frames } }) s := by
  rw [joinQueue, countSource, modSource_modSource]
  refine modSource_congr ?_
  simp [withGap, StagingEntry.isPulse]

theorem length_pulseBody_le {ol : Nat} {p : PulseEntry} (h : PulseInRange ol p) (r : BitVec 6) : (pulseBody p r).length ≤ 254 := by
  obtain ⟨-, -, -, -, -, most, -⟩ := h
  simp only [pulseBody, List.length_cons, length_packSamples]
  omega

/-- Settles O17: a body that passes is staged or overruns, and the checks before it answer in their order. -/
theorem injectStagesOrOverruns : Obligations.InjectStagesOrOverruns := by
  constructor
  · intro s tag i p m reserved reserved' ready run mode ol pulse orbit bc u reply lost
    have pulseDecodes : decodePad s.settings.ol 0 false (pulseBody p reserved) = some (.pulse { p with flags := 0 }) := by
      simpa using decodePad_pulseBody 0 reserved false [] ol pulse rfl
    have markDecodes : decodePad s.settings.ol 0 false (markBody m reserved') = some (.mark m) := by
      simpa using decodePad_markBody 0 reserved' false [] ol orbit bc rfl
    have pulseRuns := exec_inject_taken (tag := tag) ready run mode (length_pulseBody_le pulse reserved) pulseDecodes rfl
    have markRuns := exec_inject_taken (tag := tag) ready run mode (show (markBody m reserved').length ≤ 254 by simp [markBody])
      markDecodes rfl
    refine ⟨fun room => ⟨?_, ?_⟩, fun full => ⟨?_, ?_⟩⟩
    · rw [pulseRuns, inject_joins room, joinQueue_pulse]
    · rw [markRuns, inject_joins room, joinQueue_mark]
    · rw [pulseRuns, inject_overruns full, overrun_counted]
    · rw [markRuns, inject_overruns full, overrun_counted]
  · intro s tag src body ready notInit fits u reply
    have runs : exec (.inject tag src body) s = .next (finish (cmdInject src body u)) := by
      show Host.Outcome.next (commandArrives .inject tag (src :: body) s) = _
      rw [commandArrives_runs ready (.inl notInit) (by simpa using Nat.succ_le_succ fits) (by simp [CommandKind.admits])]
      rfl
    refine ⟨fun outside => ?_, fun i named => ?_⟩
    · rw [runs]
      refine congrArg Host.Outcome.next (finish_taken ?_ rfl)
      simp [cmdInject, sourceOf, Nat.not_lt.2 outside, u]
    · have found : sourceOf src.toNat = some i := by simp [sourceOf, named]
      refine ⟨fun refused => ?_, fun notIdle inject malformed => ?_⟩
      · rw [runs]
        refine congrArg Host.Outcome.next (finish_taken ?_ rfl)
        obtain idle | link := refused
        · simp [cmdInject, found, u, idle]
        · simp [cmdInject, found, u, link]
      · rw [runs]
        refine congrArg Host.Outcome.next (finish_taken ?_ rfl)
        have none : decodePad s.settings.ol 0 false body = none := by simpa using malformed
        simp only [cmdInject, found, u, takenBy_run, notIdle, if_false, takenBy_source, inject, reduceCtorEq, takenBy_settings, none,
          Option.bind_none]
        rfl

end Sys2Proof.Machine
end

section
/-! PROOF. The distributor (R44 to R49, R66, R103): the choice in turn, what is computed for a pulse, and what the taking of a pulse and of a
mark does. -/

namespace Sys2Proof.Machine

open Sys2Proof.Safety

/-! ## The choice (R44, R45) -/

theorem canGive_iff (s : State) : canGive s = true ↔ s.pool.freeList ≠ [] ∨ s.pool.retention ≠ [] := by
  simp [canGive]

theorem isCandidate_iff (s : State) (j : Fin 24) : isCandidate s j = true ↔
    (∃ m rest, (source s j).queue = .mark m :: rest)
      ∨ ((∃ p rest, (source s j).queue = .pulse p :: rest) ∧ (s.pool.freeList ≠ [] ∨ s.pool.retention ≠ [])) := by
  unfold isCandidate
  cases (source s j).queue with
  | nil => simp
  | cons e rest =>
    cases e with
    | pulse p => simp [canGive_iff]
    | mark m => simp

theorem isUrgent_iff (s : State) (j : Fin 24) : isUrgent s j = true ↔ s.settings.urgency ≤ (source s j).queue.length := by
  simp [isUrgent]

/-- The search visits every source once, in turn after the last served. -/
theorem searchOrder_in_turn : ∀ last : Fin 24,
    (searchOrder last).Pairwise (fun i j => turn last i < turn last j) ∧ ∀ j, j ∈ searchOrder last := by decide +kernel

/-- In a list in which a rank rises, the first that passes a test is the one of least rank that does. -/
theorem find?_eq_some_iff_least {α : Type} {rank : α → Nat} {p : α → Bool} {l : List α} (rises : l.Pairwise fun a b => rank a < rank b)
    {a : α} : l.find? p = some a ↔ a ∈ l ∧ p a = true ∧ ∀ b ∈ l, p b = true → rank a ≤ rank b := by
  induction l with
  | nil => simp
  | cons c l ih =>
    obtain ⟨below, rises⟩ := List.pairwise_cons.1 rises
    cases passes : p c with
    | true =>
      rw [List.find?_cons_of_pos passes]
      constructor
      · rintro same
        obtain rfl := Option.some.inj same
        refine ⟨List.mem_cons_self, passes, fun b hb _ => ?_⟩
        obtain rfl | hb := List.mem_cons.1 hb
        · exact le_rfl
        · exact (below b hb).le
      · rintro ⟨mem, -, least⟩
        obtain rfl | mem := List.mem_cons.1 mem
        · rfl
        · exact absurd (least c List.mem_cons_self passes) (Nat.not_le.2 (below a mem))
    | false =>
      rw [List.find?_cons_of_neg (by simp [passes]), ih rises]
      simp only [List.mem_cons, forall_eq_or_imp, passes, Bool.false_eq_true, false_imp_iff, true_and]
      constructor
      · rintro ⟨mem, rest⟩
        exact ⟨.inr mem, rest⟩
      · rintro ⟨rfl | mem, own, least⟩
        · rw [passes] at own; cases own
        · exact ⟨mem, own, least⟩

/-- The first in turn that passes a test (R44). -/
theorem find?_searchOrder (last : Fin 24) (p : Fin 24 → Bool) (i : Fin 24) : (searchOrder last).find? p = some i ↔
    p i = true ∧ ∀ j, p j = true → turn last i ≤ turn last j := by
  obtain ⟨rises, all⟩ := searchOrder_in_turn last
  rw [find?_eq_some_iff_least rises]
  exact ⟨fun ⟨_, own, least⟩ => ⟨own, fun j => least j (all j)⟩, fun ⟨own, least⟩ => ⟨all i, own, fun j _ => least j⟩⟩

theorem find?_searchOrder_eq_none (last : Fin 24) (p : Fin 24 → Bool) : (searchOrder last).find? p = none ↔ ∀ j, p j = false := by
  rw [List.find?_eq_none]
  exact ⟨fun h j => by simpa using h j ((searchOrder_in_turn last).2 j), fun h j _ => by simp [h j]⟩

/-- The choice, as two searches in turn: among the urgent candidates, then among all (R44). -/
theorem choice_eq (s : State) : choice s =
    ((searchOrder s.distributor.lastServed).find? fun j => isCandidate s j && isUrgent s j).or
      ((searchOrder s.distributor.lastServed).find? (isCandidate s)) := by
  simp only [choice, List.find?_filter, List.head?_filter, Bool.decide_and, Bool.decide_eq_true]

theorem choice_eq_none (s : State) : choice s = none ↔ ∀ j, isCandidate s j = false := by
  rw [choice_eq, Option.or_eq_none_iff, find?_searchOrder_eq_none, find?_searchOrder_eq_none]
  exact ⟨fun h => h.2, fun h => ⟨fun j => by simp [h j], h⟩⟩

/-- The choice is the first in turn among the urgent candidates when there is one, and otherwise among the candidates (R44). -/
theorem choice_eq_some (s : State) (i : Fin 24) : choice s = some i ↔ isCandidate s i = true
    ∧ ((∃ j, isCandidate s j = true ∧ isUrgent s j = true) → isUrgent s i = true)
    ∧ ∀ j, isCandidate s j = true → (isUrgent s i = true → isUrgent s j = true) →
        turn s.distributor.lastServed i ≤ turn s.distributor.lastServed j := by
  rw [choice_eq]
  by_cases urgent : ∃ j, isCandidate s j = true ∧ isUrgent s j = true
  · have found : (searchOrder s.distributor.lastServed).find? (fun j => isCandidate s j && isUrgent s j) ≠ none := by
      rw [Ne, find?_searchOrder_eq_none]
      obtain ⟨j, candidate, presses⟩ := urgent
      exact fun none => by simpa [candidate, presses] using none j
    obtain ⟨k, found⟩ := Option.ne_none_iff_exists'.1 found
    rw [found, Option.some_or, ← found, find?_searchOrder]
    simp only [Bool.and_eq_true, and_imp]
    constructor
    · rintro ⟨⟨candidate, presses⟩, least⟩
      exact ⟨candidate, fun _ => presses, fun j other also => least j other (also presses)⟩
    · rintro ⟨candidate, presses, least⟩
      exact ⟨⟨candidate, presses urgent⟩, fun j other also => least j other fun _ => also⟩
  · have calm : ∀ j, isCandidate s j = true → isUrgent s j = false := fun j candidate =>
      Bool.eq_false_iff.2 fun presses => urgent ⟨j, candidate, presses⟩
    have nothing : (searchOrder s.distributor.lastServed).find? (fun j => isCandidate s j && isUrgent s j) = none := by
      rw [find?_searchOrder_eq_none]
      intro j
      cases candidate : isCandidate s j with
      | false => rfl
      | true => rw [calm j candidate]; rfl
    rw [nothing, Option.none_or, find?_searchOrder]
    constructor
    · rintro ⟨candidate, least⟩
      exact ⟨candidate, fun h => absurd h urgent, fun j other _ => least j other⟩
    · rintro ⟨candidate, -, least⟩
      exact ⟨candidate, fun j other => least j other fun presses => by rw [calm i candidate] at presses; cases presses⟩

/-- Settles O18: the search is in turn, so its first hit is the one of least turn. -/
theorem distributorChoosesInTurn : Obligations.DistributorChoosesInTurn := by
  intro s candidate urgent
  have candidates : ∀ j, isCandidate s j = true ↔ candidate j := isCandidate_iff s
  have urgents : ∀ j, isUrgent s j = true ↔ urgent j := isUrgent_iff s
  refine ⟨?_, fun i => ?_⟩
  · simp only [choice_eq_none, ← Bool.not_eq_true, candidates]
  · simp only [choice_eq_some, candidates, urgents]

/-! ## What is computed for a pulse (R47) -/

theorem foldl_max_spec (xs : List Nat) : ∀ a, (xs.foldl max a = a ∨ xs.foldl max a ∈ xs) ∧ a ≤ xs.foldl max a
    ∧ ∀ x ∈ xs, x ≤ xs.foldl max a := by
  induction xs with
  | nil => intro a; exact ⟨.inl rfl, le_rfl, fun _ h => absurd h List.not_mem_nil⟩
  | cons y xs ih =>
    intro a
    obtain ⟨origin, above, all⟩ := ih (max a y)
    rw [List.foldl_cons]
    refine ⟨?_, (le_max_left a y).trans above, fun x hx => ?_⟩
    · obtain start | later := origin
      · rw [start]
        obtain left | right := max_choice a y
        · exact .inl left
        · rw [right]; exact .inr List.mem_cons_self
      · exact .inr (List.mem_cons_of_mem _ later)
    · obtain rfl | hx := List.mem_cons.1 hx
      · exact (le_max_right a x).trans above
      · exact all x hx

theorem peakOf_mem {xs : List Nat} (some : xs ≠ []) : peakOf xs ∈ xs := by
  obtain ⟨zero | mem, -, all⟩ := foldl_max_spec xs 0
  · obtain ⟨x, rest, rfl⟩ := List.exists_cons_of_ne_nil some
    have small := all x List.mem_cons_self
    rw [zero] at small
    rw [peakOf, zero, Nat.le_zero.1 small]
    exact List.mem_cons_self
  · exact mem

theorem le_peakOf {xs : List Nat} {x : Nat} (h : x ∈ xs) : x ≤ peakOf xs := (foldl_max_spec xs 0).2.2 x h

theorem chargeOf_le {b : Nat} {xs : List Nat} (few : xs.length ≤ 32) (small : ∀ x ∈ xs, x ≤ 1023) : chargeOf b xs ≤ 32736 := by
  have bound := List.sum_le_card_nsmul (xs.map (· - b)) 1023 fun y hy => by
    obtain ⟨x, hx, rfl⟩ := List.mem_map.1 hy
    exact (Nat.sub_le x b).trans (small x hx)
  rw [List.length_map, smul_eq_mul] at bound
  rw [chargeOf]
  omega

/-- Settles O19: the charge sums 32 heights of at most 1023, and the peak index is the first place of the largest sample. -/
theorem pulseChargeAndPeak : Obligations.PulseChargeAndPeak := by
  intro b xs some few small
  have reached : peakIndexOf xs < xs.length := List.findIdx_lt_length_of_exists ⟨peakOf xs, peakOf_mem some, by simp⟩
  have place : xs[peakIndexOf xs] = peakOf xs := by
    have holds := List.findIdx_getElem (p := (· == peakOf xs)) (xs := xs) (w := reached)
    exact eq_of_beq holds
  refine ⟨?_, chargeOf_le few small, peakOf_mem some, fun x => le_peakOf, reached, ?_, fun k x before at' => ?_⟩
  · rw [chargeOf]
    congr 1
    refine List.map_congr_left fun x _ => ?_
    split
    · rfl
    · omega
  · rw [List.getElem?_eq_getElem reached, place]
  · obtain ⟨inside, rfl⟩ := List.getElem?_eq_some_iff.1 at'
    have other : (xs[k] == peakOf xs) = false := by
      simpa using List.not_of_lt_findIdx (p := (· == peakOf xs)) (xs := xs) before
    exact lt_of_le_of_ne (le_peakOf (List.getElem_mem inside)) (by simpa using other)

/-! ## The taking of a pulse (R46 to R48) -/

theorem inRun_eq_true {s : State} (run : s.run = .running ∨ s.run = .draining) : inRun s = true := (inRun_iff s).2 run

theorem mayChoose_eq_true {s : State} (run : s.run = .running ∨ s.run = .draining) (idle : s.pool.inWaiting = none) :
    mayChoose s = true := by
  rw [mayChoose, inRun_eq_true run, idle]; rfl

theorem mayChoose_noteChoice (s : State) : mayChoose (noteChoice s) = mayChoose s := by
  obtain same | ⟨-, -, waits⟩ := noteChoice_cases s
  · rw [same]
  · rw [waits]; rfl

/-- A wait that begins changes no choice. -/
theorem choice_noteChoice (s : State) : choice (noteChoice s) = choice s := by
  obtain same | ⟨-, -, waits⟩ := noteChoice_cases s
  · rw [same]
  · rw [waits]; rfl

theorem source_noteChoice (s : State) (i : Fin 24) : source (noteChoice s) i = source s i := by
  obtain same | ⟨-, -, waits⟩ := noteChoice_cases s
  · rw [same]
  · rw [waits]; rfl

/-- A pulse is chosen only while the pool can give an entry (R45). -/
theorem canGive_of_chosen {s : State} {i : Fin 24} {p : PulseEntry} {rest : List StagingEntry} (chosen : choice s = some i)
    (head : (source s i).queue = .pulse p :: rest) : canGive s = true := by
  have candidate := ((choice_eq_some s i).1 chosen).1
  rw [isCandidate, head] at candidate
  exact candidate

theorem noteChoice_of_canGive {s : State} (gives : canGive s = true) : noteChoice s = s :=
  noteChoice_of_not_leavesOut (by simp [leavesOut, gives])

theorem execTimes_claimVisit (n : Nat) : ∀ s, execTimes .claimVisit n s = .next (claimVisits n s) := by
  induction n with
  | zero => intro s; rfl
  | succ n ih => intro s; exact ih (claimVisit s)

theorem exec_distributorTakePulse {s : State} {i : Fin 24} {p : PulseEntry} {rest : List StagingEntry}
    (run : s.run = .running ∨ s.run = .draining) (idle : s.pool.inWaiting = none) (chosen : choice s = some i)
    (head : (source s i).queue = .pulse p :: rest) (visits : Nat) :
    exec (.distributorTakePulse visits) s = .next (takePulse visits i p rest s) := by
  show execDistributorTakePulse visits s = _
  simp only [execDistributorTakePulse, noteChoice_of_canGive (canGive_of_chosen chosen head), mayChoose_eq_true run idle, if_true, chosen, head]

theorem leavesOut_eq_true {s : State} (run : s.run = .running ∨ s.run = .draining) (idle : s.pool.inWaiting = none)
    (free : s.pool.freeList = []) (retained : s.pool.retention = []) (pulse : ∃ i p rest, (source s i).queue = .pulse p :: rest) :
    leavesOut s = true := by
  obtain ⟨i, p, rest, head⟩ := pulse
  have waits : allSources.any (fun i => headIsPulse (source s i)) = true :=
    List.any_eq_true.2 ⟨i, mem_allSources i, by rw [headIsPulse, head]⟩
  simp [leavesOut, inRun_eq_true run, idle, canGive, free, retained, waits]

/-- With a pool that can give no entry no pulse is taken. -/
theorem execDistributorTakePulse_of_empty {s : State} (free : s.pool.freeList = []) (retained : s.pool.retention = []) (visits : Nat) :
    exec (.distributorTakePulse visits) s = .next (noteChoice s) := by
  show execDistributorTakePulse visits s = _
  simp only [execDistributorTakePulse]
  split
  · split
    · next i chosen =>
      split
      · next p rest head =>
        rw [choice_noteChoice] at chosen
        rw [source_noteChoice] at head
        have gives := canGive_of_chosen chosen head
        simp [canGive, free, retained] at gives
      · rfl
    · rfl
  · rfl

/-- The pulse entry has left its queue, and a LATE pulse is counted (R46, R48). -/
theorem countLate_popQueue (i : Fin 24) (late : Bool) (rest : List StagingEntry) (s : State) :
    countLate i late (popQueue i rest s) = modSource i (fun x => { x with
        queue := rest
        counters := { x.counters with latePulses := if late then bump x.counters.latePulses else x.counters.latePulses } })
      { s with distributor.lastServed := i } := by
  cases late with
  | true =>
    rw [countLate, if_pos rfl, countSource, popQueue, modSource_modSource]
    rfl
  | false => rfl

/-- Settles O20: the chosen head is taken, shown and placed; with an empty pool the choice only begins a wait. -/
theorem distributorTakesPulse : Obligations.DistributorTakesPulse := by
  constructor
  · intro s i p rest run idle chosen head late rec' u
    have computed : computedPulse s i p = rec' := by
      simp only [computedPulse, rec', flagsIf, List.contains_iff_mem]
      rfl
    have popped : countLate i (isLate s i p.stamp) (popQueue i rest s) = u := countLate_popQueue i _ rest s
    have takes : ∀ visits, exec (.distributorTakePulse visits) s
        = .next (noteChoice (place (presentArrivals rec' u).2 (claimVisits visits (presentArrivals rec' u).1))) := fun visits => by
      rw [exec_distributorTakePulse run idle chosen head visits, takePulse, computed, popped]
      rfl
    exact ⟨takes 0, fun visits => ⟨_, execTimes_claimVisit visits _, takes visits⟩⟩
  · intro s run idle free retained pulse visits
    have out := leavesOut_eq_true run idle free retained pulse
    rw [execDistributorTakePulse_of_empty free retained, noteChoice, out]
    exact ⟨fun fresh => by rw [fresh]; rfl, fun waits => by rw [waits]; rfl⟩

/-! ## The taking of a mark (R49, R103) -/

theorem exec_distributorTakeMark {s : State} {i : Fin 24} {m : Stamp} {rest : List StagingEntry}
    (run : s.run = .running ∨ s.run = .draining) (idle : s.pool.inWaiting = none) (chosen : choice s = some i)
    (head : (source s i).queue = .mark m :: rest) : exec .distributorTakeMark s = .next (takeMarkEntry i m rest (noteChoice s)) := by
  show execDistributorTakeMark s = _
  simp only [execDistributorTakeMark, mayChoose_noteChoice, mayChoose_eq_true run idle, if_true, choice_noteChoice, chosen, source_noteChoice, head]

/-- When a choice begins a wait (R45, R66). -/
theorem noteChoice_eq_of_wait {s t : State} (run : s.run = .running ∨ s.run = .draining) (idle : s.pool.inWaiting = none)
    (begins : (s.pool.freeList = [] ∧ s.pool.retention = [] ∧ s.distributor.waiting = false
      ∧ ∃ j p rest, (source s j).queue = .pulse p :: rest) →
        t = { s with distributor.waiting := true, pool.poolWaits := bump s.pool.poolWaits })
    (rests : ¬(s.pool.freeList = [] ∧ s.pool.retention = [] ∧ s.distributor.waiting = false
      ∧ ∃ j p rest, (source s j).queue = .pulse p :: rest) → t = s) : noteChoice s = t := by
  obtain same | ⟨out, fresh, waits⟩ := noteChoice_cases s
  · rw [same]
    by_cases wait : s.pool.freeList = [] ∧ s.pool.retention = [] ∧ s.distributor.waiting = false
        ∧ ∃ j p rest, (source s j).queue = .pulse p :: rest
    · obtain ⟨free, retained, fresh, pulse⟩ := id wait
      rw [begins wait]
      rw [noteChoice, leavesOut_eq_true run idle free retained pulse, fresh] at same
      exact same.symm
    · exact (rests wait).symm
  · rw [waits]
    have wait : s.pool.freeList = [] ∧ s.pool.retention = [] ∧ s.distributor.waiting = false
        ∧ ∃ j p rest, (source s j).queue = .pulse p :: rest := by
      simp only [leavesOut, Bool.and_eq_true, Bool.not_eq_true', List.any_eq_true] at out
      obtain ⟨⟨-, empty⟩, j, -, isPulse⟩ := out
      obtain ⟨free, retained⟩ : s.pool.freeList = [] ∧ s.pool.retention = [] := by simpa [canGive] using empty
      refine ⟨free, retained, fresh, j, ?_⟩
      unfold headIsPulse at isPulse
      split at isPulse
      · next p rest head => exact ⟨p, rest, head⟩
      · cases isPulse
    exact (begins wait).symm

theorem markAccepted_iff (s : State) (i : Fin 24) (m : Stamp) : markAccepted s i m = true ↔
    (source s i).watermark = none ∨ ∃ w, (source s i).watermark = some w ∧ atOrAfter s.settings.ol m w = true := by
  unfold markAccepted
  cases (source s i).watermark <;> simp

/-- The source whose watermark has just become `m` returns when no context is OPEN or it has passed the oldest OPEN one (R103). -/
theorem returns_iff {s : State} {i : Fin 24} {m : Stamp} (watermark : (source s i).watermark = some m) : returns s i = true ↔
    oldestOpen s = none ∨ ∃ j, oldestOpen s = some j ∧ atOrAfter s.settings.ol m (context s j).winClose = true := by
  unfold returns passedOldest passed
  cases oldestOpen s <;> simp [watermark]

/-- Settles O29, by whether the mark is accepted and by the source's standing. -/
theorem distributorTakesMark : Obligations.DistributorTakesMark := by
  intro s i m rest run idle chosen head waitBegins t begins rests served u back active accepted
  have noted : noteChoice s = t := noteChoice_eq_of_wait run idle begins rests
  have takes := exec_distributorTakeMark run idle chosen head
  rw [noted] at takes
  have sources : ∀ j, source t j = source s j := fun j => by rw [← noted, source_noteChoice]
  have like : (oldestOpen t = oldestOpen s ∧ t.settings = s.settings) ∧ ∀ j, context t j = context s j := by
    rw [← noted]
    obtain same | ⟨-, -, waits⟩ := noteChoice_cases s
    · rw [same]; exact ⟨⟨rfl, rfl⟩, fun _ => rfl⟩
    · rw [waits]; exact ⟨⟨rfl, rfl⟩, fun _ => rfl⟩
  obtain ⟨⟨oldest, settings⟩, contexts⟩ := like
  have test : markAccepted t i m = true ↔ accepted := by rw [markAccepted_iff, sources, settings]
  have moved : modSource i (fun x => { x with watermark := some m }) (popQueue i rest t) = u := modSource_modSource i _ _ _
  have own : source u i = { source s i with queue := rest, watermark := some m } := by
    rw [show u = modSource i (fun x => { x with queue := rest, watermark := some m }) served from rfl, source_modSource_same,
      show source served i = source t i from rfl, sources]
  have standing : (source u i).standing = (source s i).standing := by rw [own]
  have backs : returns u i = true ↔ back := by
    rw [returns_iff (m := m) (by rw [own]), show oldestOpen u = oldestOpen t from rfl, oldest, show u.settings = t.settings from rfl, settings]
    simp only [show ∀ j, context u j = context t j from fun _ => rfl, contexts]
    rfl
  have accepts : accepted → exec .distributorTakeMark s = .next (noteChoice (takeMark i u)) := fun yes => by
    rw [takes, takeMarkEntry, if_pos (test.2 yes), moved]
    rfl
  refine ⟨fun no => ?_, fun yes stays => ?_, fun yes away comesBack => ?_, fun yes down notBack => ?_⟩
  · rw [takes, takeMarkEntry, if_neg fun h => no (test.1 h), countSource, popQueue, modSource_modSource]
    rfl
  · rw [accepts yes, takeMark, standing]
    obtain isActive | isDisabled | ⟨lagging, notBack⟩ := stays
    · rw [isActive]
    · rw [isDisabled]
    · rw [lagging]
      simp only [show returns u i = false from Bool.eq_false_iff.2 fun h => notBack (backs.1 h), Bool.false_eq_true, if_false]
  · rw [accepts yes, takeMark, standing]
    obtain lagging | down := away
    · rw [lagging]
      simp only [backs.2 comesBack, if_true]
      rfl
    · rw [down]
      simp only [backs.2 comesBack, if_true]
      rfl
  · rw [accepts yes, takeMark, standing, down]
    simp only [show returns u i = false from Bool.eq_false_iff.2 fun h => notBack (backs.1 h), Bool.false_eq_true, if_false]
    rfl

end Sys2Proof.Machine
end

section
/-! PROOF. The arrival monitors (R153 to R159), placement (R56 to R59), the claim scanner (R89 to R92) and aging (R61). -/

namespace Sys2Proof.Machine

open Sys2Proof.Safety

/-! ## The arrival point -/

theorem map_filter_cons {α β : Type} (q : α → Bool) (g : α → β) (a : α) (l : List α) :
    ((a :: l).filter q).map g = (if q a then [g a] else []) ++ (l.filter q).map g := by
  cases h : q a <;> simp [h]

/-- The hit counts with those of monitor `m` replaced under a condition. -/
theorem get_put_if {α : Type} {n : Nat} (c : Bool) (v : Vector α n) (m k : Fin n) (x : α) :
    (if c then put v m x else v).get k = if k = m ∧ c = true then x else v.get k := by
  cases c with
  | true => simp [get_put]
  | false => simp

/-- Settles O21: each monitor in turn acts on the pulse as the monitors before it left it. -/
theorem arrivalMonitorsAndSpyQueue : Obligations.ArrivalMonitorsAndSpyQueue := by
  constructor
  · intro s p shown hit seen f0 f1 f2 f3 flags copies
    have one : ∀ (es : List SpyEntry) (h : Vector Nat 4) (f : BitVec 5) (m : Fin 4),
        presentArrival (offeredAll es { s with spy.hits := h }, shown f) m =
          (offeredAll (es ++ if hit m f && hasAction s .copy m then [⟨m, none, shown f⟩] else [])
            { s with spy.hits := if hit m f then put h m (bump (h.get m)) else h }, shown (seen m f)) :=
      fun es h f m => presentArrival_offered s es h (shown f) m
    have offers : copies.map (fun m => (⟨m, none, shown (flags.get m)⟩ : SpyEntry)) =
        ((((([] : List SpyEntry)
          ++ if hit 0 f0 && hasAction s .copy 0 then [⟨0, none, shown f0⟩] else [])
          ++ if hit 1 f1 && hasAction s .copy 1 then [⟨1, none, shown f1⟩] else [])
          ++ if hit 2 f2 && hasAction s .copy 2 then [⟨2, none, shown f2⟩] else [])
          ++ if hit 3 f3 && hasAction s .copy 3 then [⟨3, none, shown f3⟩] else []) := by
      simp only [copies, allFour, map_filter_cons, List.filter_nil, List.map_nil, List.append_assoc, List.append_nil, List.nil_append]
      rfl
    have counts : (Vector.ofFn fun m => if hit m (flags.get m) then bump (s.spy.hits.get m) else s.spy.hits.get m) =
        [(0, f0), (1, f1), (2, f2), (3, f3)].foldl
          (fun (h : Vector Nat 4) (x : Fin 4 × BitVec 5) => if hit x.1 x.2 then put h x.1 (bump (h.get x.1)) else h) s.spy.hits := by
      refine vector_ext_get fun m => ?_
      simp only [List.foldl_cons, List.foldl_nil, Vector.get_ofFn, get_put_if]
      fin_cases m <;> simp [flags] <;> rfl
    rw [offers, counts]
    show [0, 1, 2, 3].foldl presentArrival (offeredAll [] { s with spy.hits := s.spy.hits }, shown f0) = _
    simp only [List.foldl_cons, List.foldl_nil, one]
    rfl
  · intro s e
    exact ⟨fun room => if_pos room, fun full => if_neg (Nat.not_lt.2 full)⟩

/-! ## Placement -/

theorem mem_containing_iff (s : State) (t : Stamp) (i : Fin 16) : i ∈ containing s t ↔
    i ∈ s.table.order ∧ (context s i).state = .opened ∧ dist s.settings.ol t (context s i).winOpen < (context s i).span := by
  simp [containing, isOpened, windowHolds, inWindow]

/-- A pulse that no OPEN window contains, under retention depth 0 (R57). -/
theorem placeAmong_orphan {s : State} (none : s.settings.retentionDepth = 0) (p : PulseRecord) : placeAmong [] p s = countOrphan p s := by
  simp [placeAmong, none]

/-- A pulse that no OPEN window contains, under a retention depth above 0, when the pool gives an entry (R57). -/
theorem placeAmong_retained {s t : State} {e : Fin 4096} (depth : 0 < s.settings.retentionDepth) (takes : takeEntry s = some (e, t))
    (p : PulseRecord) : placeAmong [] p s = storeRetained e p t := by
  simp [placeAmong, depth, takes]

/-- A pulse for which some containing context has room, when the pool gives an entry (R56). -/
theorem placeAmong_held {s t : State} {e : Fin 4096} {l : List (Fin 16)} (room : l.filter (hasRoom s) ≠ []) (takes : takeEntry s = some (e, t))
    (p : PulseRecord) : placeAmong l p s = storeHeld e p (l.filter (hasRoom s)) ((l.filter fun i => !hasRoom s i).foldl refuseRef t) := by
  simp [placeAmong, room, takes]

/-- A pulse that needs an entry, when the pool gives none (R59). -/
theorem placeAmong_waits {s : State} {l : List (Fin 16)} (needs : l.filter (hasRoom s) ≠ [] ∨ (l = [] ∧ 0 < s.settings.retentionDepth))
    (takes : takeEntry s = none) (p : PulseRecord) : placeAmong l p s = waitPlacement p s := by
  obtain room | ⟨rfl, depth⟩ := needs
  · simp [placeAmong, room, takes]
  · simp [placeAmong, depth, takes]

/-- A pulse that only full contexts contain (R56, R81). -/
theorem placeAmong_full {s : State} {l : List (Fin 16)} (inside : l ≠ []) (room : l.filter (hasRoom s) = []) (p : PulseRecord) :
    placeAmong l p s = (l.filter fun i => !hasRoom s i).foldl refuseRef { s with pool.pulsesRefusedFull := bump s.pool.pulsesRefusedFull } := by
  simp [placeAmong, room, inside]

theorem takeEntry_free {s : State} {e : Fin 4096} {rest : List (Fin 4096)} (free : s.pool.freeList = e :: rest) :
    takeEntry s = some (e, { s with pool.freeList := rest, pool.leastFree := min s.pool.leastFree rest.length }) := by
  simp [takeEntry, free, setFreeList]

theorem takeEntry_evicts {s : State} {e : Fin 4096} {rest : List (Fin 4096)} (free : s.pool.freeList = []) (retained : s.pool.retention = e :: rest) :
    takeEntry s = some (e, { s with
      pool.retention := rest
      pool.retainedEvicted := bump s.pool.retainedEvicted
      table.visits := s.table.visits.erase e
      latched := s.latched ||| codeBit 9 }) := by
  simp [takeEntry, free, retained, leaveRetention, raise, Latched.code]

theorem takeEntry_none {s : State} (free : s.pool.freeList = []) (retained : s.pool.retention = []) : takeEntry s = none := by
  simp [takeEntry, free, retained]

theorem exec_placementRetry {s : State} {p : PulseRecord} (waits : s.pool.inWaiting = some p) : exec .placementRetry s =
    .next (if s.pool.freeList = [] then s else noteChoice (place p { s with pool.inWaiting := none })) := by
  show execPlacementRetry s = _
  simp only [execPlacementRetry, waits, List.isEmpty_iff]
  rfl

/-- Settles O22, by what the pool can give. -/
theorem placementWithoutWindow : Obligations.PlacementWithoutWindow := by
  constructor
  · intro s p outside
    refine ⟨fun none => ?_, fun depth e rest free => ?_, fun depth free e rest retained => ?_, fun depth free retained => ?_⟩
    · rw [place, outside, placeAmong_orphan none]
      rfl
    · rw [place, outside, placeAmong_retained depth (takeEntry_free free)]
      rfl
    · rw [place, outside, placeAmong_retained depth (takeEntry_evicts free retained)]
      rfl
    · rw [place, outside, placeAmong_waits (.inr ⟨rfl, depth⟩) (takeEntry_none free retained)]
      rfl
  · intro s p waits
    refine ⟨fun empty => ?_, fun some => ?_⟩
    · rw [exec_placementRetry waits, if_pos empty]
    · rw [exec_placementRetry waits, if_neg some]

/-- The contexts that contain the pulse and are full count it lost, and those not yet TRUNCATED are counted and raise the condition, in going
from `b` to `t`; every context outside stays (R81). -/
def TruncatesFull (s : State) (p : PulseRecord) (b t : State) : Prop :=
  let inside := fun i => i ∈ s.table.order ∧ (context s i).state = .opened
    ∧ dist s.settings.ol p.stamp (context s i).winOpen < (context s i).span
  let newlyFull := (containing s p.stamp).filter fun i => decide (1024 ≤ (context s i).refs.length) && !(context s i).flags.getLsbD 6
  (∀ i, inside i → 1024 ≤ (context s i).refs.length →
    context t i = { context s i with
      lost := if (context s i).lost < 65535 then (context s i).lost + 1 else 65535
      flags := (context s i).flags ||| eventTruncated })
  ∧ (∀ i, ¬inside i → context t i = context s i)
  ∧ t.table = { s.table with
      slots := t.table.slots, visits := b.table.visits
      eventsTruncated := bump^[newlyFull.length] s.table.eventsTruncated }
  ∧ t.latched = (if newlyFull = [] then b.latched else b.latched ||| codeBit 8)

theorem hasRoom_iff (s : State) (i : Fin 16) : hasRoom s i = true ↔ (context s i).refs.length < 1024 := decide_eq_true_iff

/-- The full ones among the containing contexts. -/
def fullAmong (s : State) (p : PulseRecord) : List (Fin 16) := (containing s p.stamp).filter fun i => !hasRoom s i

theorem mem_fullAmong (s : State) (p : PulseRecord) (i : Fin 16) : i ∈ fullAmong s p ↔ i ∈ containing s p.stamp ∧ 1024 ≤ (context s i).refs.length := by
  simp [fullAmong, hasRoom, Config.refsCap]

/-- The references that full contexts refuse, in a state whose contexts, order and lists are those of `s` up to the visit list. -/
theorem truncatesFull_refused {s b t : State} {p : PulseRecord} (once : s.table.order.Nodup)
    (table : b.table = { s.table with visits := b.table.visits })
    (contexts : ∀ i, i ∉ containing s p.stamp ∨ 1024 ≤ (context s i).refs.length → context t i = context ((fullAmong s p).foldl refuseRef b) i)
    (rest : t.table = { ((fullAmong s p).foldl refuseRef b).table with slots := t.table.slots })
    (latched : t.latched = ((fullAmong s p).foldl refuseRef b).latched) : TruncatesFull s p b t := by
  unfold TruncatesFull
  intro inside newlyFull
  have fullOnce : (fullAmong s p).Nodup := (once.filter _).filter _
  have slots : ∀ i, context b i = context s i := fun i => by rw [context, table]; rfl
  have refused := context_foldl_refuseRef (fullAmong s p) fullOnce b
  have newly : (fullAmong s p).filter (fun i => !(context b i).flags.getLsbD 6) = newlyFull := by
    simp only [slots, newlyFull, fullAmong, List.filter_filter]
    refine List.filter_congr fun i _ => ?_
    rw [Bool.and_comm]
    congr 1
    rw [hasRoom, ← decide_not]
    exact decide_eq_decide.2 Nat.not_lt
  obtain ⟨counted, raised⟩ := counts_foldl_refuseRef (fullAmong s p) fullOnce b
  rw [newly] at counted raised
  refine ⟨fun i isInside isFull => ?_, fun i outside => ?_, ?_, by rw [latched, raised]⟩
  · have mem := (mem_containing_iff s p.stamp i).2 isInside
    rw [contexts i (.inr isFull), refused, if_pos ((mem_fullAmong s p i).2 ⟨mem, isFull⟩), slots]
  · have notMem : i ∉ containing s p.stamp := fun mem => outside ((mem_containing_iff s p.stamp i).1 mem)
    rw [contexts i (.inl notMem), refused, if_neg fun mem => notMem ((mem_fullAmong s p i).1 mem).1, slots]
  · have truncated : b.table.eventsTruncated = s.table.eventsTruncated := by rw [table]
    rw [rest, foldl_refuseRef_rest]
    simp only [counted, truncated]
    rw [table]

/-- What a placement HELD in entry `e` of a pulse does: references where there is room, and refused references (R56, R79 to R82). -/
theorem stores_held {s b : State} {p : PulseRecord} (once : s.table.order.Nodup) (e : Fin 4096)
    (table : b.table = { s.table with visits := b.table.visits }) (entries : b.pool.entries = s.pool.entries) :
    let room := (containing s p.stamp).filter (hasRoom s)
    let t := storeHeld e p room ((fullAmong s p).foldl refuseRef b)
    TruncatesFull s p b t
      ∧ (∀ i ∈ room, context t i = { context s i with
          refs := (context s i).refs ++ [e]
          charge := min 16777215 ((context s i).charge + p.charge)
          flags := (context s i).flags ||| eventFlagsOf p.flags
            ||| (if 16777215 < (context s i).charge + p.charge then eventChargeSat else 0) })
      ∧ t = { b with pool.entries := t.pool.entries, pool.pulsesHeld := bump b.pool.pulsesHeld, table := t.table, latched := t.latched }
      ∧ ∀ x, poolEntry t x = if x = e then ⟨p, room.length⟩ else poolEntry s x := by
  intro room t
  have roomOnce : room.Nodup := (once.filter _).filter _
  have fullOnce : (fullAmong s p).Nodup := (once.filter _).filter _
  have slots : ∀ i, context b i = context s i := fun i => by rw [context, table]; rfl
  have roomMem : ∀ i, i ∈ room ↔ i ∈ containing s p.stamp ∧ (context s i).refs.length < 1024 := fun i => by
    simp only [room, List.mem_filter, hasRoom_iff]
  have contexts : ∀ i, context t i = if i ∈ room then (context ((fullAmong s p).foldl refuseRef b) i).withRef e p
      else context ((fullAmong s p).foldl refuseRef b) i := fun i => context_storeHeld roomOnce e p _ i
  have refs : t = { setPoolEntry e ⟨p, room.length⟩ ((fullAmong s p).foldl refuseRef b) with
      pool.pulsesHeld := bump ((fullAmong s p).foldl refuseRef b).pool.pulsesHeld, table.slots := t.table.slots } := foldl_makeRef_rest e p room _
  refine ⟨truncatesFull_refused once table (fun i away => ?_) ?_ ?_, fun i mem => ?_, ?_, fun x => ?_⟩
  · rw [contexts, if_neg]
    rw [roomMem]
    rintro ⟨mem, few⟩
    exact away.elim (fun h => h mem) fun h => absurd few (Nat.not_lt.2 h)
  · rw [refs]; rfl
  · rw [refs]; rfl
  · have notFull : i ∉ fullAmong s p := fun full => absurd ((roomMem i).1 mem).2 (Nat.not_lt.2 ((mem_fullAmong s p i).1 full).2)
    rw [contexts, if_pos mem, context_foldl_refuseRef _ fullOnce, if_neg notFull, slots, withRef_eq]
  · rw [refs, foldl_refuseRef_rest]
    rfl
  · have held : poolEntry t x = poolEntry (setPoolEntry e ⟨p, room.length⟩ ((fullAmong s p).foldl refuseRef b)) x := by rw [refs]; rfl
    rw [held, poolEntry_setPoolEntry]
    refine if_congr Iff.rfl rfl ?_
    rw [foldl_refuseRef_rest]
    exact poolEntry_congr entries x

/-- Settles O23, by what the pool can give and whether a containing context has room. -/
theorem placementReferencesContexts : Obligations.PlacementReferencesContexts := by
  intro s p once inside room newlyFull lost stored
  have held : ∀ e b, room ≠ [] → takeEntry s = some (e, b) → b.table = { s.table with visits := b.table.visits } →
      b.pool.entries = s.pool.entries → stored e b := fun e b some takes table entries => by
    obtain ⟨truncated, made, rest, pool⟩ := stores_held (p := p) once e table entries
    refine ⟨_, by rw [place, placeAmong_held some takes]; rfl, truncated, fun i isInside few => made i ?_, rest, pool⟩
    exact List.mem_filter.2 ⟨(mem_containing_iff s p.stamp i).2 isInside, (hasRoom_iff s i).2 few⟩
  refine ⟨mem_containing_iff s p.stamp, fun some e rest free => held e _ some (takeEntry_free free) rfl rfl,
    fun some free e rest retained => held e _ some (takeEntry_evicts free retained) rfl rfl, fun some free retained => ?_, fun contained none => ?_⟩
  · rw [place, placeAmong_waits (.inl some) (takeEntry_none free retained)]
    rfl
  · refine ⟨_, by rw [place, placeAmong_full contained none]; rfl,
      truncatesFull_refused (b := { s with pool.pulsesRefusedFull := bump s.pool.pulsesRefusedFull }) once rfl (fun _ _ => rfl) rfl rfl, ?_⟩
    show (fullAmong s p).foldl refuseRef _ = _
    rw [foldl_refuseRef_rest]

/-! ## The claim scanner -/

theorem exec_claimVisit {s : State} {i : Fin 16} {e : Fin 4096} {rest : List (Fin 4096)} (pass : s.table.scanned = some i)
    (visits : s.table.visits = e :: rest) : exec .claimVisit s = .next (settleScanner (visit i e { s with table.visits := rest })) := by
  show execClaimVisit s = _
  simp only [execClaimVisit, claimVisit, pass, visits]

theorem visit_claims {s : State} {i : Fin 16} {e : Fin 4096} (within : windowHolds s (poolEntry s e).record.stamp i = true)
    (room : hasRoom s i = true) : visit i e s = claim i e s := by rw [visit, if_pos within, if_pos room]

theorem visit_refuses {s : State} {i : Fin 16} {e : Fin 4096} (within : windowHolds s (poolEntry s e).record.stamp i = true)
    (full : hasRoom s i = false) : visit i e s = refuseRef s i := by
  rw [visit, if_pos within, if_neg (Bool.not_eq_true _ ▸ full)]

theorem visit_leaves {s : State} {i : Fin 16} {e : Fin 4096} (without : windowHolds s (poolEntry s e).record.stamp i = false) :
    visit i e s = s := by rw [visit, if_neg (Bool.not_eq_true _ ▸ without)]

/-- Settles O24: a visit claims, refuses or leaves; the scanner's four positions. -/
theorem claimVisitsAndPasses : Obligations.ClaimVisitsAndPasses := by
  constructor
  · intro s i e rest pass visits p c visited inside
    have takes : exec .claimVisit s = .next (settleScanner (visit i e visited)) := exec_claimVisit pass visits
    refine ⟨fun within few => ?_, fun within full => ?_, fun without => ?_⟩
    · rw [takes, visit_claims (s := visited) (decide_eq_true within) (decide_eq_true few), claim, makeRef, modContext, withRef_eq]
      rfl
    · rw [takes, visit_refuses (s := visited) (decide_eq_true within) (decide_eq_false (Nat.not_lt.2 full)), refuseRef]
      cases truncated : c.flags.getLsbD 6 with
      | true =>
        have again : (context visited i).truncated = true := truncated
        simp only [again, if_true]
        rfl
      | false =>
        have first : (context visited i).truncated = false := truncated
        simp only [first, Bool.false_eq_true, if_false]
        rfl
    · rw [takes, visit_leaves (s := visited) (decide_eq_false without)]
  · intro s
    refine ⟨fun i pass left => settleScanner_pass pass left, fun idle empty => settleScanner_idle idle empty, fun i pass done => ?_,
      fun i rest idle list => ?_⟩
    · rw [settleScanner_end pass done, endPass, modContext]
      simp only [List.contains_iff_mem]
      rfl
    · rw [settleScanner_start idle list]
      rfl

/-! ## Aging -/

/-- Settles O25: the aged heads leave one after another, and then a wait ends and the scanner moves. -/
theorem retainedHeadsAge : Obligations.RetainedHeadsAge := by
  intro s old gone kept
  have same : ∀ e, headAged s e = old e := fun e => by
    simp only [headAged, aged, atOrBefore, old, Bool.and_assoc]
    rfl
  show execRetainedHeadAged s = _
  rw [execRetainedHeadAged, ageHeads_eq old _ s le_rfl same, endWait_eq]

end Sys2Proof.Machine
end

section
/-! PROOF. The event block as words (R120, R124 to R126). -/

namespace Sys2Proof.Machine

open Sys2Proof.Safety

/-! ## Fields of words put together of two, three and four parts -/

theorem extract_two {n m : Nat} (a : BitVec n) (b : BitVec m) : (a ++ b).extractLsb' m n = a ∧ (a ++ b).extractLsb' 0 m = b :=
  ⟨(extract_high a b (j := 0) rfl).trans (extract_all a), extract_low a b⟩

theorem extract_three {n m l : Nat} (a : BitVec n) (b : BitVec m) (c : BitVec l) :
    (a ++ b ++ c).extractLsb' (l + m) n = a ∧ (a ++ b ++ c).extractLsb' l m = b ∧ (a ++ b ++ c).extractLsb' 0 l = c := by
  obtain ⟨high, low⟩ := extract_two a b
  exact ⟨(extract_high _ c rfl).trans high, (extract_high _ c (j := 0) rfl).trans low, extract_low _ c⟩

theorem extract_four {n m l k : Nat} (a : BitVec n) (b : BitVec m) (c : BitVec l) (d : BitVec k) :
    (a ++ b ++ c ++ d).extractLsb' (k + (l + m)) n = a ∧ (a ++ b ++ c ++ d).extractLsb' (k + l) m = b
      ∧ (a ++ b ++ c ++ d).extractLsb' k l = c ∧ (a ++ b ++ c ++ d).extractLsb' 0 k = d := by
  obtain ⟨high, middle, low⟩ := extract_three a b c
  exact ⟨(extract_high _ d rfl).trans high, (extract_high _ d rfl).trans middle, (extract_high _ d (j := 0) rfl).trans low, extract_low _ d⟩

/-- A field that holds a number of few enough bits is that number. -/
theorem toNat_field {w : Word} {low width n : Nat} (h : w.extractLsb' low width = BitVec.ofNat width n) (small : n < 2 ^ width) :
    (w.extractLsb' low width).toNat = n := by
  rw [h, BitVec.toNat_ofNat, Nat.mod_eq_of_lt small]

/-- A field of zeros is 0. -/
theorem toNat_field_zero {w : Word} {low width : Nat} (h : w.extractLsb' low width = 0#width) : (w.extractLsb' low width).toNat = 0 := by
  rw [h, BitVec.toNat_zero]

/-! ## The event block's words -/

/-- The event size is at most 14,352 within the limits of a context (R120). -/
theorem eventSize_le {s : State} {i : Fin 16} (triggers : (context s i).triggers.length ≤ 4) (refs : (context s i).refs.length ≤ 1024)
    (samples : ∀ e, (poolEntry s e).record.samples.length ≤ 32) : eventSize s i ≤ 14352 := by
  have blocks := List.sum_le_card_nsmul ((pulsesOf s (context s i)).map pulseBlockSize) 14 fun n mem => by
    obtain ⟨p, hp, rfl⟩ := List.mem_map.1 mem
    obtain ⟨e, -, rfl⟩ := List.mem_map.1 hp
    have few := samples e
    simp only [pulseBlockSize, sampleWords]
    omega
  simp only [List.length_map, pulsesOf, smul_eq_mul] at blocks
  simp only [eventSize, sizeOfEvent, pulsesOf]
  omega

/-- The words behind the header are the trigger entries and the pulse blocks (R124). -/
theorem getD_blockOf (c : Context) (ps : List PulseRecord) (k : Nat) :
    (blockOf c ps).getD (8 + k) 0 = (c.triggers.flatMap triggerEntry ++ ps.flatMap pulseBlock).getD k 0 := by
  rw [blockOf, List.append_assoc, List.getD_append_right _ _ _ _ (Nat.le_add_right 8 k)]
  congr 1
  exact Nat.add_sub_cancel_left (n := 8) (m := k)

/-- The two words of trigger `k` (R125). -/
theorem getD_triggers {ts : List Trigger} {tr : Trigger} (more : List Word) : ∀ {k : Nat}, ts[k]? = some tr →
    (ts.flatMap triggerEntry ++ more).getD (2 * k) 0 = stampWord tr.stamp
      ∧ (ts.flatMap triggerEntry ++ more).getD (2 * k + 1) 0 = 0#25 ++ tr.origin.code ++ 0#1 ++ BitVec.ofNat 3 tr.cls.val := by
  induction ts with
  | nil => intro k h; simp at h
  | cons t ts ih =>
    intro k h
    cases k with
    | zero =>
      obtain rfl : t = tr := by simpa using h
      exact ⟨rfl, rfl⟩
    | succ k => exact ih (by simpa using h)

theorem length_flatMap_triggerEntry (ts : List Trigger) : (ts.flatMap triggerEntry).length = 2 * ts.length := by
  induction ts with
  | nil => rfl
  | cons t ts ih => rw [List.flatMap_cons, List.length_append, ih, List.length_cons, triggerEntry]; simp; omega

/-- The two top bits of a sample word are reserved (R126). -/
theorem extract_packSamples {xs : List Nat} {w : Word} (h : w ∈ packSamples xs) : w.extractLsb' 30 2 = 0#2 := by
  fun_induction packSamples xs with
  | case1 a b c rest ih =>
    obtain rfl | h := List.mem_cons.1 h
    · exact (extract_four _ _ _ _).1
    · exact ih h
  | case2 a b =>
    obtain rfl := List.mem_singleton.1 h
    exact (extract_four _ _ _ _).1
  | case3 a =>
    obtain rfl := List.mem_singleton.1 h
    exact (extract_four _ _ _ _).1
  | case4 => cases h

/-- Settles O33: the words of the block are read field by field. -/
theorem eventBlockSizeAndPulseBlocks : Obligations.EventBlockSizeAndPulseBlocks := by
  refine ⟨fun s i => ⟨length_blockOf _ _, rfl, eventSize_le⟩, ?_, fun p more inRange => ?_⟩
  · intro s i c word field fits fewTriggers small number winOpen winClose lost refs charge stamps
    have stamp : ∀ {k : Nat} {t : Stamp}, fits t → word k = stampWord t → (⟨field k 12 20, field k 0 12⟩ : Stamp) = t :=
      fun {k t} ⟨orbit, bc⟩ same => by
        simp only [field, same]
        exact wordStamp_stampWord orbit bc
    obtain ⟨zero0, count0, size0⟩ := extract_three (0#13) (BitVec.ofNat 3 c.triggers.length) (BitVec.ofNat 16 (eventSize s i))
    obtain ⟨lost4, zero4, refs4⟩ := extract_three (BitVec.ofNat 16 c.lost) (0#5) (BitVec.ofNat 11 c.refs.length)
    obtain ⟨zero5, flags5⟩ := extract_two (0#23) c.flags
    obtain ⟨zero6, charge6⟩ := extract_two (0#8) (BitVec.ofNat 24 c.charge)
    obtain ⟨zero7, missing7⟩ := extract_two (0#8) c.missing
    refine ⟨toNat_field size0 (by omega), toNat_field count0 (by omega), toNat_field_zero zero0, Nat.mod_eq_of_lt number, stamp winOpen rfl,
      stamp winClose rfl, toNat_field lost4 (by omega), toNat_field_zero zero4, toNat_field refs4 (by omega), flags5, toNat_field_zero zero5,
      toNat_field charge6 (by omega), toNat_field_zero zero6, missing7, toNat_field_zero zero7, fun k tr at' => ?_, ?_⟩
    · obtain ⟨first, second⟩ := getD_triggers ((pulsesOf s c).flatMap pulseBlock) at'
      have stampAt : word (8 + 2 * k) = stampWord tr.stamp := (getD_blockOf c (pulsesOf s c) (2 * k)).trans first
      have entryAt : word (9 + 2 * k) = 0#25 ++ tr.origin.code ++ 0#1 ++ BitVec.ofNat 3 tr.cls.val := by
        rw [show 9 + 2 * k = 8 + (2 * k + 1) by omega]
        exact (getD_blockOf c (pulsesOf s c) (2 * k + 1)).trans second
      obtain ⟨high, origin, gap, cls⟩ := extract_four (0#25) tr.origin.code (0#1) (BitVec.ofNat 3 tr.cls.val)
      simp only [field, entryAt]
      refine ⟨stamp (stamps tr (List.mem_of_getElem? at')) stampAt, toNat_field cls (by omega), ?_, toNat_field_zero gap, toNat_field_zero high⟩
      refine (congrArg BitVec.toNat origin).trans ?_
      cases tr.origin with
      | line l => exact Nat.mod_eq_of_lt (by omega)
      | soft => rfl
    · refine List.drop_left' ?_
      rw [List.length_append, length_flatMap_triggerEntry]
      rfl
  · have top : ∀ w : Word, w = BitVec.ofNat 5 p.source.val ++ p.flags ++ BitVec.ofNat 6 p.samples.length ++ BitVec.ofNat 6 p.row
        ++ 0#3 ++ BitVec.ofNat 7 p.pad → w.extractLsb' 7 3 = 0#3 := by
      rintro w rfl
      exact (extract_three _ (0#3) (BitVec.ofNat 7 p.pad)).2.1
    refine ⟨length_pulseBlock p, pulseOfBlock_pulseBlock inRange more, toNat_field_zero (top _ rfl), toNat_field_zero (extract_four _ _ _ _).1,
      fun k behind => toNat_field_zero ?_⟩
    obtain ⟨k, rfl⟩ := Nat.exists_eq_add_of_le' behind
    show ((packSamples p.samples).getD k 0).extractLsb' 30 2 = 0#2
    rw [List.getD_eq_getElem?_getD]
    cases at' : (packSamples p.samples)[k]? with
    | none => rfl
    | some w => exact extract_packSamples (List.mem_of_getElem? at')

end Sys2Proof.Machine
end

section
/-! PROOF. The release builder and the stream side (R117 to R129, R136 to R138): suppression, the copies, the words of a stream phase and the
units on the data link. -/

namespace Sys2Proof.Machine

open Sys2Proof.Safety

/-! ## The release start -/

/-- What Freed says of a context of which only the state differs is what it says of the context as it stands. -/
theorem freed_of_like {i : Fin 16} {s b t : State} (like : b = { s with table.slots := b.table.slots })
    (refs : (context b i).refs = (context s i).refs) (others : ∀ j, j ≠ i → context b j = context s j) (h : Freed i b t) : Freed i s t := by
  obtain ⟨whole, entries, contexts⟩ := h
  have entry : ∀ e, poolEntry b e = poolEntry s e := fun e => by rw [poolEntry, like]; rfl
  refine ⟨?_, fun e => by rw [entries, refs, entry], fun j => ?_⟩
  · rw [refs] at whole
    simp only [entry] at whole
    rw [like] at whole
    exact whole
  · rw [contexts]
    split
    · rfl
    · next apart => exact others j apart

theorem exec_releaseStart {s : State} {i : Fin 16} {rest : List (Fin 16)} (idle : s.builder.job = none) (order : s.table.order = i :: rest)
    (finished : (context s i).state = .complete ∨ (context s i).state = .expired) : exec .releaseStart s = .next (startRelease i s) := by
  have test : (s.builder.job.isNone && isFinished s i) = true := by simp [idle, isFinished, finished]
  show execReleaseStart s = _
  simp only [execReleaseStart, order, test, if_true]

/-- Settles O31: with no route the start is a suppression. -/
theorem emptyRouteSuppressesEvent : Obligations.EmptyRouteSuppressesEvent := by
  intro s i rest idle order finished noRoute distinct
  let b := setContext i { context s i with state := .releasing } s
  let suppressed := { b with builder.eventsSuppressed := bump s.builder.eventsSuppressed }
  have own : context suppressed i = { context s i with state := .releasing } := context_setContext_same _ _ _
  have route : routeOf s (context s i) = ⟨false, false⟩ := by
    rw [routeOf_eq]
    have none : ∀ p : Route → Bool, p ⟨false, false⟩ = false → (context s i).triggers.any (fun t => p (s.settings.route.get t.cls)) = false :=
      fun p no => List.any_eq_false.2 fun t ht => by rw [noRoute t ht, no]; exact Bool.false_ne_true
    exact congrArg₂ Route.mk (none Route.stream rfl) (none Route.poll rfl)
  refine ⟨freeContext i suppressed, _, ?_, ?_, judgeDrain_judged _⟩
  · rw [exec_releaseStart idle order finished, startRelease, route]
    rfl
  · refine freed_of_like (b := suppressed) rfl (by rw [own]; rfl) (fun j apart => context_setContext_ne _ s apart)
      (freeContext_freed i suppressed ?_)
    rw [own]
    exact distinct

/-- The readout queue has room for a whole event (R121). -/
theorem readoutFits_iff {s : State} {size : Nat} (positive : 0 < size) : readoutFits s size = true ↔ size + readoutWords s ≤ 16384 := by
  simp only [readoutFits, Config.readoutCap, decide_eq_true_eq]
  omega

/-- Settles O32: the start's steps in order, the presentation leaving everything the copies are made of. -/
theorem releaseStartWritesCopies : Obligations.ReleaseStartWritesCopies := by
  intro s i rest idle order finished c route size fits begun shown written some
  let b := setContext i { c with state := .releasing } s
  have own : context b i = { c with state := .releasing } := context_setContext_same _ _ _
  have sizes : eventSize b i = size := eventSize_congr (by rw [own]) (by rw [own]) rfl
  have pulses : ∀ t, (context t i).refs = c.refs → t.pool.entries = s.pool.entries → pulsesOf t (context t i) = pulsesOf s c :=
    fun t refs entries => by simp only [pulsesOf, refs, poolEntry_congr entries]
  have test : readoutFits b size = true ↔ fits := readoutFits_iff (s := b) (eventSize_pos s i)
  have begins : (if route.poll && !(route.poll && readoutFits b size) then losePoll b else b) = begun := by
    have inside : begun = if route.poll = true ∧ ¬fits then losePoll b else b :=
      apply_ite (setContext i { c with state := .releasing }) (route.poll = true ∧ ¬fits)
        { s with builder.copiesLost := bump s.builder.copiesLost, latched := s.latched ||| codeBit 10 } s
    rw [inside]
    refine if_congr ?_ rfl rfl
    rw [← test]
    cases route.poll <;> simp
  have begunOwn : context begun i = { c with state := .releasing } := by
    rw [← begins]
    split
    · exact own
    · exact own
  have begunRest : begun.router = s.router ∧ begun.pool = s.pool ∧ begun.builder.job = none
      ∧ begun.builder.eventsReleased = s.builder.eventsReleased ∧ begun.builder.withoutCopy = s.builder.withoutCopy := by
    rw [← begins]
    split
    · exact ⟨rfl, rfl, idle, rfl, rfl⟩
    · exact ⟨rfl, rfl, idle, rfl, rfl⟩
  obtain ⟨router, pool, noJob, released, withoutCopy⟩ := begunRest
  have present : presentReleases i (pulsesOf b (context b i)) begun = shown := by
    rw [pulses b (by rw [own]) rfl, presentReleases_eq]
  have presents : Presents i begun shown := present ▸ presents_presentReleases i _ begun
  have shownRest := presents.rest
  have shownOwn : (context shown i).refs = c.refs ∧ (context shown i).number = c.number := by
    obtain same | flagged := presents.own
    · rw [same, begunOwn]; exact ⟨rfl, rfl⟩
    · rw [flagged, begunOwn]; exact ⟨rfl, rfl⟩
  obtain ⟨refs, number⟩ := shownOwn
  have shownRouter : shown.router = s.router := by rw [shownRest]; exact router
  have shownBuilder : shown.builder = begun.builder := by rw [shownRest]
  have shownPool : shown.pool = s.pool := by rw [shownRest]; exact pool
  have polled : (if route.poll && readoutFits b size then writePoll i shown else shown) = written := by
    refine if_congr (by rw [Bool.and_eq_true, test]) ?_ rfl
    simp only [writePoll, eventBlock, number, pulses shown refs (congrArg Pool.entries shownPool), shownRouter]
  have writtenRest : written.builder = shown.builder ∧ context written i = context shown i := by
    rw [← polled]
    split
    · exact ⟨rfl, rfl⟩
    · exact ⟨rfl, rfl⟩
  obtain ⟨writtenBuilder, writtenContext⟩ := writtenRest
  have writtenRefs : (context written i).refs = c.refs := by rw [writtenContext, refs]
  have starts : startRelease i s = if !route.stream && !(route.poll && readoutFits b size) then endWithoutCopy i shown
      else writeCopies i route size (route.poll && readoutFits b size) shown := by
    have chosen : (route.stream || route.poll) = true := by simpa using some
    have whole : routeOf s (context s i) = route := routeOf_eq s c
    simp only [startRelease, whole, chosen, if_true]
    show releaseCopies i route b = _
    simp only [releaseCopies, sizes, begins, present]
  have runs := exec_releaseStart idle order finished
  rw [starts] at runs
  refine ⟨fun stream => ?_, fun noStream distinct => ?_⟩
  · rw [runs, stream]
    simp only [Bool.not_true, Bool.false_and, Bool.false_eq_true, if_false, writeCopies, polled, stream, if_true]
  · have poll : route.poll = true := some.resolve_left (by rw [noStream]; exact Bool.false_ne_true)
    by_cases room : fits
    · have holds : (route.poll && readoutFits b size) = true := by rw [poll, test.2 room]; rfl
      refine ⟨freeContext i { written with builder.eventsReleased := bump s.builder.eventsReleased }, _, ?_, ?_, judgeDrain_judged _⟩
      · rw [runs, holds, noStream]
        simp only [Bool.not_true, Bool.and_false, Bool.false_eq_true, if_false, if_true, writeCopies, noStream]
        rw [show writePoll i shown = written by rw [← polled, holds]; rfl, endRelease,
          show written.builder.eventsReleased = s.builder.eventsReleased by rw [writtenBuilder, shownBuilder, released],
          ← show written.builder.job = none by rw [writtenBuilder, shownBuilder, noJob]]
      · rw [if_pos room]
        exact freeContext_freed _ _ (writtenRefs ▸ distinct)
    · have fails : (route.poll && readoutFits b size) = false := by
        rw [poll, Bool.true_and]
        exact Bool.eq_false_iff.2 fun h => room (test.1 h)
      refine ⟨freeContext i { written with builder.withoutCopy := bump s.builder.withoutCopy }, _, ?_, ?_, judgeDrain_judged _⟩
      · rw [runs, fails, noStream]
        simp only [Bool.not_false, Bool.true_and, if_true, endWithoutCopy]
        rw [show shown.builder.withoutCopy = s.builder.withoutCopy by rw [shownBuilder, withoutCopy],
          show shown = written by rw [← polled, fails]; rfl]
      · rw [if_neg room]
        exact freeContext_freed _ _ (writtenRefs ▸ distinct)

/-! ## The stream phase -/

theorem exec_streamWordWrite {s : State} {j : StreamJob} (job : s.builder.job = some j) (room : s.router.buffer.length < 4096) :
    exec .streamWordWrite s =
      .next (if j.progress + 1 = j.size then endRelease j.slot (writeStreamWord j s) else writeStreamWord j s) := by
  show execStreamWordWrite s = _
  have test : s.router.buffer.length < Config.streamCap := room
  simp only [execStreamWordWrite, job, test, if_true]

/-- The state in which the last word of a STREAM copy has been written, before the context leaves the part (R129). -/
def lastWordWritten (j : StreamJob) (s : State) : State :=
  { s with
    router.buffer := s.router.buffer ++ [⟨(eventBlock s j.slot).getD j.progress 0, decide (j.progress = 0), true⟩]
    builder.job := none
    builder.eventsReleased := bump s.builder.eventsReleased }

/-- The last word ends the release, and waits in the buffer so that no drain is taken (R129, R183). -/
theorem endRelease_writeStreamWord {s : State} {j : StreamJob} (last : j.progress + 1 = j.size) :
    endRelease j.slot (writeStreamWord j s) = freeContext j.slot (lastWordWritten j s) := by
  have written : { writeStreamWord j s with builder.job := none, builder.eventsReleased := bump (writeStreamWord j s).builder.eventsReleased }
      = lastWordWritten j s := by
    simp only [writeStreamWord, lastWordWritten, streamWordAt, decide_eq_true last]
  rw [endRelease, written, judgeDrain_of_buffer]
  rw [(freeContext_eq _ _).1]
  simp [lastWordWritten]

/-- A word that is not the last one joins the buffer (R128). -/
theorem writeStreamWord_of_more {s : State} {j : StreamJob} (more : j.progress + 1 ≠ j.size) : writeStreamWord j s = { s with
    router.buffer := s.router.buffer ++ [⟨(eventBlock s j.slot).getD j.progress 0, decide (j.progress = 0), false⟩]
    builder.job := some { j with progress := j.progress + 1 } } := by
  simp only [writeStreamWord, streamWordAt, decide_eq_false more]

/-- Settles O34, by whether the word is the last one. -/
theorem streamWordJoinsTheBuffer : Obligations.StreamWordJoinsTheBuffer := by
  intro s
  refine ⟨fun idle => ?_, fun j job => ⟨fun full => ?_, fun room more => ?_, fun room last distinct => ?_⟩⟩
  · show execStreamWordWrite s = _
    simp only [execStreamWordWrite, idle]
  · have test : ¬s.router.buffer.length < Config.streamCap := Nat.not_lt.2 full
    show execStreamWordWrite s = _
    simp only [execStreamWordWrite, job, test, if_false]
  · rw [exec_streamWordWrite job room, if_neg more, writeStreamWord_of_more more]
  · refine ⟨_, by rw [exec_streamWordWrite job room, if_pos last, endRelease_writeStreamWord last], ?_⟩
    exact freeContext_freed j.slot (lastWordWritten j s) distinct

/-- The words of a block that are still to be written from progress `k` on, with their marks, and the end of the release. -/
theorem streamCopy_from (block : List Word) (i : Fin 16) (route : Route) (ws : List Word) : ∀ (k : Nat) (s : State), ws ≠ [] →
    block.drop k = ws → eventBlock s i = block → s.builder.job = some ⟨i, route, block.length, k⟩ →
    s.router.buffer.length + ws.length ≤ 4096 →
    ∃ t, execTimes .streamWordWrite ws.length s = .next t
      ∧ t.router.buffer = s.router.buffer ++ markedFrom k block.length ws
      ∧ t.builder.job = none ∧ t.builder.eventsReleased = bump s.builder.eventsReleased
      ∧ context t i = Context.freeSlot := by
  induction ws with
  | nil => intro k s some; exact absurd rfl some
  | cons w ws ih =>
    intro k s _ left same job room
    have size : block.length = k + (ws.length + 1) := by
      have lengths := congrArg List.length left
      rw [List.length_drop, List.length_cons] at lengths
      omega
    have word : block.getD k 0 = w := by
      rw [List.getD_eq_getElem?_getD, ← List.head?_drop, left]; rfl
    rw [List.length_cons] at room
    have runs := exec_streamWordWrite job (by omega)
    cases ws with
    | nil =>
      have last : k + 1 = block.length := size.symm
      rw [if_pos last, endRelease_writeStreamWord last] at runs
      obtain ⟨rest, contexts⟩ := freeContext_eq i (lastWordWritten ⟨i, route, block.length, k⟩ s)
      refine ⟨_, by rw [List.length_singleton, execTimes, runs]; rfl, ?_, ?_, ?_, ?_⟩
      · rw [rest]
        simp only [lastWordWritten, same, word, markedFrom, decide_eq_true last]
      · rw [rest]; rfl
      · rw [rest]; rfl
      · rw [contexts, if_pos rfl]
    | cons w' ws =>
      have more : k + 1 ≠ block.length := by rw [size, List.length_cons]; omega
      rw [if_neg more, writeStreamWord_of_more more] at runs
      have next := ih (k + 1) { s with
          router.buffer := s.router.buffer ++ [⟨(eventBlock s i).getD k 0, decide (k = 0), false⟩]
          builder.job := some ⟨i, route, block.length, k + 1⟩ } (List.cons_ne_nil _ _)
        (by rw [← List.drop_drop, left]; rfl) same rfl (by rw [List.length_append, List.length_singleton]; omega)
      obtain ⟨t, times, buffer, rest⟩ := next
      refine ⟨t, by rw [List.length_cons, execTimes, runs]; exact times, ?_, rest⟩
      show _ = s.router.buffer ++ (⟨w, decide (k = 0), decide (k + 1 = block.length)⟩ :: markedFrom (k + 1) block.length (w' :: ws))
      rw [buffer, decide_eq_false more, same, word, List.append_assoc]
      rfl

/-- Settles O35: the words from progress 0 on are the whole block. -/
theorem streamCopyIsTheEventBlock : Obligations.StreamCopyIsTheEventBlock := by
  intro s i route job room
  have size : (eventBlock s i).length = eventSize s i := length_blockOf _ _
  rw [← size] at job room ⊢
  exact streamCopy_from (eventBlock s i) i route (eventBlock s i) 0 s (eventBlock_ne_nil s i) rfl rfl job room

/-! ## The data link -/

theorem exec_dataLinkUnitSend_owed {s : State} {n : Nat} (released : s.router.hold = false) (up : s.resetHeld = false)
    (owed : s.router.owed = some n) : exec .dataLinkUnitSend s = .next (sendOwed n s) := by
  show execDataLinkUnitSend s = _
  simp only [execDataLinkUnitSend, released, up, Bool.or_false, Bool.false_eq_true, if_false, owed]

theorem exec_dataLinkUnitSend_word {s : State} {w : StreamWord} {rest : List StreamWord} (released : s.router.hold = false)
    (up : s.resetHeld = false) (paid : s.router.owed = none) (head : s.router.buffer = w :: rest) :
    exec .dataLinkUnitSend s = .next (judgeDrain (sendWord w rest s)) := by
  show execDataLinkUnitSend s = _
  simp only [execDataLinkUnitSend, released, up, Bool.or_false, Bool.false_eq_true, if_false, paid, head]

/-- Settles O36, by what waits on the link. -/
theorem dataLinkSendsUnits : Obligations.DataLinkSendsUnits := by
  refine ⟨fun aborted count small => ?_, fun s => ⟨rfl, rfl, fun off => ?_, fun released up => ⟨fun n owed => ?_, fun paid empty => ?_,
    fun paid w rest head => ?_⟩⟩⟩
  · intro ws
    obtain ⟨status, zero, counted⟩ := extract_three (BitVec.ofBool aborted) (0#17) (BitVec.ofNat 14 count)
    refine ⟨(congrArg BitVec.toNat status).trans ?_, toNat_field_zero zero, toNat_field counted (by omega)⟩
    cases aborted <;> rfl
  · show execDataLinkUnitSend s = _
    obtain hold | held := off
    · simp only [execDataLinkUnitSend, hold, Bool.true_or, if_true]
    · simp only [execDataLinkUnitSend, held, Bool.or_true, if_true]
  · exact exec_dataLinkUnitSend_owed released up owed
  · show execDataLinkUnitSend s = _
    simp only [execDataLinkUnitSend, released, up, Bool.or_false, Bool.false_eq_true, if_false, paid, empty]
  · exact ⟨_, exec_dataLinkUnitSend_word released up paid head, judgeDrain_judged _⟩

/-- The state in which the last word of an event of `size` words has gone out, `sent` of its words in this run of the command, before the return
to IDLE is judged (R137). -/
def eventSent (size : Nat) (rest : List StreamWord) (units : List LinkUnit) (s : State) : State :=
  { s with
    router := { s.router with
      buffer := rest
      inEvent := false
      wordsSent := size
      streamWordsSent := bump^[units.length] s.router.streamWordsSent
      streamEventsSent := bump s.router.streamEventsSent }
    dataLinkOut := s.dataLinkOut ++ units }

theorem length_unitsFrom (size : Nat) (ws : List Word) : ∀ k, (unitsFrom k size ws).length = ws.length := by
  induction ws with
  | nil => intro k; rfl
  | cons w ws ih => intro k; rw [unitsFrom, List.length_cons, ih, List.length_cons]

/-- The words of an event from word `k` on go out one by one, and the return to IDLE is judged after the last. -/
theorem sendsEvent_from (size : Nat) (rest : List StreamWord) (ws : List Word) : ∀ (k : Nat) (s : State), ws ≠ [] →
    k + ws.length = size → s.router.hold = false → s.resetHeld = false → s.router.owed = none →
    s.router.buffer = markedFrom k size ws ++ rest → (0 < k → s.router.wordsSent = k) →
    ∃ t, execTimes .dataLinkUnitSend ws.length s = .next t ∧ ReturnJudged (eventSent size rest (unitsFrom k size ws) s) t := by
  induction ws with
  | nil => intro k s some; exact absurd rfl some
  | cons w ws ih =>
    intro k s _ total released up paid buffer before
    rw [List.length_cons] at total
    have runs := exec_dataLinkUnitSend_word released up paid buffer
    have sent : sentWith s ⟨w, decide (k = 0), decide (k + 1 = size)⟩ = k + 1 := by
      unfold sentWith
      by_cases first : k = 0
      · simp [first]
      · simp [first, before (Nat.pos_of_ne_zero first)]
    cases ws with
    | nil =>
      have last : k + 1 = size := total
      refine ⟨_, by rw [List.length_singleton, execTimes, runs]; rfl, ?_⟩
      have out : sendWord ⟨w, decide (k = 0), decide (k + 1 = size)⟩ rest s = eventSent size rest (unitsFrom k size [w]) s := by
        rw [sendWord, sent]
        simp only [emit, eventSent, unitsFrom, last, decide_true, if_true]
        rfl
      rw [← out]
      exact judgeDrain_judged _
    | cons w' ws =>
      have more : k + 1 ≠ size := by rw [← total, List.length_cons]; omega
      rw [judgeDrain_of_buffer (List.cons_ne_nil _ _)] at runs
      obtain ⟨t, times, judged⟩ := ih (k + 1) (sendWord ⟨w, decide (k = 0), decide (k + 1 = size)⟩ (markedFrom (k + 1) size (w' :: ws) ++ rest) s)
        (List.cons_ne_nil _ _) (by omega) released up paid rfl fun _ => sent
      refine ⟨t, by rw [List.length_cons, execTimes, runs]; exact times, ?_⟩
      have whole : eventSent size rest (unitsFrom (k + 1) size (w' :: ws))
          (sendWord ⟨w, decide (k = 0), decide (k + 1 = size)⟩ (markedFrom (k + 1) size (w' :: ws) ++ rest) s)
            = eventSent size rest (unitsFrom k size (w :: w' :: ws)) s := by
        simp only [sendWord, emit, eventSent, length_unitsFrom, decide_eq_false more, Bool.false_eq_true, if_false, List.append_assoc]
        rw [show unitsFrom k size (w :: w' :: ws) = ⟨decide (k = 0), some w, none⟩ :: unitsFrom (k + 1) size (w' :: ws) by
          rw [unitsFrom, if_neg more]]
        rfl
      rw [← whole]
      exact judged

/-- Settles O37: the words from the first on are the whole event. -/
theorem wholeEventOnTheDataLink : Obligations.WholeEventOnTheDataLink := by
  intro s ws rest released up paid some buffer
  obtain ⟨t, times, judged⟩ := sendsEvent_from ws.length rest ws 0 s some (Nat.zero_add _) released up paid buffer fun h => absurd h (lt_irrefl 0)
  rw [eventSent, length_unitsFrom] at judged
  exact ⟨t, times, judged⟩

end Sys2Proof.Machine
end

section
/-! PROOF. Frames on the command link (R175 to R180): framing, what the octets of a frame are read as, the framing tests, and what keeps a
command from being executed. -/

namespace Sys2Proof.Machine

open Sys2Proof.Safety

/-! ## Delimiters and rows -/

/-- How many pairs a CONFIGURE row applies at once; other rows apply none. -/
def upToOf : Instr → Nat
  | .configure (.frame _ _ upTo) => upTo
  | _ => 0

/-- A row that stands for a whole frame is an end delimiter with the frame built (R175, R177). -/
theorem exec_of_frameOf {c : Instr} {k : CommandKind} {tag : Tag} {body : List Word} (frame : frameOf c = some (k, tag, body)) (s : State) :
    exec c s = .next (endDelimiter (builtFrame k.code tag (upToOf c) body) s) := by
  cases c
  case configure op => cases op <;> cases frame <;> rfl
  all_goals cases frame <;> rfl

theorem endDelimiter_outside {s : State} (outside : s.cmd.framing ≠ .inFrame) (tests : State → State) : endDelimiter tests s = s :=
  if_neg outside

theorem endDelimiter_inside {s : State} (inside : s.cmd.framing = .inFrame) (tests : State → State) : endDelimiter tests s = completeFrame tests s :=
  if_pos inside

/-- The state in which a complete command frame has been counted, before its tests (R177). -/
def frameArrived (s : State) : State := { s with cmd.framing := .between, cmd.framesReceived := bump s.cmd.framesReceived }

/-- Tests that agree on the counted frame make the same of it. -/
theorem endDelimiter_congr {f g : State → State} {s : State}
    (same : f (frameArrived s) = g (frameArrived s)) : endDelimiter f s = endDelimiter g s := by
  rw [frameArrived] at same
  simp only [endDelimiter, completeFrame, same]

/-- Settles O38, by arrival and framing state. -/
theorem commandFramingFollowsArrivals : Obligations.CommandFramingFollowsArrivals := by
  intro s begun abandoned
  have start : ∀ c ∈ [Instr.commandFrameBegins, Instr.commandFrameAbandoned], exec c s = .next (commandStart s) := fun c mem => by
    simp only [List.mem_cons, List.not_mem_nil, or_false] at mem
    obtain rfl | rfl := mem
    · rfl
    · rfl
  refine ⟨fun c mem => ⟨fun h => ?_, fun h => ?_, fun h => ?_⟩, fun up h => ?_, fun h => ?_, fun h => ?_, fun h => ?_,
    fun outside => ⟨fun octets => ?_, fun c frame => ?_⟩⟩
  · rw [start c mem, commandStart, h]
  · rw [start c mem, commandStart, h]
    rfl
  · rw [start c mem, commandStart, h]
    rfl
  · exact congrArg Host.Outcome.next (if_pos ⟨up, h⟩)
  · refine congrArg Host.Outcome.next (if_neg ?_)
    rintro ⟨up, hunting⟩
    obtain held | aligned := h
    · rw [held] at up; cases up
    · exact aligned hunting
  · exact congrArg Host.Outcome.next (if_neg h)
  · exact congrArg Host.Outcome.next (if_pos h)
  · exact congrArg Host.Outcome.next (endDelimiter_outside outside _)
  · obtain ⟨⟨k, tag, body⟩, named⟩ := Option.isSome_iff_exists.1 frame
    rw [exec_of_frameOf named, endDelimiter_outside outside]

/-! ## What octets are read as -/

theorem exec_commandFrame (octets : List Octet) (s : State) : exec (.commandFrame octets) s = .next (endDelimiter (testOctets octets) s) := rfl

/-- Octets laid out word by word, with fewer than four octets behind them, are read as those words (R175, R177). -/
theorem testOctets_cons {h : Word} {ws : List Word} {more : List Octet} (few : more.length < 4) (s : State) :
    testOctets ((h :: ws).flatMap octetsOfWord ++ more) s =
      if more.length = 0 then testWords h ws s else refuseFrame .framing (headerKind h) (headerTag h) s := by
  have length : ((h :: ws).flatMap octetsOfWord ++ more).length % 4 = more.length := by
    rw [List.length_append, length_flatMap_octets]
    omega
  simp only [testOctets, wordsOfOctets_flatMap (h :: ws) more few, length]

/-- The octets of a frame laid out by the wire format pass the framing tests, and are read as its kind, tag and body (R177, R198). -/
theorem testOctets_frameOctets (kind : BitVec 8) (reserved : BitVec 4) (tag : Tag) {body : List Word} (fits : body.length ≤ 255)
    (high : BitVec 16) {mode : Bool} {s : State} (checked : s.cmd.frameChecked = mode) :
    testOctets (frameOctets kind reserved tag body mode high) s = passFrame kind tag body.length body s := by
  obtain ⟨kindField, tagField, lengthField⟩ := header_fields kind reserved tag body fits
  have read : ∀ ws, testOctets ((commandHeader kind reserved tag body :: ws).flatMap octetsOfWord) s
      = testWords (commandHeader kind reserved tag body) ws s := fun ws => by
    simpa using testOctets_cons (h := commandHeader kind reserved tag body) (ws := ws) (more := []) (by decide) s
  cases mode with
  | false =>
    refine (read body).trans ?_
    simp [testWords, kindField, tagField, lengthField, checked]
  | true =>
    have good : checkPasses (commandHeader kind reserved tag body :: (body ++ [high ++ crc (commandHeader kind reserved tag body :: body)])) = true := by
      refine (checkPasses_concat (commandHeader kind reserved tag body :: body) _).trans ?_
      rw [checkGood, extract_low, beq_self_eq_true]
    refine (read (body ++ [high ++ crc (commandHeader kind reserved tag body :: body)])).trans ?_
    simp [testWords, kindField, tagField, lengthField, checked, good]

theorem builtFrame_fits {body : List Word} (fits : body.length ≤ 255) (kind : BitVec 8) (tag : Tag) (upTo : Nat) (s : State) :
    builtFrame kind tag upTo body s = passFrame kind tag upTo body s := if_pos fits

/-- How many pairs are applied at once matters to CONFIGURE alone, and not to it when all of them are. -/
theorem passFrame_upTo {k : CommandKind} {body : List Word} {n m : Nat}
    (all : k = .configure → (pairsOf body).length ≤ n ∧ (pairsOf body).length ≤ m) (tag : Tag) (s : State) :
    passFrame k.code tag n body s = passFrame k.code tag m body s := by
  have runs : ∀ t, runCommand k n body t = runCommand k m body t := fun t => by
    cases k
    case configure => exact configureSteps_enough n m ⟨pairsOf body, 0, []⟩ t (all rfl).1 (all rfl).2
    case setTime | sourceControl | readCounters =>
      obtain _ | ⟨_, _ | _⟩ := body <;> rfl
    case softTrigger =>
      obtain _ | ⟨_, _ | ⟨_, _ | _⟩⟩ := body <;> rfl
    case inject =>
      obtain _ | _ := body <;> rfl
    all_goals rfl
  unfold passFrame
  cases s.cmd.outstanding with
  | some o => rfl
  | none => simp only [dispatch_kind, runs]

/-- Settles O39: both read the frame as the same kind, tag and body, and apply every pair. -/
theorem wholeFrameIsItsCommand : Obligations.WholeFrameIsItsCommand := by
  intro c k tag body reserved high s frame fits all
  refine ⟨_, rfl, ?_⟩
  rw [exec_of_frameOf frame]
  refine congrArg Host.Outcome.next (endDelimiter_congr ?_)
  refine (builtFrame_fits fits _ _ _ _).trans (Eq.trans ?_ (testOctets_frameOctets k.code reserved tag fits high (mode := s.cmd.frameChecked) (s := frameArrived s) rfl).symm)
  refine passFrame_upTo (fun isConfigure => ?_) tag _
  subst isConfigure
  obtain ⟨pairs, upTo, rfl, rfl⟩ : ∃ pairs upTo, c = .configure (.frame tag pairs upTo) ∧ body = pairWords pairs := by
    cases c
    case configure op =>
      cases op <;> cases frame
      exact ⟨_, _, rfl, rfl⟩
    all_goals cases frame
  rw [pairsOf_pairWords, length_pairWords]
  exact ⟨all, by omega⟩

/-! ## The framing tests (R177) -/

/-- A frame that fails a framing test, on a link whose reply queue has a place. -/
theorem endDelimiter_refuses {s : State} (inside : s.cmd.framing = .inFrame) (room : s.cmd.replies.length < 7) {st : Status} {kind : BitVec 8}
    {tag : Tag} {tests : State → State} (refuses : ∀ t, t.cmd.frameChecked = s.cmd.frameChecked → tests t = refuseFrame st kind tag t) :
    endDelimiter tests s = refusedWith st kind tag s := by
  have place : noPlace s = false := by
    simp only [noPlace, Config.replyCap, Bool.or_eq_false_iff, Bool.and_eq_false_iff, decide_eq_false_iff_not]
    exact ⟨by omega, .inr (by omega)⟩
  rw [endDelimiter_inside inside]
  refine (if_neg (Bool.eq_false_iff.1 place)).trans ?_
  exact refuses _ rfl

/-- Settles O40, test by test. -/
theorem framingTestsRefuse : Obligations.FramingTestsRefuse := by
  intro s inside room
  constructor
  · intro octets few
    refine congrArg Host.Outcome.next (endDelimiter_refuses inside room fun t _ => ?_)
    have none : wordsOfOctets octets = [] := wordsOfOctets_flatMap [] octets few
    rw [testOctets, none]
  intro h ws more kind tag n octets
  refine ⟨fun some few => ?_, fun other => ?_, fun checked body c last length bad => ?_⟩
  · refine congrArg Host.Outcome.next (endDelimiter_refuses inside room fun t _ => ?_)
    rw [testOctets_cons (by omega), if_neg (by omega)]
    rfl
  · refine congrArg Host.Outcome.next (endDelimiter_refuses inside room fun t mode => ?_)
    rw [← List.append_nil octets, testOctets_cons (by decide), if_pos List.length_nil, testWords, if_pos (by rw [mode]; exact other)]
    rfl
  · refine congrArg Host.Outcome.next (endDelimiter_refuses inside room fun t mode => ?_)
    have fails : checkPasses (h :: ws) = false := by
      rw [last]
      exact (checkPasses_concat (h :: body) c).trans bad
    have whole : ¬ws.length ≠ headerLength h + (if t.cmd.frameChecked then 1 else 0) := by
      rw [mode, checked, last, List.length_append, length]
      exact fun no => no rfl
    rw [← List.append_nil octets, testOctets_cons (by decide), if_pos List.length_nil, testWords, if_neg whole, mode, checked, fails]
    rfl

/-! ## Commands that are not executed (R178 to R180) -/

/-- A kind field that names no command (R180). -/
theorem ofCode_eq_none {kind : BitVec 8} (unknown : kind = 0 ∨ 0x12#8 < kind) : CommandKind.ofCode kind = none := by
  have named : ∀ k : CommandKind, k.code ≠ 0 ∧ k.code ≤ 0x12#8 := by
    intro k
    cases k <;> decide
  rw [CommandKind.ofCode, List.find?_eq_none]
  rintro k - same
  obtain rfl := eq_of_beq same
  obtain ⟨notZero, small⟩ := named k
  obtain zero | large := unknown
  · exact notZero zero
  · exact absurd large (BitVec.not_lt.2 small)

/-- For a body that fits a frame, the lengths that a kind admits are those of the wire format (R180). -/
theorem admits_iff (k : CommandKind) {n : Nat} (fits : n ≤ 255) : k.admits n = true ↔ bodyFits k n := by
  cases k <;> simp only [CommandKind.admits, bodyFits, decide_eq_true_eq, Bool.and_eq_true, Bool.or_eq_true] <;> omega

/-- A taken frame of any kind, octet by octet (R178, R180). -/
theorem commandFrame_taken {s : State} (ready : LinkReady s) {body : List Word} (fits : body.length ≤ 255) (kind : BitVec 8)
    (reserved : BitVec 4) (tag : Tag) (high : BitVec 16) :
    exec (.commandFrame (frameOctets kind reserved tag body s.cmd.frameChecked high)) s =
      .next (dispatch kind body.length body (takenAs kind tag s)) := by
  obtain ⟨inside, free, noConfigure, room⟩ := ready
  have place : noPlace s = false := by
    simp only [noPlace, Config.replyCap, noConfigure, Option.isSome_none, Bool.false_and, Bool.or_false, decide_eq_false_iff_not]
    omega
  rw [exec_commandFrame, endDelimiter_inside inside]
  refine congrArg Host.Outcome.next ((if_neg (Bool.eq_false_iff.1 place)).trans ?_)
  refine (testOctets_frameOctets kind reserved tag fits high (mode := s.cmd.frameChecked) (s := frameArrived s) rfl).trans ?_
  simp only [passFrame, show (frameArrived s).cmd.outstanding = none from free]
  rfl

theorem buildReply_takenAs (st : Status) (kind : BitVec 8) (tag : Tag) (s : State) :
    buildReply st [] (takenAs kind tag s) = answeredAs kind tag s.cmd.frameChecked st [] (takenAs kind tag s) := rfl

theorem servedInInit_eq_false {k : CommandKind} (identify : k ≠ .identify) (status : k ≠ .status) : k.servedInInit = false := by
  cases k
  case identify => exact absurd rfl identify
  case status => exact absurd rfl status
  all_goals rfl

/-- Settles O41: the checks in the order of R178 to R180. -/
theorem commandsNotExecuted : Obligations.CommandsNotExecuted := by
  constructor
  · intro c k tag body s frame fits inside full
    have place : noPlace s = true ↔ full := by
      simp [noPlace, Config.replyCap, full]
    refine ⟨fun isFull => ?_, fun notFull busy => ?_, fun notFull free init identify status => ?_, fun d mem ready => ?_⟩
    · rw [exec_of_frameOf frame, endDelimiter_inside inside]
      exact congrArg Host.Outcome.next (if_pos (place.2 isFull))
    · obtain ⟨o, outstanding⟩ := Option.isSome_iff_exists.1 busy
      rw [exec_of_frameOf frame, endDelimiter_inside inside]
      refine congrArg Host.Outcome.next ((if_neg fun h => notFull (place.1 h)).trans ?_)
      rw [builtFrame_fits fits, passFrame]
      simp only [outstanding]
      rfl
    · rw [exec_of_frameOf frame, endDelimiter_inside inside]
      refine congrArg Host.Outcome.next ((if_neg fun h => notFull (place.1 h)).trans ?_)
      rw [builtFrame_fits fits, passFrame]
      simp only [free]
      refine (dispatch_kind k _ _ _).trans ((if_pos ⟨init, servedInInit_eq_false identify status⟩).trans ?_)
      rfl
    · simp only [List.mem_cons, List.not_mem_nil, or_false] at mem
      obtain rfl | rfl := mem
      · rw [if_pos rfl]
        exact ⟨_, congrArg Host.Outcome.next ((commandArrives_runs ready (.inr rfl) (Nat.zero_le _) rfl).trans (finish_taken rfl rfl))⟩
      · rw [if_neg (by simp)]
        exact ⟨_, congrArg Host.Outcome.next ((commandArrives_runs ready (.inr rfl) (Nat.zero_le _) rfl).trans (finish_taken rfl rfl))⟩
  · intro kind reserved tag body high s ready fits arrives refused
    have taken : arrives = .next (dispatch kind body.length body (takenAs kind tag s)) := commandFrame_taken ready fits kind reserved tag high
    refine ⟨fun unknown => ?_, fun k named => ⟨fun init identify status => ?_, fun served misfit => ?_⟩⟩
    · rw [taken, dispatch, ofCode_eq_none unknown]
      rfl
    · subst named
      rw [taken, dispatch_kind, if_pos ⟨init, servedInInit_eq_false identify status⟩]
      rfl
    · subst named
      have here : ¬((takenAs k.code tag s).run = .init ∧ k.servedInInit = false) := by
        rintro ⟨init, unserved⟩
        obtain running | rfl | rfl := served
        · exact running init
        · cases unserved
        · cases unserved
      rw [taken, dispatch_kind, if_neg here, if_neg fun h => misfit ((admits_iff k fits).1 h)]
      rfl

end Sys2Proof.Machine
end

section
/-! PROOF. The commands that act (R6, R18, R40, R50, R100, R101, R115, R170, R182 to R184, R195): SOFT_TRIGGER, SET_TIME, START, STOP, ABORT,
SOURCE_CONTROL and CLEAR_CONDITIONS. -/

namespace Sys2Proof.Machine

open Sys2Proof.Safety

/-- The reply of a command: no command touches the outstanding command before its reply is built. -/
theorem finish_done {k : CommandKind} {tag : Tag} {s : State} {d : Done} (events : Events (takenBy k tag s) d.1) :
    finish d = answered k tag s.cmd.frameChecked d.2.1 d.2.2 d.1 := finish_answered k tag s d (events_link events).outstanding

/-! ## SOFT_TRIGGER (R18) -/

theorem exec_softTrigger {s : State} (tag : Tag) (cls : Word) (stamp : Option Word) (ready : LinkReady s) (notInit : s.run ≠ .init) :
    let d := cmdSoftTrigger cls stamp (takenBy .softTrigger tag s)
    exec (.softTrigger tag cls stamp) s = .next (answered .softTrigger tag s.cmd.frameChecked d.2.1 d.2.2 d.1) := by
  intro d
  rw [← finish_done (events_cmdSoftTrigger cls stamp _)]
  cases stamp with
  | none => exact congrArg Host.Outcome.next (commandArrives_runs ready (.inl notInit) (by simp) rfl)
  | some w => exact congrArg Host.Outcome.next (commandArrives_runs ready (.inl notInit) (by simp) rfl)

theorem any_map_iff {α β : Type} (o : Option α) (f : α → β) (p : β → Bool) : (o.map f).any p = true ↔ ∃ a, o = some a ∧ p (f a) = true := by
  cases o <;> simp

/-- The stamp checks of a soft trigger, for its own stamp (R18). -/
theorem softStampBad_iff (s : State) (t : Stamp) : softStampBad s t = true ↔
    after s.settings.ol t s.time.now = true ∨ ∃ l, s.intake.lastAccepted = some l ∧ before s.settings.ol t l = true := by
  unfold softStampBad
  cases s.intake.lastAccepted <;> simp [now]

/-- Settles O12, check by check. -/
theorem softTriggerChecksAndReply : Obligations.SoftTriggerChecksAndReply := by
  intro s tag cls stamp ready notInit u reply badStamp tooLate tooEarly
  have runs : exec (.softTrigger tag cls stamp) s = .next (reply (cmdSoftTrigger cls stamp u).2.1 (cmdSoftTrigger cls stamp u).2.2
      (cmdSoftTrigger cls stamp u).1) := exec_softTrigger tag cls stamp ready notInit
  have malformed : (7 < cls.toNat ∨ ((stamp.map wordStamp).any fun t => decide (u.settings.ol ≤ t.bc)) = true) ↔ 8 ≤ cls.toNat ∨ badStamp := by
    rw [any_map_iff]
    simp only [decide_eq_true_eq]
    rfl
  have untimely : (stamp.map wordStamp).any (softStampBad u) = true ↔ tooLate ∨ tooEarly := by
    rw [any_map_iff]
    simp only [softStampBad_iff]
    constructor
    · rintro ⟨w, given, late | ⟨l, last, early⟩⟩
      · exact .inl ⟨w, given, late⟩
      · exact .inr ⟨w, l, given, last, early⟩
    · rintro (⟨w, given, late⟩ | ⟨w, l, given, last, early⟩)
      · exact ⟨w, given, .inl late⟩
      · exact ⟨w, given, .inr ⟨l, last, early⟩⟩
  refine ⟨fun bad => ?_, fun small good notRunning => ?_, fun small good running bad => ?_, fun small good running late early => ?_⟩
  · rw [runs, cmdSoftTrigger, if_pos (malformed.2 bad)]
  · have passes := fun h => (malformed.1 h).elim (Nat.not_le.2 small) good
    rw [runs, cmdSoftTrigger, if_neg passes, if_pos (show u.run ≠ .running from notRunning)]
    rfl
  · have passes := fun h => (malformed.1 h).elim (Nat.not_le.2 small) good
    rw [runs, cmdSoftTrigger, if_neg passes, if_neg (not_not.2 (show u.run = .running from running)), if_pos (untimely.2 bad)]
  · intro x out
    have passes := fun h => (malformed.1 h).elim (Nat.not_le.2 small) good
    have given : (stamp.map wordStamp).getD (now u) = x := by cases stamp <;> rfl
    rw [runs, cmdSoftTrigger, if_neg passes, if_neg (not_not.2 (show u.run = .running from running)),
      if_neg fun h => (untimely.1 h).elim late early, given]
    rfl

/-! ## SET_TIME (R6) -/

/-- Settles O48, by run state. -/
theorem setTimeInIdle : Obligations.SetTimeInIdle := by
  intro s tag n ready u reply
  have runs : s.run ≠ .init → exec (.setTime tag n) s = .next (reply (cmdSetTime n u).2.1 (cmdSetTime n u).2.2 (cmdSetTime n u).1) :=
    fun notInit => congrArg Host.Outcome.next
      ((commandArrives_runs ready (.inl notInit) (by simp) rfl).trans (finish_done (events_cmdSetTime n u)))
  refine ⟨fun idle small => ?_, fun idle large => ?_, fun inRun => ?_, fun init => ?_⟩
  · rw [runs (by rw [idle]; decide), cmdSetTime, if_neg (not_not.2 (show u.run = .idle from idle)),
      if_pos (show n.toNat < Config.orbits from Nat.lt_succ_of_le small)]
  · rw [runs (by rw [idle]; decide), cmdSetTime, if_neg (not_not.2 (show u.run = .idle from idle)),
      if_neg (show ¬n.toNat < Config.orbits from Nat.not_lt.2 large)]
  · have notIdle : u.run ≠ .idle := by
      obtain running | draining := inRun
      · exact fun h => by rw [show u.run = s.run from rfl, running] at h; cases h
      · exact fun h => by rw [show u.run = s.run from rfl, draining] at h; cases h
    have notInit : s.run ≠ .init := by
      obtain running | draining := inRun
      · rw [running]; decide
      · rw [draining]; decide
    rw [runs notInit, cmdSetTime, if_pos notIdle]
  · exact congrArg Host.Outcome.next (commandArrives_init ready init rfl (by simp))

/-! ## START (R182) -/

theorem exec_start {s : State} (tag : Tag) (ready : LinkReady s) (notInit : s.run ≠ .init) :
    exec (.start tag) s = .next (answered .start tag s.cmd.frameChecked (cmdStart (takenBy .start tag s)).2.1 (cmdStart (takenBy .start tag s)).2.2
      (cmdStart (takenBy .start tag s)).1) :=
  congrArg Host.Outcome.next ((commandArrives_runs ready (.inl notInit) (by simp) rfl).trans (finish_done (events_cmdStart _)))

/-- Settles O49, by run state. -/
theorem startGivesRunValues : Obligations.StartGivesRunValues := by
  intro s tag ready
  let u := takenBy .start tag s
  refine ⟨fun idle => ⟨startRun u, ?_, ?_, poolEntry_startRun u, fun i => source_startRun u i⟩, fun inRun => ?_⟩
  · rw [exec_start tag ready (by rw [idle]; decide), cmdStart, if_pos (show u.run = .idle from idle)]
  · obtain ⟨-, -, noConfigure, -⟩ := ready
    have link : u.cmd.clearCounters = { CommandLink.default with
        framing := .between, aligned := s.cmd.aligned, frameChecked := s.cmd.frameChecked
        outstanding := some ⟨6#8, tag, s.cmd.frameChecked⟩, replies := s.cmd.replies } := by
      simp only [u, takenBy, takenAs, CommandLink.clearCounters, noConfigure]
      rfl
    rw [startRun, link]
    rfl
  · have notIdle : ¬u.run = .idle ∧ s.run ≠ .init := by
      obtain running | draining := inRun
      · rw [show u.run = s.run from rfl, running]; decide
      · rw [show u.run = s.run from rfl, draining]; decide
    rw [exec_start tag ready notIdle.2, cmdStart, if_neg notIdle.1]

/-! ## STOP and ABORT (R183, R184) -/

theorem exec_stop {s : State} (tag : Tag) (ready : LinkReady s) (notInit : s.run ≠ .init) :
    exec (.stop tag) s = .next (answered .stop tag s.cmd.frameChecked (cmdStop (takenBy .stop tag s)).2.1 (cmdStop (takenBy .stop tag s)).2.2
      (cmdStop (takenBy .stop tag s)).1) :=
  congrArg Host.Outcome.next ((commandArrives_runs ready (.inl notInit) (by simp) rfl).trans (finish_done (events_cmdStop _)))

theorem exec_abort {s : State} (tag : Tag) (ready : LinkReady s) (notInit : s.run ≠ .init) :
    exec (.abort tag) s = .next (answered .abort tag s.cmd.frameChecked (cmdAbort (takenBy .abort tag s)).2.1 (cmdAbort (takenBy .abort tag s)).2.2
      (cmdAbort (takenBy .abort tag s)).1) :=
  congrArg Host.Outcome.next ((commandArrives_runs ready (.inl notInit) (by simp) rfl).trans (finish_done (events_cmdAbort _)))

/-- A STOP that the drain conditions do not meet at once (R183). -/
theorem stopRun_drains {s : State} (busy : s.table.order ≠ [] ∨ s.builder.job ≠ none ∨ s.router.buffer ≠ []) :
    stopRun s = { s with run := .draining } := by
  refine if_neg ?_
  rintro ⟨-, drained⟩
  simp only [Machine.drained, Bool.and_eq_true, List.isEmpty_iff, Option.isNone_iff_eq_none] at drained
  obtain ⟨⟨order, job⟩, buffer⟩ := drained
  exact busy.elim (fun h => h order) fun h => h.elim (fun h => h job) fun h => h buffer

/-- What ABORT leaves, over the stream side, the release and the claim pass it ends (R184). -/
theorem emptied_abortRun (s : State) : Emptied { s with
    intake.lastAccepted := none
    builder.job := none
    builder.aborted := if s.builder.job = none then s.builder.aborted else bump s.builder.aborted
    router := { s.router with
      buffer := []
      inEvent := false
      wordsSent := 0
      owed := if s.router.inEvent then some s.router.wordsSent else s.router.owed
      streamEventsAborted :=
        if s.router.inEvent then bump s.router.streamEventsAborted else s.router.streamEventsAborted }
    table.claimPassesStopped :=
      if s.table.scanned = none then s.table.claimPassesStopped else bump s.table.claimPassesStopped } (abortRun s) := by
  rw [abortRun_eq]
  exact ⟨rfl, poolEntry_freePool (emptyStaging s), source_emptyStaging s, context_freeTable (freePool (emptyStaging s))⟩

/-- Settles O50, by run state. -/
theorem stopAndAbortEndTheRun : Obligations.StopAndAbortEndTheRun := by
  intro s tag ready
  let u := takenBy .stop tag s
  refine ⟨fun running busy => ?_, fun running order job buffer => ?_, fun elsewhere => ?_, fun inRun => ?_, fun idle => ?_⟩
  · rw [exec_stop tag ready (by rw [running]; decide), cmdStop, if_pos (show u.run = .running from running), stopRun_drains (s := u) busy]
  · have judged := judgeDrain_judged { u with run := .draining }
    refine ⟨stopRun u, ?_, ?_⟩
    · rw [exec_stop tag ready (by rw [running]; decide), cmdStop, if_pos (show u.run = .running from running)]
    · rw [ReturnJudged, if_pos ⟨rfl, order, job, buffer⟩] at judged
      exact judged
  · have other : ¬u.run = .running ∧ s.run ≠ .init := by
      obtain idle | draining := elsewhere
      · rw [show u.run = s.run from rfl, idle]; decide
      · rw [show u.run = s.run from rfl, draining]; decide
    rw [exec_stop tag ready other.2, cmdStop, if_neg other.1]
  · have notInit : s.run ≠ .init := by
      obtain running | draining := inRun
      · rw [running]; decide
      · rw [draining]; decide
    refine ⟨abortRun (takenBy .abort tag s), ?_, emptied_abortRun _⟩
    rw [exec_abort tag ready notInit, cmdAbort, if_pos (inRun_eq_true (s := takenBy .abort tag s) inRun)]
  · have outside : ¬Machine.inRun (takenBy .abort tag s) = true := by
      rw [inRun_iff]
      simp [idle]
    rw [exec_abort tag ready (by rw [idle]; decide), cmdAbort, if_neg outside]

/-! ## SOURCE_CONTROL (R195) -/

/-- The fields of a SOURCE_CONTROL word (R198). -/
theorem sourceControlWord_fields (mode action src : BitVec 8) :
    (sourceControlWord mode action src).extractLsb' 16 8 = mode ∧ (sourceControlWord mode action src).extractLsb' 8 8 = action
      ∧ (sourceControlWord mode action src).extractLsb' 0 8 = src := (extract_four (0#8) mode action src).2

theorem cmdSourceControl_enable (src : BitVec 8) (s : State) : cmdSourceControl (sourceControlWord 0 0 src) s = onSource src.toNat enableSource s := by
  obtain ⟨-, action, field⟩ := sourceControlWord_fields 0 0 src
  rw [cmdSourceControl, action, field]
  rfl

theorem cmdSourceControl_disable (src : BitVec 8) (s : State) : cmdSourceControl (sourceControlWord 0 1 src) s = onSource src.toNat disableSource s := by
  obtain ⟨-, action, field⟩ := sourceControlWord_fields 0 1 src
  rw [cmdSourceControl, action, field]
  rfl

theorem cmdSourceControl_reset (src : BitVec 8) (s : State) : cmdSourceControl (sourceControlWord 0 2 src) s = onSource src.toNat resetSource s := by
  obtain ⟨-, action, field⟩ := sourceControlWord_fields 0 2 src
  rw [cmdSourceControl, action, field]
  rfl

theorem cmdSourceControl_setMode (mode src : BitVec 8) (s : State) :
    cmdSourceControl (sourceControlWord mode 3 src) s = cmdSetMode src.toNat mode.toNat s := by
  obtain ⟨modeField, action, field⟩ := sourceControlWord_fields mode 3 src
  rw [cmdSourceControl, action, field, modeField]
  rfl

/-- An action above 3 (R195). -/
theorem cmdSourceControl_unknown {w : Word} (unknown : 4 ≤ (w.extractLsb' 8 8).toNat) (s : State) : cmdSourceControl w s = (s, .badValue, []) := by
  obtain ⟨k, above⟩ := Nat.exists_eq_add_of_le' unknown
  rw [cmdSourceControl, above]
  rfl

/-- A mode above 1 (R195). -/
theorem cmdSetMode_unknown {mode : Nat} (unknown : 2 ≤ mode) (n : Nat) (s : State) : cmdSetMode n mode s = (s, .badValue, []) := by
  obtain ⟨k, rfl⟩ := Nat.exists_eq_add_of_le' unknown
  rfl

/-- A source outside 0..23 (R195). -/
theorem onSource_outside {n : Nat} (outside : 24 ≤ n) (act : Fin 24 → State → State) (s : State) : onSource n act s = (s, .badValue, []) := by
  have none : sourceOf n = none := dif_neg (Nat.not_lt.2 outside)
  rw [onSource, none]

theorem cmdSetMode_outside {n : Nat} (outside : 24 ≤ n) (mode : Nat) (s : State) : cmdSetMode n mode s = (s, .badValue, []) := by
  unfold cmdSetMode
  split
  · exact onSource_outside outside _ s
  · exact onSource_outside outside _ s
  · rfl

theorem onSource_fin (i : Fin 24) (act : Fin 24 → State → State) (s : State) :
    onSource (BitVec.ofNat 8 i.val).toNat act s = (act i s, .ok, sourceReply (source (act i s) i)) := by
  have field : (BitVec.ofNat 8 i.val).toNat = i.val := Nat.mod_eq_of_lt (by omega)
  have found : sourceOf i.val = some i := dif_pos i.isLt
  rw [field, onSource, found]
  rfl

theorem exec_sourceControl {s : State} {tag : Tag} {w : Word} {d : Done} (ready : LinkReady s) (notInit : s.run ≠ .init)
    (done : cmdSourceControl w (takenBy .sourceControl tag s) = d) :
    commandArrives .sourceControl tag [w] s = answered .sourceControl tag s.cmd.frameChecked d.2.1 d.2.2 d.1 := by
  subst done
  exact (commandArrives_runs ready (.inl notInit) (by simp) rfl).trans (finish_done (events_cmdSourceControl w _))

theorem num_mode_code (m : SourceMode) : num m.code = if m = .link then 0 else 1 := by cases m <;> rfl

/-- Settles O51, action by action. -/
theorem sourceControlActions : Obligations.SourceControlActions := by
  intro s tag i ready notInit u x n hunt done restarted
  have acts : ∀ {w : Word} {act : Fin 24 → State → State} {v : State}, cmdSourceControl w u = onSource n.toNat act u → act i u = v →
      (.next (commandArrives .sourceControl tag [w] s) : Host.Outcome State Fault Refusal) = done v := fun {w act v} runs leaves => by
    subst leaves
    rw [exec_sourceControl ready notInit (runs.trans (onSource_fin i act u)), sourceReply, num_mode_code]
  have refused : ∀ {w : Word}, cmdSourceControl w u = (u, .badValue, []) →
      commandArrives .sourceControl tag [w] s = answered .sourceControl tag s.cmd.frameChecked .badValue [] u :=
    fun runs => exec_sourceControl ready notInit runs
  have setMode : ∀ {mode : BitVec 8} {m : SourceMode} {v : State}, cmdSetMode n.toNat mode.toNat u = onSource n.toNat (fun i => setSourceMode i m) u →
      setSourceMode i m u = v → exec (.sourceControlSetMode tag n mode) s = done v := fun {mode m v} names leaves =>
    acts (act := fun i => setSourceMode i m) ((cmdSourceControl_setMode mode n u).trans names) leaves
  have hunts : Machine.hunt x.aligned = hunt := rfl
  refine ⟨fun disabled => acts (cmdSourceControl_enable n u) ?_, fun enabled => acts (cmdSourceControl_enable n u) ?_,
    fun enabled => acts (cmdSourceControl_disable n u) ?_, fun disabled => acts (cmdSourceControl_disable n u) ?_,
    acts (cmdSourceControl_reset n u) rfl, fun link => setMode rfl ?_, fun inject => setMode rfl ?_, fun inject => setMode rfl ?_,
    fun link => setMode rfl ?_, fun src mode => ⟨fun outside c mem => ?_, fun unknown => ?_, fun w reserved high unknown => ?_⟩⟩
  · refine (if_pos disabled).trans ?_
    rw [modSource_modSource]
    rfl
  · exact if_neg enabled
  · exact if_neg enabled
  · exact if_pos disabled
  · exact if_pos link
  · exact if_neg (show ¬x.mode = .link by rw [inject]; decide)
  · exact if_pos inject
  · exact if_neg (show ¬x.mode = .inject by rw [link]; decide)
  · simp only [List.mem_cons, List.not_mem_nil, or_false] at mem
    obtain rfl | rfl | rfl | rfl := mem
    · exact congrArg Host.Outcome.next (refused ((cmdSourceControl_enable src u).trans (onSource_outside outside _ u)))
    · exact congrArg Host.Outcome.next (refused ((cmdSourceControl_disable src u).trans (onSource_outside outside _ u)))
    · exact congrArg Host.Outcome.next (refused ((cmdSourceControl_reset src u).trans (onSource_outside outside _ u)))
    · exact congrArg Host.Outcome.next (refused ((cmdSourceControl_setMode mode src u).trans (cmdSetMode_outside outside _ u)))
  · exact congrArg Host.Outcome.next (refused ((cmdSourceControl_setMode mode src u).trans (cmdSetMode_unknown unknown _ u)))
  · have here : ¬(u.run = .init ∧ CommandKind.sourceControl.servedInInit = false) := fun h => notInit h.1
    rw [commandFrame_taken ready (body := [w]) (by simp)]
    refine congrArg Host.Outcome.next ((dispatch_kind .sourceControl 1 [w] u).trans ((if_neg here).trans ((if_pos rfl).trans ?_)))
    show finish (cmdSourceControl w u) = _
    rw [cmdSourceControl_unknown unknown]
    exact finish_taken rfl rfl

/-! ## CLEAR_CONDITIONS (R170) -/

theorem getLsbD_codeSet (codes : List Word) (small : ∀ w ∈ codes, w.toNat ≤ 16) {k : Nat} (low : k < 17) :
    (codeSet codes).getLsbD k = codes.any fun w => decide (w.toNat = k) := by
  have fold : ∀ (l : List Word) (b : BitVec 17), (l.foldl (fun b k => b ||| codeBit k.toNat) b).getLsbD k
      = (b.getLsbD k || l.any fun w => decide (w.toNat = k)) := by
    intro l
    induction l with
    | nil => intro b; simp
    | cons w l ih =>
      intro b
      rw [List.foldl_cons, ih, BitVec.getLsbD_or, List.any_cons, Bool.or_assoc, codeBit, BitVec.getLsbD_twoPow]
      congr 2
      by_cases same : w.toNat = k
      · simp [same, low]
      · simp [same]
  rw [codeSet, fold]
  simp

/-- Settles O52: the codes named are the bits that leave. -/
theorem clearConditionsClearsNamed : Obligations.ClearConditionsClearsNamed := by
  intro s tag codes ready fits
  let u := takenBy .clearConditions tag s
  have runs : s.run ≠ .init → exec (.clearConditions tag codes) s = .next (answered .clearConditions tag s.cmd.frameChecked
      (cmdClearConditions codes u).2.1 (cmdClearConditions codes u).2.2 (cmdClearConditions codes u).1) := fun notInit =>
    congrArg Host.Outcome.next ((commandArrives_runs ready (.inl notInit) fits rfl).trans (finish_done (events_cmdClearConditions codes u)))
  have test : (codes.all fun k => decide (1 ≤ k.toNat) && decide (k.toNat ≤ 16)) = true ↔ ∀ k ∈ codes, 1 ≤ k.toNat ∧ k.toNat ≤ 16 := by
    simp
  refine ⟨fun init => congrArg Host.Outcome.next (commandArrives_init ready init rfl fits), fun notInit named => ?_, fun notInit ⟨k, mem, bad⟩ => ?_⟩
  · refine ⟨{ u with latched := u.latched &&& ~~~(codeSet codes) }, ?_, rfl, fun k low => ?_⟩
    · rw [runs notInit, cmdClearConditions, if_pos (test.2 named)]
      rfl
    · rw [BitVec.getLsbD_and, BitVec.getLsbD_not, getLsbD_codeSet codes (fun w mem => (named w mem).2) low]
      simp [low, u]
  · have fails : ¬(codes.all fun k => decide (1 ≤ k.toNat) && decide (k.toNat ≤ 16)) = true := fun h => by
      obtain ⟨low, high⟩ := test.1 h k mem
      omega
    rw [runs notInit, cmdClearConditions, if_neg fails]

end Sys2Proof.Machine
end

section
/-! PROOF. The lines, the replies and the commands that read or take from a queue (R27, R139, R144 to R146, R160, R166, R168, R173, R178 to
R181, R185, R192 to R194). -/

namespace Sys2Proof.Machine

open Sys2Proof.Safety

/-! ## Lines and summary word -/

theorem getLsbD_flagsIf_codeBit (p : Bool) (c : Nat) {k : Nat} (low : k ≤ 16) :
    (flagsIf p (codeBit c)).getLsbD k = (decide (k = c) && p) := by
  have inside : k < 17 := Nat.lt_succ_of_le low
  cases p with
  | false => simp [flagsIf]
  | true => simp [flagsIf, codeBit, BitVec.getLsbD_twoPow, inside, eq_comm]

theorem highest_le (s : State) : highest s ≤ 16 := by
  obtain ⟨zero | ⟨mem, -⟩, -⟩ := highestAmong_highest s
  · rw [zero]; exact Nat.zero_le _
  · exact (mem_allCodes.1 mem).2

theorem toNat_ofBool_eq_one (b : Bool) : (BitVec.ofBool b).toNat = 1 ↔ b = true := by cases b <;> decide

/-- The fields of the summary word (R173). -/
theorem summaryWord_fields (s : State) :
    (summaryWord s).extractLsb' 30 2 = s.run.code ∧ (summaryWord s).extractLsb' 29 1 = BitVec.ofBool (alert s)
      ∧ (summaryWord s).extractLsb' 28 1 = BitVec.ofBool (ready s) ∧ (summaryWord s).extractLsb' 27 1 = BitVec.ofBool (busy s)
      ∧ (summaryWord s).extractLsb' 5 22 = 0#22 ∧ (summaryWord s).extractLsb' 0 5 = BitVec.ofNat 5 (highest s) := by
  obtain ⟨lines, busyBit, zeros, code⟩ := extract_four (s.run.code ++ BitVec.ofBool (alert s) ++ BitVec.ofBool (ready s))
    (BitVec.ofBool (busy s)) (0#22) (BitVec.ofNat 5 (highest s))
  obtain ⟨run, alertBit, readyBit⟩ := extract_three s.run.code (BitVec.ofBool (alert s)) (BitVec.ofBool (ready s))
  have above : ∀ j w, (summaryWord s).extractLsb' (28 + j) w
      = (s.run.code ++ BitVec.ofBool (alert s) ++ BitVec.ofBool (ready s)).extractLsb' j w := fun j w => by
    rw [summaryWord, extract_high _ _ (j := 23 + j) (by omega), extract_high _ _ (j := 1 + j) (by omega), extract_high _ _ rfl]
  exact ⟨(above 2 2).trans run, (above 1 1).trans alertBit, (above 0 1).trans readyBit, busyBit, zeros, code⟩

/-- Settles O45, line by line. -/
theorem linesFollowTheState : Obligations.LinesFollowTheState := by
  intro s
  obtain ⟨run, alertBit, readyBit, busyBit, zeros, code⟩ := summaryWord_fields s
  refine ⟨?_, ?_, ?_, fun k low => ?_, ?_, ?_, ?_, ?_, ?_, toNat_field_zero zeros, toNat_field code (by have := highest_le s; omega)⟩
  · simp [busy, freeSlots, or_assoc]
  · simp [ready]
  · unfold streamHeld
    cases s.builder.job with
    | none => simp
    | some j => simp [Config.streamCap, and_assoc]
  · simp only [pendingSet, BitVec.getLsbD_or, getLsbD_flagsIf_codeBit _ _ low, codeReady, codeBusy, codeStreamHeld]
  · simp only [alert, List.any_eq_true, mem_allCodes, Bool.and_eq_true, decide_eq_true_eq, and_assoc]
  · rw [show field [summaryWord s] 0 30 2 = s.run.code.toNat from congrArg BitVec.toNat run]
    cases s.run <;> rfl
  · rw [show field [summaryWord s] 0 29 1 = _ from congrArg BitVec.toNat alertBit]
    exact toNat_ofBool_eq_one _
  · rw [show field [summaryWord s] 0 28 1 = _ from congrArg BitVec.toNat readyBit]
    exact toNat_ofBool_eq_one _
  · rw [show field [summaryWord s] 0 27 1 = _ from congrArg BitVec.toNat busyBit]
    exact toNat_ofBool_eq_one _

/-! ## Replies (R178 to R181, R185) -/

theorem length_content (r : Reply) : r.content.length = 2 + r.body.length := by
  simp only [Reply.content, List.length_cons]
  omega

theorem words_checked {r : Reply} (checked : r.checked = true) : r.words = r.content ++ [checkWord r.content] := by
  rw [Reply.words, if_pos checked]

/-- A reply's words begin with its content, whatever the check mode. -/
theorem take_words (r : Reply) : r.words.take (2 + r.body.length) = r.content := by
  rw [← length_content, Reply.words]
  split
  · exact List.take_left
  · exact List.take_length

theorem words_cons (r : Reply) : ∃ more, r.words = (r.kind ++ r.status.code ++ r.tag ++ BitVec.ofNat 8 r.body.length : Word) :: r.summary :: more := by
  rw [Reply.words]
  split
  · exact ⟨_, rfl⟩
  · exact ⟨_, rfl⟩

theorem getElem?_statuses (st : Status) : [Status.ok, .badKind, .badValue, .wrongState, .empty, .busyInit, .notReady, .framing, .badLength,
    .crcBad][st.code.toNat]? = some st := by
  cases st <;> rfl

theorem exec_replySent {s : State} {r : Reply} {rest : List Reply} (up : s.resetHeld = false) (head : s.cmd.replies = r :: rest) :
    exec .replySent s = .next (if r.resets then resetByCommand (sendReply r rest s) else sendReply r rest s) := by
  show execReplySent s = _
  simp only [execReplySent, up, Bool.false_eq_true, if_false, head]

theorem resets_iff (r : Reply) : r.resets = true ↔ r.taken = true ∧ r.kind = 9#8 ∧ r.status = .ok := by
  simp [Reply.resets, CommandKind.code, and_assoc]

/-- Settles O42: the words field by field, then what the sending does. -/
theorem replySentAndReset : Obligations.ReplySentAndReset := by
  constructor
  · intro r fits plain
    obtain ⟨more, words⟩ := words_cons r
    obtain ⟨kind, status, tag, length⟩ := extract_four r.kind r.status.code r.tag (BitVec.ofNat 8 r.body.length)
    have header : ∀ low width, field r.words 0 low width
        = ((r.kind ++ r.status.code ++ r.tag ++ BitVec.ofNat 8 r.body.length : Word).extractLsb' low width).toNat := fun low width => by
      rw [words]; rfl
    have content : plain = r.content := take_words r
    refine ⟨?_, ?_, ?_, ?_, ?_, by rw [words]; rfl, by rw [content]; rfl, fun checked => ?_⟩
    · rw [← length_content, Reply.words]
      cases r.checked with
      | true => simp
      | false => simp
    · rw [header]; exact congrArg BitVec.toNat kind
    · rw [header]; exact congrArg BitVec.toNat tag
    · rw [header]; exact toNat_field length (by omega)
    · rw [header, show ((r.kind ++ r.status.code ++ r.tag ++ BitVec.ofNat 8 r.body.length : Word).extractLsb' 20 4).toNat = _ from
        congrArg BitVec.toNat status]
      exact getElem?_statuses r.status
    · obtain ⟨zeros, check⟩ := extract_two (0#16) (crc r.content)
      have last : r.words.getD (2 + r.body.length) 0 = checkWord r.content := by
        rw [words_checked checked, ← length_content, List.getD_append_right _ _ _ _ le_rfl, Nat.sub_self]
        rfl
      rw [field, field, last, content]
      exact ⟨toNat_field_zero zeros, congrArg BitVec.toNat check⟩
  · intro s
    refine ⟨fun silent => ?_, fun r rest up head => ⟨fun ordinary => ?_, fun taken kind status => ?_⟩, fun tag ready notInit => ?_⟩
    · show execReplySent s = _
      obtain held | empty := silent
      · simp only [execReplySent, held, if_true]
      · simp only [execReplySent, empty, ite_self]
    · rw [exec_replySent up head, if_neg fun h => ordinary ((resets_iff r).1 h)]
      rfl
    · refine ⟨resetByCommand (sendReply r rest s), by rw [exec_replySent up head, if_pos ((resets_iff r).2 ⟨taken, kind, status⟩)], rfl, rfl, rfl,
        rfl, rfl, rfl, rfl, rfl,
        fun e => congrArg PoolEntry.refCount (poolEntry_resetValues (sendReply r rest s) e), rfl, rfl, rfl, rfl, rfl, rfl, fun i => ?_, rfl, rfl, rfl⟩
      rw [resetByCommand, source_leaveReset, source_resetValues]
      rfl
    · exact congrArg Host.Outcome.next ((commandArrives_runs ready (.inl notInit) (by simp) rfl).trans (finish_taken rfl rfl))

/-! ## The reading commands (R192 to R194) -/

theorem linkStateCode_eq (s : State) : linkStateCode s = if s.router.owed ≠ none then 2 else if s.router.inEvent then 1 else 0 := by
  unfold linkStateCode
  cases s.router.owed <;> rfl

theorem length_allSettings : allSettings.length = 124 := rfl

theorem getElem?_settingValues (s : State) {k : Nat} (inside : k < 124) :
    (settingValues s)[k]? = allSettings[k]?.map (readSetting s.settings) := by
  rw [settingValues, List.getElem?_append_left (by rw [List.length_map, length_allSettings]; exact inside), List.getElem?_map]

theorem getElem?_settingValues_mode (s : State) (i : Fin 24) : (settingValues s)[124 + i.val]? = some (num (source s i).mode.code) := by
  have at' : allSources[i.val]? = some i := by revert i; decide
  rw [settingValues, List.getElem?_append_right (by rw [List.length_map, length_allSettings]; omega), List.length_map, length_allSettings,
    Nat.add_sub_cancel_left, List.getElem?_map, at']
  rfl

theorem length_settingValues (s : State) : (settingValues s).length = 148 := by
  rw [settingValues, List.length_append, List.length_map, List.length_map, length_allSettings]
  rfl

/-- Settles O43: each command's body as its entry lists it. -/
theorem readingCommandsAnswer : Obligations.ReadingCommandsAnswer := by
  intro s tag ready ok
  have counters : ∀ {g : Word} {st : Status} {body : List Word}, s.run ≠ .init →
      cmdReadCounters g (takenBy .readCounters tag s) = (takenBy .readCounters tag s, st, body) →
      exec (.readCounters tag g) s = .next (answered .readCounters tag s.cmd.frameChecked st body (takenBy .readCounters tag s)) :=
    fun notInit done => congrArg Host.Outcome.next ((commandArrives_runs ready (.inl notInit) (by simp) rfl).trans (finish_taken done rfl))
  refine ⟨?_, ?_, fun notInit => ⟨⟨settingValues s, ?_, length_settingValues s, fun k x at' => ?_, fun i => ?_⟩, counters notInit ?_,
    fun i => counters notInit ?_, fun g outside named => counters notInit ?_, ?_⟩⟩
  · exact congrArg Host.Outcome.next ((commandArrives_runs ready (.inr rfl) (by simp) rfl).trans (finish_taken rfl rfl))
  · refine congrArg Host.Outcome.next ((commandArrives_runs ready (.inr rfl) (by simp) rfl).trans (finish_taken (d := cmdStatus _) ?_ rfl))
    have code : num (boolCode (alert s)) = if alert s then 1 else 0 := by cases alert s <;> rfl
    rw [← code]
    rfl
  · exact congrArg Host.Outcome.next ((commandArrives_runs ready (.inl notInit) (by simp) rfl).trans (finish_taken rfl rfl))
  · have inside : k < 124 := length_allSettings ▸ (List.getElem?_eq_some_iff.1 at').1
    rw [getElem?_settingValues s inside, at']
    rfl
  · rw [getElem?_settingValues_mode, num_mode_code]
  · rw [cmdReadCounters, if_pos rfl, globalValues, linkStateCode_eq]
    rfl
  · have field : (num i.val).toNat = i.val := Nat.mod_eq_of_lt (by omega)
    have other : num i.val ≠ 0xFFFFFFFF#32 := fun h => by
      have same := congrArg BitVec.toNat h
      rw [field] at same
      have := i.isLt
      simp at same
      omega
    have found : (⟨(num i.val).toNat, by rw [field]; exact i.isLt⟩ : Fin 24) = i := Fin.ext field
    rw [cmdReadCounters, if_neg other, dif_pos (by rw [field]; exact i.isLt), found]
    rfl
  · rw [cmdReadCounters, if_neg named, dif_neg (Nat.not_lt.2 outside)]
  · refine congrArg Host.Outcome.next ((commandArrives_runs ready (.inl notInit) (by simp) rfl).trans (finish_taken (d := cmdReadContexts _) ?_ rfl))
    simp only [cmdReadContexts, listField, List.length_map]
    rfl

/-! ## The queues (R145, R146, R160) -/

/-- The fields of the first word of a spy entry (R158). -/
theorem spyWord_fields (remaining : Nat) (given : Bool) (monitor : Nat) :
    let w : Word := 0#19 ++ BitVec.ofNat 5 remaining ++ 0#2 ++ BitVec.ofBool given ++ BitVec.ofBool given ++ 0#2 ++ BitVec.ofNat 2 monitor
    w.extractLsb' 13 19 = 0#19 ∧ w.extractLsb' 8 5 = BitVec.ofNat 5 remaining ∧ w.extractLsb' 6 2 = 0#2
      ∧ w.extractLsb' 5 1 = BitVec.ofBool given ∧ w.extractLsb' 4 1 = BitVec.ofBool given ∧ w.extractLsb' 2 2 = 0#2
      ∧ w.extractLsb' 0 2 = BitVec.ofNat 2 monitor := by
  intro w
  obtain ⟨-, event, zero2, monitorField⟩ := extract_four (0#19 ++ BitVec.ofNat 5 remaining ++ 0#2 ++ BitVec.ofBool given)
    (BitVec.ofBool given) (0#2) (BitVec.ofNat 2 monitor)
  obtain ⟨zero13, remainingField, zero6, point⟩ := extract_four (0#19) (BitVec.ofNat 5 remaining) (0#2) (BitVec.ofBool given)
  have above : ∀ j width, w.extractLsb' (5 + j) width
      = (0#19 ++ BitVec.ofNat 5 remaining ++ 0#2 ++ BitVec.ofBool given).extractLsb' j width := fun j width => by
    rw [extract_high _ _ (j := 3 + j) (by omega), extract_high _ _ (j := 1 + j) (by omega), extract_high _ _ rfl]
  exact ⟨(above 8 19).trans zero13, (above 3 5).trans remainingField, (above 1 2).trans zero6, (above 0 1).trans point, event, zero2, monitorField⟩

/-- A TAKE that leaves words of the head event (R145). -/
theorem takeHead_more {e : ReadoutEvent} (rest : List ReadoutEvent) {s : State} (more : 64 < e.words.length - s.router.takePosition) :
    takeHead e rest s = ({ s with router.takePosition := s.router.takePosition + 64 }, .ok,
      [num e.number, num s.router.takePosition, num ((e.words.drop s.router.takePosition).take 64).length,
        num (e.words.length - s.router.takePosition - 64)] ++ (e.words.drop s.router.takePosition).take 64) := by
  have length : ((e.words.drop s.router.takePosition).take 64).length = 64 := by
    rw [List.length_take, List.length_drop]
    exact Nat.min_eq_left more.le
  have some : e.words.length - (s.router.takePosition + 64) ≠ 0 := by omega
  simp only [takeHead, Config.takeWords, length, some, if_false, Nat.sub_sub]

/-- A TAKE of all that remains of the head event (R145). -/
theorem takeHead_last {e : ReadoutEvent} (rest : List ReadoutEvent) {s : State} (few : e.words.length - s.router.takePosition ≤ 64) :
    takeHead e rest s = ({ s with
        router := { s.router with readout := rest, takePosition := 0, eventsTaken := bump s.router.eventsTaken } }, .ok,
      [num e.number, num s.router.takePosition, num (e.words.drop s.router.takePosition).length, num 0]
        ++ e.words.drop s.router.takePosition) := by
  have whole : (e.words.drop s.router.takePosition).take 64 = e.words.drop s.router.takePosition :=
    List.take_of_length_le (by rw [List.length_drop]; exact few)
  have none : e.words.length - (s.router.takePosition + (e.words.drop s.router.takePosition).length) = 0 := by
    rw [List.length_drop]
    omega
  simp only [takeHead, Config.takeWords, whole, none, if_true]
  rfl

/-- Settles O53: the words of a spy entry, then each command by what its queue holds. -/
theorem queuesAreTakenFromTheHead : Obligations.QueuesAreTakenFromTheHead := by
  constructor
  · intro e remaining few inRange small ws
    obtain ⟨zero13, remainingField, zero6, point, event, zero2, monitor⟩ := spyWord_fields remaining e.event.isSome e.monitor.val
    have given : e.event.isSome = true ↔ e.event ≠ none := by cases e.event <;> simp
    have read : ∀ low width, field ws 0 low width = ((0#19 ++ BitVec.ofNat 5 remaining ++ 0#2 ++ BitVec.ofBool e.event.isSome
        ++ BitVec.ofBool e.event.isSome ++ 0#2 ++ BitVec.ofNat 2 e.monitor.val : Word).extractLsb' low width).toNat := fun _ _ => rfl
    have number : e.event.getD 0 < 4294967296 := by
      cases present : e.event with
      | none => decide
      | some n => exact small n present
    refine ⟨?_, toNat_field monitor (by omega), toNat_field_zero zero2, ?_, ?_, toNat_field_zero zero6, toNat_field remainingField (by omega),
      toNat_field_zero zero13, ?_, ?_⟩
    · have length := length_pulseBlock e.pulse
      simp only [pulseBlockSize, sampleWords] at length
      simp only [ws, spyWords, List.length_cons, length]
      omega
    · rw [read, event, toNat_ofBool_eq_one, given]
    · rw [read, point, toNat_ofBool_eq_one, given]
    · refine (congrArg BitVec.toNat (extract_all (num (e.event.getD 0)))).trans ?_
      exact Nat.mod_eq_of_lt number
    · have whole := pulseOfBlock_pulseBlock inRange []
      rw [List.append_nil] at whole
      exact whole
  · intro s tag ready
    have takes : s.run ≠ .init → exec (.take tag) s = .next (finish (cmdTake (takenBy .take tag s))) := fun notInit =>
      congrArg Host.Outcome.next (commandArrives_runs ready (.inl notInit) (by simp) rfl)
    have discards : s.run ≠ .init → exec (.discard tag) s = .next (finish (cmdDiscard (takenBy .discard tag s))) := fun notInit =>
      congrArg Host.Outcome.next (commandArrives_runs ready (.inl notInit) (by simp) rfl)
    have spyTakes : s.run ≠ .init → exec (.spyTake tag) s = .next (finish (cmdSpyTake (takenBy .spyTake tag s))) := fun notInit =>
      congrArg Host.Outcome.next (commandArrives_runs ready (.inl notInit) (by simp) rfl)
    refine ⟨fun init => ⟨?_, ?_, ?_⟩, fun notInit empty => ⟨?_, ?_⟩, fun notInit empty => ?_, fun notInit e rest head => ?_,
      fun notInit e rest head => ?_⟩
    · exact congrArg Host.Outcome.next (commandArrives_init ready init rfl (by simp))
    · exact congrArg Host.Outcome.next (commandArrives_init ready init rfl (by simp))
    · exact congrArg Host.Outcome.next (commandArrives_init ready init rfl (by simp))
    · rw [takes notInit, finish_taken (t := takenBy .take tag s) (st := .empty) (body := []) ?_ rfl]
      simp only [cmdTake, takenBy_router, empty]
    · rw [discards notInit, finish_taken (t := takenBy .discard tag s) (st := .empty) (body := []) ?_ rfl]
      simp only [cmdDiscard, takenBy_router, empty]
    · rw [spyTakes notInit, finish_taken (t := takenBy .spyTake tag s) (st := .empty) (body := []) ?_ rfl]
      simp only [cmdSpyTake, takenBy_spy, empty]
    · intro u pos left reply
      have head' : cmdTake u = takeHead e rest u := by simp only [cmdTake, u, takenBy_router, head]
      refine ⟨fun more => ?_, fun few => ?_, ?_⟩
      · rw [takes notInit, head']
        exact congrArg Host.Outcome.next (finish_taken (takeHead_more rest more) rfl)
      · rw [takes notInit, head']
        exact congrArg Host.Outcome.next (finish_taken (takeHead_last rest few) rfl)
      · rw [discards notInit]
        refine congrArg Host.Outcome.next (finish_taken ?_ rfl)
        simp only [cmdDiscard, takenBy_router, head]
        rfl
    · rw [spyTakes notInit]
      refine congrArg Host.Outcome.next (finish_taken ?_ rfl)
      simp only [cmdSpyTake, takenBy_spy, head]

end Sys2Proof.Machine
end

section
/-! PROOF. CONFIGURE (R189 to R191): its pairs one after another, and over several steps. -/

namespace Sys2Proof.Machine

open Sys2Proof.Safety

theorem configureSteps_nil (n : Nat) (applied : Nat) (clamps : List (Nat × Nat)) (s : State) :
    configureSteps n ⟨[], applied, clamps⟩ s = endConfigure .ok ⟨[], applied, clamps⟩ s := by
  unfold configureSteps
  rfl

theorem configureSteps_zero {j : ConfigureJob} {p : Word × Word} {rest : List (Word × Word)} (left : j.rest = p :: rest) (s : State) :
    configureSteps 0 j s = { s with cmd.configure := some j } := by
  unfold configureSteps
  simp only [left]

theorem configureSteps_applied {j : ConfigureJob} {p : Word × Word} {rest : List (Word × Word)} {s t : State} {c : Option Nat}
    (left : j.rest = p :: rest) (applies : applyPair p.1 p.2 s = .applied t c) (n : Nat) :
    configureSteps (n + 1) j s = configureSteps n (j.next rest c) t := by
  rw [configureSteps]
  simp only [left, applies]

theorem configureSteps_refused {j : ConfigureJob} {p : Word × Word} {rest : List (Word × Word)} {s : State} {st : Status}
    (left : j.rest = p :: rest) (refuses : applyPair p.1 p.2 s = .refused st) (n : Nat) : configureSteps (n + 1) j s = endConfigure st j s := by
  rw [configureSteps]
  simp only [left, refuses]

/-- Pairs that all apply are done with one by one (R189). -/
theorem configureSteps_applyAll (more : List (Word × Word)) (good : List (Word × Word)) : ∀ (n applied : Nat) (clamps : List (Nat × Nat))
    (s t : State) (j : ConfigureJob), applyAll good ⟨[], applied, clamps⟩ s = some (j, t) → good.length ≤ n →
    configureSteps n ⟨good ++ more, applied, clamps⟩ s = configureSteps (n - good.length) ⟨more, applied + good.length, j.clamps⟩ t
      ∧ t.cmd = s.cmd := by
  induction good with
  | nil =>
    intro n applied clamps s t j all _
    obtain ⟨rfl, rfl⟩ := Prod.mk.inj (Option.some.inj all)
    exact ⟨rfl, rfl⟩
  | cons p good ih =>
    intro n applied clamps s t j all room
    obtain ⟨n, rfl⟩ := Nat.exists_eq_add_of_le' (Nat.one_le_of_lt room)
    rw [applyAll] at all
    obtain ⟨st, refuses⟩ | ⟨x, c, applies⟩ := applyPair_cases p.1 p.2 s
    · rw [refuses] at all
      cases all
    · rw [applies] at all
      obtain ⟨steps, link⟩ := ih n (applied + 1) (clamps ++ (c.map fun v => (applied, v)).toList) _ t j all (Nat.le_of_succ_le_succ room)
      refine ⟨?_, link⟩
      rw [configureSteps_applied (rest := good ++ more) rfl applies, List.length_cons, Nat.add_sub_add_right, Nat.add_comm good.length 1,
        ← Nat.add_assoc]
      exact steps

/-- A refusal is never OK (R189). -/
theorem refused_ne_ok {p v : Word} {s : State} {st : Status} (refuses : applyPair p v s = .refused st) : st ≠ .ok := by
  unfold applyPair at refuses
  split at refuses
  · cases refuses; decide
  · split at refuses
    · cases refuses; decide
    · split at refuses
      · cases refuses
      · cases refuses; decide

/-- The reply at the end of a CONFIGURE whose command is outstanding (R191). -/
theorem endConfigure_answered {s t : State} {tag : Tag} (link : t.cmd = (takenBy .configure tag s).cmd) (idle : s.cmd.configure = none) (st : Status)
    (j : ConfigureJob) : endConfigure st j t = answered .configure tag s.cmd.frameChecked st (configureBody st j) t := by
  have same : { t with cmd.configure := none } = t := by
    have noConfigure : t.cmd.configure = none := by rw [link]; exact idle
    rw [← noConfigure]
  rw [endConfigure, same]
  exact buildReply_eq _ _ _ .configure tag _ (by rw [link]; rfl)

theorem exec_configure {s : State} {tag : Tag} {pairs : List (Word × Word)} (ready : LinkReady s) (notInit : s.run ≠ .init)
    (fits : pairs.length ≤ 127) (upTo : Nat) :
    exec (.configure (.frame tag pairs upTo)) s = .next (configureSteps upTo ⟨pairs, 0, []⟩ (takenBy .configure tag s)) := by
  have length : (pairWords pairs).length ≤ 255 ∧ CommandKind.configure.admits (pairWords pairs).length = true := by
    rw [length_pairWords]
    simp only [CommandKind.admits, Bool.and_eq_true, decide_eq_true_eq]
    omega
  have here : ¬((takenBy .configure tag s).run = .init ∧ CommandKind.configure.servedInInit = false) := fun h => notInit h.1
  refine congrArg Host.Outcome.next ((endDelimiter_ready .configure tag upTo _ s ready length.1).trans ?_)
  rw [dispatch_kind, if_neg here, if_pos length.2]
  show configureSteps upTo ⟨pairsOf (pairWords pairs), 0, []⟩ _ = _
  rw [pairsOf_pairWords]

/-- What stands in the place of a CONFIGURE in progress matters to none of its steps. -/
theorem applyPair_configure (p v : Word) (s : State) (x : Option ConfigureJob) :
    (∀ t c, applyPair p v s = .applied t c → applyPair p v { s with cmd.configure := x } = .applied { t with cmd.configure := x } c)
      ∧ ∀ st, applyPair p v s = .refused st → applyPair p v { s with cmd.configure := x } = .refused st := by
  unfold applyPair
  simp only [installSettings_eq]
  split
  · exact ⟨fun _ _ h => (by cases h), fun _ h => h⟩
  · split
    · exact ⟨fun _ _ h => (by cases h), fun _ h => h⟩
    · split
      · exact ⟨fun _ _ h => (by cases h; rfl), fun _ h => by cases h⟩
      · exact ⟨fun _ _ h => (by cases h), fun _ h => h⟩

theorem configureSteps_configure (x : Option ConfigureJob) (n : Nat) : ∀ (j : ConfigureJob) (s : State),
    configureSteps n j { s with cmd.configure := x } = configureSteps n j s := by
  induction n with
  | zero =>
    intro j s
    cases left : j.rest with
    | nil =>
      unfold configureSteps
      simp only [left]
      rfl
    | cons p rest => rw [configureSteps_zero left, configureSteps_zero left]
  | succ n ih =>
    intro j s
    cases left : j.rest with
    | nil =>
      unfold configureSteps
      simp only [left]
      rfl
    | cons p rest =>
      obtain ⟨applied, refused⟩ := applyPair_configure p.1 p.2 s x
      obtain ⟨st, refuses⟩ | ⟨t, c, applies⟩ := applyPair_cases p.1 p.2 s
      · rw [configureSteps_refused left (refused st refuses), configureSteps_refused left refuses]
        rfl
      · rw [configureSteps_applied left (applied _ c applies), configureSteps_applied left applies, ih]

theorem configure_buildReply (st : Status) (body : List Word) (s : State) : (buildReply st body s).cmd.configure = s.cmd.configure := by
  unfold buildReply
  split
  · rfl
  · rfl

theorem configure_endConfigure (st : Status) (j : ConfigureJob) (s : State) : (endConfigure st j s).cmd.configure = none := configure_buildReply _ _ _

/-- Steps that leave pairs undone, followed by more steps, are as many steps at once. -/
theorem resumeConfigure_add (n : Nat) (m : Nat) : ∀ (j : ConfigureJob) (s : State), (configureSteps m j s).cmd.configure ≠ none →
    resumeConfigure n (configureSteps m j s) = configureSteps (m + n) j s := by
  induction m with
  | zero =>
    intro j s leaves
    cases left : j.rest with
    | nil =>
      unfold configureSteps at leaves
      simp only [left] at leaves
      exact absurd (configure_endConfigure _ _ _) leaves
    | cons p rest =>
      rw [configureSteps_zero left, Nat.zero_add]
      exact configureSteps_configure (some j) n j s
  | succ m ih =>
    intro j s leaves
    cases left : j.rest with
    | nil =>
      unfold configureSteps at leaves
      simp only [left] at leaves
      exact absurd (configure_endConfigure _ _ _) leaves
    | cons p rest =>
      obtain ⟨st, refuses⟩ | ⟨t, c, applies⟩ := applyPair_cases p.1 p.2 s
      · rw [configureSteps_refused left refuses] at leaves
        exact absurd (configure_endConfigure _ _ _) leaves
      · rw [configureSteps_applied left applies] at leaves ⊢
        rw [ih _ _ leaves, Nat.add_right_comm, configureSteps_applied left applies]

/-- Settles O46: the pairs that apply, the one that is refused, and the steps that add up. -/
theorem configureAppliesUntilRefusal : Obligations.ConfigureAppliesUntilRefusal := by
  constructor
  · intro s t tag good j upTo ready notInit all clamps
    obtain ⟨-, -, idle, -⟩ := id ready
    refine ⟨fun fits room => ?_, fun bad more st refuses fits room => ?_⟩
    · obtain ⟨steps, link⟩ := configureSteps_applyAll [] good upTo 0 [] _ t j all room
      rw [List.append_nil] at steps
      rw [exec_configure ready notInit fits, steps, configureSteps_nil, endConfigure_answered link idle, Nat.zero_add]
      refine congrArg (fun body => Host.Outcome.next (answered .configure tag s.cmd.frameChecked .ok body t)) ?_
      simp only [configureBody, listField, List.length_map, if_true, clamps]
      rfl
    · obtain ⟨steps, link⟩ := configureSteps_applyAll (bad :: more) good upTo 0 [] _ t j all room.le
      obtain ⟨k, after⟩ := Nat.exists_eq_add_of_le' (Nat.sub_pos_of_lt room)
      rw [exec_configure ready notInit fits, steps, after, configureSteps_refused rfl refuses, endConfigure_answered link idle, Nat.zero_add]
      refine congrArg (fun body => Host.Outcome.next (answered .configure tag s.cmd.frameChecked st body t)) ?_
      simp only [configureBody, listField, List.length_map, refused_ne_ok refuses, if_false, clamps]
      rfl
  · intro s t tag pairs m n ready notInit fits runs leaves
    rw [exec_configure ready notInit fits] at runs ⊢
    obtain rfl := Host.Outcome.next.inj runs
    exact congrArg Host.Outcome.next (resumeConfigure_add n m _ _ leaves)

end Sys2Proof.Machine
end

section
/-! PROOF. The settings store (R188, R193, R199): where a setting stands, which values it takes, and that what is read back is what was written. -/

namespace Sys2Proof.Machine

open Sys2Proof.Safety

/-! ## Positions -/

/-- The place of a field in a monitor's settings (R151). -/
def MonitorField.place : MonitorField → Nat
  | .enable => 0
  | .point => 1
  | .sources => 2
  | .rows => 3
  | .pads => 4
  | .flags => 5
  | .threshold => 6
  | .action => 7

/-- The position of a setting (R193, R199). -/
def Setting.position : Setting → Nat
  | .ol => 0
  | .timeMode => 1
  | .offset c => 2 + c.val
  | .length c => 10 + c.val
  | .fullPolicy c => 18 + c.val
  | .route c => 26 + c.val
  | .edge l => 34 + l.val
  | .cls l => 38 + l.val
  | .holdOff => 42
  | .coalesce => 43
  | .grace => 44
  | .retentionDepth => 45
  | .silenceLimit => 46
  | .baseline s => 47 + s.val
  | .urgency => 71
  | .contextMargin => 72
  | .poolMargin => 73
  | .monitor m f => 74 + (8 * m.val + f.place)
  | .level k => 106 + k.val
  | .alertFloor => 122
  | .checkMode => 123

/-- The setting at a position stands at that position. -/
theorem setting_at (k : Fin 124) : ∃ x, allSettings[k.val]? = some x ∧ x.position = k.val := by
  have all : ∀ k : Fin 124, (allSettings[k.val]?.map Setting.position) = some k.val := by decide +kernel
  obtain ⟨x, found, place⟩ := Option.map_eq_some_iff.1 (all k)
  exact ⟨x, found, place⟩

theorem settingAt_num {k : Nat} {x : Setting} (small : k < 124) (found : allSettings[k]? = some x) : settingAt (num k) = some x := by
  rw [settingAt, show (num k).toNat = k from Nat.mod_eq_of_lt (by omega), found]

theorem settingAt_outside {w : Word} (outside : 124 ≤ w.toNat) : settingAt w = none :=
  List.getElem?_eq_none (length_allSettings.symm ▸ outside)

/-- The IDLE-only settings by position (R188). -/
theorem idleOnly_iff (x : Setting) : x.idleOnly = true ↔ x.position ≤ 25 ∨ (42 ≤ x.position ∧ x.position ≤ 70) := by
  cases x <;> simp only [Setting.idleOnly, Setting.position] <;> simp <;> omega

/-- The values that a setting takes (R188, R199; R151 for the monitors). -/
def MonitorField.takes (f : MonitorField) (w : Word) : Prop :=
  match f with
  | .enable | .point => w.toNat ≤ 1
  | .sources => w.toNat < 16777216
  | .rows => w.toNat < 65536 ∧ w.toNat % 256 ≤ w.toNat / 256 ∧ w.toNat / 256 ≤ 63
  | .pads => w.toNat < 65536 ∧ w.toNat % 256 ≤ w.toNat / 256 ∧ w.toNat / 256 ≤ 127
  | .flags => w.toNat < 32
  | .threshold => w.toNat ≤ 32736
  | .action => w.toNat ≤ 2

/-- The values that a setting takes (R188, R199). -/
def Setting.takes (x : Setting) (w : Word) : Prop :=
  match x with
  | .ol => 64 ≤ w.toNat ∧ w.toNat ≤ 4096
  | .timeMode | .fullPolicy _ | .checkMode => w.toNat ≤ 1
  | .offset _ => -2048 ≤ w.toInt ∧ w.toInt ≤ 2047
  | .length _ => 1 ≤ w.toNat ∧ w.toNat ≤ 65535
  | .route _ | .edge _ | .level _ | .alertFloor => w.toNat ≤ 3
  | .cls _ => w.toNat ≤ 7
  | .holdOff | .coalesce => w.toNat ≤ 4095
  | .grace | .retentionDepth => w.toNat ≤ 65535
  | .silenceLimit => 256 ≤ w.toNat ∧ w.toNat ≤ 1048575
  | .baseline _ => w.toNat ≤ 255
  | .urgency => 1 ≤ w.toNat ∧ w.toNat ≤ 16
  | .contextMargin => w.toNat ≤ 15
  | .poolMargin => w.toNat ≤ 2048
  | .monitor _ f => f.takes w

theorem settingTakes_level {n : Nat} {w : Word} (from106 : 106 ≤ n) (to122 : n ≤ 122) : settingTakes n w ↔ w.toNat ≤ 3 := by
  simp (disch := omega) only [settingTakes, if_pos, if_neg]

/-- The ranges by position are those by setting. -/
theorem settingTakes_position (x : Setting) (w : Word) : settingTakes x.position w ↔ x.takes w := by
  cases x
  case monitor m f =>
    have place : (74 + (8 * m.val + f.place) - 74) % 8 = f.place := by
      have : f.place < 8 := by cases f <;> decide
      omega
    have : f.place < 8 := by cases f <;> decide
    simp (disch := omega) only [settingTakes, Setting.position, Setting.takes, if_pos, if_neg, place]
    cases f <;> rfl
  case level k =>
    have small := k.isLt
    exact settingTakes_level (n := 106 + k.val) (by omega) (by omega)
  case alertFloor => exact Iff.rfl
  case checkMode => exact Iff.rfl
  all_goals simp (disch := omega) only [settingTakes, Setting.position, Setting.takes, if_pos, if_neg, if_true]

/-! ## Codes of choices -/

theorem timeMode_ofCode {n : Nat} (small : n ≤ 1) : ∃ m, TimeMode.ofCode n = some m ∧ m.code = n := by
  interval_cases n <;> exact ⟨_, rfl, rfl⟩

theorem fullPolicy_ofCode {n : Nat} (small : n ≤ 1) : ∃ m, FullPolicy.ofCode n = some m ∧ m.code = n := by
  interval_cases n <;> exact ⟨_, rfl, rfl⟩

theorem edgeSelect_ofCode {n : Nat} (small : n ≤ 3) : ∃ m, EdgeSelect.ofCode n = some m ∧ m.code = n := by
  interval_cases n <;> exact ⟨_, rfl, rfl⟩

theorem monitorPoint_ofCode {n : Nat} (small : n ≤ 1) : ∃ m, MonitorPoint.ofCode n = some m ∧ m.code = n := by
  interval_cases n <;> exact ⟨_, rfl, rfl⟩

theorem monitorAction_ofCode {n : Nat} (small : n ≤ 2) : ∃ m, MonitorAction.ofCode n = some m ∧ m.code = n := by
  interval_cases n <;> exact ⟨_, rfl, rfl⟩

theorem boolOfCode_small {n : Nat} (small : n ≤ 1) : ∃ b, boolOfCode n = some b ∧ boolCode b = n := by
  interval_cases n <;> exact ⟨_, rfl, rfl⟩

theorem ofCode_large {n : Nat} (large : 2 ≤ n) :
    TimeMode.ofCode n = none ∧ FullPolicy.ofCode n = none ∧ MonitorPoint.ofCode n = none ∧ boolOfCode n = none := by
  obtain ⟨k, rfl⟩ := Nat.exists_eq_add_of_le' large
  exact ⟨rfl, rfl, rfl, rfl⟩

theorem monitorAction_large {n : Nat} (large : 3 ≤ n) : MonitorAction.ofCode n = none := by
  obtain ⟨k, rfl⟩ := Nat.exists_eq_add_of_le' large
  rfl

theorem edgeSelect_large {n : Nat} (large : 4 ≤ n) : EdgeSelect.ofCode n = none := by
  obtain ⟨k, rfl⟩ := Nat.exists_eq_add_of_le' large
  rfl

theorem timeMode_code (m : TimeMode) : TimeMode.ofCode (num m.code).toNat = some m := by cases m <;> rfl

theorem fullPolicy_code (m : FullPolicy) : FullPolicy.ofCode (num m.code).toNat = some m := by cases m <;> rfl

theorem edgeSelect_code (m : EdgeSelect) : EdgeSelect.ofCode (num m.code).toNat = some m := by cases m <;> rfl

theorem monitorPoint_code (m : MonitorPoint) : MonitorPoint.ofCode (num m.code).toNat = some m := by cases m <;> rfl

theorem monitorAction_code (m : MonitorAction) : MonitorAction.ofCode (num m.code).toNat = some m := by cases m <;> rfl

theorem boolCode_code (b : Bool) : boolOfCode (num (boolCode b)).toNat = some b := by cases b <;> rfl

/-! ## Bits of a value word -/

theorem num_toNat (w : Word) : num w.toNat = w := (BitVec.ofNat_toNat 32 w).trans (BitVec.setWidth_eq w)

theorem toNat_num {n : Nat} (small : n < 4294967296) : (num n).toNat = n := Nat.mod_eq_of_lt small

/-- A word whose high bits are 0 is its low bits with zeros above them. -/
theorem zeros_append_extract {m n : Nat} {w : BitVec (m + n)} (small : w.toNat < 2 ^ n) : 0#m ++ w.extractLsb' 0 n = w := by
  apply BitVec.eq_of_toNat_eq
  rw [BitVec.toNat_append, BitVec.extractLsb'_toNat]
  simp [Nat.mod_eq_of_lt small]

theorem octet_fields {w : Word} (small : w.toNat < 65536) :
    (w.extractLsb' 0 8).toNat = w.toNat % 256 ∧ (w.extractLsb' 8 8).toNat = w.toNat / 256 := by
  constructor
  · simp
  · simp only [BitVec.extractLsb'_toNat, Nat.shiftRight_eq_div_pow]
    omega

/-- A word below 65,536 is its two low octets. -/
theorem zeros_append_octets {w : Word} (small : w.toNat < 65536) :
    (0#16 ++ BitVec.ofNat 8 (w.extractLsb' 8 8).toNat ++ BitVec.ofNat 8 (w.extractLsb' 0 8).toNat : Word) = w := by
  obtain ⟨low, high⟩ := octet_fields small
  apply BitVec.eq_of_toNat_eq
  rw [low, high, BitVec.toNat_append, BitVec.toNat_append, ← Nat.shiftLeft_add_eq_or_of_lt (BitVec.isLt _)]
  simp only [BitVec.toNat_ofNat, Nat.zero_mod, Nat.zero_mul, Nat.zero_or, Nat.shiftLeft_eq]
  omega

theorem routeOfWord_read {w : Word} (small : w.toNat ≤ 3) : ∃ r, routeOfWord w = some r ∧
    (0#30 ++ BitVec.ofBool r.poll ++ BitVec.ofBool r.stream : Word) = w := by
  obtain ⟨n, eq⟩ : ∃ n, w = BitVec.ofNat 32 n ∧ n ≤ 3 := ⟨w.toNat, (num_toNat w).symm, small⟩
  obtain ⟨rfl, few⟩ := eq
  interval_cases n <;> exact ⟨_, rfl, rfl⟩

theorem routeOfWord_bits (r : Route) : routeOfWord (0#30 ++ BitVec.ofBool r.poll ++ BitVec.ofBool r.stream) = some r := by
  obtain ⟨stream, poll⟩ := r
  cases stream <;> cases poll <;> rfl

theorem rangeOfWord_ordered {top : Nat} {w : Word} (small : w.toNat < 65536) (ordered : w.toNat % 256 ≤ w.toNat / 256) (below : w.toNat / 256 ≤ top) :
    rangeOfWord top w = some ((w.extractLsb' 0 8).toNat, (w.extractLsb' 8 8).toNat) := by
  obtain ⟨low, high⟩ := octet_fields small
  exact if_pos ⟨small, by rw [low, high]; exact ordered, by rw [high]; exact below⟩

theorem rangeOfWord_none {top : Nat} {w : Word} (h : ¬(w.toNat < 65536 ∧ w.toNat % 256 ≤ w.toNat / 256 ∧ w.toNat / 256 ≤ top)) :
    rangeOfWord top w = none := by
  refine if_neg ?_
  rintro ⟨small, ordered, below⟩
  obtain ⟨low, high⟩ := octet_fields small
  rw [low, high] at ordered
  rw [high] at below
  exact h ⟨small, ordered, below⟩

/-! ## What is written is read back -/

theorem inRange_of {lo hi : Nat} {w : Word} (low : lo ≤ w.toNat) (high : w.toNat ≤ hi) : inRange lo hi w = some w.toNat := if_pos ⟨low, high⟩

/-- What holds of the value written holds after the writing. -/
theorem map_takes {α β : Type} {o : Option α} {f : α → β} {a : α} {p : β → Prop} (parsed : o = some a) (h : p (f a)) : ∃ y, o.map f = some y ∧ p y :=
  ⟨f a, by rw [parsed, Option.map_some], h⟩

/-- A monitor field that takes its value gives it back (R151, R199). -/
theorem writeMonitor_takes {f : MonitorField} {w : Word} (h : f.takes w) (m : MonitorSettings) :
    ∃ x, writeMonitor f w m = some x ∧ readMonitor f x = w := by
  cases f with
  | enable =>
    obtain ⟨b, parsed, code⟩ := boolOfCode_small h
    exact map_takes (p := fun x => readMonitor .enable x = w) parsed ((congrArg num code).trans (num_toNat w))
  | point =>
    obtain ⟨p, parsed, code⟩ := monitorPoint_ofCode h
    exact map_takes (p := fun x => readMonitor .point x = w) parsed ((congrArg num code).trans (num_toNat w))
  | sources => exact ⟨_, if_pos h, zeros_append_extract h⟩
  | rows =>
    obtain ⟨small, ordered, top⟩ := h
    exact map_takes (p := fun x => readMonitor .rows x = w) (rangeOfWord_ordered small ordered top) (zeros_append_octets small)
  | pads =>
    obtain ⟨small, ordered, top⟩ := h
    exact map_takes (p := fun x => readMonitor .pads x = w) (rangeOfWord_ordered small ordered top) (zeros_append_octets small)
  | flags => exact ⟨_, if_pos h, zeros_append_extract h⟩
  | threshold => exact map_takes (p := fun x => readMonitor .threshold x = w) (inRange_of (Nat.zero_le _) h) (num_toNat w)
  | action =>
    obtain ⟨a, parsed, code⟩ := monitorAction_ofCode h
    exact map_takes (p := fun x => readMonitor .action x = w) parsed ((congrArg num code).trans (num_toNat w))

/-- A setting that takes its value gives it back (R193, R199). -/
theorem writeSetting_takes {x : Setting} {w : Word} (h : x.takes w) (t : Settings) : ∃ y, writeSetting x w t = some y ∧ readSetting y x = w := by
  cases x with
  | ol => exact map_takes (p := fun y => readSetting y .ol = w) (inRange_of h.1 h.2) (num_toNat w)
  | urgency => exact map_takes (p := fun y => readSetting y .urgency = w) (inRange_of h.1 h.2) (num_toNat w)
  | length c =>
    exact map_takes (p := fun y => readSetting y (.length c) = w) (inRange_of h.1 h.2) (by simp only [readSetting, get_put_same, num_toNat])
  | holdOff => exact map_takes (p := fun y => readSetting y .holdOff = w) (inRange_of (Nat.zero_le _) h) (num_toNat w)
  | coalesce => exact map_takes (p := fun y => readSetting y .coalesce = w) (inRange_of (Nat.zero_le _) h) (num_toNat w)
  | grace => exact map_takes (p := fun y => readSetting y .grace = w) (inRange_of (Nat.zero_le _) h) (num_toNat w)
  | retentionDepth => exact map_takes (p := fun y => readSetting y .retentionDepth = w) (inRange_of (Nat.zero_le _) h) (num_toNat w)
  | contextMargin => exact map_takes (p := fun y => readSetting y .contextMargin = w) (inRange_of (Nat.zero_le _) h) (num_toNat w)
  | poolMargin => exact map_takes (p := fun y => readSetting y .poolMargin = w) (inRange_of (Nat.zero_le _) h) (num_toNat w)
  | alertFloor => exact map_takes (p := fun y => readSetting y .alertFloor = w) (inRange_of (Nat.zero_le _) h) (num_toNat w)
  | level k =>
    exact map_takes (p := fun y => readSetting y (.level k) = w) (inRange_of (Nat.zero_le _) h) (by simp only [readSetting, get_put_same, num_toNat])
  | cls l =>
    have small : w.toNat < 8 := Nat.lt_succ_of_le h
    exact map_takes (p := fun y => readSetting y (.cls l) = w) (inRange_of (Nat.zero_le _) h)
      (by simp only [readSetting, get_put_same, Fin.ofNat, Nat.mod_eq_of_lt small, num_toNat])
  | timeMode =>
    obtain ⟨m, parsed, code⟩ := timeMode_ofCode h
    exact map_takes (p := fun y => readSetting y .timeMode = w) parsed ((congrArg num code).trans (num_toNat w))
  | checkMode =>
    obtain ⟨b, parsed, code⟩ := boolOfCode_small h
    exact map_takes (p := fun y => readSetting y .checkMode = w) parsed ((congrArg num code).trans (num_toNat w))
  | fullPolicy c =>
    obtain ⟨m, parsed, code⟩ := fullPolicy_ofCode h
    exact map_takes (p := fun y => readSetting y (.fullPolicy c) = w) parsed (by simp only [readSetting, get_put_same, code, num_toNat])
  | edge l =>
    obtain ⟨m, parsed, code⟩ := edgeSelect_ofCode h
    exact map_takes (p := fun y => readSetting y (.edge l) = w) parsed (by simp only [readSetting, get_put_same, code, num_toNat])
  | offset c =>
    exact map_takes (p := fun y => readSetting y (.offset c) = w) (if_pos h) (by simp only [readSetting, get_put_same, BitVec.ofInt_toInt])
  | route c =>
    obtain ⟨r, parsed, bits⟩ := routeOfWord_read h
    exact map_takes (p := fun y => readSetting y (.route c) = w) parsed (by simp only [readSetting, get_put_same, bits])
  | silenceLimit =>
    have same : clamp 256 1048575 w.toNat = w.toNat := by rw [clamp, if_neg (Nat.not_lt.2 h.1), if_neg (Nat.not_lt.2 h.2)]
    exact ⟨_, rfl, by simp only [readSetting, same, num_toNat]⟩
  | baseline s =>
    have same : clamp 0 255 w.toNat = w.toNat := by rw [clamp, if_neg (Nat.not_lt_zero _), if_neg (Nat.not_lt.2 h)]
    exact ⟨_, rfl, by simp only [readSetting, get_put_same, same, num_toNat]⟩
  | monitor m f =>
    obtain ⟨y, written, read⟩ := writeMonitor_takes h (t.monitor.get m)
    exact map_takes (p := fun y => readSetting y (.monitor m f) = w) written (by simp only [readSetting, get_put_same, read])

/-- A value that a setting takes reports no clamp (R190, R191). -/
theorem settingClamp_takes {x : Setting} {w : Word} (h : x.takes w) : settingClamp x w = none := by
  cases x
  case silenceLimit => exact if_pos h
  case baseline s => exact if_pos ⟨Nat.zero_le _, h⟩
  all_goals rfl

/-- The settings that take the nearer end of their range (R190). -/
def Setting.clamps : Setting → Bool
  | .silenceLimit | .baseline _ => true
  | _ => false

theorem clamps_iff (x : Setting) : x.clamps = true ↔ 46 ≤ x.position ∧ x.position ≤ 70 := by
  cases x <;> simp [Setting.clamps, Setting.position] <;> omega

theorem inRange_none {lo hi : Nat} {w : Word} (h : ¬(lo ≤ w.toNat ∧ w.toNat ≤ hi)) : inRange lo hi w = none := if_neg h

theorem writeMonitor_refuses {f : MonitorField} {w : Word} (h : ¬f.takes w) (m : MonitorSettings) : writeMonitor f w m = none := by
  cases f with
  | enable =>
    obtain ⟨-, -, -, none⟩ := ofCode_large (Nat.not_le.1 h)
    rw [writeMonitor, none]; rfl
  | point =>
    obtain ⟨-, -, none, -⟩ := ofCode_large (Nat.not_le.1 h)
    rw [writeMonitor, none]; rfl
  | sources => exact if_neg h
  | rows => rw [writeMonitor, rangeOfWord_none h]; rfl
  | pads => rw [writeMonitor, rangeOfWord_none h]; rfl
  | flags => exact if_neg h
  | threshold => rw [writeMonitor, inRange_none fun k => h k.2]; rfl
  | action => rw [writeMonitor, monitorAction_large (Nat.not_le.1 h)]; rfl

/-- A value outside a setting's range is refused (R190). -/
theorem writeSetting_refuses {x : Setting} {w : Word} (h : ¬x.takes w) (plain : x.clamps = false) (t : Settings) : writeSetting x w t = none := by
  cases x with
  | ol | length c | urgency => rw [writeSetting, inRange_none h]; rfl
  | holdOff | coalesce | grace | retentionDepth | contextMargin | poolMargin | level k | alertFloor | cls l =>
    rw [writeSetting, inRange_none fun k => h k.2]; rfl
  | timeMode =>
    obtain ⟨none, -⟩ := ofCode_large (Nat.not_le.1 h)
    rw [writeSetting, none]; rfl
  | fullPolicy c =>
    obtain ⟨-, none, -⟩ := ofCode_large (Nat.not_le.1 h)
    rw [writeSetting, none]; rfl
  | edge l => rw [writeSetting, edgeSelect_large (Nat.not_le.1 h)]; rfl
  | checkMode =>
    obtain ⟨-, -, -, none⟩ := ofCode_large (Nat.not_le.1 h)
    rw [writeSetting, none]; rfl
  | offset c => rw [writeSetting, signedInRange, if_neg (show ¬(_ ∧ _) from h)]; rfl
  | route c => rw [writeSetting, routeOfWord, if_neg fun k => h (Nat.le_of_lt_succ k)]; rfl
  | silenceLimit => cases plain
  | baseline s => cases plain
  | monitor m f => rw [writeSetting, writeMonitor_refuses h]; rfl

/-- Writing one field of a monitor leaves what is read of the others. -/
theorem readMonitor_writeMonitor {f g : MonitorField} {w : Word} {m x : MonitorSettings} (written : writeMonitor f w m = some x) (other : g ≠ f) :
    readMonitor g x = readMonitor g m := by
  cases f
  case sources | flags =>
    obtain ⟨-, same⟩ := Option.ite_none_right_eq_some.1 written
    obtain rfl := Option.some.inj same
    cases g <;> simp_all [readMonitor]
  all_goals
    obtain ⟨_, -, rfl⟩ := Option.map_eq_some_iff.1 written
    cases g <;> simp_all [readMonitor]

/-- Writing one setting leaves what is read of the others (R189). -/
theorem readSetting_writeSetting {x y : Setting} {w : Word} {t u : Settings} (written : writeSetting x w t = some u) (other : y ≠ x) :
    readSetting u y = readSetting t y := by
  cases x
  case silenceLimit | baseline =>
    obtain rfl := Option.some.inj written
    cases y <;> simp_all [readSetting]
  case monitor m f =>
    obtain ⟨k, field, rfl⟩ := Option.map_eq_some_iff.1 written
    cases y
    case monitor m' f' =>
      by_cases same : m' = m
      · subst same
        have otherField : f' ≠ f := fun h => other (by rw [h])
        simp only [readSetting, get_put_same, readMonitor_writeMonitor field otherField]
      · simp only [readSetting, get_put_ne _ _ same]
    all_goals rfl
  all_goals
    obtain ⟨_, -, rfl⟩ := Option.map_eq_some_iff.1 written
    cases y <;> simp_all [readSetting]

/-! ## What is read is taken back (R193) -/

theorem inRange_num {lo hi n : Nat} (low : lo ≤ n) (high : n ≤ hi) (word : hi < 4294967296) : inRange lo hi (num n) = some n := by
  have same : (num n).toNat = n := toNat_num (by omega)
  rw [inRange, same, if_pos ⟨low, high⟩]

theorem signedInRange_ofInt {n : Int} (low : -2048 ≤ n) (high : n ≤ 2047) : signedInRange (BitVec.ofInt 32 n) = some n := by
  have same : (BitVec.ofInt 32 n).toInt = n := by
    rw [BitVec.toInt_ofInt]
    exact Int.bmod_eq_of_le (by omega) (by omega)
  rw [signedInRange, same, if_pos ⟨low, high⟩]

theorem toNat_octets (hi lo : Nat) : (0#16 ++ BitVec.ofNat 8 hi ++ BitVec.ofNat 8 lo : Word).toNat < 65536 := by
  rw [BitVec.toNat_append, BitVec.toNat_append, ← Nat.shiftLeft_add_eq_or_of_lt (BitVec.isLt _)]
  simp only [BitVec.toNat_ofNat, Nat.zero_mod, Nat.zero_mul, Nat.zero_or, Nat.shiftLeft_eq]
  omega

theorem rangeOfWord_octets {top hi lo : Nat} (ordered : lo ≤ hi) (below : hi ≤ top) (octet : top < 256) :
    rangeOfWord top (0#16 ++ BitVec.ofNat 8 hi ++ BitVec.ofNat 8 lo) = some (lo, hi) := by
  obtain ⟨-, high, low⟩ := extract_three (0#16) (BitVec.ofNat 8 hi) (BitVec.ofNat 8 lo)
  have highField := toNat_field (w := 0#16 ++ BitVec.ofNat 8 hi ++ BitVec.ofNat 8 lo) high (by omega)
  have lowField := toNat_field (w := 0#16 ++ BitVec.ofNat 8 hi ++ BitVec.ofNat 8 lo) low (by omega)
  simp only [rangeOfWord, highField, lowField]
  exact if_pos ⟨toNat_octets hi lo, ordered, below⟩

theorem toNat_zeros_append {m n : Nat} (x : BitVec n) : (0#m ++ x).toNat < 2 ^ n := by
  rw [BitVec.toNat_append]
  simpa using x.isLt

/-- A value parsed to what stood there before. -/
theorem map_back {α β : Type} {o : Option α} {f : α → β} {a : α} {b : β} (parsed : o = some a) (same : f a = b) : o.map f = some b := by
  rw [parsed, Option.map_some, same]

theorem writeMonitor_back {m : MonitorSettings} (rows : m.rowLo ≤ m.rowHi ∧ m.rowHi ≤ 63) (pads : m.padLo ≤ m.padHi ∧ m.padHi ≤ 127)
    (threshold : m.threshold ≤ 32736) (f : MonitorField) : writeMonitor f (readMonitor f m) m = some m := by
  cases f with
  | enable => exact map_back (boolCode_code m.enable) rfl
  | point => exact map_back (monitorPoint_code m.point) rfl
  | sources =>
    refine (if_pos (toNat_zeros_append m.sources)).trans ?_
    rw [show (readMonitor .sources m).extractLsb' 0 24 = m.sources from extract_low (0#8) m.sources]
  | rows => exact map_back (rangeOfWord_octets rows.1 rows.2 (by decide)) rfl
  | pads => exact map_back (rangeOfWord_octets pads.1 pads.2 (by decide)) rfl
  | flags =>
    refine (if_pos (toNat_zeros_append m.flags)).trans ?_
    rw [show (readMonitor .flags m).extractLsb' 0 5 = m.flags from extract_low (0#27) m.flags]
  | threshold => exact map_back (inRange_num (Nat.zero_le _) threshold (by decide)) rfl
  | action => exact map_back (monitorAction_code m.action) rfl

/-- What READ_SETTINGS gives for a setting, written back, changes nothing (R193). -/
theorem writeSetting_back {s : State} (h : SettingsInRange s) (x : Setting) :
    writeSetting x (readSetting s.settings x) s.settings = some s.settings ∧ settingClamp x (readSetting s.settings x) = none := by
  obtain ⟨ol, offset, length, holdOff, coalesce, grace, depth, silence, baseline, urgency, contextMargin, poolMargin, monitor, level, floor⟩ := h
  cases x with
  | ol => exact ⟨map_back (inRange_num ol.1 ol.2 (by decide)) rfl, rfl⟩
  | timeMode => exact ⟨map_back (timeMode_code s.settings.timeMode) rfl, rfl⟩
  | offset c =>
    obtain ⟨low, high⟩ := offset c
    exact ⟨map_back (signedInRange_ofInt low high) (by rw [put_get]), rfl⟩
  | length c =>
    obtain ⟨low, high⟩ := length c
    exact ⟨map_back (inRange_num low high (by decide)) (by rw [put_get]), rfl⟩
  | fullPolicy c => exact ⟨map_back (fullPolicy_code (s.settings.fullPolicy.get c)) (by rw [put_get]), rfl⟩
  | route c => exact ⟨map_back (routeOfWord_bits (s.settings.route.get c)) (by rw [put_get]), rfl⟩
  | edge l => exact ⟨map_back (edgeSelect_code (s.settings.edge.get l)) (by rw [put_get]), rfl⟩
  | cls l =>
    refine ⟨map_back (inRange_num (Nat.zero_le _) (Nat.le_of_lt_succ (s.settings.cls.get l).isLt) (by decide)) ?_, rfl⟩
    rw [show Fin.ofNat 8 (s.settings.cls.get l).val = s.settings.cls.get l from Fin.ext (Nat.mod_eq_of_lt (s.settings.cls.get l).isLt), put_get]
  | holdOff => exact ⟨map_back (inRange_num (Nat.zero_le _) holdOff (by decide)) rfl, rfl⟩
  | coalesce => exact ⟨map_back (inRange_num (Nat.zero_le _) coalesce (by decide)) rfl, rfl⟩
  | grace => exact ⟨map_back (inRange_num (Nat.zero_le _) grace (by decide)) rfl, rfl⟩
  | retentionDepth => exact ⟨map_back (inRange_num (Nat.zero_le _) depth (by decide)) rfl, rfl⟩
  | silenceLimit =>
    obtain ⟨low, high⟩ := silence
    have same : (num s.settings.silenceLimit).toNat = s.settings.silenceLimit := toNat_num (by omega)
    have kept : clamp 256 1048575 (num s.settings.silenceLimit).toNat = s.settings.silenceLimit := by
      rw [same, clamp, if_neg (Nat.not_lt.2 low), if_neg (Nat.not_lt.2 high)]
    exact ⟨by simp only [writeSetting, readSetting, kept], if_pos ⟨same.symm ▸ low, same.symm ▸ high⟩⟩
  | baseline i =>
    have high := baseline i
    have same : (num (s.settings.baseline.get i)).toNat = s.settings.baseline.get i := toNat_num (by omega)
    have kept : clamp 0 255 (num (s.settings.baseline.get i)).toNat = s.settings.baseline.get i := by
      rw [same, clamp, if_neg (Nat.not_lt_zero _), if_neg (Nat.not_lt.2 high)]
    exact ⟨by simp only [writeSetting, readSetting, kept, put_get], if_pos ⟨Nat.zero_le _, same.symm ▸ high⟩⟩
  | urgency => exact ⟨map_back (inRange_num urgency.1 urgency.2 (by decide)) rfl, rfl⟩
  | contextMargin => exact ⟨map_back (inRange_num (Nat.zero_le _) contextMargin (by decide)) rfl, rfl⟩
  | poolMargin => exact ⟨map_back (inRange_num (Nat.zero_le _) poolMargin (by decide)) rfl, rfl⟩
  | monitor m f =>
    obtain ⟨rowsOrdered, rows, padsOrdered, pads, threshold⟩ := monitor m
    exact ⟨map_back (writeMonitor_back ⟨rowsOrdered, rows⟩ ⟨padsOrdered, pads⟩ threshold f) (by rw [put_get]), rfl⟩
  | level k => exact ⟨map_back (inRange_num (Nat.zero_le _) (level k) (by decide)) (by rw [put_get]), rfl⟩
  | alertFloor => exact ⟨map_back (inRange_num (Nat.zero_le _) floor (by decide)) rfl, rfl⟩
  | checkMode => exact ⟨map_back (boolCode_code s.settings.checkMode) rfl, rfl⟩

/-! ## One pair -/

/-- A pair whose setting may be written and whose value is taken (R189). -/
theorem applyPair_written {p v : Word} {s : State} {x : Setting} {t : Settings} (names : settingAt p = some x)
    (may : ¬(x.idleOnly = true ∧ (s.run = .running ∨ s.run = .draining))) (written : writeSetting x v s.settings = some t) :
    applyPair p v s = .applied { s with
      settings := t
      time.now := if t.ol = s.settings.ol then s.time.now else ⟨s.time.now.orbit, 0⟩ } (settingClamp x v) := by
  simp only [applyPair, names, if_neg may, written, installSettings_eq]

theorem applyPair_badValue {p v : Word} {s : State} {x : Setting} (names : settingAt p = some x)
    (may : ¬(x.idleOnly = true ∧ (s.run = .running ∨ s.run = .draining))) (refused : writeSetting x v s.settings = none) :
    applyPair p v s = .refused .badValue := by
  simp only [applyPair, names, if_neg may, refused]

theorem applyPair_wrongState {p v : Word} {s : State} {x : Setting} (names : settingAt p = some x)
    (idleOnly : x.idleOnly = true) (run : s.run = .running ∨ s.run = .draining) : applyPair p v s = .refused .wrongState := by
  simp only [applyPair, names, if_pos (And.intro idleOnly run)]

/-- Two states of equal modes whose settings are read alike at a position have the same value there (R193). -/
theorem settingValues_congr {s t : State} (sources : t.sources = s.sources) {j : Nat}
    (alike : ∀ y, allSettings[j]? = some y → readSetting t.settings y = readSetting s.settings y) : (settingValues t)[j]? = (settingValues s)[j]? := by
  by_cases inside : j < 124
  · rw [getElem?_settingValues t inside, getElem?_settingValues s inside]
    cases found : allSettings[j]? with
    | none => rfl
    | some y => exact congrArg some (alike y found)
  · have modes : ∀ u : State, (settingValues u)[j]? = (allSources.map fun i => num (source u i).mode.code)[j - 124]? := fun u => by
      rw [settingValues, List.getElem?_append_right (by rw [List.length_map, length_allSettings]; omega), List.length_map, length_allSettings]
    rw [modes, modes]
    simp only [source, sources]

/-- The setting of a position, and what stands at every other. -/
theorem setting_at_ne {k : Fin 124} {x y : Setting} {j : Nat} (place : x.position = k.val) (other : j ≠ k.val) (found : allSettings[j]? = some y) :
    y ≠ x := by
  have inside : j < 124 := length_allSettings ▸ (List.getElem?_eq_some_iff.1 found).1
  obtain ⟨y', found', place'⟩ := setting_at ⟨j, inside⟩
  obtain rfl := Option.some.inj (found.symm.trans found')
  rintro rfl
  exact other (place'.symm.trans place)

/-- A pair that is taken: what it changes and what is read afterwards (R189, R193). -/
theorem applyPair_takes {s : State} {k : Fin 124} {x : Setting} {value : Word} {t : Settings} (found : allSettings[k.val]? = some x)
    (place : x.position = k.val) (may : ¬(x.idleOnly = true ∧ (s.run = .running ∨ s.run = .draining)))
    (written : writeSetting x value s.settings = some t) : ∃ u, applyPair (num k.val) value s = .applied u (settingClamp x value)
      ∧ u = { s with
          settings := u.settings
          time.now := if u.settings.ol = s.settings.ol then s.time.now else ⟨s.time.now.orbit, 0⟩ }
      ∧ (settingValues u)[k.val]? = some (readSetting t x)
      ∧ ∀ j, j ≠ k.val → (settingValues u)[j]? = (settingValues s)[j]? := by
  refine ⟨_, applyPair_written (settingAt_num k.isLt found) may written, rfl, ?_, fun j other => ?_⟩
  · rw [getElem?_settingValues _ k.isLt, found]
    rfl
  · refine settingValues_congr (s := s) (t := { s with settings := t, time.now := _ }) rfl fun y at' => ?_
    exact readSetting_writeSetting written (setting_at_ne place other at')

theorem not_inRun_idle {s : State} (idle : s.run = .idle) : ¬(s.run = .running ∨ s.run = .draining) := by
  rw [idle]
  decide

/-- A value outside a clamped setting's range is reported as the nearer end (R190, R191). -/
theorem clamp_outside {lo hi : Nat} {w : Word} (outside : ¬(lo ≤ w.toNat ∧ w.toNat ≤ hi)) :
    clamp lo hi w.toNat = (if w.toNat < lo then lo else hi) ∧ clampNote lo hi w = some (if w.toNat < lo then lo else hi) := by
  have nearer : clamp lo hi w.toNat = if w.toNat < lo then lo else hi := by
    rw [clamp]
    split
    · rfl
    · rw [if_pos (by omega)]
  exact ⟨nearer, by rw [clampNote, if_neg outside, nearer]⟩

theorem clampNote_eq (lo hi : Nat) (w : Word) :
    clampNote lo hi w = if w.toNat < lo then some lo else if hi < w.toNat then some hi else none := by
  by_cases low : w.toNat < lo
  · rw [if_pos low, clampNote, if_neg (by omega), clamp, if_pos low]
  by_cases high : hi < w.toNat
  · rw [if_neg low, if_pos high, clampNote, if_neg (by omega), clamp, if_neg low, if_pos high]
  · rw [if_neg low, if_neg high, clampNote, if_pos ⟨by omega, by omega⟩]

/-- The baselines stand at the positions 47 to 70 (R199). -/
theorem baseline_of_position {x : Setting} (from47 : 47 ≤ x.position) (to70 : x.position ≤ 70) : ∃ i, x = .baseline i := by
  have clamps := (clamps_iff x).2 ⟨by omega, to70⟩
  cases x
  case baseline i => exact ⟨i, rfl⟩
  case silenceLimit => exact absurd from47 (by decide)
  all_goals cases clamps

/-- Settles O47, clause by clause. -/
theorem settingsPairsAndReadBack : Obligations.SettingsPairsAndReadBack := by
  refine ⟨fun s position value outside => ?_, ?_, fun s n idle low high => ?_, fun s n idle word => ?_, fun s k inRange idle => ?_⟩
  · rw [applyPair, settingAt_outside outside]
  · intro s k value idleOnly inRun takes clamped
    obtain ⟨x, found, place⟩ := setting_at k
    have names := settingAt_num k.isLt found
    have only : x.idleOnly = true ↔ idleOnly := by rw [idleOnly_iff, place]
    have range : settingTakes k.val value ↔ x.takes value := by rw [← place, settingTakes_position]
    refine ⟨fun isOnly run => applyPair_wrongState names (only.2 isOnly) run, fun may inside => ?_, fun may outside plain => ?_,
      fun resting at46 outside => ?_, fun resting from47 to70 outside => ?_⟩
    · obtain ⟨t, written, read⟩ := writeSetting_takes (range.1 inside) s.settings
      obtain ⟨u, applies, whole, own, others⟩ := applyPair_takes found place (fun h => may ⟨only.1 h.1, h.2⟩) written
      rw [settingClamp_takes (range.1 inside)] at applies
      exact ⟨u, applies, whole, by rw [own, read], others⟩
    · have notClamped : x.clamps = false := Bool.eq_false_iff.2 fun h => by
        have := (clamps_iff x).1 h
        omega
      exact applyPair_badValue names (fun h => may ⟨only.1 h.1, h.2⟩) (writeSetting_refuses (fun h => outside (range.2 h)) notClamped _)
    · obtain rfl : x = .silenceLimit := Option.some.inj ((at46 ▸ found.symm).trans rfl)
      obtain ⟨nearer, note⟩ := clamp_outside fun h => outside (range.2 h)
      obtain ⟨u, applies, whole, own, others⟩ := applyPair_takes found place (fun h => resting h.2) rfl
      exact ⟨u, by rw [applies]; exact congrArg _ note, whole, by rw [own]; exact congrArg (fun n => some (num n)) nearer, others⟩
    · obtain ⟨i, rfl⟩ := baseline_of_position (place.symm ▸ from47) (place.symm ▸ to70)
      obtain ⟨nearer, note⟩ := clamp_outside (lo := 0) fun h => outside (range.2 h.2)
      obtain ⟨u, applies, whole, own, others⟩ := applyPair_takes found place (fun h => resting h.2) rfl
      refine ⟨u, by rw [applies]; exact congrArg _ note, whole, ?_, others⟩
      rw [own]
      simp only [readSetting, get_put_same, nearer, Nat.not_lt_zero, if_false]
  · exact applyPair_written (p := 0) (x := .ol) rfl (fun h => not_inRun_idle idle h.2) (map_back (inRange_num low high (by decide)) rfl)
  · have same : (num n).toNat = n := toNat_num (by omega)
    have applies := applyPair_written (p := 46) (v := num n) (x := .silenceLimit) rfl (fun h => not_inRun_idle idle h.2) rfl
    rw [applies, if_pos rfl]
    have note := clampNote_eq 256 1048575 (num n)
    rw [same] at note
    exact congrArg₂ _ (by rw [same]; rfl) note
  · obtain ⟨x, found, place⟩ := setting_at k
    obtain ⟨written, note⟩ := writeSetting_back inRange x
    have value : (settingValues s).getD k.val 0 = readSetting s.settings x := by
      rw [List.getD_eq_getElem?_getD, getElem?_settingValues s k.isLt, found]
      rfl
    rw [value, applyPair_written (settingAt_num k.isLt found) (fun h => not_inRun_idle idle h.2) written, note, if_pos rfl]

end Sys2Proof.Machine
end
